-- ==== Sys2Proof/Word.lean ====
section
/-! DEFINITION. The machine word (00_scope R8, R9): sixteen bits, the unit of memory and of every register; a
double-length quantity is 32 bits. -/

namespace Sys2Proof

/-- A 16-bit data word, also a word address (R6). -/
abbrev Word := BitVec 16

/-- A 32-bit double-length quantity, most significant half first (R9). -/
abbrev DWord := BitVec 32

/-- One byte, the cell of the model's memory list (log 1). -/
abbrev Byte := BitVec 8

/-- A CRU line address, 12 bits (20_memory R61). -/
abbrev Line := BitVec 12

/-- Three-bit register number (10_state R20). -/
abbrev RegNum := BitVec 3

end Sys2Proof
end

