-- ==== Sys2Proof/Config.lean ====
section
/-! DEFINITION. What an installation fixes (00_scope R7), the open parameters of 92_eei_decisions, and the free
values: constants with no body, of which nothing can be proved. -/

namespace Sys2Proof

/-- `MODEL` (00_scope R7). -/
inductive ModelKind where
  | m960A
  | m960B
deriving DecidableEq, Repr

/-- `MEMORY_KIND` (00_scope R7); it decides instruction times only (70_reset R399). -/
inductive MemoryKind where
  | semiconductor
  | core
deriving DecidableEq, Repr

/-- `BRRL_R_POS` (30_encoding R123): where BRRL keeps its r field. -/
inductive BrrlPos where
  /-- Bits 13-15 of the first word (the default). -/
  | bits13to15
  /-- Bits 16-18, the mb position. -/
  | bits16to18
deriving DecidableEq, Repr

/-- The two encoding parameters whose figures are lost (30_encoding R123, R127). -/
structure Layout where
  /-- `BRRL_R_POS`. -/
  brrlR : BrrlPos := .bits13to15
  /-- `TSBX_OB_POS`: the output bit of TSBX is bit 16 + tsbxOb of the instruction (16, 17, 18 or 19). -/
  tsbxOb : Fin 4 := 3
deriving DecidableEq, Repr

/-- `ADAC_FIELDS` (43_format R241), when the split of bits 6-15 of ADAC is known: which of the ten bits are the a field
(the device or controller address) and which the q field, as masks; a bit of neither is unused. -/
structure AdacFields where
  a : BitVec 10
  q : BitVec 10
deriving DecidableEq, Repr

/-- The parameters of a machine, fixed for a run (00_scope R7, 92_eei_decisions). The defaults are the spec's where
it gives one and a DESIGN CHOICE otherwise (log 6). -/
structure Config where
  /-- `MODEL`. -/
  model : ModelKind := .m960B
  /-- `MEM_WORDS`: installed memory, from address 0. -/
  memWords : Nat := 65536
  /-- `PROTECT_LIMIT` is 2^(7 + protectSteps) - 1: 7F, FF, 1FF, ..., FFFF (20_memory R70). -/
  protectSteps : Fin 10 := 0
  /-- `HAS_ARITH_OPTION` (30_encoding R133). -/
  hasArithOption : Bool := true
  /-- `HAS_ROM_LOADER` (70_reset R388). -/
  hasRomLoader : Bool := true
  /-- `HAS_BATTERY` (20_memory R75). -/
  hasBattery : Bool := false
  /-- `MEMORY_KIND`. -/
  memoryKind : MemoryKind := .semiconductor
  /-- `DMAC_OBEYS_PROTECT` (20_memory R73). -/
  dmacObeysProtect : Bool := false
  /-- `BRRL_LINK_UPDATED` (44_format_II R254). -/
  brrlLinkUpdated : Bool := true
  /-- `POWER_RESTORE_AUTORUN` (70_reset R383). -/
  powerRestoreAutorun : Bool := false
  /-- `SX_STORES_TARGET_COUNTER` (42_format_IC R235). -/
  sxStoresTargetCounter : Bool := false
  /-- `SETF_WRITES_CB` (45_format_III R265). -/
  setfWritesCB : Bool := false
  /-- `BRRL_R_POS` and `TSBX_OB_POS`. -/
  layout : Layout := {}
  /-- `ADAC_FIELDS`; none is the default, one opaque ten-bit value (43_format R241). -/
  adacFields : Option AdacFields := none
  /-- The jumper that bypasses the CLOCK switch has been taken out; "normal shipments are made with the switch
  disabled" (60_exceptions R372; log 32). -/
  clockEnabled : Bool := false
deriving DecidableEq, Repr

/-- The memory sizes 00_scope R7 allows: 4096 to 65,536 words in increments of 4096 (960A), 8192 to 65,536 in
increments of 8192 (960B); and no bit of ADAC in two fields. -/
abbrev Config.WellFormed (c : Config) : Prop :=
  c.memWords ≤ 65536 ∧ (c.model = .m960A → 4096 ≤ c.memWords ∧ c.memWords % 4096 = 0)
    ∧ (c.model = .m960B → 8192 ≤ c.memWords ∧ c.memWords % 8192 = 0)
    ∧ (c.adacFields.all fun f => f.a &&& f.q == 0) = true

/-- `PROTECT_LIMIT`, the highest protected address (20_memory R70). -/
def Config.protectLimit (c : Config) : Nat := 2 ^ (7 + c.protectSteps.val) - 1

/-- The a and q fields of a command, each in its place among the ten bits, where `ADAC_FIELDS` gives them. -/
def Config.adacParts (c : Config) (aq : BitVec 10) : Option (BitVec 10 × BitVec 10) :=
  c.adacFields.map fun f => (aq &&& f.a, aq &&& f.q)

/-- The three outcomes of a comparison (10_state R40). -/
inductive Comparison where
  | greater
  | equal
  | less
deriving DecidableEq, Repr, Inhabited

/-- FREE VALUE (log 9): a word the spec leaves unspecified ("unspecified values", 40_format_IA R159). -/
opaque Config.freeWord : Nat → Word

/-- FREE VALUE (log 9): which one of the three comparison bits is set where the spec leaves CB unspecified but
one-hot (93_implementation_defined item 11). -/
opaque Config.freeComparison : Nat → Comparison

/-- FREE VALUE (log 16): the word the DMAC stores at 0x96 for the eight bits of its interrupt Status Register,
controller 0 first; the bit assignment is not in the source (60_exceptions R365). -/
opaque Config.dmacStatusWord : List Bool → Word

/-- FREE VALUE (log 22): word i of the 256-word ROM, whose content is not in the source (70_reset R388). -/
opaque Config.romWord : Nat → Word

end Sys2Proof
end

