-- ==== Sys2Proof/Syntax.lean ====
section
/-! DEFINITION. The instruction syntax: one constructor per row of spec/opcode_table.json, in the table's order. An
operand carries the fields the hardware reads; a field the hardware ignores (30_encoding R132, and xr when x = 0,
R109) is not part of the syntax. -/

namespace Sys2Proof

/-- A register operand of format I-A: register `num` of the active mode, or of the inactive mode when `alt` (the `#`
bit) is set (30_encoding R104, R114). -/
structure RegRef where
  alt : Bool
  num : RegNum
deriving DecidableEq, Repr

/-- An address operand of formats I-A, I-B, I-C and I-F: the 16-bit field n, the `*` bit, and the index register when
the x bit is set (30_encoding R103, R108 to R111). -/
structure Address where
  ind : Bool
  index : Option RegNum
  n : Word
deriving DecidableEq, Repr

/-- A group II operand: an unsigned 10-bit displacement and a base register (30_encoding R121). -/
structure BaseDisp where
  disp : BitVec 10
  base : RegNum
deriving DecidableEq, Repr

/-- The 78 machine instructions (00_scope R14). `count` is a shift count in places and `width` a CRU field width in
lines: 1 to 16, the code 0 standing for 16 (41_format_IB R202 to R208, 45_format_III R272). -/
inductive Instr where
  /-- A: Add to Register (R151). -/
  | a (g : RegRef) (o : Address)
  /-- AA: Add Effective Address to Register (R152). -/
  | aa (g : RegRef) (o : Address)
  /-- BL: Branch and Link (R153). -/
  | bl (g : RegRef) (o : Address)
  /-- *BL: Branch and Link Indirect (R154). -/
  | blInd (g : RegRef) (o : Address)
  /-- CR: Compare Register With Memory, arithmetic (R155). -/
  | cr (g : RegRef) (o : Address)
  /-- CRA: Compare Register With Effective Address, arithmetic (R156). -/
  | cra (g : RegRef) (o : Address)
  /-- CRL: Compare Register With Memory, logical (R157). -/
  | crl (g : RegRef) (o : Address)
  /-- CRLA: Compare Register With Effective Address, logical (R158). -/
  | crla (g : RegRef) (o : Address)
  /-- D: Divide (R159). -/
  | d (g : RegRef) (o : Address)
  /-- DA: Divide By Effective Address (R160). -/
  | da (g : RegRef) (o : Address)
  /-- DAD: Double Add (R161). -/
  | dad (g : RegRef) (o : Address)
  /-- DLAX: Shift Memory Double Left Arithmetic, Count in Register R (R162). -/
  | dlax (g : RegRef) (o : Address)
  /-- DRAX: Shift Memory Double Right Arithmetic, Count In Register R (R163). -/
  | drax (g : RegRef) (o : Address)
  /-- DRLX: Shift Memory Double Right Logical, Count In Register R (R164). -/
  | drlx (g : RegRef) (o : Address)
  /-- DRRX: Double Right Rotate, Count In Register R (R165). -/
  | drrx (g : RegRef) (o : Address)
  /-- DS: Double Subtract (R166). -/
  | ds (g : RegRef) (o : Address)
  /-- L: Load Register (R167). -/
  | l (g : RegRef) (o : Address)
  /-- LA: Load Register With Effective Address (R168). -/
  | la (g : RegRef) (o : Address)
  /-- LOT: Load Ones Tally (R169). -/
  | lot (g : RegRef) (o : Address)
  /-- LOTA: Load Ones Tally of Effective Address (R170). -/
  | lota (g : RegRef) (o : Address)
  /-- M: Multiply (R171). -/
  | m (g : RegRef) (o : Address)
  /-- MA: Multiply By Effective Address (R172). -/
  | ma (g : RegRef) (o : Address)
  /-- MLAX: Shift Memory Left Arithmetic, Count in Register R (R173). -/
  | mlax (g : RegRef) (o : Address)
  /-- MRAX: Shift Memory Right Arithmetic, Count in Register R (R174). -/
  | mrax (g : RegRef) (o : Address)
  /-- MRRX: Memory Rotate Right, Count In Register R (R175). -/
  | mrrx (g : RegRef) (o : Address)
  /-- N: Logical And (R176). -/
  | n (g : RegRef) (o : Address)
  /-- NA: Logical And With Effective Address (R177). -/
  | na (g : RegRef) (o : Address)
  /-- OR: Logical OR (R178). -/
  | or (g : RegRef) (o : Address)
  /-- ORA: Logical OR With Effective Address (R179). -/
  | ora (g : RegRef) (o : Address)
  /-- S: Subtract From Register (R180). -/
  | s (g : RegRef) (o : Address)
  /-- SA: Subtract Effective Address From Register (R181). -/
  | sa (g : RegRef) (o : Address)
  /-- SAT: Shift And Add Tally (R182). -/
  | sat (g : RegRef) (o : Address)
  /-- ST: Store Register (R183). -/
  | st (g : RegRef) (o : Address)
  /-- XOR: Exclusive OR (R184). -/
  | xor (g : RegRef) (o : Address)
  /-- XORA: Exclusive OR With Effective Address (R185). -/
  | xora (g : RegRef) (o : Address)
  /-- BC: Branch On Condition (R200). -/
  | bc (bit : BitVec 4) (o : Address)
  /-- *BC: Indirect Branch On Condition (R201). -/
  | bcInd (bit : BitVec 4) (o : Address)
  /-- DLA: Shift Memory Double Left Arithmetic (R202). -/
  | dla (count : Nat) (o : Address)
  /-- DRA: Shift Memory Double Right Arithmetic (R203). -/
  | dra (count : Nat) (o : Address)
  /-- DRL: Shift Memory Double Right Logical (R204). -/
  | drl (count : Nat) (o : Address)
  /-- DRR: Double Right Rotate (R205). -/
  | drr (count : Nat) (o : Address)
  /-- MLA: Shift Memory Left Arithmetic (R206). -/
  | mla (count : Nat) (o : Address)
  /-- MRA: Shift Memory Right Arithmetic (R207). -/
  | mra (count : Nat) (o : Address)
  /-- MRR: Rotate Memory Right Logical (R208). -/
  | mrr (count : Nat) (o : Address)
  /-- B: Unconditional Branch (R215). -/
  | b (o : Address) (rq : Bool)
  /-- *B: Unconditional Branch Indirect (R216). -/
  | bInd (o : Address) (rq : Bool)
  /-- LDS: Load Status Block (R217). -/
  | lds (o : Address) (rq : Bool)
  /-- NOP: No Operation (R218). -/
  | nop
  /-- SS: Store Status Block (R219). -/
  | ss (o : Address) (rq : Bool)
  /-- SSB: Store Status Block and Branch (R220). -/
  | ssb (o : Address) (rq : Bool)
  /-- SXBS: Store Status Block, Transfer and Branch to Supervisor Mode (R221). -/
  | sxbs (o : Address) (rq : Bool)
  /-- SXBW: Store Status Block, Transfer and Branch to Worker Mode (R222). -/
  | sxbw (o : Address) (rq : Bool)
  /-- SXS: Store Status Block and Transfer to Supervisor Mode (R223). -/
  | sxs (o : Address) (rq : Bool)
  /-- SXW: Store Status Block and Transfer to Worker Mode (R224). -/
  | sxw (o : Address) (rq : Bool)
  /-- XS: Transfer to Supervisor Mode (R225). -/
  | xs
  /-- XSB: Transfer and Branch to Supervisor Mode (R226). -/
  | xsb (o : Address) (rq : Bool)
  /-- *XSB: Transfer and Branch to Supervisor Mode Indirect (R227). -/
  | xsbInd (o : Address) (rq : Bool)
  /-- XW: Transfer to Worker Mode (R228). -/
  | xw
  /-- XWB: Transfer and Branch to Worker Mode (R229). -/
  | xwb (o : Address) (rq : Bool)
  /-- *XWB: Transfer and Branch to Worker Mode Indirect (R230). -/
  | xwbInd (o : Address) (rq : Bool)
  /-- ARB: Add To Register And Branch on no sign change (R240). -/
  | arb (addend : BitVec 4) (n : Word) (xr : RegNum) (rq : Bool)
  /-- ADAC: Activate Direct Memory Access Channel (R241). -/
  | adac (aq : BitVec 10) (n : Word)
  /-- STPS: Store Panel Switches (R242). -/
  | stps (o : Address)
  /-- CM: Compare Memory With Memory (R251). -/
  | cm (p q : BaseDisp)
  /-- CML: Compare Memory With High and Low Limits in Memory (R252). -/
  | cml (p q : BaseDisp)
  /-- MOV: Move Memory to Memory (R253). -/
  | mov (p q : BaseDisp)
  /-- BRRL: Branch Relative To Register and Link to Subroutine (R254). -/
  | brrl (r : RegNum) (q : BaseDisp)
  /-- AMI: Add to Memory Immediate (R255). -/
  | ami (p : BaseDisp) (imm : BitVec 13)
  /-- CMI: Compare Memory Immediate (R256). -/
  | cmi (p : BaseDisp) (imm : BitVec 13)
  /-- SETF: Set Flag (R265). -/
  | setf (alt : Bool) (m : BitVec 10) (bit : BitVec 4) (v : Bool)
  /-- XFNE: Switch Modes If Flag Not Equal (R266). -/
  | xfne (alt : Bool) (m : BitVec 10) (bit : BitVec 4) (v : Bool)
  /-- BFNE: Branch If Flag Is Not Equal (R267). -/
  | bfne (alt : Bool) (m : BitVec 10) (bit : BitVec 4) (v : Bool) (n : BitVec 10)
  /-- SETB: Set CRU Output Bit (R268). -/
  | setb (alt : Bool) (m : BitVec 10) (v : Bool)
  /-- XBNE: Switch Modes If Bit Not Equal (R269). -/
  | xbne (alt : Bool) (m : BitVec 10) (v : Bool)
  /-- BBNE: Branch If Bit Not Equal (R270). -/
  | bbne (alt : Bool) (m : BitVec 10) (v : Bool) (n : BitVec 10)
  /-- TSBX: Test Input Bit and Set Output Bit or Switch Modes (R271). -/
  | tsbx (alt : Bool) (m : BitVec 10) (v : Bool) (n : BitVec 10) (ob : Bool)
  /-- LDCR: Load Communication Register (R272). -/
  | ldcr (alt : Bool) (m : BitVec 10) (width : Nat) (n : BitVec 10)
  /-- STCR: Store Communications Register (R273). -/
  | stcr (alt : Bool) (m : BitVec 10) (width : Nat) (n : BitVec 10)
deriving DecidableEq, Repr

end Sys2Proof
end

