-- ==== Sys2Proof/WellFormed.lean ====
section
/-! DEFINITION. Which instruction terms an instruction word can carry: the two operands held as numbers must be in
the range their field expresses. Every other field has the width of its bits in its type. -/

namespace Sys2Proof

/-- A 4-bit count field expresses 1 to 16, with 0 standing for 16 (41_format_IB R202; 45_format_III R272). -/
def countOk (c : Nat) : Bool := decide (1 ≤ c ∧ c ≤ 16)

/-- The checks: the shift count of the seven immediate-count shifts, the width of the two CRU field instructions. -/
def Instr.wellFormed (i : Instr) : Bool :=
  match i with
  | .dla c _ | .dra c _ | .drl c _ | .drr c _ | .mla c _ | .mra c _ | .mrr c _ => countOk c
  | .ldcr _ _ w _ | .stcr _ _ w _ => countOk w
  | _ => true

/-- A term that some instruction word carries. -/
abbrev Instr.WellFormed (i : Instr) : Prop := i.wellFormed = true

end Sys2Proof
end

