-- ==== Sys2Proof/Decode.lean ====
section
/-! DEFINITION. Decoding and encoding of the 32-bit instruction words (30_encoding). A field is named by the source's
own bit numbers, bit 0 the most significant of its word (00_scope R8); bits 16-31 of the instruction are bits 0-15 of
the second word. Unused bits are ignored (R132) and encoded as 0. -/

namespace Sys2Proof

/-- What a pair of instruction words is: an instruction, one of the undefined operation codes (30_encoding R130), or
a defined op with a sub-code for which the source lists no instruction (R131). -/
inductive Decoded where
  | instr (i : Instr)
  | undefinedOp
  | unlisted
deriving DecidableEq, Repr

/-- `w<i:j>` of 00_scope R8 as a number: bits i through j of a word, bit 0 the most significant. -/
def field (w : Word) (i j : Nat) : Nat := w.toNat / 2 ^ (15 - j) % 2 ^ (j + 1 - i)

/-- `w<i>` as a truth value. -/
def flag (w : Word) (i : Nat) : Bool := field w i i == 1

/-- The value of a 4-bit count field: 0 stands for 16 (41_format_IB R202, 45_format_III R272). -/
def countOf (f : Nat) : Nat := if f = 0 then 16 else f

/-- The register operand of format I-A: `#` is bit 12, r bits 13-15 (30_encoding R104). -/
def regRefOf (w0 : Word) : RegRef := { alt := flag w0 12, num := BitVec.ofNat 3 (field w0 13 15) }

/-- The address operand of group I: x is bit 6, `*` bit 7, xr bits 9-11, n the second word (30_encoding R103). -/
def addressOf (w0 w1 : Word) : Address :=
  { ind := flag w0 7
    index := if flag w0 6 then some (BitVec.ofNat 3 (field w0 9 11)) else none
    n := w1 }

/-- The m displacement of groups II and III, bits 6-15 (30_encoding R120, R125). -/
def dispM (w0 : Word) : BitVec 10 := BitVec.ofNat 10 (field w0 6 15)

/-- The n displacement of groups II and III, bits 22-31 (30_encoding R120, R125). -/
def dispN (w1 : Word) : BitVec 10 := BitVec.ofNat 10 (field w1 6 15)

/-- Operand 1 of group II: m and mb, bits 6-15 and 16-18 (30_encoding R120). -/
def operandM (w0 w1 : Word) : BaseDisp := { disp := dispM w0, base := BitVec.ofNat 3 (field w1 0 2) }

/-- Operand 2 of group II: n and nb, bits 22-31 and 19-21 (30_encoding R120). -/
def operandN (w1 : Word) : BaseDisp := { disp := dispN w1, base := BitVec.ofNat 3 (field w1 3 5) }

/-- The flag bit number b of group III, bits 16-19 (30_encoding R125). -/
def bitB (w1 : Word) : BitVec 4 := BitVec.ofNat 4 (field w1 0 3)

/-- BRRL's r field, at the place the parameter `BRRL_R_POS` gives (30_encoding R123). -/
def brrlReg (p : Layout) (w0 w1 : Word) : RegNum :=
  match p.brrlR with
  | .bits13to15 => BitVec.ofNat 3 (field w0 13 15)
  | .bits16to18 => BitVec.ofNat 3 (field w1 0 2)

/-- The op value is one of the eight of the Arithmetic Option: C8, CC, D0, D4, D8, DC, E8, EC in the source's first-byte
notation (30_encoding R133). -/
def isOptionCode (w0 : Word) : Bool := [0x32, 0x33, 0x34, 0x35, 0x36, 0x37, 0x3A, 0x3B].contains (field w0 0 5)

/-- Format I-C: op, bit 8 and bits 13-15 together select the instruction (30_encoding R106). -/
def decodeIC (op : Nat) (k : Bool) (ext : Nat) (w0 w1 : Word) : Decoded :=
  match op, k, ext with
  | 0x1C, false, 0 => .instr (.xsbInd (addressOf w0 w1) (flag w0 12))
  | 0x1C, false, 1 => .instr (.xwbInd (addressOf w0 w1) (flag w0 12))
  | 0x1C, false, 2 => .instr (.bInd (addressOf w0 w1) (flag w0 12))
  | 0x1C, false, 4 => .instr .xs
  | 0x1C, false, 5 => .instr .xw
  | 0x1C, false, 7 => .instr .nop
  | 0x1C, true, 0 => .instr (.xsb (addressOf w0 w1) (flag w0 12))
  | 0x1C, true, 1 => .instr (.xwb (addressOf w0 w1) (flag w0 12))
  | 0x1C, true, 2 => .instr (.b (addressOf w0 w1) (flag w0 12))
  | 0x1E, true, 0 => .instr (.sxbs (addressOf w0 w1) (flag w0 12))
  | 0x1E, true, 1 => .instr (.sxbw (addressOf w0 w1) (flag w0 12))
  | 0x1E, true, 2 => .instr (.ssb (addressOf w0 w1) (flag w0 12))
  | 0x1E, true, 4 => .instr (.sxs (addressOf w0 w1) (flag w0 12))
  | 0x1E, true, 5 => .instr (.sxw (addressOf w0 w1) (flag w0 12))
  | 0x1E, true, 6 => .instr (.ss (addressOf w0 w1) (flag w0 12))
  | 0x1F, false, 0 => .instr (.lds (addressOf w0 w1) (flag w0 12))
  | _, _, _ => .unlisted

/-- The decode procedure (30_encoding R134) over the opcode map (R129), for given positions of the two fields whose
figures are lost. It does not know whether the Arithmetic Option is installed: `executeAt` and `withArithOption` make
the option's op values undefined codes where it is not (R133; E880 and EC80: log 31). -/
def decodeWith (p : Layout) (w0 w1 : Word) : Decoded :=
  match field w0 0 5, flag w0 8 with
  | 0x02, _ => .instr (.ldcr (flag w1 5) (dispM w0) (countOf (field w1 0 3)) (dispN w1))
  | 0x03, _ => .instr (.arb (BitVec.ofNat 4 (field w0 12 15)) w1 (BitVec.ofNat 3 (field w0 9 11)) (flag w0 8))
  | 0x04, _ => .instr (.cm (operandM w0 w1) (operandN w1))
  | 0x05, _ => .instr (.mov (operandM w0 w1) (operandN w1))
  | 0x06, _ => .instr (.cml (operandM w0 w1) (operandN w1))
  | 0x07, _ => .instr (.cmi (operandM w0 w1) (BitVec.ofNat 13 (field w1 3 15)))
  | 0x08, _ => .instr (.ami (operandM w0 w1) (BitVec.ofNat 13 (field w1 3 15)))
  | 0x09, _ => .instr (.adac (BitVec.ofNat 10 (field w0 6 15)) w1)
  | 0x0A, _ => .instr (.brrl (brrlReg p w0 w1) (operandN w1))
  | 0x0B, _ => .instr (.stcr (flag w1 5) (dispM w0) (countOf (field w1 0 3)) (dispN w1))
  | 0x0C, _ => .instr (.bbne (flag w1 5) (dispM w0) (flag w1 4) (dispN w1))
  | 0x0D, _ => .instr (.setb (flag w1 5) (dispM w0) (flag w1 4))
  | 0x0E, _ => .instr (.xbne (flag w1 5) (dispM w0) (flag w1 4))
  | 0x0F, _ => .instr (.tsbx (flag w1 5) (dispM w0) (flag w1 4) (dispN w1) (flag w1 p.tsbxOb.val))
  | 0x10, false => .instr (.xor (regRefOf w0) (addressOf w0 w1))
  | 0x10, true => .instr (.xora (regRefOf w0) (addressOf w0 w1))
  | 0x11, false => .instr (.l (regRefOf w0) (addressOf w0 w1))
  | 0x11, true => .instr (.la (regRefOf w0) (addressOf w0 w1))
  | 0x12, false => .unlisted
  | 0x12, true => .instr (.st (regRefOf w0) (addressOf w0 w1))
  | 0x13, false => .instr (.a (regRefOf w0) (addressOf w0 w1))
  | 0x13, true => .instr (.aa (regRefOf w0) (addressOf w0 w1))
  | 0x14, false => .instr (.s (regRefOf w0) (addressOf w0 w1))
  | 0x14, true => .instr (.sa (regRefOf w0) (addressOf w0 w1))
  | 0x15, false => .instr (.lot (regRefOf w0) (addressOf w0 w1))
  | 0x15, true => .instr (.lota (regRefOf w0) (addressOf w0 w1))
  | 0x16, false => .instr (.n (regRefOf w0) (addressOf w0 w1))
  | 0x16, true => .instr (.na (regRefOf w0) (addressOf w0 w1))
  | 0x17, false => .instr (.or (regRefOf w0) (addressOf w0 w1))
  | 0x17, true => .instr (.ora (regRefOf w0) (addressOf w0 w1))
  | 0x18, false => .instr (.mla (countOf (field w0 12 15)) (addressOf w0 w1))
  | 0x18, true => .instr (.mlax (regRefOf w0) (addressOf w0 w1))
  | 0x19, false => .instr (.mra (countOf (field w0 12 15)) (addressOf w0 w1))
  | 0x19, true => .instr (.mrax (regRefOf w0) (addressOf w0 w1))
  | 0x1A, false => .instr (.mrr (countOf (field w0 12 15)) (addressOf w0 w1))
  | 0x1A, true => .instr (.mrrx (regRefOf w0) (addressOf w0 w1))
  | 0x1B, false => .instr (.sat (regRefOf w0) (addressOf w0 w1))
  | 0x1B, true => .unlisted
  | 0x1C, k => decodeIC 0x1C k (field w0 13 15) w0 w1
  | 0x1D, false => .instr (.blInd (regRefOf w0) (addressOf w0 w1))
  | 0x1D, true => .instr (.bl (regRefOf w0) (addressOf w0 w1))
  | 0x1E, k => decodeIC 0x1E k (field w0 13 15) w0 w1
  | 0x1F, k => decodeIC 0x1F k (field w0 13 15) w0 w1
  | 0x20, _ => .instr (.xfne (flag w1 5) (dispM w0) (bitB w1) (flag w1 4))
  | 0x21, _ => .instr (.bfne (flag w1 5) (dispM w0) (bitB w1) (flag w1 4) (dispN w1))
  | 0x22, _ => .instr (.setf (flag w1 5) (dispM w0) (bitB w1) (flag w1 4))
  | 0x30, false => .instr (.cr (regRefOf w0) (addressOf w0 w1))
  | 0x30, true => .instr (.cra (regRefOf w0) (addressOf w0 w1))
  | 0x31, false => .instr (.crl (regRefOf w0) (addressOf w0 w1))
  | 0x31, true => .instr (.crla (regRefOf w0) (addressOf w0 w1))
  | 0x32, false => .instr (.dla (countOf (field w0 12 15)) (addressOf w0 w1))
  | 0x32, true => .instr (.dlax (regRefOf w0) (addressOf w0 w1))
  | 0x33, false => .instr (.m (regRefOf w0) (addressOf w0 w1))
  | 0x33, true => .instr (.ma (regRefOf w0) (addressOf w0 w1))
  | 0x34, false => .instr (.d (regRefOf w0) (addressOf w0 w1))
  | 0x34, true => .instr (.da (regRefOf w0) (addressOf w0 w1))
  | 0x35, false => .instr (.dra (countOf (field w0 12 15)) (addressOf w0 w1))
  | 0x35, true => .instr (.drax (regRefOf w0) (addressOf w0 w1))
  | 0x36, false => .instr (.drl (countOf (field w0 12 15)) (addressOf w0 w1))
  | 0x36, true => .instr (.drlx (regRefOf w0) (addressOf w0 w1))
  | 0x37, false => .instr (.drr (countOf (field w0 12 15)) (addressOf w0 w1))
  | 0x37, true => .instr (.drrx (regRefOf w0) (addressOf w0 w1))
  | 0x38, false => .instr (.bcInd (BitVec.ofNat 4 (field w0 12 15)) (addressOf w0 w1))
  | 0x38, true => .instr (.bc (BitVec.ofNat 4 (field w0 12 15)) (addressOf w0 w1))
  | 0x39, false => .unlisted
  | 0x39, true => .instr (.stps (addressOf w0 w1))
  | 0x3A, false => .instr (.dad (regRefOf w0) (addressOf w0 w1))
  | 0x3A, true => .unlisted
  | 0x3B, false => .instr (.ds (regRefOf w0) (addressOf w0 w1))
  | 0x3B, true => .unlisted
  | _, _ => .undefinedOp

/-- Decoding with the default field positions. -/
def decode (w0 w1 : Word) : Decoded := decodeWith {} w0 w1

/-- First word of a format group I instruction but for its low four bits, which are given (30_encoding R103). -/
def encodeI (op : Nat) (k : Bool) (o : Address) (low : Nat) : Word × Word :=
  (BitVec.ofNat 16 (op * 1024 + o.index.isSome.toNat * 512 + o.ind.toNat * 256 + k.toNat * 128
      + (o.index.getD 0).toNat * 16 + low), o.n)

/-- Format I-A: the low four bits are `#` and r (30_encoding R104). -/
def encodeIA (op : Nat) (k : Bool) (g : RegRef) (o : Address) : Word × Word :=
  encodeI op k o (g.alt.toNat * 8 + g.num.toNat)

/-- First word of groups II and III: op and m (30_encoding R120, R125). -/
def firstII (op : Nat) (m : BitVec 10) : Word := BitVec.ofNat 16 (op * 1024 + m.toNat)

/-- Second word of format II-A: mb, nb, n (30_encoding R120). -/
def secondII (mb : RegNum) (q : BaseDisp) : Word :=
  BitVec.ofNat 16 (mb.toNat * 8192 + q.base.toNat * 1024 + q.disp.toNat)

/-- Second word of group III: b, v1, am, n (30_encoding R125). -/
def secondIII (b : Nat) (v am : Bool) (n : BitVec 10) : Word :=
  BitVec.ofNat 16 (b * 4096 + v.toNat * 2048 + am.toNat * 1024 + n.toNat)

/-- BRRL (30_encoding R123). -/
def encodeBrrl (p : Layout) (r : RegNum) (q : BaseDisp) : Word × Word :=
  match p.brrlR with
  | .bits13to15 => (BitVec.ofNat 16 (0x0A * 1024 + r.toNat), secondII 0 q)
  | .bits16to18 => (BitVec.ofNat 16 (0x0A * 1024), secondII r q)

/-- The two words of an instruction (30_encoding R137), for given positions of the two fields whose figures are
lost. -/
def encodeWith (p : Layout) (i : Instr) : Word × Word :=
  match i with
  | .a g o => encodeIA 0x13 false g o
  | .aa g o => encodeIA 0x13 true g o
  | .bl g o => encodeIA 0x1D true g o
  | .blInd g o => encodeIA 0x1D false g o
  | .cr g o => encodeIA 0x30 false g o
  | .cra g o => encodeIA 0x30 true g o
  | .crl g o => encodeIA 0x31 false g o
  | .crla g o => encodeIA 0x31 true g o
  | .d g o => encodeIA 0x34 false g o
  | .da g o => encodeIA 0x34 true g o
  | .dad g o => encodeIA 0x3A false g o
  | .dlax g o => encodeIA 0x32 true g o
  | .drax g o => encodeIA 0x35 true g o
  | .drlx g o => encodeIA 0x36 true g o
  | .drrx g o => encodeIA 0x37 true g o
  | .ds g o => encodeIA 0x3B false g o
  | .l g o => encodeIA 0x11 false g o
  | .la g o => encodeIA 0x11 true g o
  | .lot g o => encodeIA 0x15 false g o
  | .lota g o => encodeIA 0x15 true g o
  | .m g o => encodeIA 0x33 false g o
  | .ma g o => encodeIA 0x33 true g o
  | .mlax g o => encodeIA 0x18 true g o
  | .mrax g o => encodeIA 0x19 true g o
  | .mrrx g o => encodeIA 0x1A true g o
  | .n g o => encodeIA 0x16 false g o
  | .na g o => encodeIA 0x16 true g o
  | .or g o => encodeIA 0x17 false g o
  | .ora g o => encodeIA 0x17 true g o
  | .s g o => encodeIA 0x14 false g o
  | .sa g o => encodeIA 0x14 true g o
  | .sat g o => encodeIA 0x1B false g o
  | .st g o => encodeIA 0x12 true g o
  | .xor g o => encodeIA 0x10 false g o
  | .xora g o => encodeIA 0x10 true g o
  | .bc bit o => encodeI 0x38 true o bit.toNat
  | .bcInd bit o => encodeI 0x38 false o bit.toNat
  | .dla count o => encodeI 0x32 false o (count % 16)
  | .dra count o => encodeI 0x35 false o (count % 16)
  | .drl count o => encodeI 0x36 false o (count % 16)
  | .drr count o => encodeI 0x37 false o (count % 16)
  | .mla count o => encodeI 0x18 false o (count % 16)
  | .mra count o => encodeI 0x19 false o (count % 16)
  | .mrr count o => encodeI 0x1A false o (count % 16)
  | .b o rq => encodeI 0x1C true o (rq.toNat * 8 + 2)
  | .bInd o rq => encodeI 0x1C false o (rq.toNat * 8 + 2)
  | .lds o rq => encodeI 0x1F false o (rq.toNat * 8 + 0)
  | .nop => (BitVec.ofNat 16 (0x1C * 1024 + 0 * 128 + 7), 0)
  | .ss o rq => encodeI 0x1E true o (rq.toNat * 8 + 6)
  | .ssb o rq => encodeI 0x1E true o (rq.toNat * 8 + 2)
  | .sxbs o rq => encodeI 0x1E true o (rq.toNat * 8 + 0)
  | .sxbw o rq => encodeI 0x1E true o (rq.toNat * 8 + 1)
  | .sxs o rq => encodeI 0x1E true o (rq.toNat * 8 + 4)
  | .sxw o rq => encodeI 0x1E true o (rq.toNat * 8 + 5)
  | .xs => (BitVec.ofNat 16 (0x1C * 1024 + 0 * 128 + 4), 0)
  | .xsb o rq => encodeI 0x1C true o (rq.toNat * 8 + 0)
  | .xsbInd o rq => encodeI 0x1C false o (rq.toNat * 8 + 0)
  | .xw => (BitVec.ofNat 16 (0x1C * 1024 + 0 * 128 + 5), 0)
  | .xwb o rq => encodeI 0x1C true o (rq.toNat * 8 + 1)
  | .xwbInd o rq => encodeI 0x1C false o (rq.toNat * 8 + 1)
  | .arb addend n xr rq => (BitVec.ofNat 16 (0x03 * 1024 + rq.toNat * 128 + xr.toNat * 16 + addend.toNat), n)
  | .adac aq n => (BitVec.ofNat 16 (0x09 * 1024 + aq.toNat), n)
  | .stps o => encodeI 0x39 true o 0
  | .cm q q' => (firstII 0x04 q.disp, secondII q.base q')
  | .cml q q' => (firstII 0x06 q.disp, secondII q.base q')
  | .mov q q' => (firstII 0x05 q.disp, secondII q.base q')
  | .brrl r q => encodeBrrl p r q
  | .ami q imm => (firstII 0x08 q.disp, BitVec.ofNat 16 (q.base.toNat * 8192 + imm.toNat))
  | .cmi q imm => (firstII 0x07 q.disp, BitVec.ofNat 16 (q.base.toNat * 8192 + imm.toNat))
  | .setf alt m bit v => (firstII 0x22 m, secondIII bit.toNat v alt 0)
  | .xfne alt m bit v => (firstII 0x20 m, secondIII bit.toNat v alt 0)
  | .bfne alt m bit v n => (firstII 0x21 m, secondIII bit.toNat v alt n)
  | .setb alt m v => (firstII 0x0D m, secondIII 0 v alt 0)
  | .xbne alt m v => (firstII 0x0E m, secondIII 0 v alt 0)
  | .bbne alt m v n => (firstII 0x0C m, secondIII 0 v alt n)
  | .tsbx alt m v n ob => (firstII 0x0F m, secondIII (ob.toNat * 2 ^ (3 - p.tsbxOb.val)) v alt n)
  | .ldcr alt m width n => (firstII 0x02 m, secondIII (width % 16) false alt n)
  | .stcr alt m width n => (firstII 0x0B m, secondIII (width % 16) false alt n)

/-- The two words of an instruction, with the default field positions. -/
def encode (i : Instr) : Word × Word := encodeWith {} i

/-- The instruction in a word of spec/opcode_table.json's own numbering: the table keeps the first word in the high
half of the 32-bit number (log 8). A row of at most 16 bits would be a first word with a zero second word. -/
def decodeTableWord (nbits w : Nat) : Option Instr :=
  let full := if nbits ≤ 16 then w * 65536 else w
  match decode (BitVec.ofNat 16 (full / 65536)) (BitVec.ofNat 16 full) with
  | .instr i => some i
  | .undefinedOp => none
  | .unlisted => none

end Sys2Proof
end

