-- ==== Sys2Proof/Machine/State.lean ====
section
/-! DEFINITION. The state of the machine, as plain data: every register, latch, line and switch the spec names
(10_state, 20_memory, 60_exceptions), and the model's own fields, marked so. -/

namespace Sys2Proof.Machine

/-- Why a step stops without a next state. -/
inductive Fault where
  /-- A CPU read, of an operand or of an instruction word, of an address at or above `MEM_WORDS`; such an access has
  no meaning (20_memory R74). Raised by `withRead` and by the fetch. Safe (log 11). -/
  | uninstalledMemory (a : Word)
deriving DecidableEq, Repr

/-- Why the model gives a step no meaning. -/
inductive Refusal where
  /-- An instruction the model has no meaning for; raised by no arm of `exec`. Safe. -/
  | notModelled (mnemonic : String)
  /-- A defined op with a sub-code for which the source lists no instruction; "a model must refuse a program that
  executes one" (30_encoding R131). Raised by the CPU after the fetch, with the first word. Safe (log 12). -/
  | unlistedCode (w0 : Word)
deriving DecidableEq, Repr

/-- Main memory: (byte address, byte) cells in canonical form. Word a is the bytes 2a (bits 0-7) and 2a + 1 (bits
8-15) (log 1); an unlisted byte reads as 0 (log 2). -/
abbrev Memory := List Host.Cell

/-- A set of CRU lines, the ones at logic 1, in strictly rising order (20_memory R61; log 20). -/
abbrev LineSet := List Nat

/-- The memory words whose check fails, with the value a read of each delivers, in strictly rising order of address
(60_exceptions R336; log 10). -/
abbrev BadWords := List (Nat × Word)

/-- What the agents of memory do at one memory access of the CPU (20_memory R77, 60_exceptions R336, R362; log 14). The
default is nothing. -/
structure MemoryCycle where
  /-- The words the DMAC writes just before the access, in this order. -/
  dmac : List (Word × Word) := []
  /-- The access, if it is a read of main memory, meets a memory error and delivers this word (log 10). -/
  error : Option Word := none
deriving DecidableEq, Repr

/-- The power states of 60_exceptions R374. -/
inductive Power where
  | on
  /-- Power loss has been sensed: the 1.0 millisecond of execution that is left (60_exceptions R337). -/
  | failing
  | off
deriving DecidableEq, Repr

/-- The causes of the internal interrupt that have a status bit (60_exceptions R335). -/
inductive Cause where
  /-- MP, ST<2>: a parity error (960A) or multiple-bit error (960B). -/
  | mp
  /-- PF, ST<3>: power loss imminent. -/
  | pf
  /-- UC, ST<4>: an undefined operation code. -/
  | uc
  /-- MV, ST<5>: an attempt to alter protected memory. -/
  | mv
deriving DecidableEq, Repr

/-- The three interrupt classes (60_exceptions R330). -/
inductive InterruptClass where
  | internal
  | cru
  | dmac
deriving DecidableEq, Repr

/-- The panel switches that enter or display a value (10_state R50): PC, EC, ST, MA, MD, MDI, IA and IB. IA and IB
are displayed only. -/
inductive PanelSwitch where
  | pc
  | ec
  | st
  | ma
  | md
  | mdi
  | ia
  | ib
deriving DecidableEq, Repr

/-- Everything the spec leaves unspecified when power is applied or restored (70_reset R381), supplied by the power
event: any value is possible. -/
structure PowerUp where
  regs : Vector Word 16
  pc : Word
  ec : Word
  ia : Word
  ib : Word
  ma : Word
  display : Word
  /-- The battery, if installed, was on: memory keeps its contents (20_memory R75). -/
  batteryOn : Bool
  /-- Memory otherwise: these words, in this order, over zeros. -/
  mem : List (Word × Word)
  /-- The words that come up with a failing check, and what a read delivers. -/
  badWords : List (Word × Word)
  errorLatch : Bool
  cruLine : Bool
  dmac : Vector (Option (Word × Word)) 8
  cruIn : List Line
  cruOut : List Line
deriving DecidableEq, Repr

/-- An external event, taken between two steps of the CPU (00_scope R13; log 14). -/
inductive Event where
  /-- One turn of the CPU before the next event; `during` is what happens at its memory accesses, one entry for each
  in order, and nothing once the entries are used up (log 14). -/
  | cpuTurn (during : List MemoryCycle)
  /-- The sixteen DATA switches are set (10_state R53). -/
  | setSwitches (v : Word)
  /-- The panel key: LOCK or UNLOCK (10_state R50). -/
  | setLock (v : Bool)
  /-- Memory Protect Override (20_memory R69). -/
  | setMpo (v : Bool)
  /-- MODE: RUN (true) or HALT (10_state R51). -/
  | setMode (run : Bool)
  /-- The single-instruction switch (10_state R51). -/
  | setSie (v : Bool)
  /-- The CLOCK switch: on, or OFF (60_exceptions R372). -/
  | setClock (v : Bool)
  /-- The CLOCK switch pushed to STEP (60_exceptions R372). -/
  | clockStep
  /-- START (10_state R51); `during` is for the step that it may be, as in `cpuTurn`. -/
  | start (during : List MemoryCycle)
  /-- A register or memory switch pressed to ENTER (10_state R50). -/
  | enter (r : PanelSwitch)
  /-- A register or memory switch pressed to DISPLAY (10_state R50). -/
  | display (r : PanelSwitch)
  /-- RESET (10_state R52). -/
  | reset
  /-- LOAD, the ROM loader (70_reset R388). -/
  | load
  /-- A CRU module drives an input line (60_exceptions R366). -/
  | cruInput (line : Line) (v : Bool)
  /-- The level of the CRU interrupt line (60_exceptions R331). -/
  | cruInterrupt (level : Bool)
  /-- The DMAC writes a memory word between two steps of the CPU (60_exceptions R362). -/
  | dmacWrite (a v : Word)
  /-- Controller k turns on its interrupt line; s0 and s1 are the status words it will store (60_exceptions R363). -/
  | dmacRequest (k : Fin 8) (s0 s1 : Word)
  /-- The check of word a begins to fail; reads deliver v (60_exceptions R336). -/
  | memError (a v : Word)
  /-- The check of word a no longer fails. -/
  | memHeal (a : Word)
  /-- Power loss sensed (60_exceptions R337), between two instructions (DESIGN CHOICE, log 23). -/
  | powerLoss
  /-- The millisecond after power loss is over (70_reset R392); nothing unless power loss was sensed; the
  instruction in progress is completed first (DESIGN CHOICE, log 23). -/
  | powerDown
  /-- Power applied or restored (70_reset R383). -/
  | powerRestore (u : PowerUp)
deriving DecidableEq, Repr

/-- An output event of an instruction (log 15). -/
inductive Output where
  /-- `CruOut(line) <- v` (60_exceptions R366). -/
  | cru (line : Line) (v : Bool)
  /-- `DmacCommand(aq, list)` (43_format R241), with the a and q fields of `aq` where `ADAC_FIELDS` gives them. -/
  | dmac (aq : BitVec 10) (list : Word) (parts : Option (BitVec 10 × BitVec 10))
deriving DecidableEq, Repr

/-- The state. Rules cited are those that name the item; reset values are in `State.reset`. -/
structure State where
  /-- The register file: Supervisor 0-7, then Worker 0-7 (10_state R20). -/
  regs : Vector Word 16
  /-- The Program Counter (10_state R26). -/
  pc : Word
  /-- The Event Counter (10_state R26). -/
  ec : Word
  /-- The status register (10_state R32). -/
  st : Word
  /-- Instruction register A: the first instruction word (10_state R47). -/
  ia : Word
  /-- Instruction register B: the second word, and the last effective address (10_state R47; log 17). -/
  ib : Word
  /-- The panel's Memory Address register (10_state R48). -/
  ma : Word
  /-- The display register (10_state R48). -/
  display : Word
  /-- The DATA switches (10_state R53). -/
  switches : Word
  /-- The Memory Protect Override switch (20_memory R69). -/
  mpo : Bool
  /-- The panel is locked (10_state R50). -/
  locked : Bool
  /-- The MODE switch is in RUN (10_state R51). -/
  modeRun : Bool
  /-- The single-instruction switch (10_state R51). -/
  sie : Bool
  /-- The CLOCK switch is not OFF (60_exceptions R372). -/
  clockOn : Bool
  /-- The run state (10_state R49). -/
  running : Bool
  /-- The power state (60_exceptions R374). -/
  power : Power
  /-- The POWER LOSS indicator (10_state R49). -/
  powerLossLight : Bool
  /-- The internal interrupt request latch (60_exceptions R331). -/
  pendInternal : Bool
  /-- The level of the CRU interrupt line (60_exceptions R331). -/
  cruLine : Bool
  /-- The DMAC interrupt Status Register: for each controller, its two status words while its bit is set
  (60_exceptions R363). -/
  dmac : Vector (Option (Word × Word)) 8
  /-- Main memory (20_memory R60). -/
  mem : Memory
  /-- The words whose parity or error check fails (20_memory R60, 60_exceptions R336). -/
  badWords : BadWords
  /-- The 960B memory-error indicator latches (10_state R49; log 27). -/
  errorLatch : Bool
  /-- The CRU input lines at 1 (60_exceptions R366). -/
  cruIn : LineSet
  /-- The CRU output latches at 1 (10_state R49). -/
  cruOut : LineSet
  /-- The MODEL's own: the output events so far, oldest first (log 15). -/
  outbox : List Output
  /-- The MODEL's own: the external events still to happen, oldest first (log 14). -/
  inbox : List Event
  /-- The MODEL's own: what happens at the next memory accesses of the CPU, the nearest first; set at every turn of the
  CPU (log 14). -/
  during : List MemoryCycle
  /-- The MODEL's own: the instruction of an interrupt location is executing (60_exceptions R343; log 13). -/
  inLocation : Bool
  /-- The MODEL's own: which free value is the next (log 9). -/
  freeNext : Nat
  /-- The parameters, fixed for a run (00_scope R7; log 6). -/
  config : Config
deriving DecidableEq, Repr

/-- The machine right after the RESET switch (70_reset R381): PC, ST, MA, the display register and the internal
request are cleared, the POWER LOSS light is off and the machine is halted. What RESET leaves unchanged stands at the
values of log 2 to 6. -/
def State.reset : State where
  regs := Vector.replicate 16 0
  pc := 0
  ec := 0
  st := 0
  ia := 0
  ib := 0
  ma := 0
  display := 0
  switches := 0
  mpo := false
  locked := false
  modeRun := false
  sie := false
  clockOn := true
  running := false
  power := .on
  powerLossLight := false
  pendInternal := false
  cruLine := false
  dmac := Vector.replicate 8 none
  mem := []
  badWords := []
  errorLatch := false
  cruIn := []
  cruOut := []
  outbox := []
  inbox := []
  during := []
  inLocation := false
  freeNext := 0
  config := {}

/-- What a step answers. -/
abbrev Result := Host.Outcome State Fault Refusal

end Sys2Proof.Machine
end

