-- ==== Sys2Proof/Machine/Flags.lean ====
section
/-! DEFINITION. The status register, bit by bit (10_state R32), and every flag computation the rules give. Bit 0 is
the most significant bit. -/

namespace Sys2Proof.Machine

/-- The word with bit i (0 the most significant) set to v and the other bits unchanged. -/
def putBit (w : Word) (i : Nat) (v : Bool) : Word :=
  if v then w ||| ((0x8000 : Word) >>> i) else w &&& ~~~((0x8000 : Word) >>> i)

/-- ST<i>. -/
def State.stBit (s : State) (i : Nat) : Bool := s.st.getMsbD i

/-- `ST<i> <- v`. -/
def State.setStBit (s : State) (i : Nat) (v : Bool) : State := { s with st := putBit s.st i v }

/-- MI: the machine is in Worker Mode (10_state R34). -/
def State.worker (s : State) : Bool := s.stBit 0

/-- `ST<0> <- v` (10_state R34). -/
def State.setWorker (s : State) (v : Bool) : State := s.setStBit 0 v

/-- OI (10_state R35). -/
def State.setOI (s : State) (v : Bool) : State := s.setStBit 1 v

/-- CO (10_state R42). -/
def State.setCO (s : State) (v : Bool) : State := s.setStBit 13 v

/-- The bit of CB an outcome sets: ST<10> greater, ST<11> equal, ST<12> less (10_state R40). -/
def cbMask (c : Comparison) : Word :=
  match c with
  | .greater => 0x0020
  | .equal => 0x0010
  | .less => 0x0008

/-- `ST<10:12>`: exactly one of the three bits is 1 afterwards (10_state R40). -/
def State.setComparison (s : State) (c : Comparison) : State := { s with st := (s.st &&& 0xFFC7) ||| cbMask c }

/-- The outcome of comparing two integers. -/
def compareInt (a b : Int) : Comparison := if b < a then .greater else if a = b then .equal else .less

/-- Comparison as signed 16-bit numbers (CR, CRA: 10_state R40). -/
def compareSigned (a b : Word) : Comparison := compareInt a.toInt b.toInt

/-- Comparison as unsigned 16-bit numbers (CRL, CRLA: 10_state R40). -/
def compareUnsigned (a b : Word) : Comparison := compareInt a.toNat b.toNat

/-- `SetCB(v)`: the signed value against zero (10_state R40). -/
def State.setCB (s : State) (v : Word) : State := s.setComparison (compareSigned v 0)

/-- Overflow: the exact result does not fit 16 signed bits (10_state R35). -/
def overflows16 (r : Int) : Bool := decide (r < -32768 ∨ 32767 < r)

/-- Overflow of a double-length result (10_state R35). -/
def overflows32 (r : Int) : Bool := decide (r < -2147483648 ∨ 2147483647 < r)

/-- The carry out of bit 0 of a 16-bit addition (10_state R42). -/
def carryOut (a b : Word) : Bool := decide (65536 ≤ a.toNat + b.toNat)

/-- The carry of R + (NOT operand) + 1 (10_state R42). -/
def subtractCarry (a b : Word) : Bool := decide (65536 ≤ a.toNat + (~~~b).toNat + 1)

/-- OI, CO and CB of the 16-bit additions (40_format_IA R151; 44_format_II R255). -/
def State.setAddFlags (s : State) (a b : Word) : State :=
  ((s.setOI (overflows16 (a.toInt + b.toInt))).setCO (carryOut a b)).setCB (a + b)

/-- OI, CO and CB of the 16-bit subtractions (40_format_IA R180). -/
def State.setSubFlags (s : State) (a b : Word) : State :=
  ((s.setOI (overflows16 (a.toInt - b.toInt))).setCO (subtractCarry a b)).setCB (a - b)

end Sys2Proof.Machine
end

