-- ==== Sys2Proof/Machine/Memory.lean ====
section
/-! DEFINITION. The sparse stores of the state, each a list in one canonical form: memory bytes, words whose check
fails, CRU lines at 1. -/

namespace Sys2Proof.Machine

/-- The byte at a byte address; an unlisted byte reads as 0 (log 2). -/
def Memory.byte (m : Memory) (a : Nat) : Byte :=
  match m with
  | [] => 0
  | (k, v) :: rest => if k = a then v else Memory.byte rest a

/-- A byte cell into a list that has none at its address, before the first higher address. -/
def Memory.insertCell (m : Memory) (a : Nat) (v : Byte) : Memory :=
  match m with
  | [] => [(a, v)]
  | (k, w) :: rest => if k < a then (k, w) :: Memory.insertCell rest a v else (a, v) :: (k, w) :: rest

/-- Store one byte, keeping the canonical form: the old cell goes, and a new one comes unless the value is what an
unlisted byte reads as. -/
def Memory.putByte (m : Memory) (a : Nat) (v : Byte) : Memory :=
  let rest := m.filter fun c => c.1 != a
  if v = 0 then rest else Memory.insertCell rest a v

/-- The word at a word address: bits 0-7 in the byte 2a, bits 8-15 in the byte 2a + 1 (log 1). -/
def Memory.word (m : Memory) (a : Word) : Word := m.byte (2 * a.toNat) ++ m.byte (2 * a.toNat + 1)

/-- Store one word. -/
def Memory.putWord (m : Memory) (a v : Word) : Memory :=
  (m.putByte (2 * a.toNat) (v.extractLsb' 8 8)).putByte (2 * a.toNat + 1) (v.extractLsb' 0 8)

/-- Every key of a list of pairs is at least `lo`, and the keys are strictly rising. -/
def risingFrom {α : Type} (lo : Nat) (l : List (Nat × α)) : Bool :=
  match l with
  | [] => true
  | (k, _) :: rest => decide (lo ≤ k) && risingFrom (k + 1) rest

/-- The canonical form: addresses strictly rising, and no listed byte equal to what an unlisted one reads as. -/
def Memory.wf (m : Memory) : Bool := risingFrom 0 m && m.all fun c => c.2 != 0

/-- What a read of word a delivers, if its check fails. -/
def BadWords.find (l : BadWords) (a : Nat) : Option Word :=
  match l with
  | [] => none
  | (k, v) :: rest => if k = a then some v else BadWords.find rest a

/-- Word a now has a good check. -/
def BadWords.heal (l : BadWords) (a : Nat) : BadWords := l.filter fun p => p.1 != a

/-- The check of word a now fails and a read delivers v. -/
def BadWords.put (l : BadWords) (a : Nat) (v : Word) : BadWords :=
  match l with
  | [] => [(a, v)]
  | (k, w) :: rest =>
    if k < a then (k, w) :: BadWords.put rest a v
    else if k = a then (a, v) :: rest
    else (a, v) :: (k, w) :: rest

/-- The level of a line. -/
def LineSet.level (l : LineSet) (a : Line) : Bool := l.contains a.toNat

/-- A line into a strictly rising list. -/
def LineSet.insert (l : LineSet) (a : Nat) : LineSet :=
  match l with
  | [] => [a]
  | k :: rest => if k < a then k :: LineSet.insert rest a else if k = a then k :: rest else a :: k :: rest

/-- Set the level of a line. -/
def LineSet.set (l : LineSet) (a : Line) (v : Bool) : LineSet :=
  if v then l.insert a.toNat else l.filter fun k => k != a.toNat

/-- The lines of a list, as a set. -/
def LineSet.ofList (l : List Line) : LineSet := l.foldr (fun a t => LineSet.set t a true) []

/-- Strictly rising, from `lo` on, and below 4096. -/
def LineSet.risingFrom (lo : Nat) (l : LineSet) : Bool :=
  match l with
  | [] => true
  | k :: rest => decide (lo ≤ k) && decide (k < 4096) && LineSet.risingFrom (k + 1) rest

end Sys2Proof.Machine
end

