-- ==== Sys2Proof/Machine/Ops.lean ====
section
/-! DEFINITION. The operations every instruction is made of: registers and location counters, the causes of the
internal interrupt, reads and writes of memory with the register overlay and protection, the status block, output
events, fetching and executing a pair of words, and taking an interrupt. -/

namespace Sys2Proof.Machine

/-! ## General registers and location counters -/

/-- Entry i of the register file (10_state R20). -/
def State.file (s : State) (i : BitVec 4) : Word := s.regs[i.toNat]'i.isLt

/-- Write entry i of the register file. No register is hardwired (10_state R20). -/
def State.setFile (s : State) (i : BitVec 4) (v : Word) : State := { s with regs := s.regs.set i.toNat v i.isLt }

/-- The file index of register r of a mode: Supervisor 0-7, Worker 8-15 (10_state R22). -/
def fileIndex (worker : Bool) (r : RegNum) : BitVec 4 := BitVec.ofBool worker ++ r

/-- Register r of the given mode (`xs`, `xw`). -/
def State.modeReg (s : State) (worker : Bool) (r : RegNum) : Word := s.file (fileIndex worker r)

/-- `x[r]`, register r of the active mode (10_state R20). -/
def State.x (s : State) (r : RegNum) : Word := s.modeReg s.worker r

/-- `x[r] <- v`. -/
def State.setX (s : State) (r : RegNum) (v : Word) : State := s.setFile (fileIndex s.worker r) v

/-- The counter of a mode: PC in Supervisor Mode, EC in Worker Mode (10_state R26). -/
def State.counter (s : State) (worker : Bool) : Word := if worker then s.ec else s.pc

/-- Load the counter of a mode. -/
def State.setCounter (s : State) (worker : Bool) (v : Word) : State :=
  if worker then { s with ec := v } else { s with pc := v }

/-- `ctr`, the active location counter; also `cur`, the address of the instruction being executed (10_state R30). -/
def State.ctr (s : State) : Word := s.counter s.worker

/-- `ctr <- v`. -/
def State.setCtr (s : State) (v : Word) : State := s.setCounter s.worker v

/-- `next`: two words further (10_state R30), or the counter itself for the instruction of an interrupt location
(60_exceptions R343). -/
def State.next (s : State) : Word := if s.inLocation then s.ctr else s.ctr + 2#16

/-- `ctr <- next`. -/
def State.advance (s : State) : State := s.setCtr s.next

/-- Skip k instructions: `ctr <- next + 2k` (44_format_II R250). -/
def State.skip (s : State) (k : Nat) : State := s.setCtr (s.next + BitVec.ofNat 16 (2 * k))

/-! ## Causes of the internal interrupt -/

/-- The status bit of a cause (60_exceptions R334). -/
def causeBit (c : Cause) : Nat :=
  match c with
  | .mp => 2
  | .pf => 3
  | .uc => 4
  | .mv => 5

/-- `raise C` (60_exceptions R335). -/
def State.raise (s : State) (c : Cause) : State := { s.setStBit (causeBit c) true with pendInternal := true }

/-- A memory read met a parity or multiple-bit error (60_exceptions R336); the 960B latches it (log 27). -/
def State.memoryError (s : State) : State :=
  { s.raise .mp with errorLatch := s.errorLatch || decide (s.config.model = .m960B) }

/-- Execution of an undefined operation code: `raise UC; ctr <- next`, nothing else (60_exceptions R338). -/
def State.undefinedCode (s : State) : State := (s.raise .uc).advance

/-- The fourteen optional instructions are undefined codes without the Arithmetic Option (30_encoding R133). -/
def withArithOption (s : State) (k : State → Result) : Result :=
  if s.config.hasArithOption then k s else .next s.undefinedCode

/-! ## Memory, with the register overlay and protection -/

/-- The address lies in the register overlay, 0x80 to 0x8F (20_memory R62). -/
def isRegister (a : Word) : Bool := decide (0x80 ≤ a.toNat ∧ a.toNat ≤ 0x8F)

/-- The register-file entry an overlay address names (10_state R22). -/
def registerAt (a : Word) : BitVec 4 := a.setWidth 4

/-- The address is below `MEM_WORDS` (20_memory R74). -/
def State.installed (s : State) (a : Word) : Bool := decide (a.toNat < s.config.memWords)

/-- A read of the address has a meaning: a register, or an installed memory word. -/
def State.readable (s : State) (a : Word) : Bool := isRegister a || s.installed a

/-- The value a read of the address delivers: the register (20_memory R62), or the memory word, or what the memory
agent puts in its place when its check fails (60_exceptions R336). -/
def State.peek (s : State) (a : Word) : Word :=
  if isRegister a then s.file (registerAt a)
  else match s.badWords.find a.toNat with
    | some v => v
    | none => s.mem.word a

/-- A read of the address meets a memory error; register reads are not memory reads (60_exceptions R336). -/
def State.badRead (s : State) (a : Word) : Bool := !isRegister a && (s.badWords.find a.toNat).isSome

/-- What a CPU read of the address does to the state: a word whose check fails raises MP (60_exceptions R336). -/
def State.noteRead (s : State) (a : Word) : State := if s.badRead a then s.memoryError else s

/-- Put a word at an address without a protection check: a register, or an installed memory word, which thereby gets
a good check (log 30). Where no memory is installed nothing happens (20_memory R74, log 11). -/
def State.poke (s : State) (a v : Word) : State :=
  if isRegister a then s.setFile (registerAt a) v
  else if s.installed a then { s with mem := s.mem.putWord a v, badWords := s.badWords.heal a.toNat }
  else s

/-- The protected set: 0 to `PROTECT_LIMIT` without 0x80 to 0xA7 (20_memory R70). -/
def protectedBy (c : Config) (a : Word) : Bool :=
  decide (a.toNat ≤ c.protectLimit ∧ ¬(0x80 ≤ a.toNat ∧ a.toNat ≤ 0xA7))

/-- A write to the address is refused: it is protected and MPO is off (20_memory R71). -/
def State.refusesWrite (s : State) (a : Word) : Bool := protectedBy s.config a && !s.mpo

/-- A CPU write, once its turn at memory has come: a refused write leaves the word and raises MV (20_memory R71). -/
def State.write (s : State) (a v : Word) : State := if s.refusesWrite a then s.raise .mv else s.poke a v

/-- A DMAC write: subject to protection only under `DMAC_OBEYS_PROTECT` (20_memory R73). That a write refused under it
sets no MV and posts no request is a DESIGN CHOICE: the spec is silent (log 16). -/
def State.dmacPut (s : State) (a v : Word) : State :=
  if s.config.dmacObeysProtect && s.refusesWrite a then s else s.poke a v

/-- DMAC writes, in order. -/
def State.dmacPuts (s : State) (l : List (Word × Word)) : State :=
  match l with
  | [] => s
  | p :: rest => State.dmacPuts (s.dmacPut p.1 p.2) rest

/-! ## The CPU's accesses to memory: before each the DMAC may write (20_memory R77) -/

/-- The state with the given actions of the memory's agents at the CPU's next accesses (log 14). -/
def State.withDuring (s : State) (during : List MemoryCycle) : State := { s with during := during }

/-- What happens at the CPU's next access to memory. -/
def State.cycle (s : State) : MemoryCycle := s.during.headD {}

/-- The CPU's turn at memory: "the DMAC has priority over the CPU" (20_memory R77). -/
def State.grant (s : State) : State := { s.dmacPuts s.cycle.dmac with during := s.during.tail }

/-- The error of this access, if it is a read: register reads are not memory reads (60_exceptions R336). -/
def State.cycleError (s : State) (a : Word) : Option Word := if isRegister a then none else s.cycle.error

/-- The word a CPU read of the address delivers. -/
def State.readWord (s : State) (a : Word) : Word := (s.cycleError a).getD (s.grant.peek a)

/-- The state after a CPU read of the address. -/
def State.afterRead (s : State) (a : Word) : State :=
  if (s.cycleError a).isSome then s.grant.memoryError else s.grant.noteRead a

/-- `MemRead(a, 1)` followed by the rest of the instruction. -/
def withRead (s : State) (a : Word) (k : Word → State → Result) : Result :=
  if s.readable a then k (s.readWord a) (s.afterRead a) else .fault (.uninstalledMemory a)

/-- The double word at an address: the word at a is the most significant half (20_memory R63). -/
def State.peek2 (s : State) (a : Word) : DWord := s.peek a ++ s.peek (a + 1#16)

/-- What reading a double word does to the state when no other agent uses memory. -/
def State.noteRead2 (s : State) (a : Word) : State := (s.noteRead a).noteRead (a + 1#16)

/-- A read of the double word has a meaning. -/
def State.readable2 (s : State) (a : Word) : Bool := s.readable a && s.readable (a + 1#16)

/-- `MemRead(a, 2)`: the word at a is the most significant half (20_memory R63). -/
def withRead2 (s : State) (a : Word) (k : DWord → State → Result) : Result :=
  withRead s a fun hi s1 => withRead s1 (a + 1#16) fun lo s2 => k (hi ++ lo) s2

/-- `MemWrite(a, 1, v)` (20_memory R71). -/
def State.store (s : State) (a v : Word) : State := s.grant.write a v

/-- `MemWrite(a, 2, v)`: most significant half at a, each word checked separately (20_memory R63, R71). -/
def State.store2 (s : State) (a : Word) (v : DWord) : State :=
  (s.store a (v.extractLsb' 16 16)).store (a + 1#16) (v.extractLsb' 0 16)

/-! ## Status blocks -/

/-- Store a status block: a counter value at the address, then the status register as it is at that moment at the
next (42_format_IC R234). -/
def State.storeStatusBlock (s : State) (a link : Word) : State :=
  let s1 := s.store a link
  s1.store (a + 1#16) s1.st

/-- The counter SXBS, SXBW, SXS and SXW store: the executing mode's, already updated; under
`SX_STORES_TARGET_COUNTER` that of the mode entered (42_format_IC R235). -/
def State.sxLink (s : State) (target : Bool) : Word :=
  if s.config.sxStoresTargetCounter && (target != s.worker) then s.counter target else s.next

/-- Leave the active mode for the given one: the counter of the mode left is updated by two (42_format_IC R232). -/
def State.transfer (s : State) (target : Bool) : State := s.advance.setWorker target

/-- What rq adds to or subtracts from an address: register 5 of the given mode, or nothing (30_encoding R118). -/
def State.bias (s : State) (worker rq : Bool) : Word := if rq then s.modeReg worker 5 else 0

/-- Return from an interrupt (60_exceptions R350), the body of LDS (42_format_IC R217): the block's first word, plus
register 5 with rq, goes into the active counter, then its second word into ST. Register 5 is read after the first word
and before the second, where the line `t = EO + x[5]` has it: a DESIGN CHOICE (log 33). All 16 bits of ST are replaced
(R217), also a cause bit set since the block was stored, though R351 has such a bit stored with the held interrupt: a
DESIGN CHOICE between the two rules (log 34). -/
def loadStatusBlock (s : State) (a : Word) (rq : Bool) : Result :=
  withRead s a fun t s1 =>
    let target := t + s1.bias s1.worker rq
    withRead s1 (a + 1#16) fun w s2 => .next { s2.setCtr target with st := w }

/-! ## Output events -/

/-- `CruOut(a) <- v` (60_exceptions R366). -/
def State.outputLine (s : State) (a : Line) (v : Bool) : State :=
  { s with cruOut := s.cruOut.set a v, outbox := s.outbox ++ [.cru a v] }

/-- `CruIn(a)` (60_exceptions R366). -/
def State.inputLine (s : State) (a : Line) : Bool := s.cruIn.level a

/-! ## Fetching and executing -/

/-- Execute the instruction whose words are at a and a + 1 (10_state R28; 30_encoding R134). The unlisted codes E880 and
EC80 are refused (R131) where the Arithmetic Option is installed; where it is not, their op values are undefined codes
like the rest of the option's (R133, 60_exceptions R338), a DESIGN CHOICE between the two rules (log 31). -/
def executeAt (run : Instr → State → Result) (s : State) (a : Word) : Result :=
  withRead s a fun w0 s1 => withRead s1 (a + 1#16) fun w1 s2 =>
    let s3 := { s2 with ia := w0, ib := w1 }
    match decodeWith s3.config.layout w0 w1 with
    | .instr i => run i s3
    | .undefinedOp => .next s3.undefinedCode
    | .unlisted =>
      if isOptionCode w0 && !s3.config.hasArithOption then .next s3.undefinedCode else .refused (.unlistedCode w0)

/-! ## Taking an interrupt -/

/-- `dmac_line`: one or more bits of the DMAC interrupt Status Register are set (60_exceptions R331). -/
def State.dmacLine (s : State) : Bool := s.dmac.toList.any Option.isSome

/-- The interrupt class to take now: the highest unmasked request (60_exceptions R332, R340). -/
def State.interrupt (s : State) : Option InterruptClass :=
  if s.pendInternal && !s.stBit 7 then some .internal
  else if s.cruLine && !s.stBit 9 then some .cru
  else if s.dmacLine && !s.stBit 8 then some .dmac
  else none

/-- The interrupt location of a class (60_exceptions R334). -/
def interruptLocation (c : InterruptClass) : Word :=
  match c with
  | .internal => 0x0090
  | .cru => 0x0094
  | .dmac => 0x0092

/-- The mask bits a class sets on entry (60_exceptions R345 to R347). -/
def interruptMasks (c : InterruptClass) : Word :=
  match c with
  | .internal => 0x01C0
  | .cru => 0x00C0
  | .dmac => 0x0080

/-- Store the status words of the controllers from number k on: controller k's go to 0x98 + 2k and 0x99 + 2k
(60_exceptions R349). -/
def State.storeControllers (s : State) (k : Nat) (l : List (Option (Word × Word))) : State :=
  match l with
  | [] => s
  | none :: rest => State.storeControllers s (k + 1) rest
  | some (w0, w1) :: rest =>
    State.storeControllers
      ((s.poke (BitVec.ofNat 16 (0x98 + 2 * k)) w0).poke (BitVec.ofNat 16 (0x99 + 2 * k)) w1) (k + 1) rest

/-- `DmacRecognized()` (60_exceptions R349): the Status Register into 0x96, the status words of every controller whose
bit is set, then those bits clear. -/
def State.dmacRecognized (s : State) : State :=
  { (s.poke 0x0096 (Config.dmacStatusWord (s.dmac.toList.map Option.isSome))).storeControllers 0 s.dmac.toList with
    dmac := Vector.replicate 8 none }

/-- What taking an interrupt does before the location is fetched (60_exceptions R340). -/
def State.acknowledge (s : State) (c : InterruptClass) : State :=
  match c with
  | .internal => { s with pendInternal := false, inLocation := true }
  | .cru => { s with inLocation := true }
  | .dmac => { s.dmacRecognized with inLocation := true }

/-- What it does after the location's instruction: the masks (60_exceptions R340, R348). -/
def State.enterHandler (s : State) (c : InterruptClass) : State :=
  { s with st := s.st ||| interruptMasks c, inLocation := false }

/-- Taking an interrupt (60_exceptions R340, R343): acknowledge, execute the instruction of the interrupt location
without advancing the counter for it, set the masks. Nothing else is saved (R342). -/
def takeInterrupt (run : Instr → State → Result) (s : State) (c : InterruptClass) : Result :=
  match executeAt run (s.acknowledge c) (interruptLocation c) with
  | .next t => .next (t.enterHandler c)
  | .fault r => .fault r
  | .refused r => .refused r

end Sys2Proof.Machine
end

