-- ==== Sys2Proof/Machine/Operands.lean ====
section
/-! DEFINITION. Every operand form of the instruction set: the effective address and operand of format group I, the
register operand and register pair of format I-A, the base and displacement of group II, the flag, CRU and data
addresses of group III, and the shift functions of 40_format_IA R186. -/

namespace Sys2Proof.Machine

/-! ## Effective address (30_encoding R108 to R111) -/

/-- The value the x and xr fields add: a register of the active mode, or nothing when x = 0 (30_encoding R109). -/
def State.indexValue (s : State) (o : Address) : Word :=
  match o.index with
  | some r => s.x r
  | none => 0

/-- Indexing comes after the indirect fetch: ST<6> = 1, except for *B, *BC and *BL (30_encoding R111). -/
def State.postIndexed (s : State) (preOnly : Bool) : Bool := s.stBit 6 && !preOnly

/-- Where the indirect word is read. -/
def State.pointer (s : State) (o : Address) (preOnly : Bool) : Word :=
  if s.postIndexed preOnly then o.n else o.n + s.indexValue o

/-- The effective address, `EA_I` (30_encoding R108). The index register is read before the indirect word, in
post-indexing too (R119). -/
def State.ea (s : State) (o : Address) (preOnly : Bool) : Word :=
  if o.ind then
    let w := s.readWord (s.pointer o preOnly)
    if s.postIndexed preOnly then w + s.indexValue o else w
  else o.n + s.indexValue o

/-- The computation has a meaning: the indirect word, if one is read, is installed (20_memory R74). -/
def State.eaOk (s : State) (o : Address) (preOnly : Bool) : Bool := !o.ind || s.readable (s.pointer o preOnly)

/-- The state after the computation: the indirect read may meet a memory error, and IB holds the address (10_state
R47, log 17). -/
def State.afterEA (s : State) (o : Address) (preOnly : Bool) : State :=
  { (if o.ind then s.afterRead (s.pointer o preOnly) else s) with ib := s.ea o preOnly }

/-- Compute EA, then the rest of the instruction. -/
def withEA (s : State) (o : Address) (preOnly : Bool) (k : Word → State → Result) : Result :=
  if s.eaOk o preOnly then k (s.ea o preOnly) (s.afterEA o preOnly)
  else .fault (.uninstalledMemory (s.pointer o preOnly))

/-- Compute EA and read EO, `MemRead(EA, 1)` (30_encoding R108). -/
def withEO (s : State) (o : Address) (preOnly : Bool) (k : Word → State → Result) : Result :=
  withEA s o preOnly fun a s1 => withRead s1 a k

/-- The addresses the computation reads: the indirect word's. -/
def State.eaReads (s : State) (o : Address) (preOnly : Bool) : List Word :=
  if o.ind then [s.pointer o preOnly] else []

/-- EO, the word at EA. -/
def State.eo (s : State) (o : Address) (preOnly : Bool) : Word := (s.afterEA o preOnly).readWord (s.ea o preOnly)

/-- EA and EO both have a meaning. -/
def State.eoOk (s : State) (o : Address) (preOnly : Bool) : Bool := s.eaOk o preOnly && s.readable (s.ea o preOnly)

/-- The state after EA is computed and EO read. -/
def State.afterEO (s : State) (o : Address) (preOnly : Bool) : State :=
  (s.afterEA o preOnly).afterRead (s.ea o preOnly)

/-! ## Registers of format I-A -/

/-- The file index of the r operand: the active mode's register, or the inactive mode's with `#` (30_encoding
R114). -/
def State.refIndex (s : State) (g : RegRef) : BitVec 4 := fileIndex (g.alt != s.worker) g.num

/-- `R` (40_format_IA R150). -/
def State.ref (s : State) (g : RegRef) : Word := s.file (s.refIndex g)

/-- `a = R ; b = EO`, then the rest of the instruction: EA, the register, the operand, in that order (40_format_IA R150,
R151; log 33). -/
def withOperands (s : State) (g : RegRef) (o : Address) (k : Word → Word → State → Result) : Result :=
  withEA s o false fun ea s1 =>
    let a := s1.ref g
    withRead s1 ea fun b s2 => k a b s2

/-- `R <- v`. -/
def State.setRef (s : State) (g : RegRef) (v : Word) : State := s.setFile (s.refIndex g) v

/-- The memory address of R, 0x80 + i; the register pair is the words there and at the next address (10_state R22,
R23). -/
def State.refAddress (s : State) (g : RegRef) : Word := 0x80#16 + (s.refIndex g).setWidth 16

/-- `RP <- v` (40_format_IA R150). -/
def State.setPair (s : State) (g : RegRef) (v : DWord) : State := s.store2 (s.refAddress g) v

/-- `R <- v ; SetCB(R) ; ctr <- next`, the end of the load and logical instructions. -/
def State.loadRef (s : State) (g : RegRef) (v : Word) : State := ((s.setRef g v).setCB v).advance

/-- `MemWrite(a, 1, v) ; SetCB(v) ; ctr <- next`, the end of the storing instructions. -/
def State.storeWord (s : State) (a v : Word) : State := ((s.store a v).setCB v).advance

/-- The double-length counterpart; the most significant word is tested (10_state R40). -/
def State.storeDouble (s : State) (a : Word) (v : DWord) : State :=
  ((s.store2 a v).setCB (v.extractLsb' 16 16)).advance

/-! ## Counts and shifts -/

/-- The count in bits 12-15 of register r, 0 standing for 16 (40_format_IA R173). -/
def shiftCount16 (r : Word) : Nat := if r.toNat % 16 = 0 then 16 else r.toNat % 16

/-- The count in bits 11-15 of register r, 0 standing for 32 (40_format_IA R162). -/
def shiftCount32 (r : Word) : Nat := if r.toNat % 32 = 0 then 32 else r.toNat % 32

/-- `ov` of ShlA: the bits t<0> to t<c> are not all equal, t being the operand followed by a 0 bit (40_format_IA
R186). -/
def shiftOverflow {w : Nat} (v : BitVec w) (c : Nat) : Bool :=
  (List.range (c + 1)).any fun i => v.getMsbD i != v.getMsbD 0

/-- The number of leading 0 bits, 16 for a zero word (40_format_IA R182). -/
def leadingZeros (v : Word) : Nat := ((List.range 16).takeWhile fun i => !v.getMsbD i).length

/-- The number of bits that are 1 (40_format_IA R169). -/
def onesTally (v : Word) : Word := BitVec.ofNat 16 ((List.range 16).countP fun i => v.getMsbD i)

/-! ## Groups II and III -/

/-- `A1`, `A2`: displacement plus base register of the executing mode (30_encoding R121). -/
def State.baseAddress (s : State) (q : BaseDisp) : Word := q.disp.setWidth 16 + s.x q.base

/-- A base register of group III: the active mode's, or with am the inactive mode's (45_format_III R260). -/
def State.groupBase (s : State) (alt : Bool) (r : RegNum) : Word := s.modeReg (alt != s.worker) r

/-- `FA`, the flag word's address (45_format_III R260). -/
def State.flagAddress (s : State) (alt : Bool) (m : BitVec 10) : Word := m.setWidth 16 + s.groupBase alt 6

/-- `CA(d)`, a CRU line address, modulo 4096 (45_format_III R260). -/
def State.lineAddress (s : State) (alt : Bool) (d : BitVec 10) : Line :=
  (d.setWidth 16 + s.groupBase alt 7).setWidth 12

/-- The data word's address of LDCR and STCR (45_format_III R272, R273). -/
def State.dataAddress (s : State) (alt : Bool) (n : BitVec 10) : Word := n.setWidth 16 + s.groupBase alt 4

/-- `ctr <- zext_10(n) + x[5]`, the branch of BFNE and BBNE (30_encoding R126). -/
def State.branchBase5 (s : State) (n : BitVec 10) : State := s.setCtr (n.setWidth 16 + s.x 5)

/-- "a mode change is forced": MI toggles and the counter that addressed the instruction is left (45_format_III
R260). -/
def State.toggleMode (s : State) : State := s.setWorker (!s.worker)

/-- Line i of a CRU field, modulo 4096 (45_format_III R272). -/
def fieldLine (a : Line) (i : Nat) : Line := a + BitVec.ofNat 12 i

/-- Output a field: word bit 15 - i to line i, for i from 0 in ascending order (45_format_III R272). -/
def State.outputField (s : State) (a : Line) (width : Nat) (d : Word) : State :=
  (List.range width).foldl (fun t i => t.outputLine (fieldLine a i) (d.getMsbD (15 - i))) s

/-- Input a field, sign-extended: line i to word bit 15 - i, and the highest line into the bits to the left
(45_format_III R273). -/
def State.inputField (s : State) (a : Line) (width : Nat) : Word :=
  (List.range 16).foldl (fun f i => putBit f (15 - i) (s.inputLine (fieldLine a (min i (width - 1))))) 0

end Sys2Proof.Machine
end

