-- ==== Sys2Proof/Machine/Branch.lean ====
section
/-! DEFINITION. Branches, linkage and NOP (40_format_IA, 41_format_IB, 42_format_IC, 43_format, 44_format_II). -/

namespace Sys2Proof.Machine

/-- BL: `R <- cur`, then branch to EA (40_format_IA R153). -/
def execBl (g : RegRef) (o : Address) (s : State) : Result :=
  withEA s o false fun t s1 => .next ((s1.setRef g s1.ctr).setCtr t)

/-- *BL: `R <- cur`, then branch to EO, always pre-indexed (40_format_IA R154). -/
def execBlInd (g : RegRef) (o : Address) (s : State) : Result :=
  withEO s o true fun t s1 => .next ((s1.setRef g s1.ctr).setCtr t)

/-- BC: branch to EA if the status bit is 1, tested after EA is computed (41_format_IB R200; DESIGN CHOICE, log
33). -/
def execBc (bit : BitVec 4) (o : Address) (s : State) : Result :=
  withEA s o false fun t s1 => .next (if s1.stBit bit.toNat then s1.setCtr t else s1.advance)

/-- *BC: branch to EO, always pre-indexed, if the status bit is 1; the bit is tested after EA is
computed (DESIGN CHOICE, log 33), EO read only if it is 1 (log 19) (41_format_IB R201). -/
def execBcInd (bit : BitVec 4) (o : Address) (s : State) : Result :=
  withEA s o true fun a s1 =>
    if s1.stBit bit.toNat then withRead s1 a fun t s2 => .next (s2.setCtr t) else .next s1.advance

/-- B: branch to EA, plus register 5 if rq (42_format_IC R215). -/
def execB (o : Address) (rq : Bool) (s : State) : Result :=
  withEA s o false fun t s1 => .next (s1.setCtr (t + s1.bias s1.worker rq))

/-- *B: branch to EO, always pre-indexed, plus register 5 if rq, read after EO (42_format_IC R216; DESIGN CHOICE, log
33). -/
def execBInd (o : Address) (rq : Bool) (s : State) : Result :=
  withEO s o true fun t s1 => .next (s1.setCtr (t + s1.bias s1.worker rq))

/-- NOP: the counter advances (42_format_IC R218). -/
def execNop (s : State) : Result :=
  .next s.advance

/-- ARB: add to the index register, branch if its sign does not change; the register is written before
register 5 is read (43_format R240). IB keeps the second word, n, with rq too: a DESIGN CHOICE, the spec does not say
whether n + register 5 comes to stand in IB (10_state R47; log 17). -/
def execArb (addend : BitVec 4) (n : Word) (xr : RegNum) (rq : Bool) (s : State) : Result :=
  let old := s.x xr
  let new := old + addend.signExtend 16
  let s1 := (s.setX xr new).setCB new
  .next (if new.getMsbD 0 = old.getMsbD 0 then s1.setCtr (n + s1.bias s1.worker rq) else s1.advance)

/-- BRRL: link relative to the base register, then branch relative to it; the base is read once (44_format_II R254). -/
def execBrrl (r : RegNum) (q : BaseDisp) (s : State) : Result :=
  let base := s.x q.base
  let link := if s.config.brrlLinkUpdated then s.next else s.ctr
  .next ((s.setX r (link - base)).setCtr (q.disp.setWidth 16 + base))

end Sys2Proof.Machine
end

