-- ==== Sys2Proof/Machine/Device.lean ====
section
/-! DEFINITION. Software flags, the CRU, the DMAC command and the panel switches (45_format_III, 43_format). -/

namespace Sys2Proof.Machine

/-- SETF: set one bit of the flag word; CB only under `SETF_WRITES_CB` (45_format_III R265). -/
def execSetf (alt : Bool) (m : BitVec 10) (bit : BitVec 4) (v : Bool) (s : State) : Result :=
  let fa := s.flagAddress alt m
  withRead s fa fun w s1 =>
    let v' := putBit w bit.toNat v
    let s2 := s1.store fa v'
    .next (if s2.config.setfWritesCB then s2.setCB v' else s2).advance

/-- XFNE: switch modes if the flag differs, leaving the counter (45_format_III R266). -/
def execXfne (alt : Bool) (m : BitVec 10) (bit : BitVec 4) (v : Bool) (s : State) : Result :=
  withRead s (s.flagAddress alt m) fun w s1 =>
    .next (if w.getMsbD bit.toNat = v then s1.advance else s1.toggleMode)

/-- BFNE: branch from register 5 if the flag differs (45_format_III R267). -/
def execBfne (alt : Bool) (m : BitVec 10) (bit : BitVec 4) (v : Bool) (n : BitVec 10) (s : State) : Result :=
  withRead s (s.flagAddress alt m) fun w s1 =>
    .next (if w.getMsbD bit.toNat = v then s1.advance else s1.branchBase5 n)

/-- SETB: set a CRU output line (45_format_III R268). -/
def execSetb (alt : Bool) (m : BitVec 10) (v : Bool) (s : State) : Result :=
  .next ((s.outputLine (s.lineAddress alt m) v).advance)

/-- XBNE: switch modes if the input line differs, leaving the counter (45_format_III R269). -/
def execXbne (alt : Bool) (m : BitVec 10) (v : Bool) (s : State) : Result :=
  .next (if s.inputLine (s.lineAddress alt m) = v then s.advance else s.toggleMode)

/-- BBNE: branch from register 5 if the input line differs (45_format_III R270). -/
def execBbne (alt : Bool) (m : BitVec 10) (v : Bool) (n : BitVec 10) (s : State) : Result :=
  .next (if s.inputLine (s.lineAddress alt m) = v then s.advance else s.branchBase5 n)

/-- TSBX: if the input line is as tested, set the output line; else switch modes, or with am just go on
(45_format_III R271). -/
def execTsbx (alt : Bool) (m : BitVec 10) (v : Bool) (n : BitVec 10) (ob : Bool) (s : State) : Result :=
  .next (
    if s.inputLine (s.lineAddress alt m) = v then (s.outputLine (s.lineAddress alt n) ob).advance
    else if alt then s.advance
    else s.toggleMode)

/-- LDCR: a field of a memory word to consecutive output lines (45_format_III R272). -/
def execLdcr (alt : Bool) (m : BitVec 10) (width : Nat) (n : BitVec 10) (s : State) : Result :=
  withRead s (s.dataAddress alt n) fun w s1 =>
    .next ((s1.outputField (s1.lineAddress alt m) width w).advance)

/-- STCR: consecutive input lines into a memory word, sign-extended (45_format_III R273). -/
def execStcr (alt : Bool) (m : BitVec 10) (width : Nat) (n : BitVec 10) (s : State) : Result :=
  .next (s.storeWord (s.dataAddress alt n) (s.inputField (s.lineAddress alt m) width))

/-- ADAC: a command to the DMAC, the ten bits as they stand and, where `ADAC_FIELDS` is given, its two fields; nothing
else changes (43_format R241; log 24). -/
def execAdac (aq : BitVec 10) (n : Word) (s : State) : Result :=
  .next ({ s with outbox := s.outbox ++ [Output.dmac aq n (s.config.adacParts aq)] }.advance)

/-- STPS: the DATA switches into memory (43_format R242). -/
def execStps (o : Address) (s : State) : Result :=
  withEA s o false fun a s1 => .next (s1.storeWord a s1.switches)

end Sys2Proof.Machine
end

