-- ==== Sys2Proof/Machine/MemMem.lean ====
section
/-! DEFINITION. The memory instructions of format group II (44_format_II). Both addresses are computed from the state
before the first access: the base registers are read first (R250). -/

namespace Sys2Proof.Machine

/-- The three outcomes of CM, CML and CMI: less, greater, equal or within (44_format_II R250). -/
def State.skipOn (s : State) (c : Comparison) : State :=
  match c with
  | .less => s.advance
  | .greater => s.skip 1
  | .equal => s.skip 2

/-- A signed value against two limits, the lower tested first (44_format_II R252; 92_eei_decisions D29). -/
def compareLimits (a lo hi : Word) : Comparison :=
  if a.toInt < lo.toInt then .less else if hi.toInt < a.toInt then .greater else .equal

/-- CM: signed comparison of two memory words (44_format_II R251). -/
def execCm (p q : BaseDisp) (s : State) : Result :=
  withRead s (s.baseAddress p) fun a s1 => withRead s1 (s.baseAddress q) fun b s2 =>
    .next (s2.skipOn (compareSigned a b))

/-- CML: a memory word against a lower and an upper limit; all three words are read (44_format_II R252). -/
def execCml (p q : BaseDisp) (s : State) : Result :=
  withRead s (s.baseAddress p) fun a s1 =>
    let a2 := s.baseAddress q
    withRead s1 a2 fun lo s2 => withRead s2 (a2 + 1#16) fun hi s3 => .next (s3.skipOn (compareLimits a lo hi))

/-- MOV: operand 1 into operand 2 (44_format_II R253). -/
def execMov (p q : BaseDisp) (s : State) : Result :=
  withRead s (s.baseAddress p) fun v s1 => .next (s1.storeWord (s.baseAddress q) v)

/-- AMI: add the sign-extended immediate to a memory word, OI, CO, CB (44_format_II R255). -/
def execAmi (p : BaseDisp) (imm : BitVec 13) (s : State) : Result :=
  let a1 := s.baseAddress p
  withRead s a1 fun a s1 =>
    let b := imm.signExtend 16
    .next (((s1.store a1 (a + b)).setAddFlags a b).advance)

/-- CMI: signed comparison of a memory word with the sign-extended immediate (44_format_II R256). -/
def execCmi (p : BaseDisp) (imm : BitVec 13) (s : State) : Result :=
  withRead s (s.baseAddress p) fun a s1 => .next (s1.skipOn (compareSigned a (imm.signExtend 16)))

end Sys2Proof.Machine
end

