-- ==== Sys2Proof/Machine/MulDiv.lean ====
section
/-! DEFINITION. The multiply, divide and double-length instructions of format I-A, all optional (40_format_IA). -/

namespace Sys2Proof.Machine

/-- What D and DA leave after an overflow or a zero divisor: OI = 1; the pair and CB hold free values, CB one-hot
(40_format_IA R159; log 9). -/
def State.divideOverflow (s : State) (g : RegRef) : State :=
  let pair := Config.freeWord s.freeNext ++ Config.freeWord (s.freeNext + 1)
  let s1 := ((s.setPair g pair).setOI true).setComparison (Config.freeComparison s.freeNext)
  { s1 with freeNext := s1.freeNext + 2 }.advance

/-- The quotient of a division, truncated toward zero (92_eei_decisions D16). -/
def quotient (dividend : DWord) (divisor : Word) : Int := dividend.toInt.tdiv divisor.toInt

/-- The remainder, with the sign of the dividend (92_eei_decisions D16). -/
def remainder (dividend : DWord) (divisor : Word) : Word := BitVec.ofInt 16 (dividend.toInt.tmod divisor.toInt)

/-- The division has no result that fits: a zero divisor, or a quotient outside 16 signed bits (40_format_IA R159). -/
def divideFails (dividend : DWord) (divisor : Word) : Bool :=
  decide (divisor = 0) || overflows16 (quotient dividend divisor)

/-- The end of D and DA, once the dividend and the divisor are read (40_format_IA R159). -/
def State.divide (s : State) (g : RegRef) (dividend : DWord) (divisor : Word) : State :=
  if divideFails dividend divisor then s.divideOverflow g
  else
    let rem := remainder dividend divisor
    (((s.setPair g (rem ++ BitVec.ofInt 16 (quotient dividend divisor))).setOI false).setCB rem).advance

/-- The signed 32-bit product (92_eei_decisions D17). -/
def product (a b : Word) : DWord := BitVec.ofInt 32 (a.toInt * b.toInt)

/-- The end of M and MA, once the factors are read (40_format_IA R171). -/
def State.multiply (s : State) (g : RegRef) (a b : Word) : State :=
  let p := product a b
  ((s.setPair g p).setCB (p.extractLsb' 16 16)).advance

/-- The end of DAD and DS: the pair, OI, and CB from the most significant word (40_format_IA R161, R166). -/
def State.doubleResult (s : State) (g : RegRef) (v : DWord) (exact : Int) : State :=
  (((s.setPair g v).setOI (overflows32 exact)).setCB (v.extractLsb' 16 16)).advance

/-- D: the pair, read first, divided by EO (40_format_IA R159). -/
def execD (g : RegRef) (o : Address) (s : State) : Result :=
  withArithOption s fun s => withEA s o false fun ea s1 =>
    withRead2 s1 (s1.refAddress g) fun a s2 => withRead s2 ea fun b s3 => .next (s3.divide g a b)

/-- DA: the pair divided by EA (40_format_IA R160). -/
def execDa (g : RegRef) (o : Address) (s : State) : Result :=
  withArithOption s fun s => withEA s o false fun b s1 =>
    withRead2 s1 (s1.refAddress g) fun a s2 => .next (s2.divide g a b)

/-- M: R times EO into the pair (40_format_IA R171). -/
def execM (g : RegRef) (o : Address) (s : State) : Result :=
  withArithOption s fun s => withOperands s g o fun a b s1 => .next (s1.multiply g a b)

/-- MA: R times EA into the pair (40_format_IA R172). -/
def execMa (g : RegRef) (o : Address) (s : State) : Result :=
  withArithOption s fun s => withEA s o false fun b s1 => .next (s1.multiply g (s1.ref g) b)

/-- DAD: the pair plus the double word at EA (40_format_IA R161). -/
def execDad (g : RegRef) (o : Address) (s : State) : Result :=
  withArithOption s fun s => withEA s o false fun ea s1 =>
    withRead2 s1 (s1.refAddress g) fun a s2 => withRead2 s2 ea fun b s3 =>
      .next (s3.doubleResult g (a + b) (a.toInt + b.toInt))

/-- DS: the pair minus the double word at EA (40_format_IA R166). -/
def execDs (g : RegRef) (o : Address) (s : State) : Result :=
  withArithOption s fun s => withEA s o false fun ea s1 =>
    withRead2 s1 (s1.refAddress g) fun a s2 => withRead2 s2 ea fun b s3 =>
      .next (s3.doubleResult g (a - b) (a.toInt - b.toInt))

end Sys2Proof.Machine
end

