-- ==== Sys2Proof/Machine/RegMem.lean ====
section
/-! DEFINITION. The plain register-memory instructions of format I-A: arithmetic, comparison, logic, load, store, tally
(40_format_IA). -/

namespace Sys2Proof.Machine

/-- A: `R <- R + EO`, OI, CO, CB (40_format_IA R151). -/
def execA (g : RegRef) (o : Address) (s : State) : Result :=
  withOperands s g o fun a b s1 => .next (((s1.setRef g (a + b)).setAddFlags a b).advance)

/-- AA: `R <- R + EA`, OI, CO, CB (40_format_IA R152). -/
def execAa (g : RegRef) (o : Address) (s : State) : Result :=
  withEA s o false fun b s1 =>
    .next (((s1.setRef g (s1.ref g + b)).setAddFlags (s1.ref g) b).advance)

/-- S: `R <- R - EO`, OI, CO, CB (40_format_IA R180). -/
def execS (g : RegRef) (o : Address) (s : State) : Result :=
  withOperands s g o fun a b s1 => .next (((s1.setRef g (a - b)).setSubFlags a b).advance)

/-- SA: `R <- R - EA`, OI, CO, CB (40_format_IA R181). -/
def execSa (g : RegRef) (o : Address) (s : State) : Result :=
  withEA s o false fun b s1 =>
    .next (((s1.setRef g (s1.ref g - b)).setSubFlags (s1.ref g) b).advance)

/-- CR: signed comparison of R with EO (40_format_IA R155). -/
def execCr (g : RegRef) (o : Address) (s : State) : Result :=
  withOperands s g o fun a b s1 => .next ((s1.setComparison (compareSigned a b)).advance)

/-- CRL: unsigned comparison of R with EO (40_format_IA R157). -/
def execCrl (g : RegRef) (o : Address) (s : State) : Result :=
  withOperands s g o fun a b s1 => .next ((s1.setComparison (compareUnsigned a b)).advance)

/-- CRA: signed comparison of R with EA (40_format_IA R156). -/
def execCra (g : RegRef) (o : Address) (s : State) : Result :=
  withEA s o false fun b s1 => .next ((s1.setComparison (compareSigned (s1.ref g) b)).advance)

/-- CRLA: unsigned comparison of R with EA (40_format_IA R158). -/
def execCrla (g : RegRef) (o : Address) (s : State) : Result :=
  withEA s o false fun b s1 => .next ((s1.setComparison (compareUnsigned (s1.ref g) b)).advance)

/-- L: `R <- EO` (40_format_IA R167). -/
def execL (g : RegRef) (o : Address) (s : State) : Result :=
  withEO s o false fun b s1 => .next (s1.loadRef g b)

/-- LA: `R <- EA` (40_format_IA R168). -/
def execLa (g : RegRef) (o : Address) (s : State) : Result :=
  withEA s o false fun b s1 => .next (s1.loadRef g b)

/-- LOT: the number of ones of EO (40_format_IA R169). -/
def execLot (g : RegRef) (o : Address) (s : State) : Result :=
  withEO s o false fun b s1 => .next (s1.loadRef g (onesTally b))

/-- LOTA: the number of ones of EA (40_format_IA R170). -/
def execLota (g : RegRef) (o : Address) (s : State) : Result :=
  withEA s o false fun b s1 => .next (s1.loadRef g (onesTally b))

/-- N: `R <- R AND EO` (40_format_IA R176). -/
def execN (g : RegRef) (o : Address) (s : State) : Result :=
  withOperands s g o fun a b s1 => .next (s1.loadRef g (a &&& b))

/-- NA: `R <- R AND EA` (40_format_IA R177). -/
def execNa (g : RegRef) (o : Address) (s : State) : Result :=
  withEA s o false fun b s1 => .next (s1.loadRef g (s1.ref g &&& b))

/-- OR: `R <- R OR EO` (40_format_IA R178). -/
def execOr (g : RegRef) (o : Address) (s : State) : Result :=
  withOperands s g o fun a b s1 => .next (s1.loadRef g (a ||| b))

/-- ORA: `R <- R OR EA` (40_format_IA R179). -/
def execOra (g : RegRef) (o : Address) (s : State) : Result :=
  withEA s o false fun b s1 => .next (s1.loadRef g (s1.ref g ||| b))

/-- XOR: `R <- R XOR EO` (40_format_IA R184). -/
def execXor (g : RegRef) (o : Address) (s : State) : Result :=
  withOperands s g o fun a b s1 => .next (s1.loadRef g (a ^^^ b))

/-- XORA: `R <- R XOR EA` (40_format_IA R185). -/
def execXora (g : RegRef) (o : Address) (s : State) : Result :=
  withEA s o false fun b s1 => .next (s1.loadRef g (s1.ref g ^^^ b))

/-- ST: the register into memory at EA (40_format_IA R183). -/
def execSt (g : RegRef) (o : Address) (s : State) : Result :=
  withEA s o false fun a s1 => .next (s1.storeWord a (s1.ref g))

/-- SAT: normalise the word at EA, dropping its leading one, and add the number of places to R; the
memory write comes before the register is read (log 18). CO and CB are written, OI is not (40_format_IA R182). -/
def execSat (g : RegRef) (o : Address) (s : State) : Result :=
  withEA s o false fun a s1 => withRead s1 a fun v s2 =>
    let c := BitVec.ofNat 16 (leadingZeros v)
    let s3 := s2.store a (putBit (v <<< leadingZeros v) 0 false)
    .next ((((s3.setRef g (s3.ref g + c)).setCO (carryOut (s3.ref g) c)).setCB (s3.ref g + c)).advance)

end Sys2Proof.Machine
end

