-- ==== Sys2Proof/Machine/Shift.lean ====
section
/-! DEFINITION. The memory shifts, with the count in the instruction (41_format_IB) or in a register
(40_format_IA); a count in a register is read before the operand, as its rule lists it (log 33). -/

namespace Sys2Proof.Machine

/-- The left shift of the word v at address a: OI when the sign changes (40_format_IA R173, 41_format_IB R206). -/
def State.shiftLeft (s : State) (a v : Word) (c : Nat) : State := (s.setOI (shiftOverflow v c)).storeWord a (v <<< c)

/-- The double left shift (40_format_IA R162, 41_format_IB R202). -/
def State.shiftLeft2 (s : State) (a : Word) (v : DWord) (c : Nat) : State :=
  (s.setOI (shiftOverflow v c)).storeDouble a (v <<< c)

/-- MLA: the word at EA, left, arithmetic, by the count of the instruction (41_format_IB R206). -/
def execMla (count : Nat) (o : Address) (s : State) : Result :=
  withEA s o false fun a s1 => withRead s1 a fun v s2 =>
    .next (s2.shiftLeft a v count)

/-- MLAX: the word at EA, left, arithmetic, by the count in R (40_format_IA R173). -/
def execMlax (g : RegRef) (o : Address) (s : State) : Result :=
  withEA s o false fun a s1 =>
    let c := shiftCount16 (s1.ref g)
    withRead s1 a fun v s2 => .next (s2.shiftLeft a v c)

/-- MRA: the word at EA, right, arithmetic, by the count of the instruction (41_format_IB R207). -/
def execMra (count : Nat) (o : Address) (s : State) : Result :=
  withEA s o false fun a s1 => withRead s1 a fun v s2 =>
    .next (s2.storeWord a (v.sshiftRight count))

/-- MRAX: the word at EA, right, arithmetic, by the count in R (40_format_IA R174). -/
def execMrax (g : RegRef) (o : Address) (s : State) : Result :=
  withEA s o false fun a s1 =>
    let c := shiftCount16 (s1.ref g)
    withRead s1 a fun v s2 => .next (s2.storeWord a (v.sshiftRight c))

/-- MRR: the word at EA, right, rotating, by the count of the instruction (41_format_IB R208). -/
def execMrr (count : Nat) (o : Address) (s : State) : Result :=
  withEA s o false fun a s1 => withRead s1 a fun v s2 =>
    .next (s2.storeWord a (v.rotateRight count))

/-- MRRX: the word at EA, right, rotating, by the count in R (40_format_IA R175). -/
def execMrrx (g : RegRef) (o : Address) (s : State) : Result :=
  withEA s o false fun a s1 =>
    let c := shiftCount16 (s1.ref g)
    withRead s1 a fun v s2 => .next (s2.storeWord a (v.rotateRight c))

/-- DLA: the double word at EA, left, arithmetic, by the count of the instruction (41_format_IB R202). -/
def execDla (count : Nat) (o : Address) (s : State) : Result :=
  withArithOption s fun s => withEA s o false fun a s1 => withRead2 s1 a fun v s2 =>
    .next (s2.shiftLeft2 a v count)

/-- DLAX: the double word at EA, left, arithmetic, by the count in R (40_format_IA R162). -/
def execDlax (g : RegRef) (o : Address) (s : State) : Result :=
  withArithOption s fun s => withEA s o false fun a s1 =>
    let c := shiftCount32 (s1.ref g)
    withRead2 s1 a fun v s2 => .next (s2.shiftLeft2 a v c)

/-- DRA: the double word at EA, right, arithmetic, by the count of the instruction (41_format_IB R203). -/
def execDra (count : Nat) (o : Address) (s : State) : Result :=
  withArithOption s fun s => withEA s o false fun a s1 => withRead2 s1 a fun v s2 =>
    .next (s2.storeDouble a (v.sshiftRight count))

/-- DRAX: the double word at EA, right, arithmetic, by the count in R (40_format_IA R163). -/
def execDrax (g : RegRef) (o : Address) (s : State) : Result :=
  withArithOption s fun s => withEA s o false fun a s1 =>
    let c := shiftCount32 (s1.ref g)
    withRead2 s1 a fun v s2 => .next (s2.storeDouble a (v.sshiftRight c))

/-- DRL: the double word at EA, right, logical, by the count of the instruction (41_format_IB R204). -/
def execDrl (count : Nat) (o : Address) (s : State) : Result :=
  withArithOption s fun s => withEA s o false fun a s1 => withRead2 s1 a fun v s2 =>
    .next (s2.storeDouble a (v >>> count))

/-- DRLX: the double word at EA, right, logical, by the count in R (40_format_IA R164). -/
def execDrlx (g : RegRef) (o : Address) (s : State) : Result :=
  withArithOption s fun s => withEA s o false fun a s1 =>
    let c := shiftCount32 (s1.ref g)
    withRead2 s1 a fun v s2 => .next (s2.storeDouble a (v >>> c))

/-- DRR: the double word at EA, right, rotating, by the count of the instruction (41_format_IB R205). -/
def execDrr (count : Nat) (o : Address) (s : State) : Result :=
  withArithOption s fun s => withEA s o false fun a s1 => withRead2 s1 a fun v s2 =>
    .next (s2.storeDouble a (v.rotateRight count))

/-- DRRX: the double word at EA, right, rotating, by the count in R (40_format_IA R165). -/
def execDrrx (g : RegRef) (o : Address) (s : State) : Result :=
  withArithOption s fun s => withEA s o false fun a s1 =>
    let c := shiftCount32 (s1.ref g)
    withRead2 s1 a fun v s2 => .next (s2.storeDouble a (v.rotateRight c))

end Sys2Proof.Machine
end

