-- ==== Sys2Proof/Machine/StatusBlock.lean ====
section
/-! DEFINITION. Status blocks and mode transfers of format I-C (42_format_IC). -/

namespace Sys2Proof.Machine

/-- LDS: the active counter, then the status register, from the block at EA (42_format_IC R217). With rq, register 5 is
read after EO, as *B reads it (DESIGN CHOICE, log 33); a cause bit set since the block was stored is lost, its request
kept (DESIGN CHOICE, log 34). -/
def execLds (o : Address) (rq : Bool) (s : State) : Result :=
  withEA s o false fun a s1 => loadStatusBlock s1 a rq

/-- SS: store the status block (42_format_IC R219). -/
def execSs (o : Address) (rq : Bool) (s : State) : Result :=
  withEA s o false fun a s1 => .next ((s1.storeStatusBlock a (s1.next - s1.bias s1.worker rq)).advance)

/-- SSB: store the status block and branch through EA + 2 (42_format_IC R220). -/
def execSsb (o : Address) (rq : Bool) (s : State) : Result :=
  withEA s o false fun a s1 =>
    let b := s1.bias s1.worker rq
    withRead (s1.storeStatusBlock a (s1.next - b)) (a + 2#16) fun t s2 => .next (s2.setCtr (t + b))

/-- SXBS: store the status block, transfer to Supervisor Mode, branch through EA + 2 (42_format_IC R221). -/
def execSxbs (o : Address) (rq : Bool) (s : State) : Result :=
  withEA s o false fun a s1 =>
    let b := s1.bias false rq
    withRead ((s1.storeStatusBlock a (s1.sxLink false - b)).transfer false) (a + 2#16) fun t s2 =>
      .next (s2.setCounter false (t + b))

/-- SXBW: store the status block, transfer to Worker Mode, branch through EA + 2 (42_format_IC R222). -/
def execSxbw (o : Address) (rq : Bool) (s : State) : Result :=
  withEA s o false fun a s1 =>
    let b := s1.bias true rq
    withRead ((s1.storeStatusBlock a (s1.sxLink true - b)).transfer true) (a + 2#16) fun t s2 =>
      .next (s2.setCounter true (t + b))

/-- SXS: store the status block and transfer to Supervisor Mode (42_format_IC R223). -/
def execSxs (o : Address) (rq : Bool) (s : State) : Result :=
  withEA s o false fun a s1 =>
    .next ((s1.storeStatusBlock a (s1.sxLink false - s1.bias false rq)).transfer false)

/-- SXW: store the status block and transfer to Worker Mode (42_format_IC R224). -/
def execSxw (o : Address) (rq : Bool) (s : State) : Result :=
  withEA s o false fun a s1 =>
    .next ((s1.storeStatusBlock a (s1.sxLink true - s1.bias true rq)).transfer true)

/-- XS: transfer to Supervisor Mode (42_format_IC R225). -/
def execXs (s : State) : Result :=
  .next (s.transfer false)

/-- XW: transfer to Worker Mode (42_format_IC R228). -/
def execXw (s : State) : Result :=
  .next (s.transfer true)

/-- XSB: transfer to Supervisor Mode at EA (42_format_IC R226). -/
def execXsb (o : Address) (rq : Bool) (s : State) : Result :=
  withEA s o false fun t s1 => .next ((s1.transfer false).setCounter false (t + s1.bias false rq))

/-- *XSB: transfer to Supervisor Mode at EO; with rq, register 5 is read after EO (42_format_IC R227; DESIGN CHOICE, log
33). -/
def execXsbInd (o : Address) (rq : Bool) (s : State) : Result :=
  withEO s o false fun t s1 => .next ((s1.transfer false).setCounter false (t + s1.bias false rq))

/-- XWB: transfer to Worker Mode at EA (42_format_IC R229). -/
def execXwb (o : Address) (rq : Bool) (s : State) : Result :=
  withEA s o false fun t s1 => .next ((s1.transfer true).setCounter true (t + s1.bias true rq))

/-- *XWB: transfer to Worker Mode at EO; with rq, register 5 is read after EO (42_format_IC R230; DESIGN CHOICE, log
33). -/
def execXwbInd (o : Address) (rq : Bool) (s : State) : Result :=
  withEO s o false fun t s1 => .next ((s1.transfer true).setCounter true (t + s1.bias true rq))

end Sys2Proof.Machine
end

