-- ==== Sys2Proof/Machine/Dispatch.lean ====
section
/-! DEFINITION. The meaning of an instruction: one arm per constructor, one direct call each. -/

namespace Sys2Proof.Machine

/-- Execute an instruction: the counter still addresses it. -/
def exec (i : Instr) (s : State) : Host.Outcome State Fault Refusal :=
  match i with
  | .a g o => Sys2Proof.Machine.execA g o s
  | .aa g o => Sys2Proof.Machine.execAa g o s
  | .bl g o => Sys2Proof.Machine.execBl g o s
  | .blInd g o => Sys2Proof.Machine.execBlInd g o s
  | .cr g o => Sys2Proof.Machine.execCr g o s
  | .cra g o => Sys2Proof.Machine.execCra g o s
  | .crl g o => Sys2Proof.Machine.execCrl g o s
  | .crla g o => Sys2Proof.Machine.execCrla g o s
  | .d g o => Sys2Proof.Machine.execD g o s
  | .da g o => Sys2Proof.Machine.execDa g o s
  | .dad g o => Sys2Proof.Machine.execDad g o s
  | .dlax g o => Sys2Proof.Machine.execDlax g o s
  | .drax g o => Sys2Proof.Machine.execDrax g o s
  | .drlx g o => Sys2Proof.Machine.execDrlx g o s
  | .drrx g o => Sys2Proof.Machine.execDrrx g o s
  | .ds g o => Sys2Proof.Machine.execDs g o s
  | .l g o => Sys2Proof.Machine.execL g o s
  | .la g o => Sys2Proof.Machine.execLa g o s
  | .lot g o => Sys2Proof.Machine.execLot g o s
  | .lota g o => Sys2Proof.Machine.execLota g o s
  | .m g o => Sys2Proof.Machine.execM g o s
  | .ma g o => Sys2Proof.Machine.execMa g o s
  | .mlax g o => Sys2Proof.Machine.execMlax g o s
  | .mrax g o => Sys2Proof.Machine.execMrax g o s
  | .mrrx g o => Sys2Proof.Machine.execMrrx g o s
  | .n g o => Sys2Proof.Machine.execN g o s
  | .na g o => Sys2Proof.Machine.execNa g o s
  | .or g o => Sys2Proof.Machine.execOr g o s
  | .ora g o => Sys2Proof.Machine.execOra g o s
  | .s g o => Sys2Proof.Machine.execS g o s
  | .sa g o => Sys2Proof.Machine.execSa g o s
  | .sat g o => Sys2Proof.Machine.execSat g o s
  | .st g o => Sys2Proof.Machine.execSt g o s
  | .xor g o => Sys2Proof.Machine.execXor g o s
  | .xora g o => Sys2Proof.Machine.execXora g o s
  | .bc bit o => Sys2Proof.Machine.execBc bit o s
  | .bcInd bit o => Sys2Proof.Machine.execBcInd bit o s
  | .dla count o => Sys2Proof.Machine.execDla count o s
  | .dra count o => Sys2Proof.Machine.execDra count o s
  | .drl count o => Sys2Proof.Machine.execDrl count o s
  | .drr count o => Sys2Proof.Machine.execDrr count o s
  | .mla count o => Sys2Proof.Machine.execMla count o s
  | .mra count o => Sys2Proof.Machine.execMra count o s
  | .mrr count o => Sys2Proof.Machine.execMrr count o s
  | .b o rq => Sys2Proof.Machine.execB o rq s
  | .bInd o rq => Sys2Proof.Machine.execBInd o rq s
  | .lds o rq => Sys2Proof.Machine.execLds o rq s
  | .nop => Sys2Proof.Machine.execNop s
  | .ss o rq => Sys2Proof.Machine.execSs o rq s
  | .ssb o rq => Sys2Proof.Machine.execSsb o rq s
  | .sxbs o rq => Sys2Proof.Machine.execSxbs o rq s
  | .sxbw o rq => Sys2Proof.Machine.execSxbw o rq s
  | .sxs o rq => Sys2Proof.Machine.execSxs o rq s
  | .sxw o rq => Sys2Proof.Machine.execSxw o rq s
  | .xs => Sys2Proof.Machine.execXs s
  | .xsb o rq => Sys2Proof.Machine.execXsb o rq s
  | .xsbInd o rq => Sys2Proof.Machine.execXsbInd o rq s
  | .xw => Sys2Proof.Machine.execXw s
  | .xwb o rq => Sys2Proof.Machine.execXwb o rq s
  | .xwbInd o rq => Sys2Proof.Machine.execXwbInd o rq s
  | .arb addend n xr rq => Sys2Proof.Machine.execArb addend n xr rq s
  | .adac aq n => Sys2Proof.Machine.execAdac aq n s
  | .stps o => Sys2Proof.Machine.execStps o s
  | .cm p q => Sys2Proof.Machine.execCm p q s
  | .cml p q => Sys2Proof.Machine.execCml p q s
  | .mov p q => Sys2Proof.Machine.execMov p q s
  | .brrl r q => Sys2Proof.Machine.execBrrl r q s
  | .ami p imm => Sys2Proof.Machine.execAmi p imm s
  | .cmi p imm => Sys2Proof.Machine.execCmi p imm s
  | .setf alt m bit v => Sys2Proof.Machine.execSetf alt m bit v s
  | .xfne alt m bit v => Sys2Proof.Machine.execXfne alt m bit v s
  | .bfne alt m bit v n => Sys2Proof.Machine.execBfne alt m bit v n s
  | .setb alt m v => Sys2Proof.Machine.execSetb alt m v s
  | .xbne alt m v => Sys2Proof.Machine.execXbne alt m v s
  | .bbne alt m v n => Sys2Proof.Machine.execBbne alt m v n s
  | .tsbx alt m v n ob => Sys2Proof.Machine.execTsbx alt m v n ob s
  | .ldcr alt m width n => Sys2Proof.Machine.execLdcr alt m width n s
  | .stcr alt m width n => Sys2Proof.Machine.execStcr alt m width n s

end Sys2Proof.Machine
end

