-- ==== Sys2Proof/Machine/Cpu.lean ====
section
/-! DEFINITION. The step of the CPU (60_exceptions R340) and the conditions under which it happens. -/

namespace Sys2Proof.Machine

/-- `step()` of 60_exceptions R340: take the highest unmasked interrupt, or else execute the instruction at `ctr`. -/
def cpuStep (s : State) : Result :=
  match s.interrupt with
  | some c => takeInterrupt exec s c
  | none => executeAt exec s s.ctr

/-- The CPU's clock is not stopped: CLOCK OFF stops it, unless the jumper bypasses the switch (60_exceptions R372;
log 32). -/
def State.clockRuns (s : State) : Bool := s.clockOn || !s.config.clockEnabled

/-- The CPU executes: it has been started and not halted, its clock is not stopped and it has power (60_exceptions
R372, R374). -/
def State.active (s : State) : Bool := s.running && s.clockRuns && decide (s.power ≠ .off)

/-- One turn of the CPU: nothing happens while it is halted, stopped or without power. -/
def cpuTurn (during : List MemoryCycle) (s : State) : Result :=
  if s.active then cpuStep (s.withDuring during) else .next s

end Sys2Proof.Machine
end

