-- ==== Sys2Proof/Machine/Panel.lean ====
section
/-! DEFINITION. The agents around the CPU, as events: the operator's panel (10_state R50 to R53), the CRU and the DMAC
(60_exceptions R362 to R366), the memory agent (R336) and the power system (R337, 70_reset R381 to R388). -/

namespace Sys2Proof.Machine

/-- The panel's switches work: it has power and is not locked (10_state R50; log 21). -/
def State.panelLive (s : State) : Bool := !s.locked && decide (s.power ≠ .off)

/-- The switches that work only in HALT work (10_state R50). -/
def State.panelHalted (s : State) : Bool := s.panelLive && !s.running

/-- The sixteen DATA lights: in RUN or SIE the active counter, else the display register (10_state R48; log 28). -/
def State.lights (s : State) : Word := if s.running || s.sie then s.ctr else s.display

/-- A panel write to memory: refused in silence where memory is protected and MPO is off (20_memory R72). -/
def State.panelPut (s : State) (a v : Word) : State := if s.refusesWrite a then s else s.poke a v

/-- Show a value in the display register. -/
def State.showWord (s : State) (v : Word) : State := { s with display := v }

/-- Show the memory word at MA; where no memory is installed, a free value (log 21). -/
def State.showMemory (s : State) : State :=
  if s.readable s.ma then s.showWord (s.peek s.ma)
  else { s.showWord (Config.freeWord s.freeNext) with freeNext := s.freeNext + 1 }

/-- MDI's second half: MA is incremented by one (10_state R50). -/
def State.incrementMA (s : State) : State := { s with ma := s.ma + 1#16 }

/-- A switch pressed to ENTER (10_state R50). IA and IB cannot be entered. The display register stays as it was: a
DESIGN CHOICE, the spec does not say what the lights show after an ENTER (log 28). -/
def State.enter (s : State) (r : PanelSwitch) : State :=
  match r with
  | .pc => { s with pc := s.switches }
  | .ec => { s with ec := s.switches }
  | .st => { s with st := s.switches }
  | .ma => { s with ma := s.switches }
  | .md => s.panelPut s.ma s.switches
  | .mdi => (s.panelPut s.ma s.switches).incrementMA
  | .ia => s
  | .ib => s

/-- A switch pressed to DISPLAY (10_state R47, R50). -/
def State.showRegister (s : State) (r : PanelSwitch) : State :=
  match r with
  | .pc => s.showWord s.pc
  | .ec => s.showWord s.ec
  | .st => s.showWord s.st
  | .ma => s.showWord s.ma
  | .md => s.showMemory
  | .mdi => s.showMemory.incrementMA
  | .ia => s.showWord s.ia
  | .ib => s.showWord s.ib

/-- The RESET switch (10_state R52, 70_reset R381). -/
def State.pressReset (s : State) : State :=
  { s with pc := 0, st := 0, ma := 0, display := 0, pendInternal := false, powerLossLight := false }

/-- ROM words i to i + n - 1 into memory from MA + i on, as panel writes (70_reset R388). That MA and the display
register, which drives the DATA lights in HALT, keep their values is a DESIGN CHOICE: the spec does not say what they
hold after LOAD (logs 22, 28). -/
def State.loadRom (s : State) (i n : Nat) : State :=
  match n with
  | 0 => s
  | n + 1 => State.loadRom (s.panelPut (s.ma + BitVec.ofNat 16 i) (Config.romWord i)) (i + 1) n

/-- START (10_state R51): with MODE in RUN the machine runs; in HALT with SIE on one step is made (60_exceptions
R372); in HALT with SIE off nothing happens. In HALT with SIE on and the clock stopped the press is lost: a DESIGN
CHOICE, the spec says only that nothing executes (70_reset R385; log 21). -/
def pressStart (during : List MemoryCycle) (s : State) : Result :=
  if !s.panelLive then .next s
  else if s.modeRun then .next { s with running := true }
  else if s.sie && s.clockRuns && !s.running then cpuStep (s.withDuring during)
  else .next s

/-- The words of a list, one after another, into memory. -/
def State.pokeAll (s : State) (l : List (Word × Word)) : State := l.foldl (fun t p => t.poke p.1 p.2) s

/-- The check of word a begins to fail (60_exceptions R336). Registers and uninstalled words have none. -/
def State.spoil (s : State) (a v : Word) : State :=
  if !isRegister a && s.installed a then { s with badWords := s.badWords.put a.toNat v } else s

/-- Power applied or restored (60_exceptions R337, 70_reset R381): ST <- 00C0 and an internal request; every other
register as the event says; memory as before with a battery, else as the event says, and the light on. -/
def State.restorePower (s : State) (u : PowerUp) : State :=
  let kept := s.config.hasBattery && u.batteryOn
  let s1 := { s with
    pc := u.pc, ec := u.ec, st := 0x00C0, ia := u.ia, ib := u.ib, ma := u.ma, display := u.display
    pendInternal := true, cruLine := u.cruLine, dmac := u.dmac, errorLatch := u.errorLatch
    cruIn := LineSet.ofList u.cruIn, cruOut := LineSet.ofList u.cruOut
    power := .on, running := s.config.powerRestoreAutorun }
  let s2 :=
    if kept then s1
    else
      u.badWords.foldl (fun t p => t.spoil p.1 p.2)
        (State.pokeAll { s1 with mem := [], badWords := [], powerLossLight := true } u.mem)
  { s2 with regs := u.regs }

/-- One external event. Power goes down only after power loss has been sensed, since that is the only way the spec
gives (60_exceptions R374, 70_reset R392): a DESIGN CHOICE (log 23). That the millisecond ends, and the loss is sensed,
only between whole steps of the CPU, never between two memory accesses of one instruction or interrupt entry, is a DESIGN
CHOICE too: the spec does not say (R337, R392; log 23). -/
def handle (e : Event) (s : State) : Result :=
  match e with
  | .cpuTurn during => cpuTurn during s
  | .setSwitches v => .next { s with switches := v }
  | .setLock v => .next { s with locked := v }
  | .setMpo v => .next (if s.panelLive then { s with mpo := v } else s)
  | .setMode run =>
    .next (if s.panelLive then { s with modeRun := run, running := s.running && run } else s)
  | .setSie v => .next (if s.panelLive then { s with sie := v } else s)
  | .setClock v => .next (if s.panelLive then { s with clockOn := v } else s)
  | .clockStep => .next (if s.panelLive && !s.clockOn then { s with errorLatch := false } else s)
  | .start during => pressStart during s
  | .enter r => .next (if s.panelHalted then s.enter r else s)
  | .display r => .next (if s.panelHalted then s.showRegister r else s)
  | .reset => .next (if s.panelHalted then s.pressReset else s)
  | .load => .next (if s.panelHalted && s.config.hasRomLoader then s.loadRom 0 256 else s)
  | .cruInput a v => .next { s with cruIn := s.cruIn.set a v }
  | .cruInterrupt v => .next { s with cruLine := v }
  | .dmacWrite a v => .next (if s.power = .off then s else s.dmacPut a v)
  | .dmacRequest k w0 w1 =>
    .next (if s.power = .off then s else { s with dmac := s.dmac.set k.val (some (w0, w1)) k.isLt })
  | .memError a v => .next (s.spoil a v)
  | .memHeal a => .next { s with badWords := s.badWords.heal a.toNat }
  | .powerLoss => .next (if s.power = .on then { s.raise .pf with power := .failing } else s)
  | .powerDown => .next (if s.power = .failing then { s with power := .off, running := false } else s)
  | .powerRestore u => .next (if s.power = .on then s else s.restorePower u)

end Sys2Proof.Machine
end

