-- ==== Sys2Proof/Machine/Step.lean ====
section
/-! DEFINITION. One step of the whole machine, and the placing of an instruction where the next step fetches it. -/

namespace Sys2Proof.Machine

/-- The oldest external event, if one is waiting, else a turn of the CPU during which no other agent uses memory
(log 14). -/
def step (s : State) : Host.Outcome State Fault Refusal :=
  match s.inbox with
  | e :: rest => handle e { s with inbox := rest }
  | [] => cpuTurn [] s

/-- The state with the two words of an instruction stored at `ctr` and `ctr + 1`, in a machine that is running with
no event or interrupt before it, so that the next step executes it (log 7). -/
def State.withFetchWord (s : State) (nbits w : Nat) : State :=
  let full := if nbits ≤ 16 then w * 65536 else w
  let t := (s.poke s.ctr (BitVec.ofNat 16 (full / 65536))).poke (s.ctr + 1#16) (BitVec.ofNat 16 full)
  { t with
    inbox := [], modeRun := true, running := true, clockOn := true, power := .on
    pendInternal := false, cruLine := false, dmac := Vector.replicate 8 none, inLocation := false }

end Sys2Proof.Machine
end

