-- ==== Sys2Proof/Safety.lean ====
section
/-! DEFINITION. The terms in which claims are made: the invariant of a state, what an instruction that completes does
and leaves alone, and the classes of instructions that may write a given piece of state. -/

namespace Sys2Proof.Machine

/-- No memory cell lies in the register overlay or beyond installed memory (20_memory R62, R74). -/
def State.memoryPlaced (s : State) : Bool :=
  s.mem.all fun c => decide (c.1 < 2 * s.config.memWords) && !decide (0x100 ≤ c.1 ∧ c.1 < 0x120)

/-- A word whose check fails is an installed memory word, not a register (60_exceptions R336). -/
def State.badPlaced (s : State) : Bool :=
  s.badWords.all fun p => decide (p.1 < s.config.memWords) && !decide (0x80 ≤ p.1 ∧ p.1 ≤ 0x8F)

/-- The invariant: the sparse stores are canonical and lie where the machine has something, the parameters are ones
the spec allows, no interrupt location is executing between steps, and a machine without power does not run. -/
structure Inv (s : State) : Prop where
  memForm : s.mem.wf = true
  memPlaced : s.memoryPlaced = true
  badForm : risingFrom 0 s.badWords = true
  badPlaced : s.badPlaced = true
  linesIn : LineSet.risingFrom 0 s.cruIn = true
  linesOut : LineSet.risingFrom 0 s.cruOut = true
  configOk : s.config.WellFormed
  noLocation : s.inLocation = false
  poweredRun : s.power = .off → s.running = false

/-- The state with another value in IB. -/
def State.withIB (s : State) (v : Word) : State := { s with ib := v }

/-- CB reports the comparison of x with y: ST<10> greater, ST<11> equal, ST<12> less (10_state R40). -/
def ComparesAs (t : State) (x y : Int) : Prop :=
  t.stBit 10 = decide (y < x) ∧ t.stBit 11 = decide (x = y) ∧ t.stBit 12 = decide (x < y)

/-- Exactly one of the three comparison bits is 1 (10_state R40). -/
def OneComparison (t : State) : Prop :=
  (t.stBit 10, t.stBit 11, t.stBit 12) ∈ [(true, false, false), (false, true, false), (false, false, true)]

/-- The counter of the mode active in u now holds a, and the other counter is as it was. -/
def GoesTo (u t : State) (a : Word) : Prop :=
  t.counter u.worker = a ∧ t.counter (!u.worker) = u.counter (!u.worker)

/-- What happened from u to t, seen through the read of one word: the words of `stores` (a register is the word at its
address 0x80 to 0x8F) hold their values, unless protected or not installed; EVERY other word and every other byte of
memory is as it was; a read of one of `reads` whose check fails sets MP, a refused store sets MV, and either posts the
internal request; every ST bit but these two and those of `written` is as it was; and so is every other part of the
state but the two counters. -/
structure Effects (u t : State) (reads : List Word) (stores : List (Word × Word)) (written : List Nat) : Prop where
  stored : ∀ p ∈ stores,
    t.peek p.1 = if u.readable p.1 = true ∧ u.refusesWrite p.1 = false then p.2 else u.peek p.1
  kept : ∀ a, (∀ p ∈ stores, a ≠ p.1) → t.peek a = u.peek a
  bytes : ∀ n, (∀ p ∈ stores, isRegister p.1 = true ∨ n / 2 ≠ p.1.toNat) → t.mem.byte n = u.mem.byte n
  checks : ∀ a, (∀ p ∈ stores, a ≠ p.1) → t.badRead a = u.badRead a
  parity : t.stBit 2 = (u.stBit 2 || reads.any u.badRead)
  violation : t.stBit 5 = (u.stBit 5 || stores.any fun p => u.refusesWrite p.1)
  request : t.pendInternal = (u.pendInternal || reads.any u.badRead || stores.any fun p => u.refusesWrite p.1)
  latch : t.errorLatch = (u.errorLatch || reads.any u.badRead && decide (u.config.model = .m960B))
  status : ∀ i, i < 16 → i ≠ 2 → i ≠ 5 → i ∉ written → t.stBit i = u.stBit i
  rest : t = { u with
    regs := t.regs, pc := t.pc, ec := t.ec, st := t.st, mem := t.mem, badWords := t.badWords
    pendInternal := t.pendInternal, errorLatch := t.errorLatch }

/-- The instruction completes: it answers a next state t with those effects, the active counter goes to `target`, the
other counter stays, and P holds of t. -/
def Completes (u : State) (r : Result) (reads : List Word) (stores : List (Word × Word)) (written : List Nat)
    (target : Word) (P : State → Prop) : Prop :=
  ∃ t, r = .next t ∧ Effects u t reads stores written ∧ GoesTo u t target ∧ P t

/-- The addresses read for EO: those of the effective-address computation, and EA. -/
def State.eoReads (s : State) (o : Address) (preOnly : Bool) : List Word := s.eaReads o preOnly ++ [s.ea o preOnly]

/-- The addresses read for the double word at EA. -/
def State.eo2Reads (s : State) (o : Address) : List Word := s.eaReads o false ++ [s.ea o false, s.ea o false + 1#16]

/-- The two words of a double word at an address, most significant half first. -/
def doubleStores (a : Word) (v : DWord) : List (Word × Word) :=
  [(a, v.extractLsb' 16 16), (a + 1#16, v.extractLsb' 0 16)]

/-- The double word at an address is a meaningful operand of a group I instruction. -/
def State.eo2Ok (s : State) (o : Address) : Bool := s.eaOk o false && s.readable2 (s.ea o false)

/-- The two words a status block receives: the counter value, and ST as it is after the first store. -/
def State.blockStores (s : State) (o : Address) (link : Word) : List (Word × Word) :=
  [(s.ea o false, link),
   (s.ea o false + 1#16,
    if s.refusesWrite (s.ea o false) then putBit (s.afterEA o false).st 5 true else (s.afterEA o false).st)]

end Sys2Proof.Machine

namespace Sys2Proof

/-- The instructions that write OI (10_state R35). -/
def Instr.writesOI (i : Instr) : Bool :=
  match i with
  | .a .. | .aa .. | .s .. | .sa .. | .d .. | .da .. | .dad .. | .ds .. | .dlax .. | .dla .. | .mla .. | .mlax ..
  | .ami .. | .lds .. => true
  | _ => false

/-- The instructions that write CO (10_state R42), and LDS, which loads the whole of ST. -/
def Instr.writesCO (i : Instr) : Bool :=
  match i with
  | .a .. | .aa .. | .s .. | .sa .. | .sat .. | .ami .. | .lds .. => true
  | _ => false

/-- The instructions that write CB (10_state R41); LDS loads it with the whole of ST and is not among them. -/
def Instr.writesCB (i : Instr) : Bool :=
  match i with
  | .l .. | .la .. | .st .. | .a .. | .aa .. | .s .. | .sa .. | .lot .. | .lota .. | .n .. | .na .. | .or ..
  | .ora .. | .xor .. | .xora .. | .sat .. | .mla .. | .mlax .. | .mra .. | .mrax .. | .mrr .. | .mrrx .. | .arb ..
  | .ami .. | .mov .. | .stps .. | .stcr .. | .m .. | .ma .. | .d .. | .da .. | .dad .. | .ds .. | .dla ..
  | .dlax .. | .dra .. | .drax .. | .drl .. | .drlx .. | .drr .. | .drrx .. | .cr .. | .cra .. | .crl .. | .crla .. =>
    true
  | _ => false

/-- The instructions that may change MI (10_state R34). -/
def Instr.writesMI (i : Instr) : Bool :=
  match i with
  | .lds .. | .sxbs .. | .sxbw .. | .sxs .. | .sxw .. | .xs | .xw | .xsb .. | .xsbInd .. | .xwb .. | .xwbInd ..
  | .xfne .. | .xbne .. | .tsbx .. => true
  | _ => false

/-- The instructions that load a counter other than the executing mode's (60_exceptions R353). -/
def Instr.loadsOtherCounter (i : Instr) : Bool :=
  match i with
  | .sxbs .. | .sxbw .. | .xsb .. | .xsbInd .. | .xwb .. | .xwbInd .. => true
  | _ => false

/-- The instructions that store to a memory address they compute (60_exceptions R339), or write a register pair, whose
second word may be the memory word 0x90 (10_state R23). -/
def Instr.writesMemory (i : Instr) : Bool :=
  match i with
  | .st .. | .mla .. | .mlax .. | .mra .. | .mrax .. | .mrr .. | .mrrx .. | .dla .. | .dlax .. | .dra .. | .drax ..
  | .drl .. | .drlx .. | .drr .. | .drrx .. | .sat .. | .stps .. | .ss .. | .ssb .. | .sxbs .. | .sxbw .. | .sxs ..
  | .sxw .. | .mov .. | .ami .. | .setf .. | .stcr .. | .d .. | .da .. | .m .. | .ma .. | .dad .. | .ds .. => true
  | _ => false

/-- The fourteen instructions of the Arithmetic Option (30_encoding R133). -/
def Instr.optional (i : Instr) : Bool :=
  match i with
  | .d .. | .da .. | .m .. | .ma .. | .dad .. | .ds .. | .dla .. | .dlax .. | .dra .. | .drax .. | .drl .. | .drlx ..
  | .drr .. | .drrx .. => true
  | _ => false

end Sys2Proof
end

