-- ==== Sys2Proof/Certificates/Slice0/Obligations.lean ====
section
/-! DEFINITION. The statements for the provers, from the numbered rules of spec/. `s` is the state an instruction starts
in; `s.withIB v` is the base the group I statements compare with, since IB holds the last effective address (10_state
R47, log 17). `s.during = []` says that no other agent uses memory during the instruction; what the DMAC and memory
errors do between two accesses is said once, for the accesses themselves (RaiseCause, DmacWritesAndRecognized). -/

open Sys2Proof Sys2Proof.Machine

/-! ## Encoding -/

/-- Decoding the two words of any well-formed instruction gives it back, for every field position (30_encoding R103 to
R127, R134, R137). -/
def Obligations.DecodeOfEncode : Prop :=
  ∀ (p : Layout) (i : Instr), i.WellFormed → decodeWith p (encodeWith p i).1 (encodeWith p i).2 = .instr i

/-- The undefined operation codes are the op values with no row in the map of 30_encoding R129: 00, 04, 8C to BC and F0
to FC in its first-byte notation (log 29: nineteen values). That these are the codes the hardware detects is the spec's
choice D4. -/
def Obligations.UndefinedOpCodes : Prop :=
  ∀ (p : Layout) (w0 w1 : Word), decodeWith p w0 w1 = .undefinedOp ↔
    (field w0 0 5 ≤ 0x01 ∨ 0x23 ≤ field w0 0 5 ∧ field w0 0 5 ≤ 0x2F ∨ 0x3C ≤ field w0 0 5)

/-- The words with a defined op and an unlisted sub-code are those of 30_encoding R131, and a step that fetches one is
refused by name, but for E880 and EC80 on a machine without the Arithmetic Option. To refuse them is the spec's choice
D5 (log 12), the exception the model's (log 31). -/
def Obligations.UnlistedCodesRefused : Prop :=
  (∀ (p : Layout) (w0 w1 : Word), decodeWith p w0 w1 = .unlisted ↔
    (field w0 0 5 = 0x12 ∧ flag w0 8 = false ∨ field w0 0 5 = 0x1B ∧ flag w0 8 = true
      ∨ field w0 0 5 = 0x39 ∧ flag w0 8 = false ∨ (field w0 0 5 = 0x3A ∨ field w0 0 5 = 0x3B) ∧ flag w0 8 = true
      ∨ field w0 0 5 = 0x1F ∧ (flag w0 8 = true ∨ field w0 13 15 ≠ 0)
      ∨ field w0 0 5 = 0x1E ∧ (flag w0 8 = false ∨ field w0 13 15 = 3 ∨ field w0 13 15 = 7)
      ∨ field w0 0 5 = 0x1C ∧ flag w0 8 = true ∧ field w0 13 15 ∈ [3, 4, 5, 6, 7]
      ∨ field w0 0 5 = 0x1C ∧ flag w0 8 = false ∧ field w0 13 15 ∈ [3, 6]))
  ∧ ∀ s : State, s.during = [] → s.readable2 s.ctr = true → s.interrupt = none →
      (s.config.hasArithOption = true ∨ field (s.peek s.ctr) 0 5 ∉ [0x3A, 0x3B]) →
      decodeWith s.config.layout (s.peek s.ctr) (s.peek (s.ctr + 1#16)) = .unlisted →
      cpuStep s = .refused (.unlistedCode (s.peek s.ctr))

/-- An instruction with a nonzero unused bit decodes as with that bit zero (30_encoding R132; BRRL and TSBX at the
default field positions). The spec's choice D27. -/
def Obligations.UnusedBitsIgnored : Prop :=
  ∀ w0 w1 : Word,
    (field w0 0 5 = 0x03 → decode (w0 &&& 0xFCFF) w1 = decode w0 w1)
    ∧ (field w0 0 5 = 0x39 → decode (w0 &&& 0xFFF0) w1 = decode w0 w1)
    ∧ (field w0 0 5 = 0x0D → decode w0 (w1 &&& 0x0C00) = decode w0 w1)
    ∧ (field w0 0 5 = 0x0E → decode w0 (w1 &&& 0x0C00) = decode w0 w1)
    ∧ (field w0 0 5 = 0x0C → decode w0 (w1 &&& 0x0FFF) = decode w0 w1)
    ∧ (field w0 0 5 = 0x20 → decode w0 (w1 &&& 0xFC00) = decode w0 w1)
    ∧ (field w0 0 5 = 0x22 → decode w0 (w1 &&& 0xFC00) = decode w0 w1)
    ∧ (field w0 0 5 = 0x02 → decode w0 (w1 &&& 0xF7FF) = decode w0 w1)
    ∧ (field w0 0 5 = 0x0B → decode w0 (w1 &&& 0xF7FF) = decode w0 w1)
    ∧ (field w0 0 5 = 0x1C → flag w0 8 = false → field w0 13 15 ∈ [4, 5, 7] →
        decode (w0 &&& 0xFC87) 0 = decode w0 w1)
    ∧ (field w0 0 5 = 0x0A → decode (w0 &&& 0xFC07) (w1 &&& 0x1FFF) = decode w0 w1)
    ∧ (field w0 0 5 = 0x0F → decode w0 (w1 &&& 0x1FFF) = decode w0 w1)

/-- Words that the spec prints with their source form decode to the instruction it names. -/
def Obligations.SampleWordsDecode : Prop :=
  decode 0x4732 0x0150 = .instr (.l ⟨false, 2⟩ ⟨true, some 3, 0x0150⟩)
  ∧ decode 0xE08B 0x0300 = .instr (.bc 11 ⟨false, none, 0x0300⟩)
  ∧ decode 0x7980 0x007F = .instr (.sxbs ⟨true, none, 0x007F⟩ false)
  ∧ decode 0x0C0F 0x009E = .instr (.arb 0xF 0x009E 0 false)
  ∧ decode 0x1403 0x9416 = .instr (.mov ⟨3, 4⟩ ⟨0x16, 5⟩)
  ∧ decode 0x1C00 0x5FF0 = .instr (.cmi ⟨0, 2⟩ 0x1FF0)
  ∧ decode 0x8404 0x181A = .instr (.bfne false 4 1 true 0x1A)
  ∧ decode 0x2C00 0x4000 = .instr (.stcr false 0 4 0)

/-! ## The machine as a whole -/

/-- The values RESET gives (70_reset R381, right column): PC, ST, MA, the display register and the internal request are
0, the POWER LOSS light is off and the machine is halted; and the RESET switch, which works on a halted machine with its
panel powered and unlocked, gives them in any state and changes nothing else: EC, the registers, IA, IB and memory stay.
That nothing else is cleared, and the request is, is the spec's choice D10. -/
def Obligations.ResetValues : Prop :=
  (State.reset.pc = 0 ∧ State.reset.st = 0 ∧ State.reset.ma = 0 ∧ State.reset.display = 0
    ∧ State.reset.pendInternal = false ∧ State.reset.powerLossLight = false ∧ State.reset.running = false)
  ∧ ∀ s : State, handle .reset s = .next (if s.panelHalted then { s with
      pc := 0, st := 0, ma := 0, display := 0, pendInternal := false, powerLossLight := false } else s)

/-- The invariant holds at reset. -/
def Obligations.ResetInv : Prop := Inv State.reset

/-- The invariant is kept by every step: by every instruction, interrupt entry and external event, from every state
that meets it. -/
def Obligations.StepKeepsInv : Prop := ∀ s t : State, Inv s → step s = .next t → Inv t

/-- When no event waits and no unmasked request stands, an active machine executes the instruction whose words are at
the active counter: IA and IB hold the words, and a fetched word whose check fails has raised MP. The same holds of a
turn of the CPU during which other agents use memory, with the words as the two fetches then deliver them. That requests
are examined between instructions only is the spec's choice D1. -/
def Obligations.StepRunsDecoded : Prop :=
  ∀ (s : State) (i : Instr), s.active = true → s.interrupt = none → s.readable2 s.ctr = true →
    (s.inbox = [] → decodeWith s.config.layout (s.peek s.ctr) (s.peek (s.ctr + 1#16)) = .instr i →
      step s = exec i { s.noteRead2 s.ctr with ia := s.peek s.ctr, ib := s.peek (s.ctr + 1#16), during := [] })
    ∧ ∀ (d : List MemoryCycle) (rest : List Event), s.inbox = .cpuTurn d :: rest →
      let s0 : State := { s with inbox := rest, during := d }
      let s1 := s0.afterRead s.ctr
      decodeWith s.config.layout (s0.readWord s.ctr) (s1.readWord (s.ctr + 1#16)) = .instr i →
      step s = exec i { s1.afterRead (s.ctr + 1#16) with
        ia := s0.readWord s.ctr, ib := s1.readWord (s.ctr + 1#16) }

/-- What executing any instruction leaves alone: IA, the panel, the power system, the input lines, the DMAC's requests,
the events to come and the parameters. -/
def Obligations.ExecKeepsSurroundings : Prop :=
  ∀ (i : Instr) (s t : State), exec i s = .next t →
    t = { s with
      regs := t.regs, pc := t.pc, ec := t.ec, st := t.st, ib := t.ib, pendInternal := t.pendInternal
      mem := t.mem, badWords := t.badWords, errorLatch := t.errorLatch, cruOut := t.cruOut, outbox := t.outbox
      freeNext := t.freeNext, during := t.during }

/-- Only the instructions of 10_state R35 write OI; only A, AA, S, SA, SAT and AMI write CO (R42), and LDS with the rest
of ST. -/
def Obligations.OnlyListedWriteArithmeticFlags : Prop :=
  ∀ (i : Instr) (s t : State), exec i s = .next t →
    (i.writesOI = false → t.stBit 1 = s.stBit 1) ∧ (i.writesCO = false → t.stBit 13 = s.stBit 13)

/-- The instructions of 10_state R41 leave exactly one comparison bit set, and the others but LDS leave all three
(SETF_WRITES_CB at its default; an optional instruction executes as one). -/
def Obligations.ComparisonBits : Prop :=
  ∀ (i : Instr) (s t : State), s.config.setfWritesCB = false →
    (i.optional = true → s.config.hasArithOption = true) → exec i s = .next t →
    (i.writesCB = true → OneComparison t)
    ∧ (i.writesCB = false → (∀ o rq, i ≠ .lds o rq) →
        t.stBit 10 = s.stBit 10 ∧ t.stBit 11 = s.stBit 11 ∧ t.stBit 12 = s.stBit 12)

/-- Only LDS, the ten forced-mode instructions and XFNE, XBNE and TSBX change MI (10_state R34). -/
def Obligations.OnlyListedWriteMI : Prop :=
  ∀ (i : Instr) (s t : State), exec i s = .next t → i.writesMI = false → t.stBit 0 = s.stBit 0

/-- Of the instructions only LDS writes IM and the three interrupt masks, PF and the reserved bits (10_state R37, R43 to
R45). That the reserved bits 14 and 15 are storage is the spec's choice D9 (log 24). -/
def Obligations.OnlyLdsWritesMasks : Prop :=
  ∀ (i : Instr) (s t : State), exec i s = .next t → (∀ o rq, i ≠ .lds o rq) →
    ∀ j ∈ [3, 6, 7, 8, 9, 14, 15], t.stBit j = s.stBit j

/-- The inactive mode's counter is changed only by the mode-changing instructions that load it (10_state R27). -/
def Obligations.InactiveCounterKept : Prop :=
  ∀ (i : Instr) (s t : State), exec i s = .next t → i.loadsOtherCounter = false →
    t.counter (!s.worker) = s.counter (!s.worker)

/-- An instruction that is not one of the storing ones changes no byte of memory (60_exceptions R339), whatever errors
its reads meet; the DMAC writes none meanwhile. -/
def Obligations.OthersKeepMemory : Prop :=
  ∀ (i : Instr) (s t : State), exec i s = .next t → i.writesMemory = false → (∀ c ∈ s.during, c.dmac = []) →
    ∀ n, t.mem.byte n = s.mem.byte n

/-- With MPO off, no step of the CPU, interrupt entry and DMAC status storage included, alters a protected word of
memory; nor does the DMAC between the step's accesses, where it obeys protection or writes nothing. -/
def Obligations.ProtectedWordsKept : Prop :=
  ∀ s t : State, s.mpo = false → (s.config.dmacObeysProtect = true ∨ ∀ c ∈ s.during, c.dmac = []) →
    cpuStep s = .next t →
    ∀ a : Word, a.toNat ≤ s.config.protectLimit → ¬(0x80 ≤ a.toNat ∧ a.toNat ≤ 0xA7) →
      t.mem.word a = s.mem.word a

/-! ## Memory -/

/-- Addresses 0x80 to 0x8F are the register file: a read gives the register, is no memory read, and a write sets the
register, is never refused and changes no byte of memory. -/
def Obligations.RegisterOverlay : Prop :=
  ∀ (s : State) (a v : Word), s.during = [] → 0x80 ≤ a.toNat → a.toNat ≤ 0x8F →
    s.peek a = s.file (BitVec.ofNat 4 (a.toNat - 0x80)) ∧ s.noteRead a = s ∧ s.readable a = true
    ∧ s.store a v = s.setFile (BitVec.ofNat 4 (a.toNat - 0x80)) v
    ∧ (∀ i, (s.store a v).file i = if i.toNat = a.toNat - 0x80 then v else s.file i)
    ∧ ∀ n, (s.store a v).mem.byte n = s.mem.byte n

/-- A write to a protected address with MPO off alters no word and raises MV; with MPO on, or elsewhere, it raises
nothing and an installed word or register then reads as the value written, every other word as before. That everything
else takes place is the spec's choice D8, and the latch its choice D3. -/
def Obligations.ProtectedWrite : Prop :=
  ∀ (s : State) (a v : Word), s.during = [] →
    (a.toNat ≤ s.config.protectLimit → ¬(0x80 ≤ a.toNat ∧ a.toNat ≤ 0xA7) → s.mpo = false →
      (∀ b, (s.store a v).peek b = s.peek b) ∧ (∀ n, (s.store a v).mem.byte n = s.mem.byte n)
      ∧ (s.store a v).stBit 5 = true ∧ (s.store a v).pendInternal = true
      ∧ ∀ j, j < 16 → j ≠ 5 → (s.store a v).stBit j = s.stBit j)
    ∧ (s.mpo = true ∨ s.config.protectLimit < a.toNat ∨ 0x80 ≤ a.toNat ∧ a.toNat ≤ 0xA7 →
      (s.readable a = true → (s.store a v).peek a = v) ∧ (∀ b, b ≠ a → (s.store a v).peek b = s.peek b)
      ∧ (s.store a v).st = s.st ∧ (s.store a v).pendInternal = s.pendInternal)

/-- The effective address in its four cases: n, n plus the index register, the indirect word, and both, where ST<6>
decides which comes first
unless the instruction always pre-indexes. The computation has a meaning exactly when the indirect word is installed;
where it is not, and where an operand or an instruction word to be read is not, the step stops with the fault
uninstalledMemory (R74, the spec's choice D7; log 11). That only *B, *BC and *BL always pre-index is the spec's
choice D22. -/
def Obligations.EffectiveAddress : Prop :=
  ∀ (s : State) (n : Word) (r : RegNum) (p : Bool), s.during = [] →
    s.ea ⟨false, none, n⟩ p = n ∧ s.ea ⟨false, some r, n⟩ p = n + s.x r ∧ s.ea ⟨true, none, n⟩ p = s.peek n
    ∧ (s.stBit 6 = false ∨ p = true → s.ea ⟨true, some r, n⟩ p = s.peek (n + s.x r))
    ∧ (s.stBit 6 = true → p = false → s.ea ⟨true, some r, n⟩ p = s.peek n + s.x r)
    ∧ (s.eaOk ⟨false, none, n⟩ p = true ∧ s.eaOk ⟨false, some r, n⟩ p = true)
    ∧ s.eaOk ⟨true, none, n⟩ p = s.readable n
    ∧ (s.stBit 6 = false ∨ p = true → s.eaOk ⟨true, some r, n⟩ p = s.readable (n + s.x r))
    ∧ (s.stBit 6 = true → p = false → s.eaOk ⟨true, some r, n⟩ p = s.readable n)
    ∧ (∀ (o : Address) (k : Word → State → Result), s.eaOk o p = false →
        withEA s o p k = .fault (.uninstalledMemory (s.pointer o p)))
    ∧ (∀ (a : Word) (k : Word → State → Result), s.readable a = false →
        withRead s a k = .fault (.uninstalledMemory a))
    ∧ (s.interrupt = none → s.readable s.ctr = false → cpuStep s = .fault (.uninstalledMemory s.ctr))

/-! ## Format I-A -/

/-- L, LOT, N, OR, XOR: the result of EO goes to the register, CB tests it. -/
def Obligations.LoadAndLogicOperand : Prop :=
  ∀ (s : State) (g : RegRef) (o : Address), s.during = [] → s.eoOk o false = true →
    let b := s.eo o false
    ∀ p ∈ [(Instr.l g o, b), (.lot g o, BitVec.ofNat 16 ((List.finRange 16).countP fun i => b.getLsbD i)),
        (.n g o, s.ref g &&& b), (.or g o, s.ref g ||| b), (.xor g o, s.ref g ^^^ b)],
      Completes (s.withIB (s.ea o false)) (exec p.1 s) (s.eoReads o false) [(s.refAddress g, p.2)] [10, 11, 12] s.next
        fun t => ComparesAs t p.2.toInt 0

/-- LA, LOTA, NA, ORA, XORA: the same with EA as the operand; memory is not read at EA. -/
def Obligations.LoadAndLogicAddress : Prop :=
  ∀ (s : State) (g : RegRef) (o : Address), s.during = [] → s.eaOk o false = true →
    let b := s.ea o false
    ∀ p ∈ [(Instr.la g o, b), (.lota g o, BitVec.ofNat 16 ((List.finRange 16).countP fun i => b.getLsbD i)),
        (.na g o, s.ref g &&& b), (.ora g o, s.ref g ||| b), (.xora g o, s.ref g ^^^ b)],
      Completes (s.withIB (s.ea o false)) (exec p.1 s) (s.eaReads o false) [(s.refAddress g, p.2)] [10, 11, 12] s.next
        fun t => ComparesAs t p.2.toInt 0

/-- A, AA, S, SA: the sum or difference goes to the register; OI tells that it does not fit 16 signed bits, CO is the
carry out of bit 0, CB tests the wrapped result. For S and SA that carry is of R + (NOT operand) + 1, the spec's choice
D11. -/
def Obligations.AddAndSubtract : Prop :=
  ∀ (s : State) (g : RegRef) (o : Address), s.during = [] →
    let done (i : Instr) (reads : List Word) (b : Word) (sub : Bool) : Prop :=
      let a := s.ref g
      let r := if sub then a - b else a + b
      let exact := if sub then a.toInt - b.toInt else a.toInt + b.toInt
      Completes (s.withIB (s.ea o false)) (exec i s) reads [(s.refAddress g, r)] [1, 10, 11, 12, 13] s.next fun t =>
        t.stBit 1 = decide (exact < -32768 ∨ 32767 < exact)
        ∧ t.stBit 13 = (if sub then decide (b.toNat ≤ a.toNat) else decide (65536 ≤ a.toNat + b.toNat))
        ∧ ComparesAs t r.toInt 0
    (s.eoOk o false = true →
      done (.a g o) (s.eoReads o false) (s.eo o false) false ∧ done (.s g o) (s.eoReads o false) (s.eo o false) true)
    ∧ (s.eaOk o false = true →
      done (.aa g o) (s.eaReads o false) (s.ea o false) false ∧ done (.sa g o) (s.eaReads o false) (s.ea o false) true)

/-- CR, CRA, CRL, CRLA: CB reports the signed or unsigned comparison of the register with EO or EA; no register and no
word of memory is written. -/
def Obligations.Compare : Prop :=
  ∀ (s : State) (g : RegRef) (o : Address), s.during = [] →
    let done (i : Instr) (reads : List Word) (x y : Int) : Prop :=
      Completes (s.withIB (s.ea o false)) (exec i s) reads [] [10, 11, 12] s.next fun t => ComparesAs t x y
    (s.eoOk o false = true →
      done (.cr g o) (s.eoReads o false) (s.ref g).toInt (s.eo o false).toInt
      ∧ done (.crl g o) (s.eoReads o false) (s.ref g).toNat (s.eo o false).toNat)
    ∧ (s.eaOk o false = true →
      done (.cra g o) (s.eaReads o false) (s.ref g).toInt (s.ea o false).toInt
      ∧ done (.crla g o) (s.eaReads o false) (s.ref g).toNat (s.ea o false).toNat)

/-- ST stores the register at EA and STPS the DATA switches; CB tests the value, whether or not the store is
refused. -/
def Obligations.StoreRegisterAndSwitches : Prop :=
  ∀ (s : State) (g : RegRef) (o : Address), s.during = [] → s.eaOk o false = true →
    ∀ p ∈ [(Instr.st g o, s.ref g), (.stps o, s.switches)],
      Completes (s.withIB (s.ea o false)) (exec p.1 s) (s.eaReads o false) [(s.ea o false, p.2)] [10, 11, 12] s.next
        fun t => ComparesAs t p.2.toInt 0

/-- SAT: with n leading zeros in the operand w, the word stored is w shifted n places with bit 0 cleared, and n is
added to the register; CO and CB are written, OI is not. Where EA is the register itself, n is added to what was stored
there. That the store comes before the addition is read from the order of the rule (log 18). -/
def Obligations.ShiftAndAddTally : Prop :=
  ∀ (s : State) (g : RegRef) (o : Address) (n : Nat), s.during = [] → s.eoOk o false = true → n ≤ 16 →
    (∀ i, i < n → (s.eo o false).getMsbD i = false) → (n = 16 ∨ (s.eo o false).getMsbD n = true) →
    let v := BitVec.ofNat 16 ((s.eo o false).toNat * 2 ^ n) &&& 0x7FFF
    let done (stores : List (Word × Word)) (old : Word) : Prop :=
      Completes (s.withIB (s.ea o false)) (exec (.sat g o) s) (s.eoReads o false) stores [10, 11, 12, 13] s.next fun t =>
        t.stBit 13 = decide (65536 ≤ old.toNat + n) ∧ ComparesAs t (old + BitVec.ofNat 16 n).toInt 0
    (s.ea o false ≠ s.refAddress g →
      done [(s.ea o false, v), (s.refAddress g, s.ref g + BitVec.ofNat 16 n)] (s.ref g))
    ∧ (s.ea o false = s.refAddress g → done [(s.refAddress g, v + BitVec.ofNat 16 n)] v)

/-- The memory shifts of one word, by a count in the instruction or in bits 12-15 of a register (0 standing for 16): the
left shift sets OI exactly when the sign changes on the way, the right shift copies the sign, the rotate brings bit 15
round to bit 0; CB tests the result. -/
def Obligations.ShiftWord : Prop :=
  ∀ (s : State) (o : Address), s.during = [] → s.eoOk o false = true →
    let w := s.eo o false
    let done (i : Instr) (r : Word) (written : List Nat) (P : State → Prop) : Prop :=
      Completes (s.withIB (s.ea o false)) (exec i s) (s.eoReads o false) [(s.ea o false, r)] (written ++ [10, 11, 12])
        s.next fun t => ComparesAs t r.toInt 0 ∧ P t
    let shifts (c : Nat) (left right rotate : Instr) : Prop :=
      done left (BitVec.ofNat 16 (w.toNat * 2 ^ c)) [1]
        (fun t => t.stBit 1 = true ↔ ∃ i, i ≤ c ∧ w.getMsbD i ≠ w.getMsbD 0)
      ∧ done right (BitVec.ofInt 16 (w.toInt / 2 ^ c)) [] (fun _ => True)
      ∧ done rotate (BitVec.ofNat 16 (w.toNat / 2 ^ c + w.toNat % 2 ^ c * 2 ^ (16 - c))) [] (fun _ => True)
    (∀ c, 1 ≤ c → c ≤ 16 → shifts c (.mla c o) (.mra c o) (.mrr c o))
    ∧ ∀ g : RegRef, shifts (if (s.ref g).toNat % 16 = 0 then 16 else (s.ref g).toNat % 16)
        (.mlax g o) (.mrax g o) (.mrrx g o)

/-- The memory shifts of a double word, by a count in the instruction (1 to 16) or in bits 11-15 of a register (0
standing for 32), on a machine with the Arithmetic Option; CB tests the most significant word of the result. -/
def Obligations.ShiftDouble : Prop :=
  ∀ (s : State) (o : Address), s.during = [] → s.config.hasArithOption = true → s.eo2Ok o = true →
    let w := s.peek2 (s.ea o false)
    let done (i : Instr) (r : DWord) (written : List Nat) (P : State → Prop) : Prop :=
      Completes (s.withIB (s.ea o false)) (exec i s) (s.eo2Reads o) (doubleStores (s.ea o false) r)
        (written ++ [10, 11, 12]) s.next fun t => ComparesAs t (r.extractLsb' 16 16).toInt 0 ∧ P t
    let shifts (c : Nat) (left right logical rotate : Instr) : Prop :=
      done left (BitVec.ofNat 32 (w.toNat * 2 ^ c)) [1]
        (fun t => t.stBit 1 = true ↔ ∃ i, i ≤ c ∧ w.getMsbD i ≠ w.getMsbD 0)
      ∧ done right (BitVec.ofInt 32 (w.toInt / 2 ^ c)) [] (fun _ => True)
      ∧ done logical (BitVec.ofNat 32 (w.toNat / 2 ^ c)) [] (fun _ => True)
      ∧ done rotate (BitVec.ofNat 32 (w.toNat / 2 ^ c + w.toNat % 2 ^ c * 2 ^ (32 - c))) [] (fun _ => True)
    (∀ c, 1 ≤ c → c ≤ 16 → shifts c (.dla c o) (.dra c o) (.drl c o) (.drr c o))
    ∧ ∀ g : RegRef, shifts (if (s.ref g).toNat % 32 = 0 then 32 else (s.ref g).toNat % 32)
        (.dlax g o) (.drax g o) (.drlx g o) (.drrx g o)

/-- M and MA: the signed product of the register and EO or EA goes to the register pair, most significant half first;
CB tests that half, OI and CO are unchanged. Signed factors are the spec's choice D17. -/
def Obligations.Multiply : Prop :=
  ∀ (s : State) (g : RegRef) (o : Address), s.during = [] → s.config.hasArithOption = true →
    let done (i : Instr) (reads : List Word) (b : Word) : Prop :=
      let p := BitVec.ofInt 32 ((s.ref g).toInt * b.toInt)
      Completes (s.withIB (s.ea o false)) (exec i s) reads (doubleStores (s.refAddress g) p) [10, 11, 12] s.next
        fun t => ComparesAs t (p.extractLsb' 16 16).toInt 0
    (s.eoOk o false = true → done (.m g o) (s.eoReads o false) (s.eo o false))
    ∧ (s.eaOk o false = true → done (.ma g o) (s.eaReads o false) (s.ea o false))

/-- D and DA, when the division has a result: for the quotient q and remainder r with dividend = q * divisor + r, r
smaller than the divisor and of the dividend's sign, and q in 16 signed bits, r goes to the first word of the pair and
q to the second, OI is cleared, CB tests r. The truncating quotient is the spec's choice D16. -/
def Obligations.DivideFits : Prop :=
  ∀ (s : State) (g : RegRef) (o : Address) (q r : Int), s.during = [] → s.config.hasArithOption = true →
    s.readable2 (s.refAddress g) = true →
    let a := (s.peek2 (s.refAddress g)).toInt
    let done (i : Instr) (reads : List Word) (b : Int) : Prop :=
      a = q * b + r → |r| < |b| → (0 < a → 0 ≤ r) → (a < 0 → r ≤ 0) → -32768 ≤ q → q ≤ 32767 →
      Completes (s.withIB (s.ea o false)) (exec i s) (reads ++ [s.refAddress g, s.refAddress g + 1#16])
        [(s.refAddress g, BitVec.ofInt 16 r), (s.refAddress g + 1#16, BitVec.ofInt 16 q)] [1, 10, 11, 12] s.next
        fun t => t.stBit 1 = false ∧ ComparesAs t r 0
    (s.eoOk o false = true → done (.d g o) (s.eoReads o false) (s.eo o false).toInt)
    ∧ (s.eaOk o false = true → done (.da g o) (s.eaReads o false) (s.ea o false).toInt)

/-- D and DA with a zero divisor, or a truncated quotient outside 16 signed bits: OI is set, the pair holds some two
words and CB some one outcome, which nothing fixes; everything else is as in a division that fits. Unspecified values
there are the spec's choice D16 (log 9). -/
def Obligations.DivideOverflows : Prop :=
  ∀ (s : State) (g : RegRef) (o : Address), s.during = [] →
    s.config.hasArithOption = true → s.readable2 (s.refAddress g) = true →
    let a := (s.peek2 (s.refAddress g)).toInt
    let done (i : Instr) (reads : List Word) (b : Int) : Prop :=
      (b = 0 ∨ a.tdiv b < -32768 ∨ 32767 < a.tdiv b) →
      ∃ v0 v1 : Word, Completes { s.withIB (s.ea o false) with freeNext := s.freeNext + 2 } (exec i s)
        (reads ++ [s.refAddress g, s.refAddress g + 1#16]) [(s.refAddress g, v0), (s.refAddress g + 1#16, v1)]
        [1, 10, 11, 12] s.next fun t => t.stBit 1 = true ∧ OneComparison t
    (s.eoOk o false = true → done (.d g o) (s.eoReads o false) (s.eo o false).toInt)
    ∧ (s.eaOk o false = true → done (.da g o) (s.eaReads o false) (s.ea o false).toInt)

/-- DAD and DS: the 32-bit sum or difference of the pair and the double word at EA goes to the pair; OI tells that the
exact result does not fit 32 signed bits, CB tests the most significant half, CO is unchanged. -/
def Obligations.DoubleAddAndSubtract : Prop :=
  ∀ (s : State) (g : RegRef) (o : Address), s.during = [] →
    s.config.hasArithOption = true → s.readable2 (s.refAddress g) = true →
    s.eo2Ok o = true →
    let a := s.peek2 (s.refAddress g)
    let b := s.peek2 (s.ea o false)
    ∀ p ∈ [(Instr.dad g o, a + b, a.toInt + b.toInt), (.ds g o, a - b, a.toInt - b.toInt)],
      Completes (s.withIB (s.ea o false)) (exec p.1 s)
        (s.eo2Reads o ++ [s.refAddress g, s.refAddress g + 1#16]) (doubleStores (s.refAddress g) p.2.1)
        [1, 10, 11, 12] s.next fun t =>
          t.stBit 1 = decide (p.2.2 < -2147483648 ∨ 2147483647 < p.2.2)
          ∧ ComparesAs t (p.2.1.extractLsb' 16 16).toInt 0

/-- Without the Arithmetic Option each of its fourteen instructions is an undefined code: UC is raised, the counter
advances, and nothing else happens. The spec's choice D21. -/
def Obligations.OptionAbsent : Prop :=
  ∀ (s : State) (i : Instr), s.config.hasArithOption = false → i.optional = true →
    Completes { s with pendInternal := true } (exec i s) [] [] [4] s.next fun t => t.stBit 4 = true

/-- BL and *BL: the register receives the address of the instruction itself, the counter goes to EA (from the registers
as they were), or to the word at the pre-indexed EA. -/
def Obligations.BranchAndLink : Prop :=
  ∀ (s : State) (g : RegRef) (o : Address), s.during = [] →
    (s.eaOk o false = true →
      Completes (s.withIB (s.ea o false)) (exec (.bl g o) s) (s.eaReads o false) [(s.refAddress g, s.ctr)] []
        (s.ea o false) fun _ => True)
    ∧ (s.eoOk o true = true →
      Completes (s.withIB (s.ea o true)) (exec (.blInd g o) s) (s.eoReads o true) [(s.refAddress g, s.ctr)] []
        (s.eo o true) fun _ => True)

/-! ## Formats I-B and I-C -/

/-- BC and *BC: if the status bit is 1 the counter goes to EA, or to the word at the pre-indexed EA; if not, to the
next instruction. ST is not changed. That the bit is the one in ST once EA has been computed, and that EO is not read
when *BC does not branch, are the model's choices (logs 33, 19). -/
def Obligations.BranchOnCondition : Prop :=
  ∀ (s : State) (bit : BitVec 4) (o : Address), s.during = [] →
    (s.eaOk o false = true →
      Completes (s.withIB (s.ea o false)) (exec (.bc bit o) s) (s.eaReads o false) [] []
        (if (s.afterEA o false).stBit bit.toNat then s.ea o false else s.next) fun _ => True)
    ∧ (s.eoOk o true = true → (s.afterEA o true).stBit bit.toNat = true →
      Completes (s.withIB (s.ea o true)) (exec (.bcInd bit o) s) (s.eoReads o true) [] [] (s.eo o true) fun _ => True)
    ∧ (s.eaOk o true = true → (s.afterEA o true).stBit bit.toNat = false →
      Completes (s.withIB (s.ea o true)) (exec (.bcInd bit o) s) (s.eaReads o true) [] [] s.next fun _ => True)

/-- B, *B and NOP: the counter goes to EA, to the word at the pre-indexed EA, each plus register 5 of the executing mode
if rq = 1, or to the next instruction; no flag, register or memory word changes. -/
def Obligations.BranchAndNop : Prop :=
  ∀ (s : State) (o : Address) (rq : Bool), s.during = [] →
    (s.eaOk o false = true →
      Completes (s.withIB (s.ea o false)) (exec (.b o rq) s) (s.eaReads o false) [] []
        (s.ea o false + if rq then s.x 5 else 0) fun _ => True)
    ∧ (s.eoOk o true = true →
      Completes (s.withIB (s.ea o true)) (exec (.bInd o rq) s) (s.eoReads o true) [] []
        (s.eo o true + if rq then s.x 5 else 0) fun _ => True)
    ∧ Completes s (exec .nop s) [] [] [] s.next fun _ => True

/-- LDS: the counter of the executing mode receives EO (plus register 5 if rq = 1), then ST the word at EA + 1, all
sixteen bits; no register and no word of memory changes, and loading a cause bit posts no request. That
is the spec's choice D3, and that the reserved bits are loaded its choice D9 (log 24); that a cause bit of the handler's
own is replaced too is the model's choice between R217 and R351 (log 34). -/
def Obligations.LoadStatus : Prop :=
  ∀ (s : State) (o : Address) (rq : Bool), s.during = [] → s.eo2Ok o = true →
    ∃ t, exec (.lds o rq) s = .next t ∧ GoesTo s t (s.eo o false + if rq then s.x 5 else 0)
      ∧ t.st = s.peek (s.ea o false + 1#16) ∧ (∀ a, t.peek a = s.peek a) ∧ (∀ n, t.mem.byte n = s.mem.byte n)
      ∧ t.pendInternal = (s.pendInternal || (s.eo2Reads o).any s.badRead)
      ∧ t = { s.withIB (s.ea o false) with
          pc := t.pc, ec := t.ec, st := t.st, pendInternal := t.pendInternal, errorLatch := t.errorLatch }

/-- SS and SSB: the updated counter (less register 5 if rq = 1) is stored at EA and ST at EA + 1; SS goes on, SSB
branches to the word at EA + 2 (plus register 5 if rq = 1). -/
def Obligations.StoreStatus : Prop :=
  ∀ (s : State) (o : Address) (rq : Bool), s.during = [] → s.eaOk o false = true →
    let b := if rq then s.x 5 else 0
    Completes (s.withIB (s.ea o false)) (exec (.ss o rq) s) (s.eaReads o false) (s.blockStores o (s.next - b)) []
      s.next (fun _ => True)
    ∧ (s.readable (s.ea o false + 2#16) = true →
      Completes (s.withIB (s.ea o false)) (exec (.ssb o rq) s) (s.eaReads o false ++ [s.ea o false + 2#16])
        (s.blockStores o (s.next - b)) [] (s.peek (s.ea o false + 2#16) + b) fun _ => True)

/-- SXS, SXW, SXBS, SXBW: the status block is stored at EA and EA + 1, with the mode's MI still in it; the counter of
the mode left keeps the address of the next instruction; MI names the mode entered; SXBS and SXBW load its counter from
EA + 2. The counter stored is the executing mode's, or under `SX_STORES_TARGET_COUNTER` that of the mode entered, less
register 5 of the mode entered if rq = 1. Which counter is stored is the spec's choice D24. -/
def Obligations.StoreStatusAndTransfer : Prop :=
  ∀ (s : State) (o : Address) (rq : Bool), s.during = [] → s.eaOk o false = true →
    ∀ p ∈ [(Instr.sxs o rq, Instr.sxbs o rq, false), (.sxw o rq, .sxbw o rq, true)],
      let target := p.2.2
      let b := if rq then s.modeReg target 5 else 0
      let link := if s.config.sxStoresTargetCounter = true ∧ target ≠ s.worker then s.counter target else s.next
      (∃ t, exec p.1 s = .next t
        ∧ Effects (s.withIB (s.ea o false)) t (s.eaReads o false) (s.blockStores o (link - b)) [0]
        ∧ GoesTo s t s.next ∧ t.stBit 0 = target)
      ∧ (s.readable (s.ea o false + 2#16) = true →
        ∃ t, exec p.2.1 s = .next t
          ∧ Effects (s.withIB (s.ea o false)) t (s.eaReads o false ++ [s.ea o false + 2#16])
              (s.blockStores o (link - b)) [0]
          ∧ t.counter target = s.peek (s.ea o false + 2#16) + b
          ∧ t.counter (!target) = (if target = s.worker then s.counter (!target) else s.next)
          ∧ t.stBit 0 = target)

/-- XS, XW and the four transfers with a branch: MI names the mode entered; the counter of the mode left keeps the
address of the next instruction; XSB and XWB load the counter of the mode entered with EA, *XSB and *XWB with EO, each
plus register 5 of that mode if rq = 1. That *XSB and *XWB follow ST<6> is the spec's choice D22 (log 24). -/
def Obligations.Transfer : Prop :=
  ∀ (s : State) (o : Address) (rq : Bool), s.during = [] →
    ∀ p ∈ [(Instr.xs, Instr.xsb o rq, Instr.xsbInd o rq, false), (.xw, .xwb o rq, .xwbInd o rq, true)],
      let target := p.2.2.2
      let b := if rq then s.modeReg target 5 else 0
      let done (i : Instr) (reads : List Word) (v : Word) : Prop :=
        ∃ t, exec i s = .next t ∧ Effects (s.withIB (s.ea o false)) t reads [] [0]
          ∧ t.counter target = v + b
          ∧ t.counter (!target) = (if target = s.worker then s.counter (!target) else s.next)
          ∧ t.stBit 0 = target
      Completes s (exec p.1 s) [] [] [0] s.next (fun t => t.stBit 0 = target)
      ∧ (s.eaOk o false = true → done p.2.1 (s.eaReads o false) (s.ea o false))
      ∧ (s.eoOk o false = true → done p.2.2.1 (s.eoReads o false) (s.eo o false))

/-! ## Formats I-D and I-E -/

/-- ARB: the signed addend is added to the index register and CB tests the sum; if the sign bit is unchanged the
counter goes to n, plus register 5 as it now is if rq = 1, else to the next instruction. OI and CO are not written.
That register 5 is read after the addition is the spec's choice D28. -/
def Obligations.AddAndBranch : Prop :=
  ∀ (s : State) (d : BitVec 4) (n : Word) (xr : RegNum) (rq : Bool),
    let new := BitVec.ofInt 16 ((s.x xr).toInt + d.toInt)
    let base := if xr = 5 then new else s.x 5
    Completes s (exec (.arb d n xr rq) s) [] [(s.refAddress ⟨false, xr⟩, new)] [10, 11, 12]
      (if new.getMsbD 0 = (s.x xr).getMsbD 0 then n + (if rq then base else 0) else s.next)
      fun t => ComparesAs t new.toInt 0

/-- ADAC: one command goes to the DMAC with bits 6-15 and the list address; no register, status bit or memory word
changes. The ten bits are one opaque value, unless ADAC_FIELDS gives the lost split into a and q (log 24). -/
def Obligations.ActivateChannel : Prop :=
  ∀ (s : State) (aq : BitVec 10) (n : Word),
    let parts := s.config.adacFields.map fun f => (aq &&& f.a, aq &&& f.q)
    Completes { s with outbox := s.outbox ++ [Output.dmac aq n parts] } (exec (.adac aq n) s) [] [] [] s.next
      fun _ => True

/-! ## Group II -/

/-- CM, CMI and CML: signed comparison of a memory word with another, with the sign-extended immediate, or with the two
limits (the lower tested first); the next instruction is executed, or one or two are skipped, and nothing is written.
The order of CML's comparisons is the spec's choice D29. -/
def Obligations.CompareAndSkip : Prop :=
  ∀ (s : State) (p q : BaseDisp) (imm : BitVec 13), s.during = [] → s.readable (s.baseAddress p) = true →
    let a := (s.peek (s.baseAddress p)).toInt
    let done (i : Instr) (reads : List Word) (lo hi : Int) : Prop :=
      Completes s (exec i s) (s.baseAddress p :: reads) [] []
        (if a < lo then s.next else if hi < a then s.next + 2#16 else s.next + 4#16) fun _ => True
    done (.cmi p imm) [] imm.toInt imm.toInt
    ∧ (s.readable (s.baseAddress q) = true →
      done (.cm p q) [s.baseAddress q] (s.peek (s.baseAddress q)).toInt (s.peek (s.baseAddress q)).toInt)
    ∧ (s.readable2 (s.baseAddress q) = true →
      done (.cml p q) [s.baseAddress q, s.baseAddress q + 1#16] (s.peek (s.baseAddress q)).toInt
        (s.peek (s.baseAddress q + 1#16)).toInt)

/-- MOV: operand 2 is replaced by operand 1 and CB tests the value moved, whether or not the store is refused. -/
def Obligations.MoveWord : Prop :=
  ∀ (s : State) (p q : BaseDisp), s.during = [] → s.readable (s.baseAddress p) = true →
    Completes s (exec (.mov p q) s) [s.baseAddress p] [(s.baseAddress q, s.peek (s.baseAddress p))] [10, 11, 12] s.next
      fun t => ComparesAs t (s.peek (s.baseAddress p)).toInt 0

/-- AMI: the sign-extended 13-bit value is added to the memory word; OI, CO and CB describe the sum, whether or not the
store is refused. -/
def Obligations.AddImmediateToMemory : Prop :=
  ∀ (s : State) (p : BaseDisp) (imm : BitVec 13), s.during = [] → s.readable (s.baseAddress p) = true →
    let a := s.peek (s.baseAddress p)
    let b := BitVec.ofInt 16 imm.toInt
    Completes s (exec (.ami p imm) s) [s.baseAddress p] [(s.baseAddress p, a + b)] [1, 10, 11, 12, 13] s.next fun t =>
      t.stBit 1 = decide (a.toInt + imm.toInt < -32768 ∨ 32767 < a.toInt + imm.toInt)
      ∧ t.stBit 13 = decide (65536 ≤ a.toNat + b.toNat) ∧ ComparesAs t (a + b).toInt 0

/-- BRRL: the register receives the link, relative to the base register, and the counter goes to the displacement plus
the base register as it was. The link is the next instruction's address, or the BRRL's own when `BRRL_LINK_UPDATED` is
false. The link's value is open in the spec (D19). -/
def Obligations.BranchRelativeAndLink : Prop :=
  ∀ (s : State) (r : RegNum) (q : BaseDisp),
    let link := if s.config.brrlLinkUpdated then s.next else s.ctr
    Completes s (exec (.brrl r q) s) [] [(s.refAddress ⟨false, r⟩, link - s.x q.base)] []
      (BitVec.ofNat 16 q.disp.toNat + s.x q.base) fun _ => True

/-! ## Group III -/

/-- SETF: one bit of the flag word is set to the value and its other bits are kept; CB is written only under
`SETF_WRITES_CB`, and then from the word written back: the spec's own resolution of the conflict C17 (log 24). -/
def Obligations.SetFlag : Prop :=
  ∀ (s : State) (alt : Bool) (m : BitVec 10) (bit : BitVec 4) (v : Bool), s.during = [] →
    s.readable (s.flagAddress alt m) = true →
    ∃ w : Word, (∀ j, j < 16 → w.getMsbD j = if j = bit.toNat then v else (s.peek (s.flagAddress alt m)).getMsbD j)
      ∧ Completes s (exec (.setf alt m bit v) s) [s.flagAddress alt m] [(s.flagAddress alt m, w)]
          (if s.config.setfWritesCB then [10, 11, 12] else []) s.next
          fun t => s.config.setfWritesCB = true → ComparesAs t w.toInt 0

/-- XFNE and BFNE: if the flag has the value, the next instruction follows; if not, XFNE toggles the mode and leaves the
counter on itself, and BFNE branches to n plus register 5 of the executing mode. -/
def Obligations.TestFlag : Prop :=
  ∀ (s : State) (alt : Bool) (m : BitVec 10) (bit : BitVec 4) (v : Bool) (n : BitVec 10), s.during = [] →
    s.readable (s.flagAddress alt m) = true →
    let equal := (s.peek (s.flagAddress alt m)).getMsbD bit.toNat = v
    Completes s (exec (.xfne alt m bit v) s) [s.flagAddress alt m] [] [0] (if equal then s.next else s.ctr)
      (fun t => t.stBit 0 = if equal then s.stBit 0 else !s.stBit 0)
    ∧ Completes s (exec (.bfne alt m bit v n) s) [s.flagAddress alt m] [] []
        (if equal then s.next else BitVec.ofNat 16 n.toNat + s.x 5) fun _ => True

/-- XBNE, BBNE and TSBX: if the input line has the value, the next instruction follows, and TSBX sets its output line;
if not, XBNE toggles the mode and leaves the counter on itself, BBNE branches to n plus register 5 of the executing
mode, and TSBX does as XBNE, or with am = 1 just goes on. Line addresses modulo 4096 are the spec's choice D13, the
counter and am of TSBX its choice D18. -/
def Obligations.TestInputLine : Prop :=
  ∀ (s : State) (alt : Bool) (m : BitVec 10) (v : Bool) (n : BitVec 10) (ob : Bool),
    let equal := s.inputLine (s.lineAddress alt m) = v
    let out := s.lineAddress alt n
    Completes s (exec (.xbne alt m v) s) [] [] [0] (if equal then s.next else s.ctr)
      (fun t => t.stBit 0 = if equal then s.stBit 0 else !s.stBit 0)
    ∧ Completes s (exec (.bbne alt m v n) s) [] [] []
        (if equal then s.next else BitVec.ofNat 16 n.toNat + s.x 5) (fun _ => True)
    ∧ (equal → ∃ t, exec (.tsbx alt m v n ob) s = .next t ∧ GoesTo s t s.next
        ∧ Effects { s with cruOut := t.cruOut, outbox := s.outbox ++ [Output.cru out ob] } t [] [] []
        ∧ ∀ l, t.cruOut.level l = if l = out then ob else s.cruOut.level l)
    ∧ (¬equal → Completes s (exec (.tsbx alt m v n ob) s) [] [] [0] (if alt then s.next else s.ctr)
        fun t => t.stBit 0 = if alt then s.stBit 0 else !s.stBit 0)

/-- SETB sets one output line. LDCR sets the lines of a field in ascending order, modulo 4096: line i of the field
receives bit 15 - i of the data word. Each line set is one output event; no other line, register, flag or word changes.
Line addresses modulo 4096 are the spec's choice D13. -/
def Obligations.SetOutputLines : Prop :=
  ∀ (s : State) (alt : Bool) (m : BitVec 10) (v : Bool) (n : BitVec 10) (width : Nat),
    (∃ t, exec (.setb alt m v) s = .next t ∧ GoesTo s t s.next
      ∧ Effects { s with cruOut := t.cruOut, outbox := s.outbox ++ [Output.cru (s.lineAddress alt m) v] } t [] [] []
      ∧ ∀ l, t.cruOut.level l = if l = s.lineAddress alt m then v else s.cruOut.level l)
    ∧ (s.during = [] → 1 ≤ width → width ≤ 16 → s.readable (s.dataAddress alt n) = true →
      let line (i : Nat) : Line := s.lineAddress alt m + BitVec.ofNat 12 i
      let bit (i : Nat) : Bool := (s.peek (s.dataAddress alt n)).getMsbD (15 - i)
      ∃ t, exec (.ldcr alt m width n) s = .next t ∧ GoesTo s t s.next
        ∧ Effects { s with
            cruOut := t.cruOut, outbox := s.outbox ++ (List.range width).map fun i => Output.cru (line i) (bit i) }
            t [s.dataAddress alt n] [] []
        ∧ (∀ i, i < width → t.cruOut.level (line i) = bit i)
        ∧ ∀ l, (∀ i, i < width → l ≠ line i) → t.cruOut.level l = s.cruOut.level l)

/-- STCR: bit 15 - i of the word stored is line i of the field, the bits to its left agree with the highest line read,
and CB tests the word, whether or not the store is refused. Line addresses modulo 4096 are the spec's choice D13. -/
def Obligations.StoreInputLines : Prop :=
  ∀ (s : State) (alt : Bool) (m : BitVec 10) (width : Nat) (n : BitVec 10), s.during = [] → 1 ≤ width → width ≤ 16 →
    ∃ f : Word, (∀ i, i < width → f.getMsbD (15 - i) = s.inputLine (s.lineAddress alt m + BitVec.ofNat 12 i))
      ∧ (∀ j, j + width < 16 → f.getMsbD j = f.getMsbD (16 - width))
      ∧ Completes s (exec (.stcr alt m width n) s) [] [(s.dataAddress alt n, f)] [10, 11, 12] s.next
          fun t => ComparesAs t f.toInt 0

/-! ## Exceptions -/

/-- `raise C` sets the cause's bit of ST and posts the internal request; no other bit and nothing else changes. A
read of main memory at which the memory reports an error delivers the word the memory gives, raises MP, on the 960B sets
the error latch (log 27, the model's choice), and the instruction goes on. The request latch is the spec's choice D3. -/
def Obligations.RaiseCause : Prop :=
  (∀ (s : State) (c : Cause),
    (s.raise c).pendInternal = true
    ∧ (∀ j, j < 16 → (s.raise c).stBit j =
        (decide (j = match c with | .mp => 2 | .pf => 3 | .uc => 4 | .mv => 5) || s.stBit j))
    ∧ s.raise c = { s with st := (s.raise c).st, pendInternal := true })
  ∧ ∀ (s : State) (a v : Word) (rest : List MemoryCycle) (k : Word → State → Result), isRegister a = false →
    s.readable a = true → s.during = { dmac := [], error := some v } :: rest →
    withRead s a k = k v { s.raise .mp with
      during := rest, errorLatch := s.errorLatch || decide (s.config.model = .m960B) }

/-- A step that fetches an undefined operation code raises UC and advances the active counter by two; no register, no
memory word and no other status bit changes (but MP, if a fetched word's check fails). So do E880 and EC80 where the
Arithmetic Option is absent. That the counter advances and nothing else happens is the spec's choice D4, the reading of
E880 and EC80 the model's (log 31). -/
def Obligations.UndefinedCode : Prop :=
  ∀ s : State, s.inbox = [] → s.active = true → s.interrupt = none → s.inLocation = false →
    s.readable2 s.ctr = true →
    (decodeWith s.config.layout (s.peek s.ctr) (s.peek (s.ctr + 1#16)) = .undefinedOp
      ∨ decodeWith s.config.layout (s.peek s.ctr) (s.peek (s.ctr + 1#16)) = .unlisted
        ∧ s.config.hasArithOption = false ∧ field (s.peek s.ctr) 0 5 ∈ [0x3A, 0x3B]) →
    Completes { s with during := [], pendInternal := true, ia := s.peek s.ctr, ib := s.peek (s.ctr + 1#16) } (step s)
      [s.ctr, s.ctr + 1#16] [] [4] (s.ctr + 2#16) fun t => t.stBit 4 = true

/-- The class taken between two instructions is the highest of internal, CRU and DMAC whose request stands with its
mask bit 0; with none, no interrupt is taken. The latch and the level of the CRU line are the spec's choices D3 and
D30. -/
def Obligations.InterruptPriority : Prop :=
  ∀ s : State,
    (s.interrupt = some .internal ↔ s.pendInternal = true ∧ s.stBit 7 = false)
    ∧ (s.interrupt = some .cru ↔
        (s.pendInternal = false ∨ s.stBit 7 = true) ∧ s.cruLine = true ∧ s.stBit 9 = false)
    ∧ (s.interrupt = some .dmac ↔
        (s.pendInternal = false ∨ s.stBit 7 = true) ∧ (s.cruLine = false ∨ s.stBit 9 = true)
        ∧ (∃ k : Fin 8, (s.dmac[k]).isSome = true) ∧ s.stBit 8 = false)

/-- Taking an interrupt: the words at 0x90 (internal), 0x94 (CRU) or 0x92 (DMAC) are executed as one instruction, from
a state in which the internal latch is cleared (internal) or the DMAC has stored its status (DMAC), and then II, DI and
CI, or DI and CI, or DI alone are set to 1 and no other status bit changes. The moment, the counter and the order of
the masks are the spec's choices D1, D2 and D3. -/
def Obligations.InterruptEntry : Prop :=
  ∀ (s t : State) (c : InterruptClass), s.interrupt = some c → cpuStep s = .next t →
    let l : Word := match c with | .internal => 0x90 | .cru => 0x94 | .dmac => 0x92
    let masks : List Nat := match c with | .internal => [7, 8, 9] | .cru => [8, 9] | .dmac => [8]
    let s1 : State := match c with
      | .internal => { s with pendInternal := false }
      | .cru => s
      | .dmac => s.dmacRecognized
    ∃ u, executeAt exec { s1 with inLocation := true } l = .next u
      ∧ (∀ j, j < 16 → t.stBit j = (decide (j ∈ masks) || u.stBit j))
      ∧ t = { u with st := t.st, inLocation := false }

/-- The linkage of an internal or CRU interrupt, from entry to return, for any SXBS with a direct address in the
location: the block receives the interrupted counter, without any increment, and the status as before the masks were
set; the handler starts in Supervisor Mode at the address in the third word; and LDS on the block brings back the
status and the counter of the interrupted mode. The counter stored is by the spec's choices D2 and D24. -/
def Obligations.InterruptLinkage : Prop :=
  ∀ (s : State) (c : InterruptClass) (blk : Word), s.during = [] →
    let l : Word := match c with | .internal => 0x90 | .cru => 0x94 | .dmac => 0x92
    let masks : Word := match c with | .internal => 0x01C0 | .cru => 0x00C0 | .dmac => 0x0080
    s.interrupt = some c → c ≠ .dmac → s.inLocation = false → s.badWords = [] →
    0xA8 ≤ blk.toNat → blk.toNat + 2 < s.config.memWords → s.config.protectLimit < blk.toNat →
    s.config.memWords ≤ 65536 → s.config.sxStoresTargetCounter = false →
    s.mem.word l = 0x7880 → s.mem.word (l + 1#16) = blk →
    ∃ t, cpuStep s = .next t
      ∧ t.mem.word blk = s.ctr ∧ t.mem.word (blk + 1#16) = s.st
      ∧ t.pc = s.mem.word (blk + 2#16) ∧ t.ec = s.ec ∧ t.st = (s.st &&& 0x7FFF) ||| masks ∧ t.regs = s.regs
      ∧ ∃ r, exec (.lds ⟨false, none, blk⟩ false) t = .next r ∧ r.st = s.st ∧ r.ctr = s.ctr

/-- The DMAC. A write of its own changes one word and neither status nor request, or, under DMAC_OBEYS_PROTECT and on a
protected word, nothing; and what it writes just before an access of the CPU, that access meets. Its answer to
"interrupt recognized": every controller's bit clears, word 0x96 receives the word for the eight bits, each controller's
two status words lie at 0x98 + 2k and 0x99 + 2k, and no other address reads differently. That the bits clear is the
spec's choice D31, the protection and the reach of the registers its choice D15, the silence of a refused write the
model's (log 16). -/
def Obligations.DmacWritesAndRecognized : Prop :=
  ∀ (s : State), 0xA8 ≤ s.config.memWords →
    (∀ a v : Word,
      (s.config.dmacObeysProtect = true → s.refusesWrite a = true → s.dmacPut a v = s)
      ∧ (s.config.dmacObeysProtect = false ∨ s.refusesWrite a = false →
        (∀ b, (s.dmacPut a v).peek b = if b = a ∧ s.readable a = true then v else s.peek b)
        ∧ (s.dmacPut a v).st = s.st ∧ (s.dmacPut a v).pendInternal = s.pendInternal))
    ∧ (∀ (a b x : Word) (rest : List MemoryCycle) (k : Word → State → Result),
      s.during = { dmac := [(b, x)], error := none } :: rest →
      let u : State := { s.dmacPut b x with during := rest }
      (s.readable a = true → withRead s a k = k (u.peek a) (u.noteRead a)) ∧ ∀ v, s.store a v = u.write a v)
    ∧ (∀ k : Fin 8, (s.dmacRecognized.dmac[k]) = none)
    ∧ s.dmacRecognized.peek 0x96 = Config.dmacStatusWord (s.dmac.toList.map Option.isSome)
    ∧ (∀ (k : Fin 8) (w0 w1 : Word), s.dmac[k] = some (w0, w1) →
        s.dmacRecognized.peek (BitVec.ofNat 16 (0x98 + 2 * k.val)) = w0
        ∧ s.dmacRecognized.peek (BitVec.ofNat 16 (0x99 + 2 * k.val)) = w1)
    ∧ (∀ a : Word, a ≠ 0x96 →
        (∀ k : Fin 8, (s.dmac[k]).isSome = true → a.toNat ≠ 0x98 + 2 * k.val ∧ a.toNat ≠ 0x99 + 2 * k.val) →
        s.dmacRecognized.peek a = s.peek a)
    ∧ s.dmacRecognized.st = s.st ∧ s.dmacRecognized.regs = s.regs

/-! ## The panel and the power system -/

/-- In HALT, with the panel powered and unlocked, ENTER loads the DATA switches into PC, EC, ST or MA, or into the
memory word MA addresses, unless that is protected with MPO off; DISPLAY shows the register or word; MDI then
increments MA. No panel write raises MV. Otherwise neither does anything. That no MV is raised is the spec's choice D8,
that panel actions happen only while the machine is halted its choice D20 (log 21); that ENTER leaves the display
register is the model's (log 28). -/
def Obligations.PanelEnterAndDisplay : Prop :=
  ∀ (s : State) (r : PanelSwitch),
    (s.panelHalted = false → handle (.enter r) s = .next s ∧ handle (.display r) s = .next s)
    ∧ (s.panelHalted = true →
      (∃ t, handle (.enter r) s = .next t
        ∧ t.pc = (if r = .pc then s.switches else s.pc) ∧ t.ec = (if r = .ec then s.switches else s.ec)
        ∧ t.st = (if r = .st then s.switches else s.st)
        ∧ t.ma = (if r = .ma then s.switches else if r = .mdi then s.ma + 1#16 else s.ma)
        ∧ (∀ a, t.peek a =
            if (r = .md ∨ r = .mdi) ∧ a = s.ma ∧ s.readable a = true ∧ s.refusesWrite a = false then s.switches
            else s.peek a)
        ∧ t.pendInternal = s.pendInternal ∧ t.display = s.display)
      ∧ (r ≠ .md ∧ r ≠ .mdi ∨ s.readable s.ma = true → handle (.display r) s = .next { s with
          display := match r with
            | .pc => s.pc | .ec => s.ec | .st => s.st | .ma => s.ma | .md => s.peek s.ma | .mdi => s.peek s.ma
            | .ia => s.ia | .ib => s.ib
          ma := if r = .mdi then s.ma + 1#16 else s.ma }))

/-- Power loss raises PF and the machine goes on, until power goes down and nothing executes. When power is restored ST
is 0x00C0 and an internal request stands, so that once the CPU executes, the internal interrupt is the first thing
taken; the registers are as the event says; memory is as before with the battery on, and else as the event says, with
the POWER LOSS light on. The restored state is the spec's choice D23; that power goes down only after power loss is
sensed, and zeros where the event lists no word, are the model's (log 23). -/
def Obligations.PowerEvents : Prop :=
  ∀ s : State,
    (s.power = .on → ∃ t, handle .powerLoss s = .next t ∧ t.stBit 3 = true ∧ t.pendInternal = true
      ∧ t.running = s.running ∧ t.active = s.active ∧ ∀ j, j < 16 → j ≠ 3 → t.stBit j = s.stBit j)
    ∧ handle .powerDown s = .next (if s.power = .failing then { s with power := .off, running := false } else s)
    ∧ (s.power = .off → ∀ d, handle (.cpuTurn d) s = .next s)
    ∧ ∀ u : PowerUp, s.power ≠ .on → ∃ t, handle (.powerRestore u) s = .next t
      ∧ t.st = 0x00C0 ∧ t.pendInternal = true ∧ t.interrupt = some .internal
      ∧ t.running = s.config.powerRestoreAutorun
      ∧ t.regs = u.regs ∧ t.pc = u.pc ∧ t.ec = u.ec
      ∧ (s.config.hasBattery = true → u.batteryOn = true →
          t.mem = s.mem ∧ t.badWords = s.badWords ∧ t.powerLossLight = s.powerLossLight)
      ∧ (s.config.hasBattery = false ∨ u.batteryOn = false → t.powerLossLight = true
          ∧ (u.badWords = [] → ∀ a, isRegister a = false → s.installed a = true →
              t.peek a = (u.mem.reverse.lookup a).getD 0))

/-- Run control: with MODE in RUN, START makes the machine run; with MODE in HALT and SIE on, each START is one step of
the CPU; with SIE off it does nothing; MODE HALT stops the machine; and while it is halted a turn of the CPU changes
nothing. One press as one step is the spec's choice D20; that a press with the clock stopped is lost is the
model's (log 21). -/
def Obligations.RunControl : Prop :=
  ∀ (s : State) (d : List MemoryCycle), s.panelLive = true →
    (s.modeRun = true → handle (.start d) s = .next { s with running := true })
    ∧ (s.modeRun = false → s.sie = true → s.running = false →
      handle (.start d) s = if s.clockRuns then cpuStep (s.withDuring d) else .next s)
    ∧ (s.modeRun = false → s.sie = false → handle (.start d) s = .next s)
    ∧ handle (.setMode false) s = .next { s with modeRun := false, running := false }
    ∧ (s.running = false → handle (.cpuTurn d) s = .next s)
end

