-- ==== Sys2Proof/Laws/State.lean ====
section
/-! SUPPORT. What each state update leaves alone, one lemma per field. -/

namespace Sys2Proof.Machine

variable (s : State)

/-! ## setFile -/

@[simp] theorem State.setFile_pc (i : BitVec 4) (v : Word) : (s.setFile i v).pc = s.pc := rfl
@[simp] theorem State.setFile_ec (i : BitVec 4) (v : Word) : (s.setFile i v).ec = s.ec := rfl
@[simp] theorem State.setFile_st (i : BitVec 4) (v : Word) : (s.setFile i v).st = s.st := rfl
@[simp] theorem State.setFile_ia (i : BitVec 4) (v : Word) : (s.setFile i v).ia = s.ia := rfl
@[simp] theorem State.setFile_ib (i : BitVec 4) (v : Word) : (s.setFile i v).ib = s.ib := rfl
@[simp] theorem State.setFile_ma (i : BitVec 4) (v : Word) : (s.setFile i v).ma = s.ma := rfl
@[simp] theorem State.setFile_display (i : BitVec 4) (v : Word) : (s.setFile i v).display = s.display := rfl
@[simp] theorem State.setFile_switches (i : BitVec 4) (v : Word) : (s.setFile i v).switches = s.switches := rfl
@[simp] theorem State.setFile_mpo (i : BitVec 4) (v : Word) : (s.setFile i v).mpo = s.mpo := rfl
@[simp] theorem State.setFile_locked (i : BitVec 4) (v : Word) : (s.setFile i v).locked = s.locked := rfl
@[simp] theorem State.setFile_modeRun (i : BitVec 4) (v : Word) : (s.setFile i v).modeRun = s.modeRun := rfl
@[simp] theorem State.setFile_sie (i : BitVec 4) (v : Word) : (s.setFile i v).sie = s.sie := rfl
@[simp] theorem State.setFile_clockOn (i : BitVec 4) (v : Word) : (s.setFile i v).clockOn = s.clockOn := rfl
@[simp] theorem State.setFile_running (i : BitVec 4) (v : Word) : (s.setFile i v).running = s.running := rfl
@[simp] theorem State.setFile_power (i : BitVec 4) (v : Word) : (s.setFile i v).power = s.power := rfl
@[simp] theorem State.setFile_powerLossLight (i : BitVec 4) (v : Word) : (s.setFile i v).powerLossLight = s.powerLossLight := rfl
@[simp] theorem State.setFile_pendInternal (i : BitVec 4) (v : Word) : (s.setFile i v).pendInternal = s.pendInternal := rfl
@[simp] theorem State.setFile_cruLine (i : BitVec 4) (v : Word) : (s.setFile i v).cruLine = s.cruLine := rfl
@[simp] theorem State.setFile_dmac (i : BitVec 4) (v : Word) : (s.setFile i v).dmac = s.dmac := rfl
@[simp] theorem State.setFile_mem (i : BitVec 4) (v : Word) : (s.setFile i v).mem = s.mem := rfl
@[simp] theorem State.setFile_badWords (i : BitVec 4) (v : Word) : (s.setFile i v).badWords = s.badWords := rfl
@[simp] theorem State.setFile_errorLatch (i : BitVec 4) (v : Word) : (s.setFile i v).errorLatch = s.errorLatch := rfl
@[simp] theorem State.setFile_cruIn (i : BitVec 4) (v : Word) : (s.setFile i v).cruIn = s.cruIn := rfl
@[simp] theorem State.setFile_cruOut (i : BitVec 4) (v : Word) : (s.setFile i v).cruOut = s.cruOut := rfl
@[simp] theorem State.setFile_outbox (i : BitVec 4) (v : Word) : (s.setFile i v).outbox = s.outbox := rfl
@[simp] theorem State.setFile_inbox (i : BitVec 4) (v : Word) : (s.setFile i v).inbox = s.inbox := rfl
@[simp] theorem State.setFile_during (i : BitVec 4) (v : Word) : (s.setFile i v).during = s.during := rfl
@[simp] theorem State.setFile_inLocation (i : BitVec 4) (v : Word) : (s.setFile i v).inLocation = s.inLocation := rfl
@[simp] theorem State.setFile_freeNext (i : BitVec 4) (v : Word) : (s.setFile i v).freeNext = s.freeNext := rfl
@[simp] theorem State.setFile_config (i : BitVec 4) (v : Word) : (s.setFile i v).config = s.config := rfl

/-! ## setStBit -/

@[simp] theorem State.setStBit_regs (i : Nat) (v : Bool) : (s.setStBit i v).regs = s.regs := rfl
@[simp] theorem State.setStBit_pc (i : Nat) (v : Bool) : (s.setStBit i v).pc = s.pc := rfl
@[simp] theorem State.setStBit_ec (i : Nat) (v : Bool) : (s.setStBit i v).ec = s.ec := rfl
@[simp] theorem State.setStBit_ia (i : Nat) (v : Bool) : (s.setStBit i v).ia = s.ia := rfl
@[simp] theorem State.setStBit_ib (i : Nat) (v : Bool) : (s.setStBit i v).ib = s.ib := rfl
@[simp] theorem State.setStBit_ma (i : Nat) (v : Bool) : (s.setStBit i v).ma = s.ma := rfl
@[simp] theorem State.setStBit_display (i : Nat) (v : Bool) : (s.setStBit i v).display = s.display := rfl
@[simp] theorem State.setStBit_switches (i : Nat) (v : Bool) : (s.setStBit i v).switches = s.switches := rfl
@[simp] theorem State.setStBit_mpo (i : Nat) (v : Bool) : (s.setStBit i v).mpo = s.mpo := rfl
@[simp] theorem State.setStBit_locked (i : Nat) (v : Bool) : (s.setStBit i v).locked = s.locked := rfl
@[simp] theorem State.setStBit_modeRun (i : Nat) (v : Bool) : (s.setStBit i v).modeRun = s.modeRun := rfl
@[simp] theorem State.setStBit_sie (i : Nat) (v : Bool) : (s.setStBit i v).sie = s.sie := rfl
@[simp] theorem State.setStBit_clockOn (i : Nat) (v : Bool) : (s.setStBit i v).clockOn = s.clockOn := rfl
@[simp] theorem State.setStBit_running (i : Nat) (v : Bool) : (s.setStBit i v).running = s.running := rfl
@[simp] theorem State.setStBit_power (i : Nat) (v : Bool) : (s.setStBit i v).power = s.power := rfl
@[simp] theorem State.setStBit_powerLossLight (i : Nat) (v : Bool) : (s.setStBit i v).powerLossLight = s.powerLossLight := rfl
@[simp] theorem State.setStBit_pendInternal (i : Nat) (v : Bool) : (s.setStBit i v).pendInternal = s.pendInternal := rfl
@[simp] theorem State.setStBit_cruLine (i : Nat) (v : Bool) : (s.setStBit i v).cruLine = s.cruLine := rfl
@[simp] theorem State.setStBit_dmac (i : Nat) (v : Bool) : (s.setStBit i v).dmac = s.dmac := rfl
@[simp] theorem State.setStBit_mem (i : Nat) (v : Bool) : (s.setStBit i v).mem = s.mem := rfl
@[simp] theorem State.setStBit_badWords (i : Nat) (v : Bool) : (s.setStBit i v).badWords = s.badWords := rfl
@[simp] theorem State.setStBit_errorLatch (i : Nat) (v : Bool) : (s.setStBit i v).errorLatch = s.errorLatch := rfl
@[simp] theorem State.setStBit_cruIn (i : Nat) (v : Bool) : (s.setStBit i v).cruIn = s.cruIn := rfl
@[simp] theorem State.setStBit_cruOut (i : Nat) (v : Bool) : (s.setStBit i v).cruOut = s.cruOut := rfl
@[simp] theorem State.setStBit_outbox (i : Nat) (v : Bool) : (s.setStBit i v).outbox = s.outbox := rfl
@[simp] theorem State.setStBit_inbox (i : Nat) (v : Bool) : (s.setStBit i v).inbox = s.inbox := rfl
@[simp] theorem State.setStBit_during (i : Nat) (v : Bool) : (s.setStBit i v).during = s.during := rfl
@[simp] theorem State.setStBit_inLocation (i : Nat) (v : Bool) : (s.setStBit i v).inLocation = s.inLocation := rfl
@[simp] theorem State.setStBit_freeNext (i : Nat) (v : Bool) : (s.setStBit i v).freeNext = s.freeNext := rfl
@[simp] theorem State.setStBit_config (i : Nat) (v : Bool) : (s.setStBit i v).config = s.config := rfl

/-! ## setComparison -/

@[simp] theorem State.setComparison_regs (c : Comparison) : (s.setComparison c).regs = s.regs := rfl
@[simp] theorem State.setComparison_pc (c : Comparison) : (s.setComparison c).pc = s.pc := rfl
@[simp] theorem State.setComparison_ec (c : Comparison) : (s.setComparison c).ec = s.ec := rfl
@[simp] theorem State.setComparison_ia (c : Comparison) : (s.setComparison c).ia = s.ia := rfl
@[simp] theorem State.setComparison_ib (c : Comparison) : (s.setComparison c).ib = s.ib := rfl
@[simp] theorem State.setComparison_ma (c : Comparison) : (s.setComparison c).ma = s.ma := rfl
@[simp] theorem State.setComparison_display (c : Comparison) : (s.setComparison c).display = s.display := rfl
@[simp] theorem State.setComparison_switches (c : Comparison) : (s.setComparison c).switches = s.switches := rfl
@[simp] theorem State.setComparison_mpo (c : Comparison) : (s.setComparison c).mpo = s.mpo := rfl
@[simp] theorem State.setComparison_locked (c : Comparison) : (s.setComparison c).locked = s.locked := rfl
@[simp] theorem State.setComparison_modeRun (c : Comparison) : (s.setComparison c).modeRun = s.modeRun := rfl
@[simp] theorem State.setComparison_sie (c : Comparison) : (s.setComparison c).sie = s.sie := rfl
@[simp] theorem State.setComparison_clockOn (c : Comparison) : (s.setComparison c).clockOn = s.clockOn := rfl
@[simp] theorem State.setComparison_running (c : Comparison) : (s.setComparison c).running = s.running := rfl
@[simp] theorem State.setComparison_power (c : Comparison) : (s.setComparison c).power = s.power := rfl
@[simp] theorem State.setComparison_powerLossLight (c : Comparison) : (s.setComparison c).powerLossLight = s.powerLossLight := rfl
@[simp] theorem State.setComparison_pendInternal (c : Comparison) : (s.setComparison c).pendInternal = s.pendInternal := rfl
@[simp] theorem State.setComparison_cruLine (c : Comparison) : (s.setComparison c).cruLine = s.cruLine := rfl
@[simp] theorem State.setComparison_dmac (c : Comparison) : (s.setComparison c).dmac = s.dmac := rfl
@[simp] theorem State.setComparison_mem (c : Comparison) : (s.setComparison c).mem = s.mem := rfl
@[simp] theorem State.setComparison_badWords (c : Comparison) : (s.setComparison c).badWords = s.badWords := rfl
@[simp] theorem State.setComparison_errorLatch (c : Comparison) : (s.setComparison c).errorLatch = s.errorLatch := rfl
@[simp] theorem State.setComparison_cruIn (c : Comparison) : (s.setComparison c).cruIn = s.cruIn := rfl
@[simp] theorem State.setComparison_cruOut (c : Comparison) : (s.setComparison c).cruOut = s.cruOut := rfl
@[simp] theorem State.setComparison_outbox (c : Comparison) : (s.setComparison c).outbox = s.outbox := rfl
@[simp] theorem State.setComparison_inbox (c : Comparison) : (s.setComparison c).inbox = s.inbox := rfl
@[simp] theorem State.setComparison_during (c : Comparison) : (s.setComparison c).during = s.during := rfl
@[simp] theorem State.setComparison_inLocation (c : Comparison) : (s.setComparison c).inLocation = s.inLocation := rfl
@[simp] theorem State.setComparison_freeNext (c : Comparison) : (s.setComparison c).freeNext = s.freeNext := rfl
@[simp] theorem State.setComparison_config (c : Comparison) : (s.setComparison c).config = s.config := rfl

/-! ## setWorker -/

@[simp] theorem State.setWorker_regs (v : Bool) : (s.setWorker v).regs = s.regs := rfl
@[simp] theorem State.setWorker_pc (v : Bool) : (s.setWorker v).pc = s.pc := rfl
@[simp] theorem State.setWorker_ec (v : Bool) : (s.setWorker v).ec = s.ec := rfl
@[simp] theorem State.setWorker_ia (v : Bool) : (s.setWorker v).ia = s.ia := rfl
@[simp] theorem State.setWorker_ib (v : Bool) : (s.setWorker v).ib = s.ib := rfl
@[simp] theorem State.setWorker_ma (v : Bool) : (s.setWorker v).ma = s.ma := rfl
@[simp] theorem State.setWorker_display (v : Bool) : (s.setWorker v).display = s.display := rfl
@[simp] theorem State.setWorker_switches (v : Bool) : (s.setWorker v).switches = s.switches := rfl
@[simp] theorem State.setWorker_mpo (v : Bool) : (s.setWorker v).mpo = s.mpo := rfl
@[simp] theorem State.setWorker_locked (v : Bool) : (s.setWorker v).locked = s.locked := rfl
@[simp] theorem State.setWorker_modeRun (v : Bool) : (s.setWorker v).modeRun = s.modeRun := rfl
@[simp] theorem State.setWorker_sie (v : Bool) : (s.setWorker v).sie = s.sie := rfl
@[simp] theorem State.setWorker_clockOn (v : Bool) : (s.setWorker v).clockOn = s.clockOn := rfl
@[simp] theorem State.setWorker_running (v : Bool) : (s.setWorker v).running = s.running := rfl
@[simp] theorem State.setWorker_power (v : Bool) : (s.setWorker v).power = s.power := rfl
@[simp] theorem State.setWorker_powerLossLight (v : Bool) : (s.setWorker v).powerLossLight = s.powerLossLight := rfl
@[simp] theorem State.setWorker_pendInternal (v : Bool) : (s.setWorker v).pendInternal = s.pendInternal := rfl
@[simp] theorem State.setWorker_cruLine (v : Bool) : (s.setWorker v).cruLine = s.cruLine := rfl
@[simp] theorem State.setWorker_dmac (v : Bool) : (s.setWorker v).dmac = s.dmac := rfl
@[simp] theorem State.setWorker_mem (v : Bool) : (s.setWorker v).mem = s.mem := rfl
@[simp] theorem State.setWorker_badWords (v : Bool) : (s.setWorker v).badWords = s.badWords := rfl
@[simp] theorem State.setWorker_errorLatch (v : Bool) : (s.setWorker v).errorLatch = s.errorLatch := rfl
@[simp] theorem State.setWorker_cruIn (v : Bool) : (s.setWorker v).cruIn = s.cruIn := rfl
@[simp] theorem State.setWorker_cruOut (v : Bool) : (s.setWorker v).cruOut = s.cruOut := rfl
@[simp] theorem State.setWorker_outbox (v : Bool) : (s.setWorker v).outbox = s.outbox := rfl
@[simp] theorem State.setWorker_inbox (v : Bool) : (s.setWorker v).inbox = s.inbox := rfl
@[simp] theorem State.setWorker_during (v : Bool) : (s.setWorker v).during = s.during := rfl
@[simp] theorem State.setWorker_inLocation (v : Bool) : (s.setWorker v).inLocation = s.inLocation := rfl
@[simp] theorem State.setWorker_freeNext (v : Bool) : (s.setWorker v).freeNext = s.freeNext := rfl
@[simp] theorem State.setWorker_config (v : Bool) : (s.setWorker v).config = s.config := rfl

/-! ## setOI -/

@[simp] theorem State.setOI_regs (v : Bool) : (s.setOI v).regs = s.regs := rfl
@[simp] theorem State.setOI_pc (v : Bool) : (s.setOI v).pc = s.pc := rfl
@[simp] theorem State.setOI_ec (v : Bool) : (s.setOI v).ec = s.ec := rfl
@[simp] theorem State.setOI_ia (v : Bool) : (s.setOI v).ia = s.ia := rfl
@[simp] theorem State.setOI_ib (v : Bool) : (s.setOI v).ib = s.ib := rfl
@[simp] theorem State.setOI_ma (v : Bool) : (s.setOI v).ma = s.ma := rfl
@[simp] theorem State.setOI_display (v : Bool) : (s.setOI v).display = s.display := rfl
@[simp] theorem State.setOI_switches (v : Bool) : (s.setOI v).switches = s.switches := rfl
@[simp] theorem State.setOI_mpo (v : Bool) : (s.setOI v).mpo = s.mpo := rfl
@[simp] theorem State.setOI_locked (v : Bool) : (s.setOI v).locked = s.locked := rfl
@[simp] theorem State.setOI_modeRun (v : Bool) : (s.setOI v).modeRun = s.modeRun := rfl
@[simp] theorem State.setOI_sie (v : Bool) : (s.setOI v).sie = s.sie := rfl
@[simp] theorem State.setOI_clockOn (v : Bool) : (s.setOI v).clockOn = s.clockOn := rfl
@[simp] theorem State.setOI_running (v : Bool) : (s.setOI v).running = s.running := rfl
@[simp] theorem State.setOI_power (v : Bool) : (s.setOI v).power = s.power := rfl
@[simp] theorem State.setOI_powerLossLight (v : Bool) : (s.setOI v).powerLossLight = s.powerLossLight := rfl
@[simp] theorem State.setOI_pendInternal (v : Bool) : (s.setOI v).pendInternal = s.pendInternal := rfl
@[simp] theorem State.setOI_cruLine (v : Bool) : (s.setOI v).cruLine = s.cruLine := rfl
@[simp] theorem State.setOI_dmac (v : Bool) : (s.setOI v).dmac = s.dmac := rfl
@[simp] theorem State.setOI_mem (v : Bool) : (s.setOI v).mem = s.mem := rfl
@[simp] theorem State.setOI_badWords (v : Bool) : (s.setOI v).badWords = s.badWords := rfl
@[simp] theorem State.setOI_errorLatch (v : Bool) : (s.setOI v).errorLatch = s.errorLatch := rfl
@[simp] theorem State.setOI_cruIn (v : Bool) : (s.setOI v).cruIn = s.cruIn := rfl
@[simp] theorem State.setOI_cruOut (v : Bool) : (s.setOI v).cruOut = s.cruOut := rfl
@[simp] theorem State.setOI_outbox (v : Bool) : (s.setOI v).outbox = s.outbox := rfl
@[simp] theorem State.setOI_inbox (v : Bool) : (s.setOI v).inbox = s.inbox := rfl
@[simp] theorem State.setOI_during (v : Bool) : (s.setOI v).during = s.during := rfl
@[simp] theorem State.setOI_inLocation (v : Bool) : (s.setOI v).inLocation = s.inLocation := rfl
@[simp] theorem State.setOI_freeNext (v : Bool) : (s.setOI v).freeNext = s.freeNext := rfl
@[simp] theorem State.setOI_config (v : Bool) : (s.setOI v).config = s.config := rfl

/-! ## setCO -/

@[simp] theorem State.setCO_regs (v : Bool) : (s.setCO v).regs = s.regs := rfl
@[simp] theorem State.setCO_pc (v : Bool) : (s.setCO v).pc = s.pc := rfl
@[simp] theorem State.setCO_ec (v : Bool) : (s.setCO v).ec = s.ec := rfl
@[simp] theorem State.setCO_ia (v : Bool) : (s.setCO v).ia = s.ia := rfl
@[simp] theorem State.setCO_ib (v : Bool) : (s.setCO v).ib = s.ib := rfl
@[simp] theorem State.setCO_ma (v : Bool) : (s.setCO v).ma = s.ma := rfl
@[simp] theorem State.setCO_display (v : Bool) : (s.setCO v).display = s.display := rfl
@[simp] theorem State.setCO_switches (v : Bool) : (s.setCO v).switches = s.switches := rfl
@[simp] theorem State.setCO_mpo (v : Bool) : (s.setCO v).mpo = s.mpo := rfl
@[simp] theorem State.setCO_locked (v : Bool) : (s.setCO v).locked = s.locked := rfl
@[simp] theorem State.setCO_modeRun (v : Bool) : (s.setCO v).modeRun = s.modeRun := rfl
@[simp] theorem State.setCO_sie (v : Bool) : (s.setCO v).sie = s.sie := rfl
@[simp] theorem State.setCO_clockOn (v : Bool) : (s.setCO v).clockOn = s.clockOn := rfl
@[simp] theorem State.setCO_running (v : Bool) : (s.setCO v).running = s.running := rfl
@[simp] theorem State.setCO_power (v : Bool) : (s.setCO v).power = s.power := rfl
@[simp] theorem State.setCO_powerLossLight (v : Bool) : (s.setCO v).powerLossLight = s.powerLossLight := rfl
@[simp] theorem State.setCO_pendInternal (v : Bool) : (s.setCO v).pendInternal = s.pendInternal := rfl
@[simp] theorem State.setCO_cruLine (v : Bool) : (s.setCO v).cruLine = s.cruLine := rfl
@[simp] theorem State.setCO_dmac (v : Bool) : (s.setCO v).dmac = s.dmac := rfl
@[simp] theorem State.setCO_mem (v : Bool) : (s.setCO v).mem = s.mem := rfl
@[simp] theorem State.setCO_badWords (v : Bool) : (s.setCO v).badWords = s.badWords := rfl
@[simp] theorem State.setCO_errorLatch (v : Bool) : (s.setCO v).errorLatch = s.errorLatch := rfl
@[simp] theorem State.setCO_cruIn (v : Bool) : (s.setCO v).cruIn = s.cruIn := rfl
@[simp] theorem State.setCO_cruOut (v : Bool) : (s.setCO v).cruOut = s.cruOut := rfl
@[simp] theorem State.setCO_outbox (v : Bool) : (s.setCO v).outbox = s.outbox := rfl
@[simp] theorem State.setCO_inbox (v : Bool) : (s.setCO v).inbox = s.inbox := rfl
@[simp] theorem State.setCO_during (v : Bool) : (s.setCO v).during = s.during := rfl
@[simp] theorem State.setCO_inLocation (v : Bool) : (s.setCO v).inLocation = s.inLocation := rfl
@[simp] theorem State.setCO_freeNext (v : Bool) : (s.setCO v).freeNext = s.freeNext := rfl
@[simp] theorem State.setCO_config (v : Bool) : (s.setCO v).config = s.config := rfl

/-! ## setCB -/

@[simp] theorem State.setCB_regs (v : Word) : (s.setCB v).regs = s.regs := rfl
@[simp] theorem State.setCB_pc (v : Word) : (s.setCB v).pc = s.pc := rfl
@[simp] theorem State.setCB_ec (v : Word) : (s.setCB v).ec = s.ec := rfl
@[simp] theorem State.setCB_ia (v : Word) : (s.setCB v).ia = s.ia := rfl
@[simp] theorem State.setCB_ib (v : Word) : (s.setCB v).ib = s.ib := rfl
@[simp] theorem State.setCB_ma (v : Word) : (s.setCB v).ma = s.ma := rfl
@[simp] theorem State.setCB_display (v : Word) : (s.setCB v).display = s.display := rfl
@[simp] theorem State.setCB_switches (v : Word) : (s.setCB v).switches = s.switches := rfl
@[simp] theorem State.setCB_mpo (v : Word) : (s.setCB v).mpo = s.mpo := rfl
@[simp] theorem State.setCB_locked (v : Word) : (s.setCB v).locked = s.locked := rfl
@[simp] theorem State.setCB_modeRun (v : Word) : (s.setCB v).modeRun = s.modeRun := rfl
@[simp] theorem State.setCB_sie (v : Word) : (s.setCB v).sie = s.sie := rfl
@[simp] theorem State.setCB_clockOn (v : Word) : (s.setCB v).clockOn = s.clockOn := rfl
@[simp] theorem State.setCB_running (v : Word) : (s.setCB v).running = s.running := rfl
@[simp] theorem State.setCB_power (v : Word) : (s.setCB v).power = s.power := rfl
@[simp] theorem State.setCB_powerLossLight (v : Word) : (s.setCB v).powerLossLight = s.powerLossLight := rfl
@[simp] theorem State.setCB_pendInternal (v : Word) : (s.setCB v).pendInternal = s.pendInternal := rfl
@[simp] theorem State.setCB_cruLine (v : Word) : (s.setCB v).cruLine = s.cruLine := rfl
@[simp] theorem State.setCB_dmac (v : Word) : (s.setCB v).dmac = s.dmac := rfl
@[simp] theorem State.setCB_mem (v : Word) : (s.setCB v).mem = s.mem := rfl
@[simp] theorem State.setCB_badWords (v : Word) : (s.setCB v).badWords = s.badWords := rfl
@[simp] theorem State.setCB_errorLatch (v : Word) : (s.setCB v).errorLatch = s.errorLatch := rfl
@[simp] theorem State.setCB_cruIn (v : Word) : (s.setCB v).cruIn = s.cruIn := rfl
@[simp] theorem State.setCB_cruOut (v : Word) : (s.setCB v).cruOut = s.cruOut := rfl
@[simp] theorem State.setCB_outbox (v : Word) : (s.setCB v).outbox = s.outbox := rfl
@[simp] theorem State.setCB_inbox (v : Word) : (s.setCB v).inbox = s.inbox := rfl
@[simp] theorem State.setCB_during (v : Word) : (s.setCB v).during = s.during := rfl
@[simp] theorem State.setCB_inLocation (v : Word) : (s.setCB v).inLocation = s.inLocation := rfl
@[simp] theorem State.setCB_freeNext (v : Word) : (s.setCB v).freeNext = s.freeNext := rfl
@[simp] theorem State.setCB_config (v : Word) : (s.setCB v).config = s.config := rfl

/-! ## setAddFlags -/

@[simp] theorem State.setAddFlags_regs (a b : Word) : (s.setAddFlags a b).regs = s.regs := by simp [State.setAddFlags]
@[simp] theorem State.setAddFlags_pc (a b : Word) : (s.setAddFlags a b).pc = s.pc := by simp [State.setAddFlags]
@[simp] theorem State.setAddFlags_ec (a b : Word) : (s.setAddFlags a b).ec = s.ec := by simp [State.setAddFlags]
@[simp] theorem State.setAddFlags_ia (a b : Word) : (s.setAddFlags a b).ia = s.ia := by simp [State.setAddFlags]
@[simp] theorem State.setAddFlags_ib (a b : Word) : (s.setAddFlags a b).ib = s.ib := by simp [State.setAddFlags]
@[simp] theorem State.setAddFlags_ma (a b : Word) : (s.setAddFlags a b).ma = s.ma := by simp [State.setAddFlags]
@[simp] theorem State.setAddFlags_display (a b : Word) : (s.setAddFlags a b).display = s.display := by simp [State.setAddFlags]
@[simp] theorem State.setAddFlags_switches (a b : Word) : (s.setAddFlags a b).switches = s.switches := by simp [State.setAddFlags]
@[simp] theorem State.setAddFlags_mpo (a b : Word) : (s.setAddFlags a b).mpo = s.mpo := by simp [State.setAddFlags]
@[simp] theorem State.setAddFlags_locked (a b : Word) : (s.setAddFlags a b).locked = s.locked := by simp [State.setAddFlags]
@[simp] theorem State.setAddFlags_modeRun (a b : Word) : (s.setAddFlags a b).modeRun = s.modeRun := by simp [State.setAddFlags]
@[simp] theorem State.setAddFlags_sie (a b : Word) : (s.setAddFlags a b).sie = s.sie := by simp [State.setAddFlags]
@[simp] theorem State.setAddFlags_clockOn (a b : Word) : (s.setAddFlags a b).clockOn = s.clockOn := by simp [State.setAddFlags]
@[simp] theorem State.setAddFlags_running (a b : Word) : (s.setAddFlags a b).running = s.running := by simp [State.setAddFlags]
@[simp] theorem State.setAddFlags_power (a b : Word) : (s.setAddFlags a b).power = s.power := by simp [State.setAddFlags]
@[simp] theorem State.setAddFlags_powerLossLight (a b : Word) : (s.setAddFlags a b).powerLossLight = s.powerLossLight := by simp [State.setAddFlags]
@[simp] theorem State.setAddFlags_pendInternal (a b : Word) : (s.setAddFlags a b).pendInternal = s.pendInternal := by simp [State.setAddFlags]
@[simp] theorem State.setAddFlags_cruLine (a b : Word) : (s.setAddFlags a b).cruLine = s.cruLine := by simp [State.setAddFlags]
@[simp] theorem State.setAddFlags_dmac (a b : Word) : (s.setAddFlags a b).dmac = s.dmac := by simp [State.setAddFlags]
@[simp] theorem State.setAddFlags_mem (a b : Word) : (s.setAddFlags a b).mem = s.mem := by simp [State.setAddFlags]
@[simp] theorem State.setAddFlags_badWords (a b : Word) : (s.setAddFlags a b).badWords = s.badWords := by simp [State.setAddFlags]
@[simp] theorem State.setAddFlags_errorLatch (a b : Word) : (s.setAddFlags a b).errorLatch = s.errorLatch := by simp [State.setAddFlags]
@[simp] theorem State.setAddFlags_cruIn (a b : Word) : (s.setAddFlags a b).cruIn = s.cruIn := by simp [State.setAddFlags]
@[simp] theorem State.setAddFlags_cruOut (a b : Word) : (s.setAddFlags a b).cruOut = s.cruOut := by simp [State.setAddFlags]
@[simp] theorem State.setAddFlags_outbox (a b : Word) : (s.setAddFlags a b).outbox = s.outbox := by simp [State.setAddFlags]
@[simp] theorem State.setAddFlags_inbox (a b : Word) : (s.setAddFlags a b).inbox = s.inbox := by simp [State.setAddFlags]
@[simp] theorem State.setAddFlags_during (a b : Word) : (s.setAddFlags a b).during = s.during := by simp [State.setAddFlags]
@[simp] theorem State.setAddFlags_inLocation (a b : Word) : (s.setAddFlags a b).inLocation = s.inLocation := by simp [State.setAddFlags]
@[simp] theorem State.setAddFlags_freeNext (a b : Word) : (s.setAddFlags a b).freeNext = s.freeNext := by simp [State.setAddFlags]
@[simp] theorem State.setAddFlags_config (a b : Word) : (s.setAddFlags a b).config = s.config := by simp [State.setAddFlags]

/-! ## setSubFlags -/

@[simp] theorem State.setSubFlags_regs (a b : Word) : (s.setSubFlags a b).regs = s.regs := by simp [State.setSubFlags]
@[simp] theorem State.setSubFlags_pc (a b : Word) : (s.setSubFlags a b).pc = s.pc := by simp [State.setSubFlags]
@[simp] theorem State.setSubFlags_ec (a b : Word) : (s.setSubFlags a b).ec = s.ec := by simp [State.setSubFlags]
@[simp] theorem State.setSubFlags_ia (a b : Word) : (s.setSubFlags a b).ia = s.ia := by simp [State.setSubFlags]
@[simp] theorem State.setSubFlags_ib (a b : Word) : (s.setSubFlags a b).ib = s.ib := by simp [State.setSubFlags]
@[simp] theorem State.setSubFlags_ma (a b : Word) : (s.setSubFlags a b).ma = s.ma := by simp [State.setSubFlags]
@[simp] theorem State.setSubFlags_display (a b : Word) : (s.setSubFlags a b).display = s.display := by simp [State.setSubFlags]
@[simp] theorem State.setSubFlags_switches (a b : Word) : (s.setSubFlags a b).switches = s.switches := by simp [State.setSubFlags]
@[simp] theorem State.setSubFlags_mpo (a b : Word) : (s.setSubFlags a b).mpo = s.mpo := by simp [State.setSubFlags]
@[simp] theorem State.setSubFlags_locked (a b : Word) : (s.setSubFlags a b).locked = s.locked := by simp [State.setSubFlags]
@[simp] theorem State.setSubFlags_modeRun (a b : Word) : (s.setSubFlags a b).modeRun = s.modeRun := by simp [State.setSubFlags]
@[simp] theorem State.setSubFlags_sie (a b : Word) : (s.setSubFlags a b).sie = s.sie := by simp [State.setSubFlags]
@[simp] theorem State.setSubFlags_clockOn (a b : Word) : (s.setSubFlags a b).clockOn = s.clockOn := by simp [State.setSubFlags]
@[simp] theorem State.setSubFlags_running (a b : Word) : (s.setSubFlags a b).running = s.running := by simp [State.setSubFlags]
@[simp] theorem State.setSubFlags_power (a b : Word) : (s.setSubFlags a b).power = s.power := by simp [State.setSubFlags]
@[simp] theorem State.setSubFlags_powerLossLight (a b : Word) : (s.setSubFlags a b).powerLossLight = s.powerLossLight := by simp [State.setSubFlags]
@[simp] theorem State.setSubFlags_pendInternal (a b : Word) : (s.setSubFlags a b).pendInternal = s.pendInternal := by simp [State.setSubFlags]
@[simp] theorem State.setSubFlags_cruLine (a b : Word) : (s.setSubFlags a b).cruLine = s.cruLine := by simp [State.setSubFlags]
@[simp] theorem State.setSubFlags_dmac (a b : Word) : (s.setSubFlags a b).dmac = s.dmac := by simp [State.setSubFlags]
@[simp] theorem State.setSubFlags_mem (a b : Word) : (s.setSubFlags a b).mem = s.mem := by simp [State.setSubFlags]
@[simp] theorem State.setSubFlags_badWords (a b : Word) : (s.setSubFlags a b).badWords = s.badWords := by simp [State.setSubFlags]
@[simp] theorem State.setSubFlags_errorLatch (a b : Word) : (s.setSubFlags a b).errorLatch = s.errorLatch := by simp [State.setSubFlags]
@[simp] theorem State.setSubFlags_cruIn (a b : Word) : (s.setSubFlags a b).cruIn = s.cruIn := by simp [State.setSubFlags]
@[simp] theorem State.setSubFlags_cruOut (a b : Word) : (s.setSubFlags a b).cruOut = s.cruOut := by simp [State.setSubFlags]
@[simp] theorem State.setSubFlags_outbox (a b : Word) : (s.setSubFlags a b).outbox = s.outbox := by simp [State.setSubFlags]
@[simp] theorem State.setSubFlags_inbox (a b : Word) : (s.setSubFlags a b).inbox = s.inbox := by simp [State.setSubFlags]
@[simp] theorem State.setSubFlags_during (a b : Word) : (s.setSubFlags a b).during = s.during := by simp [State.setSubFlags]
@[simp] theorem State.setSubFlags_inLocation (a b : Word) : (s.setSubFlags a b).inLocation = s.inLocation := by simp [State.setSubFlags]
@[simp] theorem State.setSubFlags_freeNext (a b : Word) : (s.setSubFlags a b).freeNext = s.freeNext := by simp [State.setSubFlags]
@[simp] theorem State.setSubFlags_config (a b : Word) : (s.setSubFlags a b).config = s.config := by simp [State.setSubFlags]

/-! ## toggleMode -/

@[simp] theorem State.toggleMode_regs : (s.toggleMode).regs = s.regs := rfl
@[simp] theorem State.toggleMode_pc : (s.toggleMode).pc = s.pc := rfl
@[simp] theorem State.toggleMode_ec : (s.toggleMode).ec = s.ec := rfl
@[simp] theorem State.toggleMode_ia : (s.toggleMode).ia = s.ia := rfl
@[simp] theorem State.toggleMode_ib : (s.toggleMode).ib = s.ib := rfl
@[simp] theorem State.toggleMode_ma : (s.toggleMode).ma = s.ma := rfl
@[simp] theorem State.toggleMode_display : (s.toggleMode).display = s.display := rfl
@[simp] theorem State.toggleMode_switches : (s.toggleMode).switches = s.switches := rfl
@[simp] theorem State.toggleMode_mpo : (s.toggleMode).mpo = s.mpo := rfl
@[simp] theorem State.toggleMode_locked : (s.toggleMode).locked = s.locked := rfl
@[simp] theorem State.toggleMode_modeRun : (s.toggleMode).modeRun = s.modeRun := rfl
@[simp] theorem State.toggleMode_sie : (s.toggleMode).sie = s.sie := rfl
@[simp] theorem State.toggleMode_clockOn : (s.toggleMode).clockOn = s.clockOn := rfl
@[simp] theorem State.toggleMode_running : (s.toggleMode).running = s.running := rfl
@[simp] theorem State.toggleMode_power : (s.toggleMode).power = s.power := rfl
@[simp] theorem State.toggleMode_powerLossLight : (s.toggleMode).powerLossLight = s.powerLossLight := rfl
@[simp] theorem State.toggleMode_pendInternal : (s.toggleMode).pendInternal = s.pendInternal := rfl
@[simp] theorem State.toggleMode_cruLine : (s.toggleMode).cruLine = s.cruLine := rfl
@[simp] theorem State.toggleMode_dmac : (s.toggleMode).dmac = s.dmac := rfl
@[simp] theorem State.toggleMode_mem : (s.toggleMode).mem = s.mem := rfl
@[simp] theorem State.toggleMode_badWords : (s.toggleMode).badWords = s.badWords := rfl
@[simp] theorem State.toggleMode_errorLatch : (s.toggleMode).errorLatch = s.errorLatch := rfl
@[simp] theorem State.toggleMode_cruIn : (s.toggleMode).cruIn = s.cruIn := rfl
@[simp] theorem State.toggleMode_cruOut : (s.toggleMode).cruOut = s.cruOut := rfl
@[simp] theorem State.toggleMode_outbox : (s.toggleMode).outbox = s.outbox := rfl
@[simp] theorem State.toggleMode_inbox : (s.toggleMode).inbox = s.inbox := rfl
@[simp] theorem State.toggleMode_during : (s.toggleMode).during = s.during := rfl
@[simp] theorem State.toggleMode_inLocation : (s.toggleMode).inLocation = s.inLocation := rfl
@[simp] theorem State.toggleMode_freeNext : (s.toggleMode).freeNext = s.freeNext := rfl
@[simp] theorem State.toggleMode_config : (s.toggleMode).config = s.config := rfl

/-! ## setX -/

@[simp] theorem State.setX_pc (r : RegNum) (v : Word) : (s.setX r v).pc = s.pc := rfl
@[simp] theorem State.setX_ec (r : RegNum) (v : Word) : (s.setX r v).ec = s.ec := rfl
@[simp] theorem State.setX_st (r : RegNum) (v : Word) : (s.setX r v).st = s.st := rfl
@[simp] theorem State.setX_ia (r : RegNum) (v : Word) : (s.setX r v).ia = s.ia := rfl
@[simp] theorem State.setX_ib (r : RegNum) (v : Word) : (s.setX r v).ib = s.ib := rfl
@[simp] theorem State.setX_ma (r : RegNum) (v : Word) : (s.setX r v).ma = s.ma := rfl
@[simp] theorem State.setX_display (r : RegNum) (v : Word) : (s.setX r v).display = s.display := rfl
@[simp] theorem State.setX_switches (r : RegNum) (v : Word) : (s.setX r v).switches = s.switches := rfl
@[simp] theorem State.setX_mpo (r : RegNum) (v : Word) : (s.setX r v).mpo = s.mpo := rfl
@[simp] theorem State.setX_locked (r : RegNum) (v : Word) : (s.setX r v).locked = s.locked := rfl
@[simp] theorem State.setX_modeRun (r : RegNum) (v : Word) : (s.setX r v).modeRun = s.modeRun := rfl
@[simp] theorem State.setX_sie (r : RegNum) (v : Word) : (s.setX r v).sie = s.sie := rfl
@[simp] theorem State.setX_clockOn (r : RegNum) (v : Word) : (s.setX r v).clockOn = s.clockOn := rfl
@[simp] theorem State.setX_running (r : RegNum) (v : Word) : (s.setX r v).running = s.running := rfl
@[simp] theorem State.setX_power (r : RegNum) (v : Word) : (s.setX r v).power = s.power := rfl
@[simp] theorem State.setX_powerLossLight (r : RegNum) (v : Word) : (s.setX r v).powerLossLight = s.powerLossLight := rfl
@[simp] theorem State.setX_pendInternal (r : RegNum) (v : Word) : (s.setX r v).pendInternal = s.pendInternal := rfl
@[simp] theorem State.setX_cruLine (r : RegNum) (v : Word) : (s.setX r v).cruLine = s.cruLine := rfl
@[simp] theorem State.setX_dmac (r : RegNum) (v : Word) : (s.setX r v).dmac = s.dmac := rfl
@[simp] theorem State.setX_mem (r : RegNum) (v : Word) : (s.setX r v).mem = s.mem := rfl
@[simp] theorem State.setX_badWords (r : RegNum) (v : Word) : (s.setX r v).badWords = s.badWords := rfl
@[simp] theorem State.setX_errorLatch (r : RegNum) (v : Word) : (s.setX r v).errorLatch = s.errorLatch := rfl
@[simp] theorem State.setX_cruIn (r : RegNum) (v : Word) : (s.setX r v).cruIn = s.cruIn := rfl
@[simp] theorem State.setX_cruOut (r : RegNum) (v : Word) : (s.setX r v).cruOut = s.cruOut := rfl
@[simp] theorem State.setX_outbox (r : RegNum) (v : Word) : (s.setX r v).outbox = s.outbox := rfl
@[simp] theorem State.setX_inbox (r : RegNum) (v : Word) : (s.setX r v).inbox = s.inbox := rfl
@[simp] theorem State.setX_during (r : RegNum) (v : Word) : (s.setX r v).during = s.during := rfl
@[simp] theorem State.setX_inLocation (r : RegNum) (v : Word) : (s.setX r v).inLocation = s.inLocation := rfl
@[simp] theorem State.setX_freeNext (r : RegNum) (v : Word) : (s.setX r v).freeNext = s.freeNext := rfl
@[simp] theorem State.setX_config (r : RegNum) (v : Word) : (s.setX r v).config = s.config := rfl

/-! ## setRef -/

@[simp] theorem State.setRef_pc (g : RegRef) (v : Word) : (s.setRef g v).pc = s.pc := rfl
@[simp] theorem State.setRef_ec (g : RegRef) (v : Word) : (s.setRef g v).ec = s.ec := rfl
@[simp] theorem State.setRef_st (g : RegRef) (v : Word) : (s.setRef g v).st = s.st := rfl
@[simp] theorem State.setRef_ia (g : RegRef) (v : Word) : (s.setRef g v).ia = s.ia := rfl
@[simp] theorem State.setRef_ib (g : RegRef) (v : Word) : (s.setRef g v).ib = s.ib := rfl
@[simp] theorem State.setRef_ma (g : RegRef) (v : Word) : (s.setRef g v).ma = s.ma := rfl
@[simp] theorem State.setRef_display (g : RegRef) (v : Word) : (s.setRef g v).display = s.display := rfl
@[simp] theorem State.setRef_switches (g : RegRef) (v : Word) : (s.setRef g v).switches = s.switches := rfl
@[simp] theorem State.setRef_mpo (g : RegRef) (v : Word) : (s.setRef g v).mpo = s.mpo := rfl
@[simp] theorem State.setRef_locked (g : RegRef) (v : Word) : (s.setRef g v).locked = s.locked := rfl
@[simp] theorem State.setRef_modeRun (g : RegRef) (v : Word) : (s.setRef g v).modeRun = s.modeRun := rfl
@[simp] theorem State.setRef_sie (g : RegRef) (v : Word) : (s.setRef g v).sie = s.sie := rfl
@[simp] theorem State.setRef_clockOn (g : RegRef) (v : Word) : (s.setRef g v).clockOn = s.clockOn := rfl
@[simp] theorem State.setRef_running (g : RegRef) (v : Word) : (s.setRef g v).running = s.running := rfl
@[simp] theorem State.setRef_power (g : RegRef) (v : Word) : (s.setRef g v).power = s.power := rfl
@[simp] theorem State.setRef_powerLossLight (g : RegRef) (v : Word) : (s.setRef g v).powerLossLight = s.powerLossLight := rfl
@[simp] theorem State.setRef_pendInternal (g : RegRef) (v : Word) : (s.setRef g v).pendInternal = s.pendInternal := rfl
@[simp] theorem State.setRef_cruLine (g : RegRef) (v : Word) : (s.setRef g v).cruLine = s.cruLine := rfl
@[simp] theorem State.setRef_dmac (g : RegRef) (v : Word) : (s.setRef g v).dmac = s.dmac := rfl
@[simp] theorem State.setRef_mem (g : RegRef) (v : Word) : (s.setRef g v).mem = s.mem := rfl
@[simp] theorem State.setRef_badWords (g : RegRef) (v : Word) : (s.setRef g v).badWords = s.badWords := rfl
@[simp] theorem State.setRef_errorLatch (g : RegRef) (v : Word) : (s.setRef g v).errorLatch = s.errorLatch := rfl
@[simp] theorem State.setRef_cruIn (g : RegRef) (v : Word) : (s.setRef g v).cruIn = s.cruIn := rfl
@[simp] theorem State.setRef_cruOut (g : RegRef) (v : Word) : (s.setRef g v).cruOut = s.cruOut := rfl
@[simp] theorem State.setRef_outbox (g : RegRef) (v : Word) : (s.setRef g v).outbox = s.outbox := rfl
@[simp] theorem State.setRef_inbox (g : RegRef) (v : Word) : (s.setRef g v).inbox = s.inbox := rfl
@[simp] theorem State.setRef_during (g : RegRef) (v : Word) : (s.setRef g v).during = s.during := rfl
@[simp] theorem State.setRef_inLocation (g : RegRef) (v : Word) : (s.setRef g v).inLocation = s.inLocation := rfl
@[simp] theorem State.setRef_freeNext (g : RegRef) (v : Word) : (s.setRef g v).freeNext = s.freeNext := rfl
@[simp] theorem State.setRef_config (g : RegRef) (v : Word) : (s.setRef g v).config = s.config := rfl

/-! ## setCounter -/

@[simp] theorem State.setCounter_regs (w : Bool) (v : Word) : (s.setCounter w v).regs = s.regs := by cases w <;> rfl
@[simp] theorem State.setCounter_st (w : Bool) (v : Word) : (s.setCounter w v).st = s.st := by cases w <;> rfl
@[simp] theorem State.setCounter_ia (w : Bool) (v : Word) : (s.setCounter w v).ia = s.ia := by cases w <;> rfl
@[simp] theorem State.setCounter_ib (w : Bool) (v : Word) : (s.setCounter w v).ib = s.ib := by cases w <;> rfl
@[simp] theorem State.setCounter_ma (w : Bool) (v : Word) : (s.setCounter w v).ma = s.ma := by cases w <;> rfl
@[simp] theorem State.setCounter_display (w : Bool) (v : Word) : (s.setCounter w v).display = s.display := by cases w <;> rfl
@[simp] theorem State.setCounter_switches (w : Bool) (v : Word) : (s.setCounter w v).switches = s.switches := by cases w <;> rfl
@[simp] theorem State.setCounter_mpo (w : Bool) (v : Word) : (s.setCounter w v).mpo = s.mpo := by cases w <;> rfl
@[simp] theorem State.setCounter_locked (w : Bool) (v : Word) : (s.setCounter w v).locked = s.locked := by cases w <;> rfl
@[simp] theorem State.setCounter_modeRun (w : Bool) (v : Word) : (s.setCounter w v).modeRun = s.modeRun := by cases w <;> rfl
@[simp] theorem State.setCounter_sie (w : Bool) (v : Word) : (s.setCounter w v).sie = s.sie := by cases w <;> rfl
@[simp] theorem State.setCounter_clockOn (w : Bool) (v : Word) : (s.setCounter w v).clockOn = s.clockOn := by cases w <;> rfl
@[simp] theorem State.setCounter_running (w : Bool) (v : Word) : (s.setCounter w v).running = s.running := by cases w <;> rfl
@[simp] theorem State.setCounter_power (w : Bool) (v : Word) : (s.setCounter w v).power = s.power := by cases w <;> rfl
@[simp] theorem State.setCounter_powerLossLight (w : Bool) (v : Word) : (s.setCounter w v).powerLossLight = s.powerLossLight := by cases w <;> rfl
@[simp] theorem State.setCounter_pendInternal (w : Bool) (v : Word) : (s.setCounter w v).pendInternal = s.pendInternal := by cases w <;> rfl
@[simp] theorem State.setCounter_cruLine (w : Bool) (v : Word) : (s.setCounter w v).cruLine = s.cruLine := by cases w <;> rfl
@[simp] theorem State.setCounter_dmac (w : Bool) (v : Word) : (s.setCounter w v).dmac = s.dmac := by cases w <;> rfl
@[simp] theorem State.setCounter_mem (w : Bool) (v : Word) : (s.setCounter w v).mem = s.mem := by cases w <;> rfl
@[simp] theorem State.setCounter_badWords (w : Bool) (v : Word) : (s.setCounter w v).badWords = s.badWords := by cases w <;> rfl
@[simp] theorem State.setCounter_errorLatch (w : Bool) (v : Word) : (s.setCounter w v).errorLatch = s.errorLatch := by cases w <;> rfl
@[simp] theorem State.setCounter_cruIn (w : Bool) (v : Word) : (s.setCounter w v).cruIn = s.cruIn := by cases w <;> rfl
@[simp] theorem State.setCounter_cruOut (w : Bool) (v : Word) : (s.setCounter w v).cruOut = s.cruOut := by cases w <;> rfl
@[simp] theorem State.setCounter_outbox (w : Bool) (v : Word) : (s.setCounter w v).outbox = s.outbox := by cases w <;> rfl
@[simp] theorem State.setCounter_inbox (w : Bool) (v : Word) : (s.setCounter w v).inbox = s.inbox := by cases w <;> rfl
@[simp] theorem State.setCounter_during (w : Bool) (v : Word) : (s.setCounter w v).during = s.during := by cases w <;> rfl
@[simp] theorem State.setCounter_inLocation (w : Bool) (v : Word) : (s.setCounter w v).inLocation = s.inLocation := by cases w <;> rfl
@[simp] theorem State.setCounter_freeNext (w : Bool) (v : Word) : (s.setCounter w v).freeNext = s.freeNext := by cases w <;> rfl
@[simp] theorem State.setCounter_config (w : Bool) (v : Word) : (s.setCounter w v).config = s.config := by cases w <;> rfl

/-! ## setCtr -/

@[simp] theorem State.setCtr_regs (v : Word) : (s.setCtr v).regs = s.regs := by simp [State.setCtr]
@[simp] theorem State.setCtr_st (v : Word) : (s.setCtr v).st = s.st := by simp [State.setCtr]
@[simp] theorem State.setCtr_ia (v : Word) : (s.setCtr v).ia = s.ia := by simp [State.setCtr]
@[simp] theorem State.setCtr_ib (v : Word) : (s.setCtr v).ib = s.ib := by simp [State.setCtr]
@[simp] theorem State.setCtr_ma (v : Word) : (s.setCtr v).ma = s.ma := by simp [State.setCtr]
@[simp] theorem State.setCtr_display (v : Word) : (s.setCtr v).display = s.display := by simp [State.setCtr]
@[simp] theorem State.setCtr_switches (v : Word) : (s.setCtr v).switches = s.switches := by simp [State.setCtr]
@[simp] theorem State.setCtr_mpo (v : Word) : (s.setCtr v).mpo = s.mpo := by simp [State.setCtr]
@[simp] theorem State.setCtr_locked (v : Word) : (s.setCtr v).locked = s.locked := by simp [State.setCtr]
@[simp] theorem State.setCtr_modeRun (v : Word) : (s.setCtr v).modeRun = s.modeRun := by simp [State.setCtr]
@[simp] theorem State.setCtr_sie (v : Word) : (s.setCtr v).sie = s.sie := by simp [State.setCtr]
@[simp] theorem State.setCtr_clockOn (v : Word) : (s.setCtr v).clockOn = s.clockOn := by simp [State.setCtr]
@[simp] theorem State.setCtr_running (v : Word) : (s.setCtr v).running = s.running := by simp [State.setCtr]
@[simp] theorem State.setCtr_power (v : Word) : (s.setCtr v).power = s.power := by simp [State.setCtr]
@[simp] theorem State.setCtr_powerLossLight (v : Word) : (s.setCtr v).powerLossLight = s.powerLossLight := by simp [State.setCtr]
@[simp] theorem State.setCtr_pendInternal (v : Word) : (s.setCtr v).pendInternal = s.pendInternal := by simp [State.setCtr]
@[simp] theorem State.setCtr_cruLine (v : Word) : (s.setCtr v).cruLine = s.cruLine := by simp [State.setCtr]
@[simp] theorem State.setCtr_dmac (v : Word) : (s.setCtr v).dmac = s.dmac := by simp [State.setCtr]
@[simp] theorem State.setCtr_mem (v : Word) : (s.setCtr v).mem = s.mem := by simp [State.setCtr]
@[simp] theorem State.setCtr_badWords (v : Word) : (s.setCtr v).badWords = s.badWords := by simp [State.setCtr]
@[simp] theorem State.setCtr_errorLatch (v : Word) : (s.setCtr v).errorLatch = s.errorLatch := by simp [State.setCtr]
@[simp] theorem State.setCtr_cruIn (v : Word) : (s.setCtr v).cruIn = s.cruIn := by simp [State.setCtr]
@[simp] theorem State.setCtr_cruOut (v : Word) : (s.setCtr v).cruOut = s.cruOut := by simp [State.setCtr]
@[simp] theorem State.setCtr_outbox (v : Word) : (s.setCtr v).outbox = s.outbox := by simp [State.setCtr]
@[simp] theorem State.setCtr_inbox (v : Word) : (s.setCtr v).inbox = s.inbox := by simp [State.setCtr]
@[simp] theorem State.setCtr_during (v : Word) : (s.setCtr v).during = s.during := by simp [State.setCtr]
@[simp] theorem State.setCtr_inLocation (v : Word) : (s.setCtr v).inLocation = s.inLocation := by simp [State.setCtr]
@[simp] theorem State.setCtr_freeNext (v : Word) : (s.setCtr v).freeNext = s.freeNext := by simp [State.setCtr]
@[simp] theorem State.setCtr_config (v : Word) : (s.setCtr v).config = s.config := by simp [State.setCtr]

/-! ## advance -/

@[simp] theorem State.advance_regs : (s.advance).regs = s.regs := by simp [State.advance]
@[simp] theorem State.advance_st : (s.advance).st = s.st := by simp [State.advance]
@[simp] theorem State.advance_ia : (s.advance).ia = s.ia := by simp [State.advance]
@[simp] theorem State.advance_ib : (s.advance).ib = s.ib := by simp [State.advance]
@[simp] theorem State.advance_ma : (s.advance).ma = s.ma := by simp [State.advance]
@[simp] theorem State.advance_display : (s.advance).display = s.display := by simp [State.advance]
@[simp] theorem State.advance_switches : (s.advance).switches = s.switches := by simp [State.advance]
@[simp] theorem State.advance_mpo : (s.advance).mpo = s.mpo := by simp [State.advance]
@[simp] theorem State.advance_locked : (s.advance).locked = s.locked := by simp [State.advance]
@[simp] theorem State.advance_modeRun : (s.advance).modeRun = s.modeRun := by simp [State.advance]
@[simp] theorem State.advance_sie : (s.advance).sie = s.sie := by simp [State.advance]
@[simp] theorem State.advance_clockOn : (s.advance).clockOn = s.clockOn := by simp [State.advance]
@[simp] theorem State.advance_running : (s.advance).running = s.running := by simp [State.advance]
@[simp] theorem State.advance_power : (s.advance).power = s.power := by simp [State.advance]
@[simp] theorem State.advance_powerLossLight : (s.advance).powerLossLight = s.powerLossLight := by simp [State.advance]
@[simp] theorem State.advance_pendInternal : (s.advance).pendInternal = s.pendInternal := by simp [State.advance]
@[simp] theorem State.advance_cruLine : (s.advance).cruLine = s.cruLine := by simp [State.advance]
@[simp] theorem State.advance_dmac : (s.advance).dmac = s.dmac := by simp [State.advance]
@[simp] theorem State.advance_mem : (s.advance).mem = s.mem := by simp [State.advance]
@[simp] theorem State.advance_badWords : (s.advance).badWords = s.badWords := by simp [State.advance]
@[simp] theorem State.advance_errorLatch : (s.advance).errorLatch = s.errorLatch := by simp [State.advance]
@[simp] theorem State.advance_cruIn : (s.advance).cruIn = s.cruIn := by simp [State.advance]
@[simp] theorem State.advance_cruOut : (s.advance).cruOut = s.cruOut := by simp [State.advance]
@[simp] theorem State.advance_outbox : (s.advance).outbox = s.outbox := by simp [State.advance]
@[simp] theorem State.advance_inbox : (s.advance).inbox = s.inbox := by simp [State.advance]
@[simp] theorem State.advance_during : (s.advance).during = s.during := by simp [State.advance]
@[simp] theorem State.advance_inLocation : (s.advance).inLocation = s.inLocation := by simp [State.advance]
@[simp] theorem State.advance_freeNext : (s.advance).freeNext = s.freeNext := by simp [State.advance]
@[simp] theorem State.advance_config : (s.advance).config = s.config := by simp [State.advance]

/-! ## skip -/

@[simp] theorem State.skip_regs (k : Nat) : (s.skip k).regs = s.regs := by simp [State.skip]
@[simp] theorem State.skip_st (k : Nat) : (s.skip k).st = s.st := by simp [State.skip]
@[simp] theorem State.skip_ia (k : Nat) : (s.skip k).ia = s.ia := by simp [State.skip]
@[simp] theorem State.skip_ib (k : Nat) : (s.skip k).ib = s.ib := by simp [State.skip]
@[simp] theorem State.skip_ma (k : Nat) : (s.skip k).ma = s.ma := by simp [State.skip]
@[simp] theorem State.skip_display (k : Nat) : (s.skip k).display = s.display := by simp [State.skip]
@[simp] theorem State.skip_switches (k : Nat) : (s.skip k).switches = s.switches := by simp [State.skip]
@[simp] theorem State.skip_mpo (k : Nat) : (s.skip k).mpo = s.mpo := by simp [State.skip]
@[simp] theorem State.skip_locked (k : Nat) : (s.skip k).locked = s.locked := by simp [State.skip]
@[simp] theorem State.skip_modeRun (k : Nat) : (s.skip k).modeRun = s.modeRun := by simp [State.skip]
@[simp] theorem State.skip_sie (k : Nat) : (s.skip k).sie = s.sie := by simp [State.skip]
@[simp] theorem State.skip_clockOn (k : Nat) : (s.skip k).clockOn = s.clockOn := by simp [State.skip]
@[simp] theorem State.skip_running (k : Nat) : (s.skip k).running = s.running := by simp [State.skip]
@[simp] theorem State.skip_power (k : Nat) : (s.skip k).power = s.power := by simp [State.skip]
@[simp] theorem State.skip_powerLossLight (k : Nat) : (s.skip k).powerLossLight = s.powerLossLight := by simp [State.skip]
@[simp] theorem State.skip_pendInternal (k : Nat) : (s.skip k).pendInternal = s.pendInternal := by simp [State.skip]
@[simp] theorem State.skip_cruLine (k : Nat) : (s.skip k).cruLine = s.cruLine := by simp [State.skip]
@[simp] theorem State.skip_dmac (k : Nat) : (s.skip k).dmac = s.dmac := by simp [State.skip]
@[simp] theorem State.skip_mem (k : Nat) : (s.skip k).mem = s.mem := by simp [State.skip]
@[simp] theorem State.skip_badWords (k : Nat) : (s.skip k).badWords = s.badWords := by simp [State.skip]
@[simp] theorem State.skip_errorLatch (k : Nat) : (s.skip k).errorLatch = s.errorLatch := by simp [State.skip]
@[simp] theorem State.skip_cruIn (k : Nat) : (s.skip k).cruIn = s.cruIn := by simp [State.skip]
@[simp] theorem State.skip_cruOut (k : Nat) : (s.skip k).cruOut = s.cruOut := by simp [State.skip]
@[simp] theorem State.skip_outbox (k : Nat) : (s.skip k).outbox = s.outbox := by simp [State.skip]
@[simp] theorem State.skip_inbox (k : Nat) : (s.skip k).inbox = s.inbox := by simp [State.skip]
@[simp] theorem State.skip_during (k : Nat) : (s.skip k).during = s.during := by simp [State.skip]
@[simp] theorem State.skip_inLocation (k : Nat) : (s.skip k).inLocation = s.inLocation := by simp [State.skip]
@[simp] theorem State.skip_freeNext (k : Nat) : (s.skip k).freeNext = s.freeNext := by simp [State.skip]
@[simp] theorem State.skip_config (k : Nat) : (s.skip k).config = s.config := by simp [State.skip]

/-! ## raise -/

@[simp] theorem State.raise_regs (c : Cause) : (s.raise c).regs = s.regs := rfl
@[simp] theorem State.raise_pc (c : Cause) : (s.raise c).pc = s.pc := rfl
@[simp] theorem State.raise_ec (c : Cause) : (s.raise c).ec = s.ec := rfl
@[simp] theorem State.raise_ia (c : Cause) : (s.raise c).ia = s.ia := rfl
@[simp] theorem State.raise_ib (c : Cause) : (s.raise c).ib = s.ib := rfl
@[simp] theorem State.raise_ma (c : Cause) : (s.raise c).ma = s.ma := rfl
@[simp] theorem State.raise_display (c : Cause) : (s.raise c).display = s.display := rfl
@[simp] theorem State.raise_switches (c : Cause) : (s.raise c).switches = s.switches := rfl
@[simp] theorem State.raise_mpo (c : Cause) : (s.raise c).mpo = s.mpo := rfl
@[simp] theorem State.raise_locked (c : Cause) : (s.raise c).locked = s.locked := rfl
@[simp] theorem State.raise_modeRun (c : Cause) : (s.raise c).modeRun = s.modeRun := rfl
@[simp] theorem State.raise_sie (c : Cause) : (s.raise c).sie = s.sie := rfl
@[simp] theorem State.raise_clockOn (c : Cause) : (s.raise c).clockOn = s.clockOn := rfl
@[simp] theorem State.raise_running (c : Cause) : (s.raise c).running = s.running := rfl
@[simp] theorem State.raise_power (c : Cause) : (s.raise c).power = s.power := rfl
@[simp] theorem State.raise_powerLossLight (c : Cause) : (s.raise c).powerLossLight = s.powerLossLight := rfl
@[simp] theorem State.raise_cruLine (c : Cause) : (s.raise c).cruLine = s.cruLine := rfl
@[simp] theorem State.raise_dmac (c : Cause) : (s.raise c).dmac = s.dmac := rfl
@[simp] theorem State.raise_mem (c : Cause) : (s.raise c).mem = s.mem := rfl
@[simp] theorem State.raise_badWords (c : Cause) : (s.raise c).badWords = s.badWords := rfl
@[simp] theorem State.raise_errorLatch (c : Cause) : (s.raise c).errorLatch = s.errorLatch := rfl
@[simp] theorem State.raise_cruIn (c : Cause) : (s.raise c).cruIn = s.cruIn := rfl
@[simp] theorem State.raise_cruOut (c : Cause) : (s.raise c).cruOut = s.cruOut := rfl
@[simp] theorem State.raise_outbox (c : Cause) : (s.raise c).outbox = s.outbox := rfl
@[simp] theorem State.raise_inbox (c : Cause) : (s.raise c).inbox = s.inbox := rfl
@[simp] theorem State.raise_during (c : Cause) : (s.raise c).during = s.during := rfl
@[simp] theorem State.raise_inLocation (c : Cause) : (s.raise c).inLocation = s.inLocation := rfl
@[simp] theorem State.raise_freeNext (c : Cause) : (s.raise c).freeNext = s.freeNext := rfl
@[simp] theorem State.raise_config (c : Cause) : (s.raise c).config = s.config := rfl

/-! ## memoryError -/

@[simp] theorem State.memoryError_regs : (s.memoryError).regs = s.regs := rfl
@[simp] theorem State.memoryError_pc : (s.memoryError).pc = s.pc := rfl
@[simp] theorem State.memoryError_ec : (s.memoryError).ec = s.ec := rfl
@[simp] theorem State.memoryError_ia : (s.memoryError).ia = s.ia := rfl
@[simp] theorem State.memoryError_ib : (s.memoryError).ib = s.ib := rfl
@[simp] theorem State.memoryError_ma : (s.memoryError).ma = s.ma := rfl
@[simp] theorem State.memoryError_display : (s.memoryError).display = s.display := rfl
@[simp] theorem State.memoryError_switches : (s.memoryError).switches = s.switches := rfl
@[simp] theorem State.memoryError_mpo : (s.memoryError).mpo = s.mpo := rfl
@[simp] theorem State.memoryError_locked : (s.memoryError).locked = s.locked := rfl
@[simp] theorem State.memoryError_modeRun : (s.memoryError).modeRun = s.modeRun := rfl
@[simp] theorem State.memoryError_sie : (s.memoryError).sie = s.sie := rfl
@[simp] theorem State.memoryError_clockOn : (s.memoryError).clockOn = s.clockOn := rfl
@[simp] theorem State.memoryError_running : (s.memoryError).running = s.running := rfl
@[simp] theorem State.memoryError_power : (s.memoryError).power = s.power := rfl
@[simp] theorem State.memoryError_powerLossLight : (s.memoryError).powerLossLight = s.powerLossLight := rfl
@[simp] theorem State.memoryError_cruLine : (s.memoryError).cruLine = s.cruLine := rfl
@[simp] theorem State.memoryError_dmac : (s.memoryError).dmac = s.dmac := rfl
@[simp] theorem State.memoryError_mem : (s.memoryError).mem = s.mem := rfl
@[simp] theorem State.memoryError_badWords : (s.memoryError).badWords = s.badWords := rfl
@[simp] theorem State.memoryError_cruIn : (s.memoryError).cruIn = s.cruIn := rfl
@[simp] theorem State.memoryError_cruOut : (s.memoryError).cruOut = s.cruOut := rfl
@[simp] theorem State.memoryError_outbox : (s.memoryError).outbox = s.outbox := rfl
@[simp] theorem State.memoryError_inbox : (s.memoryError).inbox = s.inbox := rfl
@[simp] theorem State.memoryError_during : (s.memoryError).during = s.during := rfl
@[simp] theorem State.memoryError_inLocation : (s.memoryError).inLocation = s.inLocation := rfl
@[simp] theorem State.memoryError_freeNext : (s.memoryError).freeNext = s.freeNext := rfl
@[simp] theorem State.memoryError_config : (s.memoryError).config = s.config := rfl

/-! ## noteRead -/

@[simp] theorem State.noteRead_regs (a : Word) : (s.noteRead a).regs = s.regs := by unfold State.noteRead; split <;> rfl
@[simp] theorem State.noteRead_pc (a : Word) : (s.noteRead a).pc = s.pc := by unfold State.noteRead; split <;> rfl
@[simp] theorem State.noteRead_ec (a : Word) : (s.noteRead a).ec = s.ec := by unfold State.noteRead; split <;> rfl
@[simp] theorem State.noteRead_ia (a : Word) : (s.noteRead a).ia = s.ia := by unfold State.noteRead; split <;> rfl
@[simp] theorem State.noteRead_ib (a : Word) : (s.noteRead a).ib = s.ib := by unfold State.noteRead; split <;> rfl
@[simp] theorem State.noteRead_ma (a : Word) : (s.noteRead a).ma = s.ma := by unfold State.noteRead; split <;> rfl
@[simp] theorem State.noteRead_display (a : Word) : (s.noteRead a).display = s.display := by unfold State.noteRead; split <;> rfl
@[simp] theorem State.noteRead_switches (a : Word) : (s.noteRead a).switches = s.switches := by unfold State.noteRead; split <;> rfl
@[simp] theorem State.noteRead_mpo (a : Word) : (s.noteRead a).mpo = s.mpo := by unfold State.noteRead; split <;> rfl
@[simp] theorem State.noteRead_locked (a : Word) : (s.noteRead a).locked = s.locked := by unfold State.noteRead; split <;> rfl
@[simp] theorem State.noteRead_modeRun (a : Word) : (s.noteRead a).modeRun = s.modeRun := by unfold State.noteRead; split <;> rfl
@[simp] theorem State.noteRead_sie (a : Word) : (s.noteRead a).sie = s.sie := by unfold State.noteRead; split <;> rfl
@[simp] theorem State.noteRead_clockOn (a : Word) : (s.noteRead a).clockOn = s.clockOn := by unfold State.noteRead; split <;> rfl
@[simp] theorem State.noteRead_running (a : Word) : (s.noteRead a).running = s.running := by unfold State.noteRead; split <;> rfl
@[simp] theorem State.noteRead_power (a : Word) : (s.noteRead a).power = s.power := by unfold State.noteRead; split <;> rfl
@[simp] theorem State.noteRead_powerLossLight (a : Word) : (s.noteRead a).powerLossLight = s.powerLossLight := by unfold State.noteRead; split <;> rfl
@[simp] theorem State.noteRead_cruLine (a : Word) : (s.noteRead a).cruLine = s.cruLine := by unfold State.noteRead; split <;> rfl
@[simp] theorem State.noteRead_dmac (a : Word) : (s.noteRead a).dmac = s.dmac := by unfold State.noteRead; split <;> rfl
@[simp] theorem State.noteRead_mem (a : Word) : (s.noteRead a).mem = s.mem := by unfold State.noteRead; split <;> rfl
@[simp] theorem State.noteRead_badWords (a : Word) : (s.noteRead a).badWords = s.badWords := by unfold State.noteRead; split <;> rfl
@[simp] theorem State.noteRead_cruIn (a : Word) : (s.noteRead a).cruIn = s.cruIn := by unfold State.noteRead; split <;> rfl
@[simp] theorem State.noteRead_cruOut (a : Word) : (s.noteRead a).cruOut = s.cruOut := by unfold State.noteRead; split <;> rfl
@[simp] theorem State.noteRead_outbox (a : Word) : (s.noteRead a).outbox = s.outbox := by unfold State.noteRead; split <;> rfl
@[simp] theorem State.noteRead_inbox (a : Word) : (s.noteRead a).inbox = s.inbox := by unfold State.noteRead; split <;> rfl
@[simp] theorem State.noteRead_during (a : Word) : (s.noteRead a).during = s.during := by unfold State.noteRead; split <;> rfl
@[simp] theorem State.noteRead_inLocation (a : Word) : (s.noteRead a).inLocation = s.inLocation := by unfold State.noteRead; split <;> rfl
@[simp] theorem State.noteRead_freeNext (a : Word) : (s.noteRead a).freeNext = s.freeNext := by unfold State.noteRead; split <;> rfl
@[simp] theorem State.noteRead_config (a : Word) : (s.noteRead a).config = s.config := by unfold State.noteRead; split <;> rfl

/-! ## noteRead2 -/

@[simp] theorem State.noteRead2_regs (a : Word) : (s.noteRead2 a).regs = s.regs := by simp [State.noteRead2]
@[simp] theorem State.noteRead2_pc (a : Word) : (s.noteRead2 a).pc = s.pc := by simp [State.noteRead2]
@[simp] theorem State.noteRead2_ec (a : Word) : (s.noteRead2 a).ec = s.ec := by simp [State.noteRead2]
@[simp] theorem State.noteRead2_ia (a : Word) : (s.noteRead2 a).ia = s.ia := by simp [State.noteRead2]
@[simp] theorem State.noteRead2_ib (a : Word) : (s.noteRead2 a).ib = s.ib := by simp [State.noteRead2]
@[simp] theorem State.noteRead2_ma (a : Word) : (s.noteRead2 a).ma = s.ma := by simp [State.noteRead2]
@[simp] theorem State.noteRead2_display (a : Word) : (s.noteRead2 a).display = s.display := by simp [State.noteRead2]
@[simp] theorem State.noteRead2_switches (a : Word) : (s.noteRead2 a).switches = s.switches := by simp [State.noteRead2]
@[simp] theorem State.noteRead2_mpo (a : Word) : (s.noteRead2 a).mpo = s.mpo := by simp [State.noteRead2]
@[simp] theorem State.noteRead2_locked (a : Word) : (s.noteRead2 a).locked = s.locked := by simp [State.noteRead2]
@[simp] theorem State.noteRead2_modeRun (a : Word) : (s.noteRead2 a).modeRun = s.modeRun := by simp [State.noteRead2]
@[simp] theorem State.noteRead2_sie (a : Word) : (s.noteRead2 a).sie = s.sie := by simp [State.noteRead2]
@[simp] theorem State.noteRead2_clockOn (a : Word) : (s.noteRead2 a).clockOn = s.clockOn := by simp [State.noteRead2]
@[simp] theorem State.noteRead2_running (a : Word) : (s.noteRead2 a).running = s.running := by simp [State.noteRead2]
@[simp] theorem State.noteRead2_power (a : Word) : (s.noteRead2 a).power = s.power := by simp [State.noteRead2]
@[simp] theorem State.noteRead2_powerLossLight (a : Word) : (s.noteRead2 a).powerLossLight = s.powerLossLight := by simp [State.noteRead2]
@[simp] theorem State.noteRead2_cruLine (a : Word) : (s.noteRead2 a).cruLine = s.cruLine := by simp [State.noteRead2]
@[simp] theorem State.noteRead2_dmac (a : Word) : (s.noteRead2 a).dmac = s.dmac := by simp [State.noteRead2]
@[simp] theorem State.noteRead2_mem (a : Word) : (s.noteRead2 a).mem = s.mem := by simp [State.noteRead2]
@[simp] theorem State.noteRead2_badWords (a : Word) : (s.noteRead2 a).badWords = s.badWords := by simp [State.noteRead2]
@[simp] theorem State.noteRead2_cruIn (a : Word) : (s.noteRead2 a).cruIn = s.cruIn := by simp [State.noteRead2]
@[simp] theorem State.noteRead2_cruOut (a : Word) : (s.noteRead2 a).cruOut = s.cruOut := by simp [State.noteRead2]
@[simp] theorem State.noteRead2_outbox (a : Word) : (s.noteRead2 a).outbox = s.outbox := by simp [State.noteRead2]
@[simp] theorem State.noteRead2_inbox (a : Word) : (s.noteRead2 a).inbox = s.inbox := by simp [State.noteRead2]
@[simp] theorem State.noteRead2_during (a : Word) : (s.noteRead2 a).during = s.during := by simp [State.noteRead2]
@[simp] theorem State.noteRead2_inLocation (a : Word) : (s.noteRead2 a).inLocation = s.inLocation := by simp [State.noteRead2]
@[simp] theorem State.noteRead2_freeNext (a : Word) : (s.noteRead2 a).freeNext = s.freeNext := by simp [State.noteRead2]
@[simp] theorem State.noteRead2_config (a : Word) : (s.noteRead2 a).config = s.config := by simp [State.noteRead2]

/-! ## poke -/

@[simp] theorem State.poke_pc (a v : Word) : (s.poke a v).pc = s.pc := by unfold State.poke; split <;> [rfl; (split <;> rfl)]
@[simp] theorem State.poke_ec (a v : Word) : (s.poke a v).ec = s.ec := by unfold State.poke; split <;> [rfl; (split <;> rfl)]
@[simp] theorem State.poke_st (a v : Word) : (s.poke a v).st = s.st := by unfold State.poke; split <;> [rfl; (split <;> rfl)]
@[simp] theorem State.poke_ia (a v : Word) : (s.poke a v).ia = s.ia := by unfold State.poke; split <;> [rfl; (split <;> rfl)]
@[simp] theorem State.poke_ib (a v : Word) : (s.poke a v).ib = s.ib := by unfold State.poke; split <;> [rfl; (split <;> rfl)]
@[simp] theorem State.poke_ma (a v : Word) : (s.poke a v).ma = s.ma := by unfold State.poke; split <;> [rfl; (split <;> rfl)]
@[simp] theorem State.poke_display (a v : Word) : (s.poke a v).display = s.display := by unfold State.poke; split <;> [rfl; (split <;> rfl)]
@[simp] theorem State.poke_switches (a v : Word) : (s.poke a v).switches = s.switches := by unfold State.poke; split <;> [rfl; (split <;> rfl)]
@[simp] theorem State.poke_mpo (a v : Word) : (s.poke a v).mpo = s.mpo := by unfold State.poke; split <;> [rfl; (split <;> rfl)]
@[simp] theorem State.poke_locked (a v : Word) : (s.poke a v).locked = s.locked := by unfold State.poke; split <;> [rfl; (split <;> rfl)]
@[simp] theorem State.poke_modeRun (a v : Word) : (s.poke a v).modeRun = s.modeRun := by unfold State.poke; split <;> [rfl; (split <;> rfl)]
@[simp] theorem State.poke_sie (a v : Word) : (s.poke a v).sie = s.sie := by unfold State.poke; split <;> [rfl; (split <;> rfl)]
@[simp] theorem State.poke_clockOn (a v : Word) : (s.poke a v).clockOn = s.clockOn := by unfold State.poke; split <;> [rfl; (split <;> rfl)]
@[simp] theorem State.poke_running (a v : Word) : (s.poke a v).running = s.running := by unfold State.poke; split <;> [rfl; (split <;> rfl)]
@[simp] theorem State.poke_power (a v : Word) : (s.poke a v).power = s.power := by unfold State.poke; split <;> [rfl; (split <;> rfl)]
@[simp] theorem State.poke_powerLossLight (a v : Word) : (s.poke a v).powerLossLight = s.powerLossLight := by unfold State.poke; split <;> [rfl; (split <;> rfl)]
@[simp] theorem State.poke_pendInternal (a v : Word) : (s.poke a v).pendInternal = s.pendInternal := by unfold State.poke; split <;> [rfl; (split <;> rfl)]
@[simp] theorem State.poke_cruLine (a v : Word) : (s.poke a v).cruLine = s.cruLine := by unfold State.poke; split <;> [rfl; (split <;> rfl)]
@[simp] theorem State.poke_dmac (a v : Word) : (s.poke a v).dmac = s.dmac := by unfold State.poke; split <;> [rfl; (split <;> rfl)]
@[simp] theorem State.poke_errorLatch (a v : Word) : (s.poke a v).errorLatch = s.errorLatch := by unfold State.poke; split <;> [rfl; (split <;> rfl)]
@[simp] theorem State.poke_cruIn (a v : Word) : (s.poke a v).cruIn = s.cruIn := by unfold State.poke; split <;> [rfl; (split <;> rfl)]
@[simp] theorem State.poke_cruOut (a v : Word) : (s.poke a v).cruOut = s.cruOut := by unfold State.poke; split <;> [rfl; (split <;> rfl)]
@[simp] theorem State.poke_outbox (a v : Word) : (s.poke a v).outbox = s.outbox := by unfold State.poke; split <;> [rfl; (split <;> rfl)]
@[simp] theorem State.poke_inbox (a v : Word) : (s.poke a v).inbox = s.inbox := by unfold State.poke; split <;> [rfl; (split <;> rfl)]
@[simp] theorem State.poke_during (a v : Word) : (s.poke a v).during = s.during := by unfold State.poke; split <;> [rfl; (split <;> rfl)]
@[simp] theorem State.poke_inLocation (a v : Word) : (s.poke a v).inLocation = s.inLocation := by unfold State.poke; split <;> [rfl; (split <;> rfl)]
@[simp] theorem State.poke_freeNext (a v : Word) : (s.poke a v).freeNext = s.freeNext := by unfold State.poke; split <;> [rfl; (split <;> rfl)]
@[simp] theorem State.poke_config (a v : Word) : (s.poke a v).config = s.config := by unfold State.poke; split <;> [rfl; (split <;> rfl)]

/-! ## write -/

@[simp] theorem State.write_pc (a v : Word) : (s.write a v).pc = s.pc := by unfold State.write; split <;> simp
@[simp] theorem State.write_ec (a v : Word) : (s.write a v).ec = s.ec := by unfold State.write; split <;> simp
@[simp] theorem State.write_ia (a v : Word) : (s.write a v).ia = s.ia := by unfold State.write; split <;> simp
@[simp] theorem State.write_ib (a v : Word) : (s.write a v).ib = s.ib := by unfold State.write; split <;> simp
@[simp] theorem State.write_ma (a v : Word) : (s.write a v).ma = s.ma := by unfold State.write; split <;> simp
@[simp] theorem State.write_display (a v : Word) : (s.write a v).display = s.display := by unfold State.write; split <;> simp
@[simp] theorem State.write_switches (a v : Word) : (s.write a v).switches = s.switches := by unfold State.write; split <;> simp
@[simp] theorem State.write_mpo (a v : Word) : (s.write a v).mpo = s.mpo := by unfold State.write; split <;> simp
@[simp] theorem State.write_locked (a v : Word) : (s.write a v).locked = s.locked := by unfold State.write; split <;> simp
@[simp] theorem State.write_modeRun (a v : Word) : (s.write a v).modeRun = s.modeRun := by unfold State.write; split <;> simp
@[simp] theorem State.write_sie (a v : Word) : (s.write a v).sie = s.sie := by unfold State.write; split <;> simp
@[simp] theorem State.write_clockOn (a v : Word) : (s.write a v).clockOn = s.clockOn := by unfold State.write; split <;> simp
@[simp] theorem State.write_running (a v : Word) : (s.write a v).running = s.running := by unfold State.write; split <;> simp
@[simp] theorem State.write_power (a v : Word) : (s.write a v).power = s.power := by unfold State.write; split <;> simp
@[simp] theorem State.write_powerLossLight (a v : Word) : (s.write a v).powerLossLight = s.powerLossLight := by unfold State.write; split <;> simp
@[simp] theorem State.write_cruLine (a v : Word) : (s.write a v).cruLine = s.cruLine := by unfold State.write; split <;> simp
@[simp] theorem State.write_dmac (a v : Word) : (s.write a v).dmac = s.dmac := by unfold State.write; split <;> simp
@[simp] theorem State.write_errorLatch (a v : Word) : (s.write a v).errorLatch = s.errorLatch := by unfold State.write; split <;> simp
@[simp] theorem State.write_cruIn (a v : Word) : (s.write a v).cruIn = s.cruIn := by unfold State.write; split <;> simp
@[simp] theorem State.write_cruOut (a v : Word) : (s.write a v).cruOut = s.cruOut := by unfold State.write; split <;> simp
@[simp] theorem State.write_outbox (a v : Word) : (s.write a v).outbox = s.outbox := by unfold State.write; split <;> simp
@[simp] theorem State.write_inbox (a v : Word) : (s.write a v).inbox = s.inbox := by unfold State.write; split <;> simp
@[simp] theorem State.write_during (a v : Word) : (s.write a v).during = s.during := by unfold State.write; split <;> simp
@[simp] theorem State.write_inLocation (a v : Word) : (s.write a v).inLocation = s.inLocation := by unfold State.write; split <;> simp
@[simp] theorem State.write_freeNext (a v : Word) : (s.write a v).freeNext = s.freeNext := by unfold State.write; split <;> simp
@[simp] theorem State.write_config (a v : Word) : (s.write a v).config = s.config := by unfold State.write; split <;> simp

/-! ## dmacPut -/

@[simp] theorem State.dmacPut_pc (a v : Word) : (s.dmacPut a v).pc = s.pc := by unfold State.dmacPut; split <;> simp
@[simp] theorem State.dmacPut_ec (a v : Word) : (s.dmacPut a v).ec = s.ec := by unfold State.dmacPut; split <;> simp
@[simp] theorem State.dmacPut_st (a v : Word) : (s.dmacPut a v).st = s.st := by unfold State.dmacPut; split <;> simp
@[simp] theorem State.dmacPut_ia (a v : Word) : (s.dmacPut a v).ia = s.ia := by unfold State.dmacPut; split <;> simp
@[simp] theorem State.dmacPut_ib (a v : Word) : (s.dmacPut a v).ib = s.ib := by unfold State.dmacPut; split <;> simp
@[simp] theorem State.dmacPut_ma (a v : Word) : (s.dmacPut a v).ma = s.ma := by unfold State.dmacPut; split <;> simp
@[simp] theorem State.dmacPut_display (a v : Word) : (s.dmacPut a v).display = s.display := by unfold State.dmacPut; split <;> simp
@[simp] theorem State.dmacPut_switches (a v : Word) : (s.dmacPut a v).switches = s.switches := by unfold State.dmacPut; split <;> simp
@[simp] theorem State.dmacPut_mpo (a v : Word) : (s.dmacPut a v).mpo = s.mpo := by unfold State.dmacPut; split <;> simp
@[simp] theorem State.dmacPut_locked (a v : Word) : (s.dmacPut a v).locked = s.locked := by unfold State.dmacPut; split <;> simp
@[simp] theorem State.dmacPut_modeRun (a v : Word) : (s.dmacPut a v).modeRun = s.modeRun := by unfold State.dmacPut; split <;> simp
@[simp] theorem State.dmacPut_sie (a v : Word) : (s.dmacPut a v).sie = s.sie := by unfold State.dmacPut; split <;> simp
@[simp] theorem State.dmacPut_clockOn (a v : Word) : (s.dmacPut a v).clockOn = s.clockOn := by unfold State.dmacPut; split <;> simp
@[simp] theorem State.dmacPut_running (a v : Word) : (s.dmacPut a v).running = s.running := by unfold State.dmacPut; split <;> simp
@[simp] theorem State.dmacPut_power (a v : Word) : (s.dmacPut a v).power = s.power := by unfold State.dmacPut; split <;> simp
@[simp] theorem State.dmacPut_powerLossLight (a v : Word) : (s.dmacPut a v).powerLossLight = s.powerLossLight := by unfold State.dmacPut; split <;> simp
@[simp] theorem State.dmacPut_pendInternal (a v : Word) : (s.dmacPut a v).pendInternal = s.pendInternal := by unfold State.dmacPut; split <;> simp
@[simp] theorem State.dmacPut_cruLine (a v : Word) : (s.dmacPut a v).cruLine = s.cruLine := by unfold State.dmacPut; split <;> simp
@[simp] theorem State.dmacPut_dmac (a v : Word) : (s.dmacPut a v).dmac = s.dmac := by unfold State.dmacPut; split <;> simp
@[simp] theorem State.dmacPut_errorLatch (a v : Word) : (s.dmacPut a v).errorLatch = s.errorLatch := by unfold State.dmacPut; split <;> simp
@[simp] theorem State.dmacPut_cruIn (a v : Word) : (s.dmacPut a v).cruIn = s.cruIn := by unfold State.dmacPut; split <;> simp
@[simp] theorem State.dmacPut_cruOut (a v : Word) : (s.dmacPut a v).cruOut = s.cruOut := by unfold State.dmacPut; split <;> simp
@[simp] theorem State.dmacPut_outbox (a v : Word) : (s.dmacPut a v).outbox = s.outbox := by unfold State.dmacPut; split <;> simp
@[simp] theorem State.dmacPut_inbox (a v : Word) : (s.dmacPut a v).inbox = s.inbox := by unfold State.dmacPut; split <;> simp
@[simp] theorem State.dmacPut_during (a v : Word) : (s.dmacPut a v).during = s.during := by unfold State.dmacPut; split <;> simp
@[simp] theorem State.dmacPut_inLocation (a v : Word) : (s.dmacPut a v).inLocation = s.inLocation := by unfold State.dmacPut; split <;> simp
@[simp] theorem State.dmacPut_freeNext (a v : Word) : (s.dmacPut a v).freeNext = s.freeNext := by unfold State.dmacPut; split <;> simp
@[simp] theorem State.dmacPut_config (a v : Word) : (s.dmacPut a v).config = s.config := by unfold State.dmacPut; split <;> simp

/-! ## dmacPuts -/

@[simp] theorem State.dmacPuts_pc (ps : List (Word × Word)) : (s.dmacPuts ps).pc = s.pc := by induction ps generalizing s with | nil => rfl | cons p r ih => simp [State.dmacPuts, ih]
@[simp] theorem State.dmacPuts_ec (ps : List (Word × Word)) : (s.dmacPuts ps).ec = s.ec := by induction ps generalizing s with | nil => rfl | cons p r ih => simp [State.dmacPuts, ih]
@[simp] theorem State.dmacPuts_st (ps : List (Word × Word)) : (s.dmacPuts ps).st = s.st := by induction ps generalizing s with | nil => rfl | cons p r ih => simp [State.dmacPuts, ih]
@[simp] theorem State.dmacPuts_ia (ps : List (Word × Word)) : (s.dmacPuts ps).ia = s.ia := by induction ps generalizing s with | nil => rfl | cons p r ih => simp [State.dmacPuts, ih]
@[simp] theorem State.dmacPuts_ib (ps : List (Word × Word)) : (s.dmacPuts ps).ib = s.ib := by induction ps generalizing s with | nil => rfl | cons p r ih => simp [State.dmacPuts, ih]
@[simp] theorem State.dmacPuts_ma (ps : List (Word × Word)) : (s.dmacPuts ps).ma = s.ma := by induction ps generalizing s with | nil => rfl | cons p r ih => simp [State.dmacPuts, ih]
@[simp] theorem State.dmacPuts_display (ps : List (Word × Word)) : (s.dmacPuts ps).display = s.display := by induction ps generalizing s with | nil => rfl | cons p r ih => simp [State.dmacPuts, ih]
@[simp] theorem State.dmacPuts_switches (ps : List (Word × Word)) : (s.dmacPuts ps).switches = s.switches := by induction ps generalizing s with | nil => rfl | cons p r ih => simp [State.dmacPuts, ih]
@[simp] theorem State.dmacPuts_mpo (ps : List (Word × Word)) : (s.dmacPuts ps).mpo = s.mpo := by induction ps generalizing s with | nil => rfl | cons p r ih => simp [State.dmacPuts, ih]
@[simp] theorem State.dmacPuts_locked (ps : List (Word × Word)) : (s.dmacPuts ps).locked = s.locked := by induction ps generalizing s with | nil => rfl | cons p r ih => simp [State.dmacPuts, ih]
@[simp] theorem State.dmacPuts_modeRun (ps : List (Word × Word)) : (s.dmacPuts ps).modeRun = s.modeRun := by induction ps generalizing s with | nil => rfl | cons p r ih => simp [State.dmacPuts, ih]
@[simp] theorem State.dmacPuts_sie (ps : List (Word × Word)) : (s.dmacPuts ps).sie = s.sie := by induction ps generalizing s with | nil => rfl | cons p r ih => simp [State.dmacPuts, ih]
@[simp] theorem State.dmacPuts_clockOn (ps : List (Word × Word)) : (s.dmacPuts ps).clockOn = s.clockOn := by induction ps generalizing s with | nil => rfl | cons p r ih => simp [State.dmacPuts, ih]
@[simp] theorem State.dmacPuts_running (ps : List (Word × Word)) : (s.dmacPuts ps).running = s.running := by induction ps generalizing s with | nil => rfl | cons p r ih => simp [State.dmacPuts, ih]
@[simp] theorem State.dmacPuts_power (ps : List (Word × Word)) : (s.dmacPuts ps).power = s.power := by induction ps generalizing s with | nil => rfl | cons p r ih => simp [State.dmacPuts, ih]
@[simp] theorem State.dmacPuts_powerLossLight (ps : List (Word × Word)) : (s.dmacPuts ps).powerLossLight = s.powerLossLight := by induction ps generalizing s with | nil => rfl | cons p r ih => simp [State.dmacPuts, ih]
@[simp] theorem State.dmacPuts_pendInternal (ps : List (Word × Word)) : (s.dmacPuts ps).pendInternal = s.pendInternal := by induction ps generalizing s with | nil => rfl | cons p r ih => simp [State.dmacPuts, ih]
@[simp] theorem State.dmacPuts_cruLine (ps : List (Word × Word)) : (s.dmacPuts ps).cruLine = s.cruLine := by induction ps generalizing s with | nil => rfl | cons p r ih => simp [State.dmacPuts, ih]
@[simp] theorem State.dmacPuts_dmac (ps : List (Word × Word)) : (s.dmacPuts ps).dmac = s.dmac := by induction ps generalizing s with | nil => rfl | cons p r ih => simp [State.dmacPuts, ih]
@[simp] theorem State.dmacPuts_errorLatch (ps : List (Word × Word)) : (s.dmacPuts ps).errorLatch = s.errorLatch := by induction ps generalizing s with | nil => rfl | cons p r ih => simp [State.dmacPuts, ih]
@[simp] theorem State.dmacPuts_cruIn (ps : List (Word × Word)) : (s.dmacPuts ps).cruIn = s.cruIn := by induction ps generalizing s with | nil => rfl | cons p r ih => simp [State.dmacPuts, ih]
@[simp] theorem State.dmacPuts_cruOut (ps : List (Word × Word)) : (s.dmacPuts ps).cruOut = s.cruOut := by induction ps generalizing s with | nil => rfl | cons p r ih => simp [State.dmacPuts, ih]
@[simp] theorem State.dmacPuts_outbox (ps : List (Word × Word)) : (s.dmacPuts ps).outbox = s.outbox := by induction ps generalizing s with | nil => rfl | cons p r ih => simp [State.dmacPuts, ih]
@[simp] theorem State.dmacPuts_inbox (ps : List (Word × Word)) : (s.dmacPuts ps).inbox = s.inbox := by induction ps generalizing s with | nil => rfl | cons p r ih => simp [State.dmacPuts, ih]
@[simp] theorem State.dmacPuts_during (ps : List (Word × Word)) : (s.dmacPuts ps).during = s.during := by induction ps generalizing s with | nil => rfl | cons p r ih => simp [State.dmacPuts, ih]
@[simp] theorem State.dmacPuts_inLocation (ps : List (Word × Word)) : (s.dmacPuts ps).inLocation = s.inLocation := by induction ps generalizing s with | nil => rfl | cons p r ih => simp [State.dmacPuts, ih]
@[simp] theorem State.dmacPuts_freeNext (ps : List (Word × Word)) : (s.dmacPuts ps).freeNext = s.freeNext := by induction ps generalizing s with | nil => rfl | cons p r ih => simp [State.dmacPuts, ih]
@[simp] theorem State.dmacPuts_config (ps : List (Word × Word)) : (s.dmacPuts ps).config = s.config := by induction ps generalizing s with | nil => rfl | cons p r ih => simp [State.dmacPuts, ih]

/-! ## grant -/

@[simp] theorem State.grant_pc : (s.grant).pc = s.pc := by simp [State.grant]
@[simp] theorem State.grant_ec : (s.grant).ec = s.ec := by simp [State.grant]
@[simp] theorem State.grant_st : (s.grant).st = s.st := by simp [State.grant]
@[simp] theorem State.grant_ia : (s.grant).ia = s.ia := by simp [State.grant]
@[simp] theorem State.grant_ib : (s.grant).ib = s.ib := by simp [State.grant]
@[simp] theorem State.grant_ma : (s.grant).ma = s.ma := by simp [State.grant]
@[simp] theorem State.grant_display : (s.grant).display = s.display := by simp [State.grant]
@[simp] theorem State.grant_switches : (s.grant).switches = s.switches := by simp [State.grant]
@[simp] theorem State.grant_mpo : (s.grant).mpo = s.mpo := by simp [State.grant]
@[simp] theorem State.grant_locked : (s.grant).locked = s.locked := by simp [State.grant]
@[simp] theorem State.grant_modeRun : (s.grant).modeRun = s.modeRun := by simp [State.grant]
@[simp] theorem State.grant_sie : (s.grant).sie = s.sie := by simp [State.grant]
@[simp] theorem State.grant_clockOn : (s.grant).clockOn = s.clockOn := by simp [State.grant]
@[simp] theorem State.grant_running : (s.grant).running = s.running := by simp [State.grant]
@[simp] theorem State.grant_power : (s.grant).power = s.power := by simp [State.grant]
@[simp] theorem State.grant_powerLossLight : (s.grant).powerLossLight = s.powerLossLight := by simp [State.grant]
@[simp] theorem State.grant_pendInternal : (s.grant).pendInternal = s.pendInternal := by simp [State.grant]
@[simp] theorem State.grant_cruLine : (s.grant).cruLine = s.cruLine := by simp [State.grant]
@[simp] theorem State.grant_dmac : (s.grant).dmac = s.dmac := by simp [State.grant]
@[simp] theorem State.grant_errorLatch : (s.grant).errorLatch = s.errorLatch := by simp [State.grant]
@[simp] theorem State.grant_cruIn : (s.grant).cruIn = s.cruIn := by simp [State.grant]
@[simp] theorem State.grant_cruOut : (s.grant).cruOut = s.cruOut := by simp [State.grant]
@[simp] theorem State.grant_outbox : (s.grant).outbox = s.outbox := by simp [State.grant]
@[simp] theorem State.grant_inbox : (s.grant).inbox = s.inbox := by simp [State.grant]
@[simp] theorem State.grant_inLocation : (s.grant).inLocation = s.inLocation := by simp [State.grant]
@[simp] theorem State.grant_freeNext : (s.grant).freeNext = s.freeNext := by simp [State.grant]
@[simp] theorem State.grant_config : (s.grant).config = s.config := by simp [State.grant]

/-! ## withDuring -/

@[simp] theorem State.withDuring_regs (d : List MemoryCycle) : (s.withDuring d).regs = s.regs := rfl
@[simp] theorem State.withDuring_pc (d : List MemoryCycle) : (s.withDuring d).pc = s.pc := rfl
@[simp] theorem State.withDuring_ec (d : List MemoryCycle) : (s.withDuring d).ec = s.ec := rfl
@[simp] theorem State.withDuring_st (d : List MemoryCycle) : (s.withDuring d).st = s.st := rfl
@[simp] theorem State.withDuring_ia (d : List MemoryCycle) : (s.withDuring d).ia = s.ia := rfl
@[simp] theorem State.withDuring_ib (d : List MemoryCycle) : (s.withDuring d).ib = s.ib := rfl
@[simp] theorem State.withDuring_ma (d : List MemoryCycle) : (s.withDuring d).ma = s.ma := rfl
@[simp] theorem State.withDuring_display (d : List MemoryCycle) : (s.withDuring d).display = s.display := rfl
@[simp] theorem State.withDuring_switches (d : List MemoryCycle) : (s.withDuring d).switches = s.switches := rfl
@[simp] theorem State.withDuring_mpo (d : List MemoryCycle) : (s.withDuring d).mpo = s.mpo := rfl
@[simp] theorem State.withDuring_locked (d : List MemoryCycle) : (s.withDuring d).locked = s.locked := rfl
@[simp] theorem State.withDuring_modeRun (d : List MemoryCycle) : (s.withDuring d).modeRun = s.modeRun := rfl
@[simp] theorem State.withDuring_sie (d : List MemoryCycle) : (s.withDuring d).sie = s.sie := rfl
@[simp] theorem State.withDuring_clockOn (d : List MemoryCycle) : (s.withDuring d).clockOn = s.clockOn := rfl
@[simp] theorem State.withDuring_running (d : List MemoryCycle) : (s.withDuring d).running = s.running := rfl
@[simp] theorem State.withDuring_power (d : List MemoryCycle) : (s.withDuring d).power = s.power := rfl
@[simp] theorem State.withDuring_powerLossLight (d : List MemoryCycle) : (s.withDuring d).powerLossLight = s.powerLossLight := rfl
@[simp] theorem State.withDuring_pendInternal (d : List MemoryCycle) : (s.withDuring d).pendInternal = s.pendInternal := rfl
@[simp] theorem State.withDuring_cruLine (d : List MemoryCycle) : (s.withDuring d).cruLine = s.cruLine := rfl
@[simp] theorem State.withDuring_dmac (d : List MemoryCycle) : (s.withDuring d).dmac = s.dmac := rfl
@[simp] theorem State.withDuring_mem (d : List MemoryCycle) : (s.withDuring d).mem = s.mem := rfl
@[simp] theorem State.withDuring_badWords (d : List MemoryCycle) : (s.withDuring d).badWords = s.badWords := rfl
@[simp] theorem State.withDuring_errorLatch (d : List MemoryCycle) : (s.withDuring d).errorLatch = s.errorLatch := rfl
@[simp] theorem State.withDuring_cruIn (d : List MemoryCycle) : (s.withDuring d).cruIn = s.cruIn := rfl
@[simp] theorem State.withDuring_cruOut (d : List MemoryCycle) : (s.withDuring d).cruOut = s.cruOut := rfl
@[simp] theorem State.withDuring_outbox (d : List MemoryCycle) : (s.withDuring d).outbox = s.outbox := rfl
@[simp] theorem State.withDuring_inbox (d : List MemoryCycle) : (s.withDuring d).inbox = s.inbox := rfl
@[simp] theorem State.withDuring_inLocation (d : List MemoryCycle) : (s.withDuring d).inLocation = s.inLocation := rfl
@[simp] theorem State.withDuring_freeNext (d : List MemoryCycle) : (s.withDuring d).freeNext = s.freeNext := rfl
@[simp] theorem State.withDuring_config (d : List MemoryCycle) : (s.withDuring d).config = s.config := rfl

/-! ## store -/

@[simp] theorem State.store_pc (a v : Word) : (s.store a v).pc = s.pc := by simp [State.store]
@[simp] theorem State.store_ec (a v : Word) : (s.store a v).ec = s.ec := by simp [State.store]
@[simp] theorem State.store_ia (a v : Word) : (s.store a v).ia = s.ia := by simp [State.store]
@[simp] theorem State.store_ib (a v : Word) : (s.store a v).ib = s.ib := by simp [State.store]
@[simp] theorem State.store_ma (a v : Word) : (s.store a v).ma = s.ma := by simp [State.store]
@[simp] theorem State.store_display (a v : Word) : (s.store a v).display = s.display := by simp [State.store]
@[simp] theorem State.store_switches (a v : Word) : (s.store a v).switches = s.switches := by simp [State.store]
@[simp] theorem State.store_mpo (a v : Word) : (s.store a v).mpo = s.mpo := by simp [State.store]
@[simp] theorem State.store_locked (a v : Word) : (s.store a v).locked = s.locked := by simp [State.store]
@[simp] theorem State.store_modeRun (a v : Word) : (s.store a v).modeRun = s.modeRun := by simp [State.store]
@[simp] theorem State.store_sie (a v : Word) : (s.store a v).sie = s.sie := by simp [State.store]
@[simp] theorem State.store_clockOn (a v : Word) : (s.store a v).clockOn = s.clockOn := by simp [State.store]
@[simp] theorem State.store_running (a v : Word) : (s.store a v).running = s.running := by simp [State.store]
@[simp] theorem State.store_power (a v : Word) : (s.store a v).power = s.power := by simp [State.store]
@[simp] theorem State.store_powerLossLight (a v : Word) : (s.store a v).powerLossLight = s.powerLossLight := by simp [State.store]
@[simp] theorem State.store_cruLine (a v : Word) : (s.store a v).cruLine = s.cruLine := by simp [State.store]
@[simp] theorem State.store_dmac (a v : Word) : (s.store a v).dmac = s.dmac := by simp [State.store]
@[simp] theorem State.store_errorLatch (a v : Word) : (s.store a v).errorLatch = s.errorLatch := by simp [State.store]
@[simp] theorem State.store_cruIn (a v : Word) : (s.store a v).cruIn = s.cruIn := by simp [State.store]
@[simp] theorem State.store_cruOut (a v : Word) : (s.store a v).cruOut = s.cruOut := by simp [State.store]
@[simp] theorem State.store_outbox (a v : Word) : (s.store a v).outbox = s.outbox := by simp [State.store]
@[simp] theorem State.store_inbox (a v : Word) : (s.store a v).inbox = s.inbox := by simp [State.store]
@[simp] theorem State.store_inLocation (a v : Word) : (s.store a v).inLocation = s.inLocation := by simp [State.store]
@[simp] theorem State.store_freeNext (a v : Word) : (s.store a v).freeNext = s.freeNext := by simp [State.store]
@[simp] theorem State.store_config (a v : Word) : (s.store a v).config = s.config := by simp [State.store]

/-! ## store2 -/

@[simp] theorem State.store2_pc (a : Word) (v : DWord) : (s.store2 a v).pc = s.pc := by simp [State.store2]
@[simp] theorem State.store2_ec (a : Word) (v : DWord) : (s.store2 a v).ec = s.ec := by simp [State.store2]
@[simp] theorem State.store2_ia (a : Word) (v : DWord) : (s.store2 a v).ia = s.ia := by simp [State.store2]
@[simp] theorem State.store2_ib (a : Word) (v : DWord) : (s.store2 a v).ib = s.ib := by simp [State.store2]
@[simp] theorem State.store2_ma (a : Word) (v : DWord) : (s.store2 a v).ma = s.ma := by simp [State.store2]
@[simp] theorem State.store2_display (a : Word) (v : DWord) : (s.store2 a v).display = s.display := by simp [State.store2]
@[simp] theorem State.store2_switches (a : Word) (v : DWord) : (s.store2 a v).switches = s.switches := by simp [State.store2]
@[simp] theorem State.store2_mpo (a : Word) (v : DWord) : (s.store2 a v).mpo = s.mpo := by simp [State.store2]
@[simp] theorem State.store2_locked (a : Word) (v : DWord) : (s.store2 a v).locked = s.locked := by simp [State.store2]
@[simp] theorem State.store2_modeRun (a : Word) (v : DWord) : (s.store2 a v).modeRun = s.modeRun := by simp [State.store2]
@[simp] theorem State.store2_sie (a : Word) (v : DWord) : (s.store2 a v).sie = s.sie := by simp [State.store2]
@[simp] theorem State.store2_clockOn (a : Word) (v : DWord) : (s.store2 a v).clockOn = s.clockOn := by simp [State.store2]
@[simp] theorem State.store2_running (a : Word) (v : DWord) : (s.store2 a v).running = s.running := by simp [State.store2]
@[simp] theorem State.store2_power (a : Word) (v : DWord) : (s.store2 a v).power = s.power := by simp [State.store2]
@[simp] theorem State.store2_powerLossLight (a : Word) (v : DWord) : (s.store2 a v).powerLossLight = s.powerLossLight := by simp [State.store2]
@[simp] theorem State.store2_cruLine (a : Word) (v : DWord) : (s.store2 a v).cruLine = s.cruLine := by simp [State.store2]
@[simp] theorem State.store2_dmac (a : Word) (v : DWord) : (s.store2 a v).dmac = s.dmac := by simp [State.store2]
@[simp] theorem State.store2_errorLatch (a : Word) (v : DWord) : (s.store2 a v).errorLatch = s.errorLatch := by simp [State.store2]
@[simp] theorem State.store2_cruIn (a : Word) (v : DWord) : (s.store2 a v).cruIn = s.cruIn := by simp [State.store2]
@[simp] theorem State.store2_cruOut (a : Word) (v : DWord) : (s.store2 a v).cruOut = s.cruOut := by simp [State.store2]
@[simp] theorem State.store2_outbox (a : Word) (v : DWord) : (s.store2 a v).outbox = s.outbox := by simp [State.store2]
@[simp] theorem State.store2_inbox (a : Word) (v : DWord) : (s.store2 a v).inbox = s.inbox := by simp [State.store2]
@[simp] theorem State.store2_inLocation (a : Word) (v : DWord) : (s.store2 a v).inLocation = s.inLocation := by simp [State.store2]
@[simp] theorem State.store2_freeNext (a : Word) (v : DWord) : (s.store2 a v).freeNext = s.freeNext := by simp [State.store2]
@[simp] theorem State.store2_config (a : Word) (v : DWord) : (s.store2 a v).config = s.config := by simp [State.store2]

/-! ## afterRead -/

@[simp] theorem State.afterRead_pc (a : Word) : (s.afterRead a).pc = s.pc := by unfold State.afterRead; split <;> simp
@[simp] theorem State.afterRead_ec (a : Word) : (s.afterRead a).ec = s.ec := by unfold State.afterRead; split <;> simp
@[simp] theorem State.afterRead_ia (a : Word) : (s.afterRead a).ia = s.ia := by unfold State.afterRead; split <;> simp
@[simp] theorem State.afterRead_ib (a : Word) : (s.afterRead a).ib = s.ib := by unfold State.afterRead; split <;> simp
@[simp] theorem State.afterRead_ma (a : Word) : (s.afterRead a).ma = s.ma := by unfold State.afterRead; split <;> simp
@[simp] theorem State.afterRead_display (a : Word) : (s.afterRead a).display = s.display := by unfold State.afterRead; split <;> simp
@[simp] theorem State.afterRead_switches (a : Word) : (s.afterRead a).switches = s.switches := by unfold State.afterRead; split <;> simp
@[simp] theorem State.afterRead_mpo (a : Word) : (s.afterRead a).mpo = s.mpo := by unfold State.afterRead; split <;> simp
@[simp] theorem State.afterRead_locked (a : Word) : (s.afterRead a).locked = s.locked := by unfold State.afterRead; split <;> simp
@[simp] theorem State.afterRead_modeRun (a : Word) : (s.afterRead a).modeRun = s.modeRun := by unfold State.afterRead; split <;> simp
@[simp] theorem State.afterRead_sie (a : Word) : (s.afterRead a).sie = s.sie := by unfold State.afterRead; split <;> simp
@[simp] theorem State.afterRead_clockOn (a : Word) : (s.afterRead a).clockOn = s.clockOn := by unfold State.afterRead; split <;> simp
@[simp] theorem State.afterRead_running (a : Word) : (s.afterRead a).running = s.running := by unfold State.afterRead; split <;> simp
@[simp] theorem State.afterRead_power (a : Word) : (s.afterRead a).power = s.power := by unfold State.afterRead; split <;> simp
@[simp] theorem State.afterRead_powerLossLight (a : Word) : (s.afterRead a).powerLossLight = s.powerLossLight := by unfold State.afterRead; split <;> simp
@[simp] theorem State.afterRead_cruLine (a : Word) : (s.afterRead a).cruLine = s.cruLine := by unfold State.afterRead; split <;> simp
@[simp] theorem State.afterRead_dmac (a : Word) : (s.afterRead a).dmac = s.dmac := by unfold State.afterRead; split <;> simp
@[simp] theorem State.afterRead_cruIn (a : Word) : (s.afterRead a).cruIn = s.cruIn := by unfold State.afterRead; split <;> simp
@[simp] theorem State.afterRead_cruOut (a : Word) : (s.afterRead a).cruOut = s.cruOut := by unfold State.afterRead; split <;> simp
@[simp] theorem State.afterRead_outbox (a : Word) : (s.afterRead a).outbox = s.outbox := by unfold State.afterRead; split <;> simp
@[simp] theorem State.afterRead_inbox (a : Word) : (s.afterRead a).inbox = s.inbox := by unfold State.afterRead; split <;> simp
@[simp] theorem State.afterRead_inLocation (a : Word) : (s.afterRead a).inLocation = s.inLocation := by unfold State.afterRead; split <;> simp
@[simp] theorem State.afterRead_freeNext (a : Word) : (s.afterRead a).freeNext = s.freeNext := by unfold State.afterRead; split <;> simp
@[simp] theorem State.afterRead_config (a : Word) : (s.afterRead a).config = s.config := by unfold State.afterRead; split <;> simp

/-! ## afterEA -/

@[simp] theorem State.afterEA_pc (o : Address) (p : Bool) : (s.afterEA o p).pc = s.pc := by unfold State.afterEA; dsimp only; split <;> simp
@[simp] theorem State.afterEA_ec (o : Address) (p : Bool) : (s.afterEA o p).ec = s.ec := by unfold State.afterEA; dsimp only; split <;> simp
@[simp] theorem State.afterEA_ia (o : Address) (p : Bool) : (s.afterEA o p).ia = s.ia := by unfold State.afterEA; dsimp only; split <;> simp
@[simp] theorem State.afterEA_ma (o : Address) (p : Bool) : (s.afterEA o p).ma = s.ma := by unfold State.afterEA; dsimp only; split <;> simp
@[simp] theorem State.afterEA_display (o : Address) (p : Bool) : (s.afterEA o p).display = s.display := by unfold State.afterEA; dsimp only; split <;> simp
@[simp] theorem State.afterEA_switches (o : Address) (p : Bool) : (s.afterEA o p).switches = s.switches := by unfold State.afterEA; dsimp only; split <;> simp
@[simp] theorem State.afterEA_mpo (o : Address) (p : Bool) : (s.afterEA o p).mpo = s.mpo := by unfold State.afterEA; dsimp only; split <;> simp
@[simp] theorem State.afterEA_locked (o : Address) (p : Bool) : (s.afterEA o p).locked = s.locked := by unfold State.afterEA; dsimp only; split <;> simp
@[simp] theorem State.afterEA_modeRun (o : Address) (p : Bool) : (s.afterEA o p).modeRun = s.modeRun := by unfold State.afterEA; dsimp only; split <;> simp
@[simp] theorem State.afterEA_sie (o : Address) (p : Bool) : (s.afterEA o p).sie = s.sie := by unfold State.afterEA; dsimp only; split <;> simp
@[simp] theorem State.afterEA_clockOn (o : Address) (p : Bool) : (s.afterEA o p).clockOn = s.clockOn := by unfold State.afterEA; dsimp only; split <;> simp
@[simp] theorem State.afterEA_running (o : Address) (p : Bool) : (s.afterEA o p).running = s.running := by unfold State.afterEA; dsimp only; split <;> simp
@[simp] theorem State.afterEA_power (o : Address) (p : Bool) : (s.afterEA o p).power = s.power := by unfold State.afterEA; dsimp only; split <;> simp
@[simp] theorem State.afterEA_powerLossLight (o : Address) (p : Bool) : (s.afterEA o p).powerLossLight = s.powerLossLight := by unfold State.afterEA; dsimp only; split <;> simp
@[simp] theorem State.afterEA_cruLine (o : Address) (p : Bool) : (s.afterEA o p).cruLine = s.cruLine := by unfold State.afterEA; dsimp only; split <;> simp
@[simp] theorem State.afterEA_dmac (o : Address) (p : Bool) : (s.afterEA o p).dmac = s.dmac := by unfold State.afterEA; dsimp only; split <;> simp
@[simp] theorem State.afterEA_cruIn (o : Address) (p : Bool) : (s.afterEA o p).cruIn = s.cruIn := by unfold State.afterEA; dsimp only; split <;> simp
@[simp] theorem State.afterEA_cruOut (o : Address) (p : Bool) : (s.afterEA o p).cruOut = s.cruOut := by unfold State.afterEA; dsimp only; split <;> simp
@[simp] theorem State.afterEA_outbox (o : Address) (p : Bool) : (s.afterEA o p).outbox = s.outbox := by unfold State.afterEA; dsimp only; split <;> simp
@[simp] theorem State.afterEA_inbox (o : Address) (p : Bool) : (s.afterEA o p).inbox = s.inbox := by unfold State.afterEA; dsimp only; split <;> simp
@[simp] theorem State.afterEA_inLocation (o : Address) (p : Bool) : (s.afterEA o p).inLocation = s.inLocation := by unfold State.afterEA; dsimp only; split <;> simp
@[simp] theorem State.afterEA_freeNext (o : Address) (p : Bool) : (s.afterEA o p).freeNext = s.freeNext := by unfold State.afterEA; dsimp only; split <;> simp
@[simp] theorem State.afterEA_config (o : Address) (p : Bool) : (s.afterEA o p).config = s.config := by unfold State.afterEA; dsimp only; split <;> simp

/-! ## afterEO -/

@[simp] theorem State.afterEO_pc (o : Address) (p : Bool) : (s.afterEO o p).pc = s.pc := by simp [State.afterEO]
@[simp] theorem State.afterEO_ec (o : Address) (p : Bool) : (s.afterEO o p).ec = s.ec := by simp [State.afterEO]
@[simp] theorem State.afterEO_ia (o : Address) (p : Bool) : (s.afterEO o p).ia = s.ia := by simp [State.afterEO]
@[simp] theorem State.afterEO_ma (o : Address) (p : Bool) : (s.afterEO o p).ma = s.ma := by simp [State.afterEO]
@[simp] theorem State.afterEO_display (o : Address) (p : Bool) : (s.afterEO o p).display = s.display := by simp [State.afterEO]
@[simp] theorem State.afterEO_switches (o : Address) (p : Bool) : (s.afterEO o p).switches = s.switches := by simp [State.afterEO]
@[simp] theorem State.afterEO_mpo (o : Address) (p : Bool) : (s.afterEO o p).mpo = s.mpo := by simp [State.afterEO]
@[simp] theorem State.afterEO_locked (o : Address) (p : Bool) : (s.afterEO o p).locked = s.locked := by simp [State.afterEO]
@[simp] theorem State.afterEO_modeRun (o : Address) (p : Bool) : (s.afterEO o p).modeRun = s.modeRun := by simp [State.afterEO]
@[simp] theorem State.afterEO_sie (o : Address) (p : Bool) : (s.afterEO o p).sie = s.sie := by simp [State.afterEO]
@[simp] theorem State.afterEO_clockOn (o : Address) (p : Bool) : (s.afterEO o p).clockOn = s.clockOn := by simp [State.afterEO]
@[simp] theorem State.afterEO_running (o : Address) (p : Bool) : (s.afterEO o p).running = s.running := by simp [State.afterEO]
@[simp] theorem State.afterEO_power (o : Address) (p : Bool) : (s.afterEO o p).power = s.power := by simp [State.afterEO]
@[simp] theorem State.afterEO_powerLossLight (o : Address) (p : Bool) : (s.afterEO o p).powerLossLight = s.powerLossLight := by simp [State.afterEO]
@[simp] theorem State.afterEO_cruLine (o : Address) (p : Bool) : (s.afterEO o p).cruLine = s.cruLine := by simp [State.afterEO]
@[simp] theorem State.afterEO_dmac (o : Address) (p : Bool) : (s.afterEO o p).dmac = s.dmac := by simp [State.afterEO]
@[simp] theorem State.afterEO_cruIn (o : Address) (p : Bool) : (s.afterEO o p).cruIn = s.cruIn := by simp [State.afterEO]
@[simp] theorem State.afterEO_cruOut (o : Address) (p : Bool) : (s.afterEO o p).cruOut = s.cruOut := by simp [State.afterEO]
@[simp] theorem State.afterEO_outbox (o : Address) (p : Bool) : (s.afterEO o p).outbox = s.outbox := by simp [State.afterEO]
@[simp] theorem State.afterEO_inbox (o : Address) (p : Bool) : (s.afterEO o p).inbox = s.inbox := by simp [State.afterEO]
@[simp] theorem State.afterEO_inLocation (o : Address) (p : Bool) : (s.afterEO o p).inLocation = s.inLocation := by simp [State.afterEO]
@[simp] theorem State.afterEO_freeNext (o : Address) (p : Bool) : (s.afterEO o p).freeNext = s.freeNext := by simp [State.afterEO]
@[simp] theorem State.afterEO_config (o : Address) (p : Bool) : (s.afterEO o p).config = s.config := by simp [State.afterEO]

/-! ## outputLine -/

@[simp] theorem State.outputLine_regs (a : Line) (v : Bool) : (s.outputLine a v).regs = s.regs := rfl
@[simp] theorem State.outputLine_pc (a : Line) (v : Bool) : (s.outputLine a v).pc = s.pc := rfl
@[simp] theorem State.outputLine_ec (a : Line) (v : Bool) : (s.outputLine a v).ec = s.ec := rfl
@[simp] theorem State.outputLine_st (a : Line) (v : Bool) : (s.outputLine a v).st = s.st := rfl
@[simp] theorem State.outputLine_ia (a : Line) (v : Bool) : (s.outputLine a v).ia = s.ia := rfl
@[simp] theorem State.outputLine_ib (a : Line) (v : Bool) : (s.outputLine a v).ib = s.ib := rfl
@[simp] theorem State.outputLine_ma (a : Line) (v : Bool) : (s.outputLine a v).ma = s.ma := rfl
@[simp] theorem State.outputLine_display (a : Line) (v : Bool) : (s.outputLine a v).display = s.display := rfl
@[simp] theorem State.outputLine_switches (a : Line) (v : Bool) : (s.outputLine a v).switches = s.switches := rfl
@[simp] theorem State.outputLine_mpo (a : Line) (v : Bool) : (s.outputLine a v).mpo = s.mpo := rfl
@[simp] theorem State.outputLine_locked (a : Line) (v : Bool) : (s.outputLine a v).locked = s.locked := rfl
@[simp] theorem State.outputLine_modeRun (a : Line) (v : Bool) : (s.outputLine a v).modeRun = s.modeRun := rfl
@[simp] theorem State.outputLine_sie (a : Line) (v : Bool) : (s.outputLine a v).sie = s.sie := rfl
@[simp] theorem State.outputLine_clockOn (a : Line) (v : Bool) : (s.outputLine a v).clockOn = s.clockOn := rfl
@[simp] theorem State.outputLine_running (a : Line) (v : Bool) : (s.outputLine a v).running = s.running := rfl
@[simp] theorem State.outputLine_power (a : Line) (v : Bool) : (s.outputLine a v).power = s.power := rfl
@[simp] theorem State.outputLine_powerLossLight (a : Line) (v : Bool) : (s.outputLine a v).powerLossLight = s.powerLossLight := rfl
@[simp] theorem State.outputLine_pendInternal (a : Line) (v : Bool) : (s.outputLine a v).pendInternal = s.pendInternal := rfl
@[simp] theorem State.outputLine_cruLine (a : Line) (v : Bool) : (s.outputLine a v).cruLine = s.cruLine := rfl
@[simp] theorem State.outputLine_dmac (a : Line) (v : Bool) : (s.outputLine a v).dmac = s.dmac := rfl
@[simp] theorem State.outputLine_mem (a : Line) (v : Bool) : (s.outputLine a v).mem = s.mem := rfl
@[simp] theorem State.outputLine_badWords (a : Line) (v : Bool) : (s.outputLine a v).badWords = s.badWords := rfl
@[simp] theorem State.outputLine_errorLatch (a : Line) (v : Bool) : (s.outputLine a v).errorLatch = s.errorLatch := rfl
@[simp] theorem State.outputLine_cruIn (a : Line) (v : Bool) : (s.outputLine a v).cruIn = s.cruIn := rfl
@[simp] theorem State.outputLine_inbox (a : Line) (v : Bool) : (s.outputLine a v).inbox = s.inbox := rfl
@[simp] theorem State.outputLine_during (a : Line) (v : Bool) : (s.outputLine a v).during = s.during := rfl
@[simp] theorem State.outputLine_inLocation (a : Line) (v : Bool) : (s.outputLine a v).inLocation = s.inLocation := rfl
@[simp] theorem State.outputLine_freeNext (a : Line) (v : Bool) : (s.outputLine a v).freeNext = s.freeNext := rfl
@[simp] theorem State.outputLine_config (a : Line) (v : Bool) : (s.outputLine a v).config = s.config := rfl

/-! ## transfer -/

@[simp] theorem State.transfer_regs (w : Bool) : (s.transfer w).regs = s.regs := by simp [State.transfer]
@[simp] theorem State.transfer_ia (w : Bool) : (s.transfer w).ia = s.ia := by simp [State.transfer]
@[simp] theorem State.transfer_ib (w : Bool) : (s.transfer w).ib = s.ib := by simp [State.transfer]
@[simp] theorem State.transfer_ma (w : Bool) : (s.transfer w).ma = s.ma := by simp [State.transfer]
@[simp] theorem State.transfer_display (w : Bool) : (s.transfer w).display = s.display := by simp [State.transfer]
@[simp] theorem State.transfer_switches (w : Bool) : (s.transfer w).switches = s.switches := by simp [State.transfer]
@[simp] theorem State.transfer_mpo (w : Bool) : (s.transfer w).mpo = s.mpo := by simp [State.transfer]
@[simp] theorem State.transfer_locked (w : Bool) : (s.transfer w).locked = s.locked := by simp [State.transfer]
@[simp] theorem State.transfer_modeRun (w : Bool) : (s.transfer w).modeRun = s.modeRun := by simp [State.transfer]
@[simp] theorem State.transfer_sie (w : Bool) : (s.transfer w).sie = s.sie := by simp [State.transfer]
@[simp] theorem State.transfer_clockOn (w : Bool) : (s.transfer w).clockOn = s.clockOn := by simp [State.transfer]
@[simp] theorem State.transfer_running (w : Bool) : (s.transfer w).running = s.running := by simp [State.transfer]
@[simp] theorem State.transfer_power (w : Bool) : (s.transfer w).power = s.power := by simp [State.transfer]
@[simp] theorem State.transfer_powerLossLight (w : Bool) : (s.transfer w).powerLossLight = s.powerLossLight := by simp [State.transfer]
@[simp] theorem State.transfer_pendInternal (w : Bool) : (s.transfer w).pendInternal = s.pendInternal := by simp [State.transfer]
@[simp] theorem State.transfer_cruLine (w : Bool) : (s.transfer w).cruLine = s.cruLine := by simp [State.transfer]
@[simp] theorem State.transfer_dmac (w : Bool) : (s.transfer w).dmac = s.dmac := by simp [State.transfer]
@[simp] theorem State.transfer_mem (w : Bool) : (s.transfer w).mem = s.mem := by simp [State.transfer]
@[simp] theorem State.transfer_badWords (w : Bool) : (s.transfer w).badWords = s.badWords := by simp [State.transfer]
@[simp] theorem State.transfer_errorLatch (w : Bool) : (s.transfer w).errorLatch = s.errorLatch := by simp [State.transfer]
@[simp] theorem State.transfer_cruIn (w : Bool) : (s.transfer w).cruIn = s.cruIn := by simp [State.transfer]
@[simp] theorem State.transfer_cruOut (w : Bool) : (s.transfer w).cruOut = s.cruOut := by simp [State.transfer]
@[simp] theorem State.transfer_outbox (w : Bool) : (s.transfer w).outbox = s.outbox := by simp [State.transfer]
@[simp] theorem State.transfer_inbox (w : Bool) : (s.transfer w).inbox = s.inbox := by simp [State.transfer]
@[simp] theorem State.transfer_during (w : Bool) : (s.transfer w).during = s.during := by simp [State.transfer]
@[simp] theorem State.transfer_inLocation (w : Bool) : (s.transfer w).inLocation = s.inLocation := by simp [State.transfer]
@[simp] theorem State.transfer_freeNext (w : Bool) : (s.transfer w).freeNext = s.freeNext := by simp [State.transfer]
@[simp] theorem State.transfer_config (w : Bool) : (s.transfer w).config = s.config := by simp [State.transfer]

end Sys2Proof.Machine
end

