-- ==== Sys2Proof/Laws/Flags.lean ====
section
/-! SUPPORT. What each status update does to each bit of ST. -/

namespace Sys2Proof.Machine

/-- Reading any bit after setting one. -/
theorem getMsbD_putBit (w : Word) (i j : Nat) (v : Bool) (hi : i < 16) :
    (putBit w i v).getMsbD j = if j = i then v else w.getMsbD j := by
  have hm : ((0x8000 : Word) >>> i).getMsbD j = decide (j = i) := by
    simp only [BitVec.getMsbD_ushiftRight]
    have h8 : ∀ k, (0x8000 : Word).getMsbD k = decide (k = 0) := by
      intro k
      by_cases hk : k < 16
      · interval_cases k <;> decide
      · rw [BitVec.getMsbD_of_ge _ _ (by omega)]; simp; omega
    rw [h8]
    by_cases hj : j < 16 <;> by_cases hij : j < i <;> simp [hj, hij] <;> omega
  cases v
  · by_cases hj : j < 16
    · simp only [putBit, Bool.false_eq_true, if_false, BitVec.getMsbD_and, BitVec.getMsbD_not, hm, hj]
      by_cases h : j = i <;> simp [h]
    · simp only [putBit, Bool.false_eq_true, if_false, BitVec.getMsbD_and, BitVec.getMsbD_not]
      rw [BitVec.getMsbD_of_ge w _ (by omega)]
      simp
  · simp only [putBit, if_true, BitVec.getMsbD_or, hm]
    by_cases h : j = i <;> simp [h]

theorem getMsbD_cbMask (c : Comparison) (j : Nat) :
    (cbMask c).getMsbD j =
      (decide (j = 10) && decide (c = .greater) || decide (j = 11) && decide (c = .equal)
        || decide (j = 12) && decide (c = .less)) := by
  by_cases hj : j < 16
  · cases c <;> interval_cases j <;> decide
  · rw [BitVec.getMsbD_of_ge _ _ (by omega)]
    simp [show j ≠ 10 by omega, show j ≠ 11 by omega, show j ≠ 12 by omega]

variable (s : State)

@[simp] theorem State.stBit_setStBit (i j : Nat) (v : Bool) (hi : i < 16) :
    (s.setStBit i v).stBit j = if j = i then v else s.stBit j := getMsbD_putBit _ _ _ _ hi

/-- Every bit of ST after CB is written: one of the three is 1. -/
@[simp] theorem State.stBit_setComparison (c : Comparison) (j : Nat) :
    (s.setComparison c).stBit j =
      if j = 10 then decide (c = .greater) else if j = 11 then decide (c = .equal)
      else if j = 12 then decide (c = .less) else s.stBit j := by
  have hm : (0xFFC7 : Word).getMsbD j = (decide (j < 16) && !decide (10 ≤ j ∧ j ≤ 12)) := by
    by_cases hj : j < 16
    · interval_cases j <;> decide
    · rw [BitVec.getMsbD_of_ge _ _ (by omega)]; simp [hj]
  simp only [State.stBit, State.setComparison, BitVec.getMsbD_or, BitVec.getMsbD_and, getMsbD_cbMask, hm]
  by_cases h0 : j = 10
  · subst h0; simp
  by_cases h1 : j = 11
  · subst h1; simp
  by_cases h2 : j = 12
  · subst h2; simp
  by_cases hj : j < 16
  · simp [h0, h1, h2, hj, show ¬(10 ≤ j ∧ j ≤ 12) by omega]
  · rw [BitVec.getMsbD_of_ge s.st _ (by omega)]
    simp [h0, h1, h2]

@[simp] theorem State.stBit_setOI (v : Bool) (j : Nat) : (s.setOI v).stBit j = if j = 1 then v else s.stBit j :=
  s.stBit_setStBit 1 j v (by omega)

@[simp] theorem State.stBit_setCO (v : Bool) (j : Nat) : (s.setCO v).stBit j = if j = 13 then v else s.stBit j :=
  s.stBit_setStBit 13 j v (by omega)

@[simp] theorem State.stBit_setWorker (v : Bool) (j : Nat) :
    (s.setWorker v).stBit j = if j = 0 then v else s.stBit j := s.stBit_setStBit 0 j v (by omega)

theorem causeBit_lt (c : Cause) : causeBit c < 16 := by cases c <;> decide

@[simp] theorem State.stBit_raise (c : Cause) (j : Nat) :
    (s.raise c).stBit j = if j = causeBit c then true else s.stBit j := s.stBit_setStBit _ _ _ (causeBit_lt c)

@[simp] theorem State.pendInternal_raise (c : Cause) : (s.raise c).pendInternal = true := rfl

@[simp] theorem State.worker_setWorker (v : Bool) : (s.setWorker v).worker = v := by simp [State.worker]

@[simp] theorem State.worker_setOI (v : Bool) : (s.setOI v).worker = s.worker := by simp [State.worker]

@[simp] theorem State.worker_setCO (v : Bool) : (s.setCO v).worker = s.worker := by simp [State.worker]

@[simp] theorem State.worker_setComparison (c : Comparison) : (s.setComparison c).worker = s.worker := by
  simp [State.worker]

@[simp] theorem State.worker_setCB (v : Word) : (s.setCB v).worker = s.worker := s.worker_setComparison _

@[simp] theorem State.worker_raise (c : Cause) : (s.raise c).worker = s.worker := by
  cases c <;> simp [State.worker, causeBit]

/-- `SetCB(v)` is a comparison with zero. -/
theorem State.setCB_eq (v : Word) : s.setCB v = s.setComparison (compareSigned v 0) := rfl

@[simp] theorem State.stBit_setCB (v : Word) (j : Nat) :
    (s.setCB v).stBit j =
      if j = 10 then decide (compareSigned v 0 = .greater) else if j = 11 then decide (compareSigned v 0 = .equal)
      else if j = 12 then decide (compareSigned v 0 = .less) else s.stBit j := s.stBit_setComparison _ _

@[simp] theorem State.worker_setAddFlags (a b : Word) : (s.setAddFlags a b).worker = s.worker := by
  simp [State.setAddFlags]

@[simp] theorem State.worker_setSubFlags (a b : Word) : (s.setSubFlags a b).worker = s.worker := by
  simp [State.setSubFlags]

end Sys2Proof.Machine
end

