-- ==== Sys2Proof/Laws/Memory.lean ====
section
/-! SUPPORT. Laws of the sparse stores: reading after writing, and that every operation keeps the canonical form. -/

namespace Sys2Proof.Machine

/-! ## Bytes and words -/

theorem Memory.byte_nil (a : Nat) : Memory.byte [] a = 0 := rfl

theorem Memory.byte_cons (k : Nat) (v : Byte) (m : Memory) (a : Nat) :
    Memory.byte ((k, v) :: m) a = if k = a then v else Memory.byte m a := rfl

theorem Memory.byte_erase (m : Memory) (a b : Nat) :
    Memory.byte (m.filter fun c => c.1 != a) b = if b = a then 0 else m.byte b := by
  induction m with
  | nil => simp [Memory.byte]
  | cons c m ih =>
    obtain ⟨k, v⟩ := c
    by_cases hk : k = a
    · subst hk
      simp only [List.filter_cons, bne_self_eq_false, Bool.false_eq_true, if_false, ih, Memory.byte_cons]
      by_cases hb : b = k
      · simp [hb]
      · simp [hb, Ne.symm hb]
    · have : (k != a) = true := by simpa using hk
      simp only [List.filter_cons, this, if_true, Memory.byte_cons, ih]
      by_cases hb : k = b
      · subst hb; simp [hk]
      · simp [hb]

theorem Memory.byte_insertCell (m : Memory) (a b : Nat) (v : Byte) (h : ∀ c ∈ m, c.1 ≠ a) :
    (m.insertCell a v).byte b = if b = a then v else m.byte b := by
  induction m with
  | nil => simp only [Memory.insertCell, Memory.byte_cons, Memory.byte_nil, eq_comm]
  | cons c m ih =>
    obtain ⟨k, w⟩ := c
    have hk : k ≠ a := h (k, w) (by simp)
    have ih' := ih fun c hc => h c (by simp [hc])
    simp only [Memory.insertCell]
    split
    · simp only [Memory.byte_cons, ih']
      by_cases hb : k = b
      · subst hb; simp [hk]
      · simp [hb]
    · simp only [Memory.byte_cons, eq_comm]

/-- Reading any byte after storing one. -/
theorem Memory.byte_putByte (m : Memory) (a b : Nat) (v : Byte) :
    (m.putByte a v).byte b = if b = a then v else m.byte b := by
  simp only [Memory.putByte]
  split
  · next h => rw [Memory.byte_erase, h]
  · rw [Memory.byte_insertCell _ _ _ _ (by simp), Memory.byte_erase]
    split <;> rfl

/-- A word is its two bytes. -/
theorem word_of_bytes (v : Word) : v.extractLsb' 8 8 ++ v.extractLsb' 0 8 = v := by
  apply BitVec.eq_of_getLsbD_eq
  intro i hi
  simp only [BitVec.getLsbD_append, BitVec.getLsbD_extractLsb']
  by_cases h : i < 8
  · simp [h]
  · simp [h, show i - 8 < 8 by omega, show 8 + (i - 8) = i by omega]

/-- A double word is its two words. -/
theorem dword_of_words (v : DWord) : v.extractLsb' 16 16 ++ v.extractLsb' 0 16 = v := by
  apply BitVec.eq_of_getLsbD_eq
  intro i hi
  simp only [BitVec.getLsbD_append, BitVec.getLsbD_extractLsb']
  by_cases h : i < 16
  · simp [h]
  · simp [h, show i - 16 < 16 by omega, show 16 + (i - 16) = i by omega]

/-- Reading any word after storing one. -/
theorem Memory.word_putWord (m : Memory) (a b v : Word) :
    (m.putWord a v).word b = if b = a then v else m.word b := by
  simp only [Memory.word, Memory.putWord, Memory.byte_putByte]
  by_cases h : b = a
  · subst h
    simp [word_of_bytes]
  · have : b.toNat ≠ a.toNat := fun e => h (BitVec.eq_of_toNat_eq e)
    rw [if_neg h, if_neg (by omega), if_neg (by omega), if_neg (by omega), if_neg (by omega)]

/-- Reading a byte outside the two bytes of the word stored. -/
theorem Memory.byte_putWord_of_ne (m : Memory) (a v : Word) (n : Nat) (h : n / 2 ≠ a.toNat) :
    (m.putWord a v).byte n = m.byte n := by
  simp only [Memory.putWord, Memory.byte_putByte]
  rw [if_neg (by omega), if_neg (by omega)]

/-! ## The canonical form -/

theorem risingFrom_mono {α : Type} {lo lo' : Nat} {l : List (Nat × α)} (h : risingFrom lo l = true) (hl : lo' ≤ lo) :
    risingFrom lo' l = true := by
  cases l with
  | nil => rfl
  | cons c l =>
    obtain ⟨k, v⟩ := c
    simp only [risingFrom, Bool.and_eq_true, decide_eq_true_eq] at h ⊢
    exact ⟨by omega, h.2⟩

theorem risingFrom_filter {α : Type} (p : Nat × α → Bool) {lo : Nat} {l : List (Nat × α)}
    (h : risingFrom lo l = true) : risingFrom lo (l.filter p) = true := by
  induction l generalizing lo with
  | nil => rfl
  | cons c l ih =>
    obtain ⟨k, v⟩ := c
    simp only [risingFrom, Bool.and_eq_true, decide_eq_true_eq] at h
    simp only [List.filter_cons]
    split
    · simp only [risingFrom, Bool.and_eq_true, decide_eq_true_eq]
      exact ⟨h.1, ih h.2⟩
    · exact risingFrom_mono (ih h.2) (by omega)

theorem Memory.rising_insertCell (m : Memory) (a : Nat) (v : Byte) (lo : Nat) (h : risingFrom lo m = true)
    (ha : ∀ c ∈ m, c.1 ≠ a) (hl : lo ≤ a) : risingFrom lo (m.insertCell a v) = true := by
  induction m generalizing lo with
  | nil => simp [Memory.insertCell, risingFrom, hl]
  | cons c m ih =>
    obtain ⟨k, w⟩ := c
    have hk : k ≠ a := ha (k, w) (by simp)
    simp only [risingFrom, Bool.and_eq_true, decide_eq_true_eq] at h
    simp only [Memory.insertCell]
    split
    · simp only [risingFrom, Bool.and_eq_true, decide_eq_true_eq]
      exact ⟨h.1, ih _ h.2 (fun c hc => ha c (by simp [hc])) (by omega)⟩
    · simp only [risingFrom, Bool.and_eq_true, decide_eq_true_eq]
      exact ⟨hl, by omega, h.2⟩

theorem Memory.mem_insertCell (m : Memory) (a : Nat) (v : Byte) (c : Host.Cell) (h : c ∈ m.insertCell a v) :
    c = (a, v) ∨ c ∈ m := by
  induction m with
  | nil => simp_all [Memory.insertCell]
  | cons d m ih =>
    obtain ⟨k, w⟩ := d
    simp only [Memory.insertCell] at h
    split at h
    · simp only [List.mem_cons] at h ⊢
      rcases h with h | h
      · exact .inr (.inl h)
      · rcases ih h with h | h
        · exact .inl h
        · exact .inr (.inr h)
    · simpa using h

theorem Memory.wf_iff (m : Memory) : m.wf = true ↔ risingFrom 0 m = true ∧ ∀ c ∈ m, c.2 ≠ 0 := by
  simp [Memory.wf]

/-- A cell of the memory after a byte is stored is the new one or an old one. -/
theorem Memory.mem_putByte (m : Memory) (a : Nat) (v : Byte) (c : Host.Cell) (h : c ∈ m.putByte a v) :
    c = (a, v) ∨ c ∈ m := by
  simp only [Memory.putByte] at h
  split at h
  · exact .inr (List.mem_filter.1 h).1
  · rcases Memory.mem_insertCell _ _ _ _ h with h | h
    · exact .inl h
    · exact .inr (List.mem_filter.1 h).1

/-- Storing a byte keeps the canonical form. -/
theorem Memory.putByte_wf (m : Memory) (a : Nat) (v : Byte) (h : m.wf = true) : (m.putByte a v).wf = true := by
  rw [Memory.wf_iff] at h ⊢
  refine ⟨?_, fun c hc => ?_⟩
  · simp only [Memory.putByte]
    split
    · exact risingFrom_filter _ h.1
    · exact Memory.rising_insertCell _ _ _ _ (risingFrom_filter _ h.1) (by simp) (by omega)
  · by_cases hv : v = 0
    · simp only [Memory.putByte, hv, if_true] at hc
      exact h.2 c (List.mem_filter.1 hc).1
    · rcases Memory.mem_putByte _ _ _ _ hc with rfl | hc
      · exact hv
      · exact h.2 c hc

/-- Storing a word keeps the canonical form. -/
theorem Memory.putWord_wf (m : Memory) (a v : Word) (h : m.wf = true) : (m.putWord a v).wf = true :=
  Memory.putByte_wf _ _ _ (Memory.putByte_wf _ _ _ h)

/-- A cell of the memory after a word is stored is one of its two bytes or an old one. -/
theorem Memory.mem_putWord (m : Memory) (a v : Word) (c : Host.Cell) (h : c ∈ m.putWord a v) :
    c.1 / 2 = a.toNat ∨ c ∈ m := by
  rcases Memory.mem_putByte _ _ _ _ h with rfl | h
  · left; simp only; omega
  · rcases Memory.mem_putByte _ _ _ _ h with rfl | h
    · left; simp only; omega
    · exact .inr h

/-! ## Words whose check fails -/

theorem BadWords.find_heal (l : BadWords) (a b : Nat) : (l.heal a).find b = if b = a then none else l.find b := by
  induction l with
  | nil => simp [BadWords.heal, BadWords.find]
  | cons c l ih =>
    obtain ⟨k, v⟩ := c
    simp only [BadWords.heal] at ih ⊢
    by_cases hk : k = a
    · subst hk
      simp only [List.filter_cons, bne_self_eq_false, Bool.false_eq_true, if_false, ih, BadWords.find]
      by_cases hb : b = k
      · simp [hb]
      · simp [hb, Ne.symm hb]
    · have : (k != a) = true := by simpa using hk
      simp only [List.filter_cons, this, if_true, BadWords.find, ih]
      by_cases hb : k = b
      · subst hb; simp [hk]
      · simp [hb]

theorem BadWords.find_put (l : BadWords) (a b : Nat) (v : Word) :
    (l.put a v).find b = if b = a then some v else l.find b := by
  induction l with
  | nil => simp only [BadWords.put, BadWords.find, eq_comm]
  | cons c l ih =>
    obtain ⟨k, w⟩ := c
    simp only [BadWords.put]
    split
    · simp only [BadWords.find, ih]
      by_cases hb : k = b
      · subst hb; simp [show k ≠ a by omega]
      · simp [hb]
    · split
      · next h => subst h; simp only [BadWords.find, eq_comm]; split <;> simp_all
      · simp only [BadWords.find, eq_comm]

theorem BadWords.rising_heal {lo : Nat} {l : BadWords} (a : Nat) (h : risingFrom lo l = true) :
    risingFrom lo (l.heal a) = true := risingFrom_filter _ h

theorem BadWords.mem_heal {l : BadWords} {a : Nat} {c : Nat × Word} (h : c ∈ l.heal a) : c ∈ l :=
  (List.mem_filter.1 h).1

theorem BadWords.rising_put (l : BadWords) (a : Nat) (v : Word) (lo : Nat) (h : risingFrom lo l = true)
    (hl : lo ≤ a) : risingFrom lo (l.put a v) = true := by
  induction l generalizing lo with
  | nil => simp [BadWords.put, risingFrom, hl]
  | cons c l ih =>
    obtain ⟨k, w⟩ := c
    simp only [risingFrom, Bool.and_eq_true, decide_eq_true_eq] at h
    simp only [BadWords.put]
    split
    · simp only [risingFrom, Bool.and_eq_true, decide_eq_true_eq]
      exact ⟨h.1, ih _ h.2 (by omega)⟩
    · split
      · next h' => subst h'; simp only [risingFrom, Bool.and_eq_true, decide_eq_true_eq]; exact ⟨hl, h.2⟩
      · simp only [risingFrom, Bool.and_eq_true, decide_eq_true_eq]
        exact ⟨hl, by omega, h.2⟩

theorem BadWords.mem_put {l : BadWords} {a : Nat} {v : Word} {c : Nat × Word} (h : c ∈ l.put a v) :
    c = (a, v) ∨ c ∈ l := by
  induction l with
  | nil => simp_all [BadWords.put]
  | cons d l ih =>
    obtain ⟨k, w⟩ := d
    simp only [BadWords.put] at h
    split at h
    · simp only [List.mem_cons] at h ⊢
      rcases h with h | h
      · exact .inr (.inl h)
      · rcases ih h with h | h
        · exact .inl h
        · exact .inr (.inr h)
    · split at h
      · simp only [List.mem_cons] at h ⊢
        rcases h with h | h
        · exact .inl h
        · exact .inr (.inr h)
      · simpa using h

/-! ## CRU lines -/

theorem LineSet.contains_insert (l : LineSet) (a b : Nat) :
    (LineSet.insert l a).contains b = (b == a || l.contains b) := by
  induction l with
  | nil => rw [LineSet.insert, List.contains_cons, List.contains_nil, Bool.or_false]
  | cons k l ih =>
    simp only [LineSet.insert]
    split
    · rw [List.contains_cons, ih, List.contains_cons]
      cases b == k <;> cases b == a <;> simp
    · split
      · next h => subst h; rw [List.contains_cons]; cases b == k <;> simp
      · rw [List.contains_cons]

/-- Reading any line after setting one. -/
theorem LineSet.level_set (l : LineSet) (a b : Line) (v : Bool) :
    (l.set a v).level b = if b = a then v else l.level b := by
  have hab : (b.toNat = a.toNat) ↔ b = a := ⟨BitVec.eq_of_toNat_eq, fun h => by rw [h]⟩
  simp only [LineSet.set, LineSet.level]
  split
  · next hv =>
    rw [LineSet.contains_insert]
    by_cases h : b = a
    · simp [h, hv]
    · have : (b.toNat == a.toNat) = false := by simpa [hab] using h
      simp [h, this]
  · next hv =>
    have hv : v = false := by simpa using hv
    by_cases h : b = a
    · subst h; simp [hv]
    · simp [h, hab]

theorem LineSet.rising_mono {lo lo' : Nat} {l : LineSet} (h : LineSet.risingFrom lo l = true) (hl : lo' ≤ lo) :
    LineSet.risingFrom lo' l = true := by
  cases l with
  | nil => rfl
  | cons k l =>
    simp only [LineSet.risingFrom, Bool.and_eq_true, decide_eq_true_eq] at h ⊢
    exact ⟨⟨by omega, h.1.2⟩, h.2⟩

theorem LineSet.rising_filter (p : Nat → Bool) {lo : Nat} {l : LineSet} (h : LineSet.risingFrom lo l = true) :
    LineSet.risingFrom lo (l.filter p) = true := by
  induction l generalizing lo with
  | nil => rfl
  | cons k l ih =>
    simp only [LineSet.risingFrom, Bool.and_eq_true, decide_eq_true_eq] at h
    simp only [List.filter_cons]
    split
    · simp only [LineSet.risingFrom, Bool.and_eq_true, decide_eq_true_eq]
      exact ⟨h.1, ih h.2⟩
    · exact LineSet.rising_mono (ih h.2) (by omega)

theorem LineSet.rising_insert (l : LineSet) (a lo : Nat) (h : LineSet.risingFrom lo l = true) (hl : lo ≤ a)
    (ha : a < 4096) : LineSet.risingFrom lo (LineSet.insert l a) = true := by
  induction l generalizing lo with
  | nil => simp [LineSet.insert, LineSet.risingFrom, hl, ha]
  | cons k l ih =>
    simp only [LineSet.risingFrom, Bool.and_eq_true, decide_eq_true_eq] at h
    simp only [LineSet.insert]
    split
    · simp only [LineSet.risingFrom, Bool.and_eq_true, decide_eq_true_eq]
      exact ⟨h.1, ih _ h.2 (by omega)⟩
    · split
      · simp only [LineSet.risingFrom, Bool.and_eq_true, decide_eq_true_eq]
        exact ⟨⟨h.1.1, h.1.2⟩, h.2⟩
      · simp only [LineSet.risingFrom, Bool.and_eq_true, decide_eq_true_eq]
        exact ⟨⟨hl, ha⟩, ⟨by omega, h.1.2⟩, h.2⟩

/-- Setting a line keeps the canonical form. -/
theorem LineSet.set_rising (l : LineSet) (a : Line) (v : Bool) (h : LineSet.risingFrom 0 l = true) :
    LineSet.risingFrom 0 (l.set a v) = true := by
  simp only [LineSet.set]
  split
  · exact LineSet.rising_insert _ _ _ h (by omega) (by have := a.isLt; omega)
  · exact LineSet.rising_filter _ h

theorem LineSet.ofList_rising (l : List Line) : LineSet.risingFrom 0 (LineSet.ofList l) = true := by
  induction l with
  | nil => rfl
  | cons a l ih =>
    have : LineSet.ofList (a :: l) = (LineSet.ofList l).set a true := rfl
    rw [this]
    exact LineSet.set_rising _ _ _ ih

end Sys2Proof.Machine
end

