-- ==== Sys2Proof/Laws/Ops.lean ====
section
/-! SUPPORT. What each shared operation does, said once: registers, counters, memory reads and writes, the effective
address, and the continuation forms. -/

namespace Sys2Proof.Machine

variable (s : State)

/-! ## The views of a state that an update leaves alone -/

@[simp] theorem State.readable_setFile (i : BitVec 4) (v : Word) (a1 : Word) : (s.setFile i v).readable a1 = s.readable a1 := by
  unfold State.readable State.installed; rw [State.setFile_config]
@[simp] theorem State.refusesWrite_setFile (i : BitVec 4) (v : Word) (a1 : Word) : (s.setFile i v).refusesWrite a1 = s.refusesWrite a1 := by simp [State.refusesWrite]
@[simp] theorem State.badRead_setFile (i : BitVec 4) (v : Word) (a1 : Word) : (s.setFile i v).badRead a1 = s.badRead a1 := by simp [State.badRead]
@[simp] theorem State.counter_setFile (i : BitVec 4) (v : Word) (w1 : Bool) : (s.setFile i v).counter w1 = s.counter w1 := by simp [State.counter]
@[simp] theorem State.stBit_setFile (i : BitVec 4) (v : Word) (j : Nat) : (s.setFile i v).stBit j = s.stBit j := by simp [State.stBit]
@[simp] theorem State.inputLine_setFile (i : BitVec 4) (v : Word) (l : Line) : (s.setFile i v).inputLine l = s.inputLine l := by simp [State.inputLine]
@[simp] theorem State.worker_setFile (i : BitVec 4) (v : Word) : (s.setFile i v).worker = s.worker := by simp [State.worker, State.stBit]

@[simp] theorem State.file_setStBit (i : Nat) (v : Bool) (i1 : BitVec 4) : (s.setStBit i v).file i1 = s.file i1 := by simp [State.file]
@[simp] theorem State.modeReg_setStBit (i : Nat) (v : Bool) (w1 : Bool) (r1 : RegNum) : (s.setStBit i v).modeReg w1 r1 = s.modeReg w1 r1 := by simp [State.modeReg, State.file]
@[simp] theorem State.readable_setStBit (i : Nat) (v : Bool) (a1 : Word) : (s.setStBit i v).readable a1 = s.readable a1 := by
  unfold State.readable State.installed; rw [State.setStBit_config]
@[simp] theorem State.refusesWrite_setStBit (i : Nat) (v : Bool) (a1 : Word) : (s.setStBit i v).refusesWrite a1 = s.refusesWrite a1 := by simp [State.refusesWrite]
@[simp] theorem State.badRead_setStBit (i : Nat) (v : Bool) (a1 : Word) : (s.setStBit i v).badRead a1 = s.badRead a1 := by simp [State.badRead]
@[simp] theorem State.peek_setStBit (i : Nat) (v : Bool) (a1 : Word) : (s.setStBit i v).peek a1 = s.peek a1 := by simp [State.peek, State.file]
@[simp] theorem State.counter_setStBit (i : Nat) (v : Bool) (w1 : Bool) : (s.setStBit i v).counter w1 = s.counter w1 := by simp [State.counter]
@[simp] theorem State.inputLine_setStBit (i : Nat) (v : Bool) (l : Line) : (s.setStBit i v).inputLine l = s.inputLine l := by simp [State.inputLine]

@[simp] theorem State.file_setComparison (c : Comparison) (i1 : BitVec 4) : (s.setComparison c).file i1 = s.file i1 := by simp [State.file]
@[simp] theorem State.modeReg_setComparison (c : Comparison) (w1 : Bool) (r1 : RegNum) : (s.setComparison c).modeReg w1 r1 = s.modeReg w1 r1 := by simp [State.modeReg, State.file]
@[simp] theorem State.readable_setComparison (c : Comparison) (a1 : Word) : (s.setComparison c).readable a1 = s.readable a1 := by
  unfold State.readable State.installed; rw [State.setComparison_config]
@[simp] theorem State.refusesWrite_setComparison (c : Comparison) (a1 : Word) : (s.setComparison c).refusesWrite a1 = s.refusesWrite a1 := by simp [State.refusesWrite]
@[simp] theorem State.badRead_setComparison (c : Comparison) (a1 : Word) : (s.setComparison c).badRead a1 = s.badRead a1 := by simp [State.badRead]
@[simp] theorem State.peek_setComparison (c : Comparison) (a1 : Word) : (s.setComparison c).peek a1 = s.peek a1 := by simp [State.peek, State.file]
@[simp] theorem State.counter_setComparison (c : Comparison) (w1 : Bool) : (s.setComparison c).counter w1 = s.counter w1 := by simp [State.counter]
@[simp] theorem State.inputLine_setComparison (c : Comparison) (l : Line) : (s.setComparison c).inputLine l = s.inputLine l := by simp [State.inputLine]

@[simp] theorem State.file_setWorker (v : Bool) (i1 : BitVec 4) : (s.setWorker v).file i1 = s.file i1 := by simp [State.file]
@[simp] theorem State.modeReg_setWorker (v : Bool) (w1 : Bool) (r1 : RegNum) : (s.setWorker v).modeReg w1 r1 = s.modeReg w1 r1 := by simp [State.modeReg, State.file]
@[simp] theorem State.readable_setWorker (v : Bool) (a1 : Word) : (s.setWorker v).readable a1 = s.readable a1 := by
  unfold State.readable State.installed; rw [State.setWorker_config]
@[simp] theorem State.refusesWrite_setWorker (v : Bool) (a1 : Word) : (s.setWorker v).refusesWrite a1 = s.refusesWrite a1 := by simp [State.refusesWrite]
@[simp] theorem State.badRead_setWorker (v : Bool) (a1 : Word) : (s.setWorker v).badRead a1 = s.badRead a1 := by simp [State.badRead]
@[simp] theorem State.peek_setWorker (v : Bool) (a1 : Word) : (s.setWorker v).peek a1 = s.peek a1 := by simp [State.peek, State.file]
@[simp] theorem State.counter_setWorker (v : Bool) (w1 : Bool) : (s.setWorker v).counter w1 = s.counter w1 := by simp [State.counter]
@[simp] theorem State.inputLine_setWorker (v : Bool) (l : Line) : (s.setWorker v).inputLine l = s.inputLine l := by simp [State.inputLine]

@[simp] theorem State.file_setOI (v : Bool) (i1 : BitVec 4) : (s.setOI v).file i1 = s.file i1 := by simp [State.file]
@[simp] theorem State.modeReg_setOI (v : Bool) (w1 : Bool) (r1 : RegNum) : (s.setOI v).modeReg w1 r1 = s.modeReg w1 r1 := by simp [State.modeReg, State.file]
@[simp] theorem State.readable_setOI (v : Bool) (a1 : Word) : (s.setOI v).readable a1 = s.readable a1 := by
  unfold State.readable State.installed; rw [State.setOI_config]
@[simp] theorem State.refusesWrite_setOI (v : Bool) (a1 : Word) : (s.setOI v).refusesWrite a1 = s.refusesWrite a1 := by simp [State.refusesWrite]
@[simp] theorem State.badRead_setOI (v : Bool) (a1 : Word) : (s.setOI v).badRead a1 = s.badRead a1 := by simp [State.badRead]
@[simp] theorem State.peek_setOI (v : Bool) (a1 : Word) : (s.setOI v).peek a1 = s.peek a1 := by simp [State.peek, State.file]
@[simp] theorem State.counter_setOI (v : Bool) (w1 : Bool) : (s.setOI v).counter w1 = s.counter w1 := by simp [State.counter]
@[simp] theorem State.inputLine_setOI (v : Bool) (l : Line) : (s.setOI v).inputLine l = s.inputLine l := by simp [State.inputLine]

@[simp] theorem State.file_setCO (v : Bool) (i1 : BitVec 4) : (s.setCO v).file i1 = s.file i1 := by simp [State.file]
@[simp] theorem State.modeReg_setCO (v : Bool) (w1 : Bool) (r1 : RegNum) : (s.setCO v).modeReg w1 r1 = s.modeReg w1 r1 := by simp [State.modeReg, State.file]
@[simp] theorem State.readable_setCO (v : Bool) (a1 : Word) : (s.setCO v).readable a1 = s.readable a1 := by
  unfold State.readable State.installed; rw [State.setCO_config]
@[simp] theorem State.refusesWrite_setCO (v : Bool) (a1 : Word) : (s.setCO v).refusesWrite a1 = s.refusesWrite a1 := by simp [State.refusesWrite]
@[simp] theorem State.badRead_setCO (v : Bool) (a1 : Word) : (s.setCO v).badRead a1 = s.badRead a1 := by simp [State.badRead]
@[simp] theorem State.peek_setCO (v : Bool) (a1 : Word) : (s.setCO v).peek a1 = s.peek a1 := by simp [State.peek, State.file]
@[simp] theorem State.counter_setCO (v : Bool) (w1 : Bool) : (s.setCO v).counter w1 = s.counter w1 := by simp [State.counter]
@[simp] theorem State.inputLine_setCO (v : Bool) (l : Line) : (s.setCO v).inputLine l = s.inputLine l := by simp [State.inputLine]

@[simp] theorem State.file_setCB (v : Word) (i1 : BitVec 4) : (s.setCB v).file i1 = s.file i1 := by simp [State.file]
@[simp] theorem State.modeReg_setCB (v : Word) (w1 : Bool) (r1 : RegNum) : (s.setCB v).modeReg w1 r1 = s.modeReg w1 r1 := by simp [State.modeReg, State.file]
@[simp] theorem State.readable_setCB (v : Word) (a1 : Word) : (s.setCB v).readable a1 = s.readable a1 := by
  unfold State.readable State.installed; rw [State.setCB_config]
@[simp] theorem State.refusesWrite_setCB (v : Word) (a1 : Word) : (s.setCB v).refusesWrite a1 = s.refusesWrite a1 := by simp [State.refusesWrite]
@[simp] theorem State.badRead_setCB (v : Word) (a1 : Word) : (s.setCB v).badRead a1 = s.badRead a1 := by simp [State.badRead]
@[simp] theorem State.peek_setCB (v : Word) (a1 : Word) : (s.setCB v).peek a1 = s.peek a1 := by simp [State.peek, State.file]
@[simp] theorem State.counter_setCB (v : Word) (w1 : Bool) : (s.setCB v).counter w1 = s.counter w1 := by simp [State.counter]
@[simp] theorem State.inputLine_setCB (v : Word) (l : Line) : (s.setCB v).inputLine l = s.inputLine l := by simp [State.inputLine]

@[simp] theorem State.file_setAddFlags (a b : Word) (i1 : BitVec 4) : (s.setAddFlags a b).file i1 = s.file i1 := by simp [State.file]
@[simp] theorem State.modeReg_setAddFlags (a b : Word) (w1 : Bool) (r1 : RegNum) : (s.setAddFlags a b).modeReg w1 r1 = s.modeReg w1 r1 := by simp [State.modeReg, State.file]
@[simp] theorem State.readable_setAddFlags (a b : Word) (a1 : Word) : (s.setAddFlags a b).readable a1 = s.readable a1 := by
  unfold State.readable State.installed; rw [State.setAddFlags_config]
@[simp] theorem State.refusesWrite_setAddFlags (a b : Word) (a1 : Word) : (s.setAddFlags a b).refusesWrite a1 = s.refusesWrite a1 := by simp [State.refusesWrite]
@[simp] theorem State.badRead_setAddFlags (a b : Word) (a1 : Word) : (s.setAddFlags a b).badRead a1 = s.badRead a1 := by simp [State.badRead]
@[simp] theorem State.peek_setAddFlags (a b : Word) (a1 : Word) : (s.setAddFlags a b).peek a1 = s.peek a1 := by simp [State.peek, State.file]
@[simp] theorem State.counter_setAddFlags (a b : Word) (w1 : Bool) : (s.setAddFlags a b).counter w1 = s.counter w1 := by simp [State.counter]
@[simp] theorem State.inputLine_setAddFlags (a b : Word) (l : Line) : (s.setAddFlags a b).inputLine l = s.inputLine l := by simp [State.inputLine]

@[simp] theorem State.file_setSubFlags (a b : Word) (i1 : BitVec 4) : (s.setSubFlags a b).file i1 = s.file i1 := by simp [State.file]
@[simp] theorem State.modeReg_setSubFlags (a b : Word) (w1 : Bool) (r1 : RegNum) : (s.setSubFlags a b).modeReg w1 r1 = s.modeReg w1 r1 := by simp [State.modeReg, State.file]
@[simp] theorem State.readable_setSubFlags (a b : Word) (a1 : Word) : (s.setSubFlags a b).readable a1 = s.readable a1 := by
  unfold State.readable State.installed; rw [State.setSubFlags_config]
@[simp] theorem State.refusesWrite_setSubFlags (a b : Word) (a1 : Word) : (s.setSubFlags a b).refusesWrite a1 = s.refusesWrite a1 := by simp [State.refusesWrite]
@[simp] theorem State.badRead_setSubFlags (a b : Word) (a1 : Word) : (s.setSubFlags a b).badRead a1 = s.badRead a1 := by simp [State.badRead]
@[simp] theorem State.peek_setSubFlags (a b : Word) (a1 : Word) : (s.setSubFlags a b).peek a1 = s.peek a1 := by simp [State.peek, State.file]
@[simp] theorem State.counter_setSubFlags (a b : Word) (w1 : Bool) : (s.setSubFlags a b).counter w1 = s.counter w1 := by simp [State.counter]
@[simp] theorem State.inputLine_setSubFlags (a b : Word) (l : Line) : (s.setSubFlags a b).inputLine l = s.inputLine l := by simp [State.inputLine]

@[simp] theorem State.file_toggleMode (i1 : BitVec 4) : (s.toggleMode).file i1 = s.file i1 := by simp [State.file]
@[simp] theorem State.modeReg_toggleMode (w1 : Bool) (r1 : RegNum) : (s.toggleMode).modeReg w1 r1 = s.modeReg w1 r1 := by simp [State.modeReg, State.file]
@[simp] theorem State.readable_toggleMode (a1 : Word) : (s.toggleMode).readable a1 = s.readable a1 := by
  unfold State.readable State.installed; rw [State.toggleMode_config]
@[simp] theorem State.refusesWrite_toggleMode (a1 : Word) : (s.toggleMode).refusesWrite a1 = s.refusesWrite a1 := by simp [State.refusesWrite]
@[simp] theorem State.badRead_toggleMode (a1 : Word) : (s.toggleMode).badRead a1 = s.badRead a1 := by simp [State.badRead]
@[simp] theorem State.peek_toggleMode (a1 : Word) : (s.toggleMode).peek a1 = s.peek a1 := by simp [State.peek, State.file]
@[simp] theorem State.counter_toggleMode (w1 : Bool) : (s.toggleMode).counter w1 = s.counter w1 := by simp [State.counter]
@[simp] theorem State.inputLine_toggleMode (l : Line) : (s.toggleMode).inputLine l = s.inputLine l := by simp [State.inputLine]

@[simp] theorem State.readable_setX (r : RegNum) (v : Word) (a1 : Word) : (s.setX r v).readable a1 = s.readable a1 := by
  unfold State.readable State.installed; rw [State.setX_config]
@[simp] theorem State.refusesWrite_setX (r : RegNum) (v : Word) (a1 : Word) : (s.setX r v).refusesWrite a1 = s.refusesWrite a1 := by simp [State.refusesWrite]
@[simp] theorem State.badRead_setX (r : RegNum) (v : Word) (a1 : Word) : (s.setX r v).badRead a1 = s.badRead a1 := by simp [State.badRead]
@[simp] theorem State.counter_setX (r : RegNum) (v : Word) (w1 : Bool) : (s.setX r v).counter w1 = s.counter w1 := by simp [State.counter]
@[simp] theorem State.stBit_setX (r : RegNum) (v : Word) (j : Nat) : (s.setX r v).stBit j = s.stBit j := by simp [State.stBit]
@[simp] theorem State.inputLine_setX (r : RegNum) (v : Word) (l : Line) : (s.setX r v).inputLine l = s.inputLine l := by simp [State.inputLine]
@[simp] theorem State.worker_setX (r : RegNum) (v : Word) : (s.setX r v).worker = s.worker := by simp [State.worker, State.stBit]

@[simp] theorem State.readable_setRef (g : RegRef) (v : Word) (a1 : Word) : (s.setRef g v).readable a1 = s.readable a1 := by
  unfold State.readable State.installed; rw [State.setRef_config]
@[simp] theorem State.refusesWrite_setRef (g : RegRef) (v : Word) (a1 : Word) : (s.setRef g v).refusesWrite a1 = s.refusesWrite a1 := by simp [State.refusesWrite]
@[simp] theorem State.badRead_setRef (g : RegRef) (v : Word) (a1 : Word) : (s.setRef g v).badRead a1 = s.badRead a1 := by simp [State.badRead]
@[simp] theorem State.counter_setRef (g : RegRef) (v : Word) (w1 : Bool) : (s.setRef g v).counter w1 = s.counter w1 := by simp [State.counter]
@[simp] theorem State.stBit_setRef (g : RegRef) (v : Word) (j : Nat) : (s.setRef g v).stBit j = s.stBit j := by simp [State.stBit]
@[simp] theorem State.inputLine_setRef (g : RegRef) (v : Word) (l : Line) : (s.setRef g v).inputLine l = s.inputLine l := by simp [State.inputLine]
@[simp] theorem State.worker_setRef (g : RegRef) (v : Word) : (s.setRef g v).worker = s.worker := by simp [State.worker, State.stBit]

@[simp] theorem State.file_setCounter (w : Bool) (v : Word) (i1 : BitVec 4) : (s.setCounter w v).file i1 = s.file i1 := by simp [State.file]
@[simp] theorem State.modeReg_setCounter (w : Bool) (v : Word) (w1 : Bool) (r1 : RegNum) : (s.setCounter w v).modeReg w1 r1 = s.modeReg w1 r1 := by simp [State.modeReg, State.file]
@[simp] theorem State.readable_setCounter (w : Bool) (v : Word) (a1 : Word) : (s.setCounter w v).readable a1 = s.readable a1 := by
  unfold State.readable State.installed; rw [State.setCounter_config]
@[simp] theorem State.refusesWrite_setCounter (w : Bool) (v : Word) (a1 : Word) : (s.setCounter w v).refusesWrite a1 = s.refusesWrite a1 := by simp [State.refusesWrite]
@[simp] theorem State.badRead_setCounter (w : Bool) (v : Word) (a1 : Word) : (s.setCounter w v).badRead a1 = s.badRead a1 := by simp [State.badRead]
@[simp] theorem State.peek_setCounter (w : Bool) (v : Word) (a1 : Word) : (s.setCounter w v).peek a1 = s.peek a1 := by simp [State.peek, State.file]
@[simp] theorem State.stBit_setCounter (w : Bool) (v : Word) (j : Nat) : (s.setCounter w v).stBit j = s.stBit j := by simp [State.stBit]
@[simp] theorem State.inputLine_setCounter (w : Bool) (v : Word) (l : Line) : (s.setCounter w v).inputLine l = s.inputLine l := by simp [State.inputLine]
@[simp] theorem State.worker_setCounter (w : Bool) (v : Word) : (s.setCounter w v).worker = s.worker := by simp [State.worker, State.stBit]

@[simp] theorem State.file_setCtr (v : Word) (i1 : BitVec 4) : (s.setCtr v).file i1 = s.file i1 := by simp [State.file]
@[simp] theorem State.modeReg_setCtr (v : Word) (w1 : Bool) (r1 : RegNum) : (s.setCtr v).modeReg w1 r1 = s.modeReg w1 r1 := by simp [State.modeReg, State.file]
@[simp] theorem State.readable_setCtr (v : Word) (a1 : Word) : (s.setCtr v).readable a1 = s.readable a1 := by
  unfold State.readable State.installed; rw [State.setCtr_config]
@[simp] theorem State.refusesWrite_setCtr (v : Word) (a1 : Word) : (s.setCtr v).refusesWrite a1 = s.refusesWrite a1 := by simp [State.refusesWrite]
@[simp] theorem State.badRead_setCtr (v : Word) (a1 : Word) : (s.setCtr v).badRead a1 = s.badRead a1 := by simp [State.badRead]
@[simp] theorem State.peek_setCtr (v : Word) (a1 : Word) : (s.setCtr v).peek a1 = s.peek a1 := by simp [State.peek, State.file]
@[simp] theorem State.stBit_setCtr (v : Word) (j : Nat) : (s.setCtr v).stBit j = s.stBit j := by simp [State.stBit]
@[simp] theorem State.inputLine_setCtr (v : Word) (l : Line) : (s.setCtr v).inputLine l = s.inputLine l := by simp [State.inputLine]
@[simp] theorem State.worker_setCtr (v : Word) : (s.setCtr v).worker = s.worker := by simp [State.worker, State.stBit]

@[simp] theorem State.file_advance (i1 : BitVec 4) : (s.advance).file i1 = s.file i1 := by simp [State.file]
@[simp] theorem State.modeReg_advance (w1 : Bool) (r1 : RegNum) : (s.advance).modeReg w1 r1 = s.modeReg w1 r1 := by simp [State.modeReg, State.file]
@[simp] theorem State.readable_advance (a1 : Word) : (s.advance).readable a1 = s.readable a1 := by
  unfold State.readable State.installed; rw [State.advance_config]
@[simp] theorem State.refusesWrite_advance (a1 : Word) : (s.advance).refusesWrite a1 = s.refusesWrite a1 := by simp [State.refusesWrite]
@[simp] theorem State.badRead_advance (a1 : Word) : (s.advance).badRead a1 = s.badRead a1 := by simp [State.badRead]
@[simp] theorem State.peek_advance (a1 : Word) : (s.advance).peek a1 = s.peek a1 := by simp [State.peek, State.file]
@[simp] theorem State.stBit_advance (j : Nat) : (s.advance).stBit j = s.stBit j := by simp [State.stBit]
@[simp] theorem State.inputLine_advance (l : Line) : (s.advance).inputLine l = s.inputLine l := by simp [State.inputLine]
@[simp] theorem State.worker_advance : (s.advance).worker = s.worker := by simp [State.worker, State.stBit]

@[simp] theorem State.file_skip (k : Nat) (i1 : BitVec 4) : (s.skip k).file i1 = s.file i1 := by simp [State.file]
@[simp] theorem State.modeReg_skip (k : Nat) (w1 : Bool) (r1 : RegNum) : (s.skip k).modeReg w1 r1 = s.modeReg w1 r1 := by simp [State.modeReg, State.file]
@[simp] theorem State.readable_skip (k : Nat) (a1 : Word) : (s.skip k).readable a1 = s.readable a1 := by
  unfold State.readable State.installed; rw [State.skip_config]
@[simp] theorem State.refusesWrite_skip (k : Nat) (a1 : Word) : (s.skip k).refusesWrite a1 = s.refusesWrite a1 := by simp [State.refusesWrite]
@[simp] theorem State.badRead_skip (k : Nat) (a1 : Word) : (s.skip k).badRead a1 = s.badRead a1 := by simp [State.badRead]
@[simp] theorem State.peek_skip (k : Nat) (a1 : Word) : (s.skip k).peek a1 = s.peek a1 := by simp [State.peek, State.file]
@[simp] theorem State.stBit_skip (k : Nat) (j : Nat) : (s.skip k).stBit j = s.stBit j := by simp [State.stBit]
@[simp] theorem State.inputLine_skip (k : Nat) (l : Line) : (s.skip k).inputLine l = s.inputLine l := by simp [State.inputLine]
@[simp] theorem State.worker_skip (k : Nat) : (s.skip k).worker = s.worker := by simp [State.worker, State.stBit]

@[simp] theorem State.file_raise (c : Cause) (i1 : BitVec 4) : (s.raise c).file i1 = s.file i1 := by simp [State.file]
@[simp] theorem State.modeReg_raise (c : Cause) (w1 : Bool) (r1 : RegNum) : (s.raise c).modeReg w1 r1 = s.modeReg w1 r1 := by simp [State.modeReg, State.file]
@[simp] theorem State.readable_raise (c : Cause) (a1 : Word) : (s.raise c).readable a1 = s.readable a1 := by
  unfold State.readable State.installed; rw [State.raise_config]
@[simp] theorem State.refusesWrite_raise (c : Cause) (a1 : Word) : (s.raise c).refusesWrite a1 = s.refusesWrite a1 := by simp [State.refusesWrite]
@[simp] theorem State.badRead_raise (c : Cause) (a1 : Word) : (s.raise c).badRead a1 = s.badRead a1 := by simp [State.badRead]
@[simp] theorem State.peek_raise (c : Cause) (a1 : Word) : (s.raise c).peek a1 = s.peek a1 := by simp [State.peek, State.file]
@[simp] theorem State.counter_raise (c : Cause) (w1 : Bool) : (s.raise c).counter w1 = s.counter w1 := by simp [State.counter]
@[simp] theorem State.inputLine_raise (c : Cause) (l : Line) : (s.raise c).inputLine l = s.inputLine l := by simp [State.inputLine]

@[simp] theorem State.file_memoryError (i1 : BitVec 4) : (s.memoryError).file i1 = s.file i1 := by simp [State.file]
@[simp] theorem State.modeReg_memoryError (w1 : Bool) (r1 : RegNum) : (s.memoryError).modeReg w1 r1 = s.modeReg w1 r1 := by simp [State.modeReg, State.file]
@[simp] theorem State.readable_memoryError (a1 : Word) : (s.memoryError).readable a1 = s.readable a1 := by
  unfold State.readable State.installed; rw [State.memoryError_config]
@[simp] theorem State.refusesWrite_memoryError (a1 : Word) : (s.memoryError).refusesWrite a1 = s.refusesWrite a1 := by simp [State.refusesWrite]
@[simp] theorem State.badRead_memoryError (a1 : Word) : (s.memoryError).badRead a1 = s.badRead a1 := by simp [State.badRead]
@[simp] theorem State.peek_memoryError (a1 : Word) : (s.memoryError).peek a1 = s.peek a1 := by simp [State.peek, State.file]
@[simp] theorem State.counter_memoryError (w1 : Bool) : (s.memoryError).counter w1 = s.counter w1 := by simp [State.counter]
@[simp] theorem State.inputLine_memoryError (l : Line) : (s.memoryError).inputLine l = s.inputLine l := by simp [State.inputLine]

@[simp] theorem State.file_noteRead (a : Word) (i1 : BitVec 4) : (s.noteRead a).file i1 = s.file i1 := by simp [State.file]
@[simp] theorem State.modeReg_noteRead (a : Word) (w1 : Bool) (r1 : RegNum) : (s.noteRead a).modeReg w1 r1 = s.modeReg w1 r1 := by simp [State.modeReg, State.file]
@[simp] theorem State.readable_noteRead (a : Word) (a1 : Word) : (s.noteRead a).readable a1 = s.readable a1 := by
  unfold State.readable State.installed; rw [State.noteRead_config]
@[simp] theorem State.refusesWrite_noteRead (a : Word) (a1 : Word) : (s.noteRead a).refusesWrite a1 = s.refusesWrite a1 := by simp [State.refusesWrite]
@[simp] theorem State.badRead_noteRead (a : Word) (a1 : Word) : (s.noteRead a).badRead a1 = s.badRead a1 := by simp [State.badRead]
@[simp] theorem State.peek_noteRead (a : Word) (a1 : Word) : (s.noteRead a).peek a1 = s.peek a1 := by simp [State.peek, State.file]
@[simp] theorem State.counter_noteRead (a : Word) (w1 : Bool) : (s.noteRead a).counter w1 = s.counter w1 := by simp [State.counter]
@[simp] theorem State.inputLine_noteRead (a : Word) (l : Line) : (s.noteRead a).inputLine l = s.inputLine l := by simp [State.inputLine]

@[simp] theorem State.file_noteRead2 (a : Word) (i1 : BitVec 4) : (s.noteRead2 a).file i1 = s.file i1 := by simp [State.file]
@[simp] theorem State.modeReg_noteRead2 (a : Word) (w1 : Bool) (r1 : RegNum) : (s.noteRead2 a).modeReg w1 r1 = s.modeReg w1 r1 := by simp [State.modeReg, State.file]
@[simp] theorem State.readable_noteRead2 (a : Word) (a1 : Word) : (s.noteRead2 a).readable a1 = s.readable a1 := by
  unfold State.readable State.installed; rw [State.noteRead2_config]
@[simp] theorem State.refusesWrite_noteRead2 (a : Word) (a1 : Word) : (s.noteRead2 a).refusesWrite a1 = s.refusesWrite a1 := by simp [State.refusesWrite]
@[simp] theorem State.badRead_noteRead2 (a : Word) (a1 : Word) : (s.noteRead2 a).badRead a1 = s.badRead a1 := by simp [State.badRead]
@[simp] theorem State.peek_noteRead2 (a : Word) (a1 : Word) : (s.noteRead2 a).peek a1 = s.peek a1 := by simp [State.peek, State.file]
@[simp] theorem State.counter_noteRead2 (a : Word) (w1 : Bool) : (s.noteRead2 a).counter w1 = s.counter w1 := by simp [State.counter]
@[simp] theorem State.inputLine_noteRead2 (a : Word) (l : Line) : (s.noteRead2 a).inputLine l = s.inputLine l := by simp [State.inputLine]

@[simp] theorem State.readable_poke (a v : Word) (a1 : Word) : (s.poke a v).readable a1 = s.readable a1 := by
  unfold State.readable State.installed; rw [State.poke_config]
@[simp] theorem State.refusesWrite_poke (a v : Word) (a1 : Word) : (s.poke a v).refusesWrite a1 = s.refusesWrite a1 := by simp [State.refusesWrite]
@[simp] theorem State.counter_poke (a v : Word) (w1 : Bool) : (s.poke a v).counter w1 = s.counter w1 := by simp [State.counter]
@[simp] theorem State.stBit_poke (a v : Word) (j : Nat) : (s.poke a v).stBit j = s.stBit j := by simp [State.stBit]
@[simp] theorem State.inputLine_poke (a v : Word) (l : Line) : (s.poke a v).inputLine l = s.inputLine l := by simp [State.inputLine]
@[simp] theorem State.worker_poke (a v : Word) : (s.poke a v).worker = s.worker := by simp [State.worker, State.stBit]

@[simp] theorem State.readable_write (a v : Word) (a1 : Word) : (s.write a v).readable a1 = s.readable a1 := by
  unfold State.readable State.installed; rw [State.write_config]
@[simp] theorem State.refusesWrite_write (a v : Word) (a1 : Word) : (s.write a v).refusesWrite a1 = s.refusesWrite a1 := by simp [State.refusesWrite]
@[simp] theorem State.counter_write (a v : Word) (w1 : Bool) : (s.write a v).counter w1 = s.counter w1 := by simp [State.counter]
@[simp] theorem State.inputLine_write (a v : Word) (l : Line) : (s.write a v).inputLine l = s.inputLine l := by simp [State.inputLine]

@[simp] theorem State.readable_dmacPut (a v : Word) (a1 : Word) : (s.dmacPut a v).readable a1 = s.readable a1 := by
  unfold State.readable State.installed; rw [State.dmacPut_config]
@[simp] theorem State.refusesWrite_dmacPut (a v : Word) (a1 : Word) : (s.dmacPut a v).refusesWrite a1 = s.refusesWrite a1 := by simp [State.refusesWrite]
@[simp] theorem State.counter_dmacPut (a v : Word) (w1 : Bool) : (s.dmacPut a v).counter w1 = s.counter w1 := by simp [State.counter]
@[simp] theorem State.stBit_dmacPut (a v : Word) (j : Nat) : (s.dmacPut a v).stBit j = s.stBit j := by simp [State.stBit]
@[simp] theorem State.inputLine_dmacPut (a v : Word) (l : Line) : (s.dmacPut a v).inputLine l = s.inputLine l := by simp [State.inputLine]
@[simp] theorem State.worker_dmacPut (a v : Word) : (s.dmacPut a v).worker = s.worker := by simp [State.worker, State.stBit]

@[simp] theorem State.readable_dmacPuts (ps : List (Word × Word)) (a1 : Word) : (s.dmacPuts ps).readable a1 = s.readable a1 := by
  unfold State.readable State.installed; rw [State.dmacPuts_config]
@[simp] theorem State.refusesWrite_dmacPuts (ps : List (Word × Word)) (a1 : Word) : (s.dmacPuts ps).refusesWrite a1 = s.refusesWrite a1 := by simp [State.refusesWrite]
@[simp] theorem State.counter_dmacPuts (ps : List (Word × Word)) (w1 : Bool) : (s.dmacPuts ps).counter w1 = s.counter w1 := by simp [State.counter]
@[simp] theorem State.stBit_dmacPuts (ps : List (Word × Word)) (j : Nat) : (s.dmacPuts ps).stBit j = s.stBit j := by simp [State.stBit]
@[simp] theorem State.inputLine_dmacPuts (ps : List (Word × Word)) (l : Line) : (s.dmacPuts ps).inputLine l = s.inputLine l := by simp [State.inputLine]
@[simp] theorem State.worker_dmacPuts (ps : List (Word × Word)) : (s.dmacPuts ps).worker = s.worker := by simp [State.worker, State.stBit]

@[simp] theorem State.readable_grant (a1 : Word) : (s.grant).readable a1 = s.readable a1 := by
  unfold State.readable State.installed; rw [State.grant_config]
@[simp] theorem State.refusesWrite_grant (a1 : Word) : (s.grant).refusesWrite a1 = s.refusesWrite a1 := by simp [State.refusesWrite]
@[simp] theorem State.counter_grant (w1 : Bool) : (s.grant).counter w1 = s.counter w1 := by simp [State.counter]
@[simp] theorem State.stBit_grant (j : Nat) : (s.grant).stBit j = s.stBit j := by simp [State.stBit]
@[simp] theorem State.inputLine_grant (l : Line) : (s.grant).inputLine l = s.inputLine l := by simp [State.inputLine]
@[simp] theorem State.worker_grant : (s.grant).worker = s.worker := by simp [State.worker, State.stBit]

@[simp] theorem State.file_withDuring (d : List MemoryCycle) (i1 : BitVec 4) : (s.withDuring d).file i1 = s.file i1 := by simp [State.file]
@[simp] theorem State.modeReg_withDuring (d : List MemoryCycle) (w1 : Bool) (r1 : RegNum) : (s.withDuring d).modeReg w1 r1 = s.modeReg w1 r1 := by simp [State.modeReg, State.file]
@[simp] theorem State.readable_withDuring (d : List MemoryCycle) (a1 : Word) : (s.withDuring d).readable a1 = s.readable a1 := by
  unfold State.readable State.installed; rw [State.withDuring_config]
@[simp] theorem State.refusesWrite_withDuring (d : List MemoryCycle) (a1 : Word) : (s.withDuring d).refusesWrite a1 = s.refusesWrite a1 := by simp [State.refusesWrite]
@[simp] theorem State.badRead_withDuring (d : List MemoryCycle) (a1 : Word) : (s.withDuring d).badRead a1 = s.badRead a1 := by simp [State.badRead]
@[simp] theorem State.peek_withDuring (d : List MemoryCycle) (a1 : Word) : (s.withDuring d).peek a1 = s.peek a1 := by simp [State.peek, State.file]
@[simp] theorem State.counter_withDuring (d : List MemoryCycle) (w1 : Bool) : (s.withDuring d).counter w1 = s.counter w1 := by simp [State.counter]
@[simp] theorem State.stBit_withDuring (d : List MemoryCycle) (j : Nat) : (s.withDuring d).stBit j = s.stBit j := by simp [State.stBit]
@[simp] theorem State.inputLine_withDuring (d : List MemoryCycle) (l : Line) : (s.withDuring d).inputLine l = s.inputLine l := by simp [State.inputLine]
@[simp] theorem State.worker_withDuring (d : List MemoryCycle) : (s.withDuring d).worker = s.worker := by simp [State.worker, State.stBit]

@[simp] theorem State.readable_store (a v : Word) (a1 : Word) : (s.store a v).readable a1 = s.readable a1 := by
  unfold State.readable State.installed; rw [State.store_config]
@[simp] theorem State.refusesWrite_store (a v : Word) (a1 : Word) : (s.store a v).refusesWrite a1 = s.refusesWrite a1 := by simp [State.refusesWrite]
@[simp] theorem State.counter_store (a v : Word) (w1 : Bool) : (s.store a v).counter w1 = s.counter w1 := by simp [State.counter]
@[simp] theorem State.inputLine_store (a v : Word) (l : Line) : (s.store a v).inputLine l = s.inputLine l := by simp [State.inputLine]

@[simp] theorem State.readable_store2 (a : Word) (v : DWord) (a1 : Word) : (s.store2 a v).readable a1 = s.readable a1 := by
  unfold State.readable State.installed; rw [State.store2_config]
@[simp] theorem State.refusesWrite_store2 (a : Word) (v : DWord) (a1 : Word) : (s.store2 a v).refusesWrite a1 = s.refusesWrite a1 := by simp [State.refusesWrite]
@[simp] theorem State.counter_store2 (a : Word) (v : DWord) (w1 : Bool) : (s.store2 a v).counter w1 = s.counter w1 := by simp [State.counter]
@[simp] theorem State.inputLine_store2 (a : Word) (v : DWord) (l : Line) : (s.store2 a v).inputLine l = s.inputLine l := by simp [State.inputLine]

@[simp] theorem State.readable_afterRead (a : Word) (a1 : Word) : (s.afterRead a).readable a1 = s.readable a1 := by
  unfold State.readable State.installed; rw [State.afterRead_config]
@[simp] theorem State.refusesWrite_afterRead (a : Word) (a1 : Word) : (s.afterRead a).refusesWrite a1 = s.refusesWrite a1 := by simp [State.refusesWrite]
@[simp] theorem State.counter_afterRead (a : Word) (w1 : Bool) : (s.afterRead a).counter w1 = s.counter w1 := by simp [State.counter]
@[simp] theorem State.inputLine_afterRead (a : Word) (l : Line) : (s.afterRead a).inputLine l = s.inputLine l := by simp [State.inputLine]

@[simp] theorem State.readable_afterEA (o : Address) (p : Bool) (a1 : Word) : (s.afterEA o p).readable a1 = s.readable a1 := by
  unfold State.readable State.installed; rw [State.afterEA_config]
@[simp] theorem State.refusesWrite_afterEA (o : Address) (p : Bool) (a1 : Word) : (s.afterEA o p).refusesWrite a1 = s.refusesWrite a1 := by simp [State.refusesWrite]
@[simp] theorem State.counter_afterEA (o : Address) (p : Bool) (w1 : Bool) : (s.afterEA o p).counter w1 = s.counter w1 := by simp [State.counter]
@[simp] theorem State.inputLine_afterEA (o : Address) (p : Bool) (l : Line) : (s.afterEA o p).inputLine l = s.inputLine l := by simp [State.inputLine]

@[simp] theorem State.readable_afterEO (o : Address) (p : Bool) (a1 : Word) : (s.afterEO o p).readable a1 = s.readable a1 := by
  unfold State.readable State.installed; rw [State.afterEO_config]
@[simp] theorem State.refusesWrite_afterEO (o : Address) (p : Bool) (a1 : Word) : (s.afterEO o p).refusesWrite a1 = s.refusesWrite a1 := by simp [State.refusesWrite]
@[simp] theorem State.counter_afterEO (o : Address) (p : Bool) (w1 : Bool) : (s.afterEO o p).counter w1 = s.counter w1 := by simp [State.counter]
@[simp] theorem State.inputLine_afterEO (o : Address) (p : Bool) (l : Line) : (s.afterEO o p).inputLine l = s.inputLine l := by simp [State.inputLine]

@[simp] theorem State.file_outputLine (a : Line) (v : Bool) (i1 : BitVec 4) : (s.outputLine a v).file i1 = s.file i1 := by simp [State.file]
@[simp] theorem State.modeReg_outputLine (a : Line) (v : Bool) (w1 : Bool) (r1 : RegNum) : (s.outputLine a v).modeReg w1 r1 = s.modeReg w1 r1 := by simp [State.modeReg, State.file]
@[simp] theorem State.readable_outputLine (a : Line) (v : Bool) (a1 : Word) : (s.outputLine a v).readable a1 = s.readable a1 := by
  unfold State.readable State.installed; rw [State.outputLine_config]
@[simp] theorem State.refusesWrite_outputLine (a : Line) (v : Bool) (a1 : Word) : (s.outputLine a v).refusesWrite a1 = s.refusesWrite a1 := by simp [State.refusesWrite]
@[simp] theorem State.badRead_outputLine (a : Line) (v : Bool) (a1 : Word) : (s.outputLine a v).badRead a1 = s.badRead a1 := by simp [State.badRead]
@[simp] theorem State.peek_outputLine (a : Line) (v : Bool) (a1 : Word) : (s.outputLine a v).peek a1 = s.peek a1 := by simp [State.peek, State.file]
@[simp] theorem State.counter_outputLine (a : Line) (v : Bool) (w1 : Bool) : (s.outputLine a v).counter w1 = s.counter w1 := by simp [State.counter]
@[simp] theorem State.stBit_outputLine (a : Line) (v : Bool) (j : Nat) : (s.outputLine a v).stBit j = s.stBit j := by simp [State.stBit]
@[simp] theorem State.inputLine_outputLine (a : Line) (v : Bool) (l : Line) : (s.outputLine a v).inputLine l = s.inputLine l := by simp [State.inputLine]
@[simp] theorem State.worker_outputLine (a : Line) (v : Bool) : (s.outputLine a v).worker = s.worker := by simp [State.worker, State.stBit]

@[simp] theorem State.file_transfer (w : Bool) (i1 : BitVec 4) : (s.transfer w).file i1 = s.file i1 := by simp [State.file]
@[simp] theorem State.modeReg_transfer (w : Bool) (w1 : Bool) (r1 : RegNum) : (s.transfer w).modeReg w1 r1 = s.modeReg w1 r1 := by simp [State.modeReg, State.file]
@[simp] theorem State.readable_transfer (w : Bool) (a1 : Word) : (s.transfer w).readable a1 = s.readable a1 := by
  unfold State.readable State.installed; rw [State.transfer_config]
@[simp] theorem State.refusesWrite_transfer (w : Bool) (a1 : Word) : (s.transfer w).refusesWrite a1 = s.refusesWrite a1 := by simp [State.refusesWrite]
@[simp] theorem State.badRead_transfer (w : Bool) (a1 : Word) : (s.transfer w).badRead a1 = s.badRead a1 := by simp [State.badRead]
@[simp] theorem State.peek_transfer (w : Bool) (a1 : Word) : (s.transfer w).peek a1 = s.peek a1 := by simp [State.peek, State.file]
@[simp] theorem State.inputLine_transfer (w : Bool) (l : Line) : (s.transfer w).inputLine l = s.inputLine l := by simp [State.inputLine]


/-! ## Registers and counters -/

@[simp] theorem State.file_setFile (i j : BitVec 4) (v : Word) :
    (s.setFile i v).file j = if j = i then v else s.file j := by
  have h : (i.toNat = j.toNat) ↔ (j = i) := ⟨fun h => (BitVec.eq_of_toNat_eq h).symm, fun h => by rw [h]⟩
  simp only [State.file, State.setFile, Vector.getElem_set, h]

@[simp] theorem State.counter_setCounter (w b : Bool) (v : Word) :
    (s.setCounter w v).counter b = if b = w then v else s.counter b := by
  cases w <;> cases b <;> rfl

@[simp] theorem State.counter_setCtr (b : Bool) (v : Word) :
    (s.setCtr v).counter b = if b = s.worker then v else s.counter b := s.counter_setCounter _ _ _

@[simp] theorem State.counter_advance (b : Bool) :
    s.advance.counter b = if b = s.worker then s.next else s.counter b := s.counter_setCtr _ _

@[simp] theorem State.counter_skip (k : Nat) (b : Bool) :
    (s.skip k).counter b = if b = s.worker then s.next + BitVec.ofNat 16 (2 * k) else s.counter b :=
  s.counter_setCtr _ _

/-- An overlay address names one entry, and the address of entry i names entry i. -/
theorem registerAt_add (i : BitVec 4) : isRegister (0x80#16 + i.setWidth 16) = true ∧ registerAt (0x80#16 + i.setWidth 16) = i := by
  revert i; decide

theorem isRegister_iff (a : Word) : isRegister a = true ↔ a = 0x80#16 + (registerAt a).setWidth 16 := by
  constructor
  · intro h
    simp only [isRegister, decide_eq_true_eq] at h
    apply BitVec.eq_of_toNat_eq
    simp only [registerAt, BitVec.toNat_add, BitVec.toNat_setWidth, BitVec.toNat_ofNat]
    omega
  · intro h
    rw [h]
    exact (registerAt_add _).1

/-! ## Reading and writing memory -/

@[simp] theorem State.isRegister_refAddress (g : RegRef) : isRegister (s.refAddress g) = true :=
  (registerAt_add _).1

@[simp] theorem State.registerAt_refAddress (g : RegRef) : registerAt (s.refAddress g) = s.refIndex g :=
  (registerAt_add _).2

/-- Registers and the status areas are never protected (20_memory R70). -/
theorem refusesWrite_overlay (a : Word) (h : isRegister a = true) : s.refusesWrite a = false := by
  simp only [isRegister, decide_eq_true_eq] at h
  simp only [State.refusesWrite, protectedBy, Bool.and_eq_false_imp, decide_eq_true_eq]
  intro hp
  omega

theorem readable_of_register (a : Word) (h : isRegister a = true) : s.readable a = true := by
  simp [State.readable, h]

/-- Reading any address after a register is written. -/
@[simp] theorem State.peek_setFile (i : BitVec 4) (v a : Word) :
    (s.setFile i v).peek a = if a = 0x80#16 + i.setWidth 16 then v else s.peek a := by
  by_cases h : isRegister a = true
  · have hiff : registerAt a = i ↔ a = 0x80#16 + i.setWidth 16 :=
      ⟨fun e => by rw [← e]; exact (isRegister_iff a).1 h, fun e => by rw [e]; exact (registerAt_add i).2⟩
    simp only [State.peek, h, if_true, State.file_setFile, hiff]
  · have hne : a ≠ 0x80#16 + i.setWidth 16 := fun e => h (by rw [e]; exact (registerAt_add i).1)
    rw [if_neg hne]
    simp [State.peek, h]

/-- Reading any address after an unchecked write. -/
theorem State.peek_poke (a v b : Word) :
    (s.poke a v).peek b = if b = a ∧ s.readable a = true then v else s.peek b := by
  unfold State.poke
  by_cases hr : isRegister a = true
  · rw [if_pos hr, State.peek_setFile]
    simp only [readable_of_register s a hr, and_true]
    rw [← (isRegister_iff a).1 hr]
  · rw [if_neg hr]
    by_cases hi : s.installed a = true
    · have hread : s.readable a = true := by simp [State.readable, hi]
      simp only [hi, if_true, hread, and_true]
      by_cases hb : b = a
      · subst hb
        simp [State.peek, hr, BadWords.find_heal, Memory.word_putWord]
      · have hn : b.toNat ≠ a.toNat := fun e => hb (BitVec.eq_of_toNat_eq e)
        simp [State.peek, State.file, BadWords.find_heal, Memory.word_putWord, hb, hn]
    · have hread : s.readable a = false := by simp [State.readable, hi, hr]
      simp [hi, hread]

theorem State.badRead_poke (a v b : Word) :
    (s.poke a v).badRead b = if b = a ∧ s.readable a = true then false else s.badRead b := by
  unfold State.poke
  by_cases hr : isRegister a = true
  · rw [if_pos hr]
    simp only [State.badRead_setFile, readable_of_register s a hr, and_true]
    split
    · next h => subst h; simp [State.badRead, hr]
    · rfl
  · rw [if_neg hr]
    by_cases hi : s.installed a = true
    · have hread : s.readable a = true := by simp [State.readable, hi]
      simp only [hi, if_true, hread, and_true, State.badRead, BadWords.find_heal]
      by_cases hb : b = a
      · subst hb; simp
      · have hn : b.toNat ≠ a.toNat := fun e => hb (BitVec.eq_of_toNat_eq e)
        simp [hb, hn]
    · have hread : s.readable a = false := by simp [State.readable, hi, hr]
      simp [hi, hread]

/-- Any memory byte outside the word stored is unchanged; a write to a register changes no byte. -/
theorem State.byte_poke (a v : Word) (n : Nat) (h : isRegister a = true ∨ n / 2 ≠ a.toNat) :
    (s.poke a v).mem.byte n = s.mem.byte n := by
  unfold State.poke
  by_cases hr : isRegister a = true
  · rw [if_pos hr]; rfl
  · rw [if_neg hr]
    split
    · exact Memory.byte_putWord_of_ne _ _ _ _ (h.resolve_left hr)
    · rfl

/-- What a CPU write does: refused, it raises MV; else it stores. -/
theorem State.write_cases (a v : Word) :
    (s.refusesWrite a = true ∧ s.write a v = s.raise .mv) ∨ (s.refusesWrite a = false ∧ s.write a v = s.poke a v) := by
  unfold State.write
  cases h : s.refusesWrite a <;> simp

/-- Reading any address after a CPU write. -/
theorem State.peek_write (a v b : Word) :
    (s.write a v).peek b = if b = a ∧ s.readable a = true ∧ s.refusesWrite a = false then v else s.peek b := by
  rcases s.write_cases a v with ⟨h, e⟩ | ⟨h, e⟩
  · simp [e, h]
  · rw [e, State.peek_poke]; simp [h]

theorem State.badRead_write (a v b : Word) :
    (s.write a v).badRead b =
      if b = a ∧ s.readable a = true ∧ s.refusesWrite a = false then false else s.badRead b := by
  rcases s.write_cases a v with ⟨h, e⟩ | ⟨h, e⟩
  · simp [e, h]
  · rw [e, State.badRead_poke]; simp [h]

theorem State.byte_write (a v : Word) (n : Nat) (h : isRegister a = true ∨ n / 2 ≠ a.toNat) :
    (s.write a v).mem.byte n = s.mem.byte n := by
  rcases s.write_cases a v with ⟨_, e⟩ | ⟨_, e⟩
  · rw [e]; rfl
  · rw [e, State.byte_poke s a v n h]

@[simp] theorem State.pendInternal_write (a v : Word) :
    (s.write a v).pendInternal = (s.pendInternal || s.refusesWrite a) := by
  rcases s.write_cases a v with ⟨h, e⟩ | ⟨h, e⟩ <;> simp [e, h]

@[simp] theorem State.stBit_write (a v : Word) (j : Nat) :
    (s.write a v).stBit j = if j = 5 then (s.stBit 5 || s.refusesWrite a) else s.stBit j := by
  rcases s.write_cases a v with ⟨h, e⟩ | ⟨h, e⟩
  · rw [e]; by_cases hj : j = 5 <;> simp [h, hj, causeBit]
  · rw [e]; by_cases hj : j = 5 <;> simp [h, hj]

@[simp] theorem State.worker_write (a v : Word) : (s.write a v).worker = s.worker := by simp [State.worker]

@[simp] theorem State.stBit_memoryError (j : Nat) :
    s.memoryError.stBit j = if j = 2 then true else s.stBit j := s.stBit_raise .mp j

@[simp] theorem State.stBit_noteRead (a : Word) (j : Nat) :
    (s.noteRead a).stBit j = if j = 2 then (s.stBit 2 || s.badRead a) else s.stBit j := by
  unfold State.noteRead
  cases h : s.badRead a
  · by_cases hj : j = 2 <;> simp [hj]
  · simp

@[simp] theorem State.worker_noteRead (a : Word) : (s.noteRead a).worker = s.worker := by simp [State.worker]

@[simp] theorem State.pendInternal_noteRead (a : Word) :
    (s.noteRead a).pendInternal = (s.pendInternal || s.badRead a) := by
  unfold State.noteRead
  cases h : s.badRead a <;> simp [State.memoryError]

@[simp] theorem State.errorLatch_noteRead (a : Word) :
    (s.noteRead a).errorLatch = (s.errorLatch || s.badRead a && decide (s.config.model = .m960B)) := by
  unfold State.noteRead
  cases h : s.badRead a <;> simp [State.memoryError]

/-! ## The CPU's turn at memory -/

/-- With no other agent at memory, the CPU's turn changes nothing. -/
@[simp] theorem State.grant_quiet (h : s.during = []) : s.grant = s := by
  have e : s.cycle.dmac = [] := by simp [State.cycle, h]
  have ht : s.during.tail = s.during := by rw [h]; rfl
  rw [State.grant, e, ht, State.dmacPuts]

@[simp] theorem State.during_withDuring (d : List MemoryCycle) : (s.withDuring d).during = d := rfl

@[simp] theorem State.during_grant : s.grant.during = s.during.tail := rfl

theorem State.cycleError_quiet (a : Word) (h : s.during = []) : s.cycleError a = none := by
  simp [State.cycleError, State.cycle, h]

/-- Then a read delivers the word as it stands, -/
theorem State.readWord_quiet (a : Word) (h : s.during = []) : s.readWord a = s.peek a := by
  simp [State.readWord, s.cycleError_quiet a h, s.grant_quiet h]

/-- notes a failing check, -/
theorem State.afterRead_quiet (a : Word) (h : s.during = []) : s.afterRead a = s.noteRead a := by
  simp [State.afterRead, s.cycleError_quiet a h, s.grant_quiet h]

/-- and a store is a write. -/
theorem State.store_quiet (a v : Word) (h : s.during = []) : s.store a v = s.write a v := by
  rw [State.store, s.grant_quiet h]

theorem State.store2_quiet (a : Word) (v : DWord) (h : s.during = []) :
    s.store2 a v = (s.write a (v.extractLsb' 16 16)).write (a + 1#16) (v.extractLsb' 0 16) := by
  rw [State.store2, s.store_quiet _ _ h, State.store_quiet _ _ _ (by simp [h])]

/-- An access uses up one entry. -/
@[simp] theorem State.during_store (a v : Word) : (s.store a v).during = s.during.tail := by
  rw [State.store, State.write_during, State.during_grant]

@[simp] theorem State.during_afterRead (a : Word) : (s.afterRead a).during = s.during.tail := by
  unfold State.afterRead; split <;> simp

/-- The DMAC's turn and a read change no status bit but MP. -/
theorem State.stBit_afterRead (a : Word) (j : Nat) (h : j ≠ 2) : (s.afterRead a).stBit j = s.stBit j := by
  unfold State.afterRead; split <;> simp [h]

@[simp] theorem State.stBit_store (a v : Word) (j : Nat) :
    (s.store a v).stBit j = if j = 5 then (s.stBit 5 || s.refusesWrite a) else s.stBit j := by
  simp [State.store]

@[simp] theorem State.worker_afterRead (a : Word) : (s.afterRead a).worker = s.worker :=
  s.stBit_afterRead a 0 (by decide)

@[simp] theorem State.worker_store (a v : Word) : (s.store a v).worker = s.worker := by simp [State.worker]

@[simp] theorem State.worker_store2 (a : Word) (v : DWord) : (s.store2 a v).worker = s.worker := by
  simp [State.store2]

/-! ## The continuation forms -/

theorem withRead_of_readable (a : Word) (k : Word → State → Result) (h : s.readable a = true) :
    withRead s a k = k (s.readWord a) (s.afterRead a) := by simp [withRead, h]

theorem withRead_of_not_readable (a : Word) (k : Word → State → Result) (h : s.readable a = false) :
    withRead s a k = .fault (.uninstalledMemory a) := by simp [withRead, h]

/-- What a read can do: it delivers the word, or it faults. -/
theorem withRead_next {a : Word} {k : Word → State → Result} {t : State} (h : withRead s a k = .next t) :
    s.readable a = true ∧ k (s.readWord a) (s.afterRead a) = .next t := by
  unfold withRead at h
  cases hr : s.readable a <;> simp_all

/-- A double read, with no other agent at memory. -/
theorem withRead2_of_readable (a : Word) (k : DWord → State → Result) (hq : s.during = [])
    (h : s.readable2 a = true) : withRead2 s a k = k (s.peek2 a) (s.noteRead2 a) := by
  simp only [State.readable2, Bool.and_eq_true] at h
  have hn : (s.noteRead a).during = [] := by simp [hq]
  rw [withRead2, withRead_of_readable s a _ h.1, s.readWord_quiet a hq, s.afterRead_quiet a hq,
    withRead_of_readable _ _ _ (by simpa using h.2), State.readWord_quiet _ _ hn, State.afterRead_quiet _ _ hn,
    State.peek_noteRead]
  rfl

/-- What a double read can do. -/
theorem withRead2_next {a : Word} {k : DWord → State → Result} {t : State} (h : withRead2 s a k = .next t) :
    s.readable2 a = true
      ∧ k (s.readWord a ++ (s.afterRead a).readWord (a + 1#16)) ((s.afterRead a).afterRead (a + 1#16)) = .next t := by
  have h1 := withRead_next s h
  have h2 := withRead_next _ h1.2
  simp only [State.readable_afterRead] at h2
  exact ⟨by simp [State.readable2, h1.1, h2.1], h2.2⟩

theorem withEA_of_ok (o : Address) (p : Bool) (k : Word → State → Result) (h : s.eaOk o p = true) :
    withEA s o p k = k (s.ea o p) (s.afterEA o p) := by simp [withEA, h]

theorem withEA_next {o : Address} {p : Bool} {k : Word → State → Result} {t : State}
    (h : withEA s o p k = .next t) : s.eaOk o p = true ∧ k (s.ea o p) (s.afterEA o p) = .next t := by
  unfold withEA at h
  cases hr : s.eaOk o p <;> simp_all

theorem withEO_of_ok (o : Address) (p : Bool) (k : Word → State → Result) (h : s.eoOk o p = true) :
    withEO s o p k = k (s.eo o p) (s.afterEO o p) := by
  simp only [State.eoOk, Bool.and_eq_true] at h
  simp [withEO, withEA, withRead, h.1, h.2, State.eo, State.afterEO]

theorem withEO_next {o : Address} {p : Bool} {k : Word → State → Result} {t : State}
    (h : withEO s o p k = .next t) : s.eoOk o p = true ∧ k (s.eo o p) (s.afterEO o p) = .next t := by
  have h1 := withEA_next s h
  have h2 := withRead_next _ h1.2
  simp only [State.readable_afterEA] at h2
  refine ⟨by simp [State.eoOk, h1.1, h2.1], ?_⟩
  simpa [State.eo, State.afterEO] using h2.2

/-- The register is read once EA is computed, before the operand. -/
theorem withOperands_of_ok (g : RegRef) (o : Address) (k : Word → Word → State → Result) (h : s.eoOk o false = true) :
    withOperands s g o k = k ((s.afterEA o false).ref g) (s.eo o false) (s.afterEO o false) :=
  withEO_of_ok s o false (fun b t => k ((s.afterEA o false).ref g) b t) h

theorem withOperands_next {g : RegRef} {o : Address} {k : Word → Word → State → Result} {t : State}
    (h : withOperands s g o k = .next t) :
    s.eoOk o false = true ∧ k ((s.afterEA o false).ref g) (s.eo o false) (s.afterEO o false) = .next t :=
  withEO_next s (k := fun b t => k ((s.afterEA o false).ref g) b t) h

/-- The block is read, then the active counter and ST are loaded; register 5 is taken between the two reads. -/
theorem loadStatusBlock_of_readable (a : Word) (rq : Bool) (h : s.readable2 a = true) :
    loadStatusBlock s a rq =
      .next { ((s.afterRead a).afterRead (a + 1#16)).setCtr
          (s.readWord a + (s.afterRead a).bias (s.afterRead a).worker rq) with
        st := (s.afterRead a).readWord (a + 1#16) } := by
  simp only [State.readable2, Bool.and_eq_true] at h
  simp [loadStatusBlock, withRead, h.1, h.2]

theorem withArithOption_on (k : State → Result) (h : s.config.hasArithOption = true) :
    withArithOption s k = k s := by simp [withArithOption, h]

theorem withArithOption_off (k : State → Result) (h : s.config.hasArithOption = false) :
    withArithOption s k = .next s.undefinedCode := by simp [withArithOption, h]

/-! ## The effective address -/

@[simp] theorem State.ib_afterEA (o : Address) (p : Bool) : (s.afterEA o p).ib = s.ea o p := rfl

/-- With no other agent at memory, the four cases of the effective address. -/
theorem State.ea_quiet (o : Address) (p : Bool) (h : s.during = []) :
    s.ea o p =
      if o.ind then
        if s.postIndexed p then s.peek o.n + s.indexValue o else s.peek (o.n + s.indexValue o)
      else o.n + s.indexValue o := by
  unfold State.ea State.pointer
  cases o.ind <;> cases s.postIndexed p <;> simp [s.readWord_quiet _ h]

/-- Then the state after it, -/
theorem State.afterEA_quiet (o : Address) (p : Bool) (h : s.during = []) :
    s.afterEA o p = { (if o.ind then s.noteRead (s.pointer o p) else s) with ib := s.ea o p } := by
  unfold State.afterEA
  rw [s.afterRead_quiet _ h]

theorem State.during_afterEA_quiet (o : Address) (p : Bool) (h : s.during = []) : (s.afterEA o p).during = [] := by
  rw [s.afterEA_quiet o p h]; cases o.ind <;> simp [h]

theorem State.regs_afterEA_quiet (o : Address) (p : Bool) (h : s.during = []) : (s.afterEA o p).regs = s.regs := by
  rw [s.afterEA_quiet o p h]; cases o.ind <;> simp

theorem State.peek_afterEA_quiet (o : Address) (p : Bool) (a : Word) (h : s.during = []) :
    (s.afterEA o p).peek a = s.peek a := by
  rw [s.afterEA_quiet o p h]
  cases o.ind
  · rfl
  · exact State.peek_noteRead _ _ _

/-- the operand, -/
theorem State.eo_quiet (o : Address) (p : Bool) (h : s.during = []) : s.eo o p = s.peek (s.ea o p) := by
  rw [State.eo, State.readWord_quiet _ _ (s.during_afterEA_quiet o p h), s.peek_afterEA_quiet o p _ h]

/-- and the state after the operand is read. -/
theorem State.afterEO_quiet (o : Address) (p : Bool) (h : s.during = []) :
    s.afterEO o p = (s.afterEA o p).noteRead (s.ea o p) := by
  rw [State.afterEO, State.afterRead_quiet _ _ (s.during_afterEA_quiet o p h)]

/-- The computation changes no status bit but MP. -/
theorem State.stBit_afterEA (o : Address) (p : Bool) (j : Nat) (h : j ≠ 2) :
    (s.afterEA o p).stBit j = s.stBit j := by
  have e : (s.afterEA o p).stBit j = (if o.ind then s.afterRead (s.pointer o p) else s).stBit j := rfl
  rw [e]
  split
  · exact s.stBit_afterRead _ _ h
  · rfl

@[simp] theorem State.worker_afterEA (o : Address) (p : Bool) : (s.afterEA o p).worker = s.worker := by
  simp [State.worker, State.stBit_afterEA]

@[simp] theorem State.worker_afterEO (o : Address) (p : Bool) : (s.afterEO o p).worker = s.worker := by
  simp [State.afterEO]

/-! ## CRU output -/

/-- Reading an output latch after a line is set. -/
theorem State.cruOut_outputLine (a b : Line) (v : Bool) :
    (s.outputLine a v).cruOut.level b = if b = a then v else s.cruOut.level b := LineSet.level_set _ _ _ _

@[simp] theorem State.outbox_outputLine (a : Line) (v : Bool) :
    (s.outputLine a v).outbox = s.outbox ++ [.cru a v] := rfl

end Sys2Proof.Machine
end

