-- ==== Sys2Proof/Laws/Effects.lean ====
section
/-! SUPPORT. How the effects of an instruction are put together, one lemma per shared operation: a read adds an address
to `reads`, a store a word to `stores`, a flag a bit to `written`; the counters are free. -/

namespace Sys2Proof.Machine

/-- A write to a register's address is a write of the register. -/
theorem State.write_registerAddress (s : State) (i : BitVec 4) (v : Word) :
    s.write (0x80#16 + i.setWidth 16) v = s.setFile i v := by
  have h := registerAt_add i
  have hr : s.refusesWrite (0x80#16 + i.setWidth 16) = false := refusesWrite_overlay s _ h.1
  simp only [State.write, hr, State.poke, h.1, h.2, Bool.false_eq_true, if_false, if_true]

theorem State.write_refAddress (s : State) (g : RegRef) (v : Word) : s.write (s.refAddress g) v = s.setRef g v :=
  State.write_registerAddress _ _ _

variable {u t : State} {r : List Word} {st : List (Word × Word)} {w : List Nat}

theorem Effects.config_eq (h : Effects u t r st w) : t.config = u.config := by rw [h.rest]

theorem Effects.mpo_eq (h : Effects u t r st w) : t.mpo = u.mpo := by rw [h.rest]

theorem Effects.during_eq (h : Effects u t r st w) : t.during = u.during := by rw [h.rest]

theorem Effects.inLocation_eq (h : Effects u t r st w) : t.inLocation = u.inLocation := by rw [h.rest]

theorem Effects.readable_eq (h : Effects u t r st w) (a : Word) : t.readable a = u.readable a := by
  unfold State.readable State.installed; rw [h.config_eq]

theorem Effects.refusesWrite_eq (h : Effects u t r st w) (a : Word) : t.refusesWrite a = u.refusesWrite a := by
  unfold State.refusesWrite; rw [h.config_eq, h.mpo_eq]

theorem Effects.worker_eq (h : Effects u t r st w) (h0 : 0 ∉ w) : t.worker = u.worker :=
  h.status 0 (by omega) (by omega) (by omega) h0

/-- Nothing happened. -/
theorem Effects.refl (u : State) : Effects u u [] [] [] where
  stored := by simp
  kept := fun _ _ => rfl
  bytes := fun _ _ => rfl
  checks := fun _ _ => rfl
  parity := by simp
  violation := by simp
  request := by simp
  latch := by simp
  status := fun _ _ _ _ _ => rfl
  rest := rfl

/-- A read of a word not yet stored to. -/
theorem Effects.read (h : Effects u t r st w) (a : Word) (ha : ∀ p ∈ st, a ≠ p.1) :
    Effects u (t.noteRead a) (r ++ [a]) st w where
  stored := fun p hp => by rw [State.peek_noteRead]; exact h.stored p hp
  kept := fun b hb => by rw [State.peek_noteRead]; exact h.kept b hb
  bytes := fun n hn => by rw [State.noteRead_mem]; exact h.bytes n hn
  checks := fun b hb => by rw [State.badRead_noteRead]; exact h.checks b hb
  parity := by rw [State.stBit_noteRead, if_pos rfl, h.parity, h.checks a ha]; simp [Bool.or_assoc]
  violation := by rw [State.stBit_noteRead, if_neg (by decide), h.violation]
  request := by
    rw [State.pendInternal_noteRead, h.request, h.checks a ha]
    simp only [List.any_append, List.any_cons, List.any_nil, Bool.or_false]
    cases u.pendInternal <;> cases r.any u.badRead <;> cases u.badRead a <;> simp
  latch := by
    rw [State.errorLatch_noteRead, h.latch, h.checks a ha, h.config_eq]
    simp only [List.any_append, List.any_cons, List.any_nil, Bool.or_false]
    cases r.any u.badRead <;> cases u.badRead a <;> cases decide (u.config.model = .m960B) <;> simp
  status := fun i hi h2 h5 hw => by rw [State.stBit_noteRead, if_neg h2]; exact h.status i hi h2 h5 hw
  rest := by
    unfold State.noteRead
    split
    · have e := h.rest
      simp only [State.memoryError, State.raise, State.setStBit]
      rw [e]
    · exact h.rest

/-- A CPU store of a word not yet stored to. -/
theorem Effects.write (h : Effects u t r st w) (a v : Word) (ha : ∀ p ∈ st, a ≠ p.1) :
    Effects u (t.write a v) r (st ++ [(a, v)]) w where
  stored := by
    intro p hp
    rw [State.peek_write, h.readable_eq, h.refusesWrite_eq]
    rcases List.mem_append.1 hp with hp | hp
    · rw [if_neg fun e => ha p hp e.1.symm]
      exact h.stored p hp
    · obtain rfl : p = (a, v) := by simpa using hp
      simp only [true_and]
      split
      · rfl
      · exact h.kept a ha
  kept := by
    intro b hb
    have hba : b ≠ a := hb (a, v) (by simp)
    rw [State.peek_write, if_neg fun e => hba e.1]
    exact h.kept b fun p hp => hb p (by simp [hp])
  bytes := by
    intro n hn
    rw [State.byte_write t a v n (hn (a, v) (by simp))]
    exact h.bytes n fun p hp => hn p (by simp [hp])
  checks := by
    intro b hb
    have hba : b ≠ a := hb (a, v) (by simp)
    rw [State.badRead_write, if_neg fun e => hba e.1]
    exact h.checks b fun p hp => hb p (by simp [hp])
  parity := by rw [State.stBit_write, if_neg (by decide), h.parity]
  violation := by
    rw [State.stBit_write, if_pos rfl, h.violation, h.refusesWrite_eq]
    simp [Bool.or_assoc]
  request := by
    rw [State.pendInternal_write, h.request, h.refusesWrite_eq]
    simp [Bool.or_assoc]
  latch := by rw [State.write_errorLatch, h.latch]
  status := fun i hi h2 h5 hw => by rw [State.stBit_write, if_neg h5]; exact h.status i hi h2 h5 hw
  rest := by
    have e := h.rest
    rcases t.write_cases a v with ⟨_, e'⟩ | ⟨_, e'⟩
    · rw [e']
      simp only [State.raise, State.setStBit]
      rw [e]
    · rw [e']
      unfold State.poke
      split
      · simp only [State.setFile]; rw [e]
      · split
        · simp only; rw [e]
        · exact e

/-- A CPU store, with no other agent at memory. -/
theorem Effects.store (h : Effects u t r st w) (hq : u.during = []) (a v : Word) (ha : ∀ p ∈ st, a ≠ p.1) :
    Effects u (t.store a v) r (st ++ [(a, v)]) w := by
  rw [t.store_quiet a v (h.during_eq.trans hq)]
  exact h.write a v ha

/-- A write of a register, as a store at its address. -/
theorem Effects.setFile (h : Effects u t r st w) (i : BitVec 4) (v : Word)
    (ha : ∀ p ∈ st, 0x80#16 + i.setWidth 16 ≠ p.1) :
    Effects u (t.setFile i v) r (st ++ [(0x80#16 + i.setWidth 16, v)]) w := by
  rw [← State.write_registerAddress]
  exact h.write _ _ ha

/-- A second word of ST, which differs in a written bit only. -/
theorem Effects.setSt (h : Effects u t r st w) (v : Word) (w' : List Nat) (h2 : 2 ∉ w') (h5 : 5 ∉ w')
    (hv : ∀ i, i < 16 → i ∉ w' → v.getMsbD i = t.stBit i) : Effects u { t with st := v } r st (w' ++ w) where
  stored := fun p hp => h.stored p hp
  kept := fun b hb => h.kept b hb
  bytes := fun n hn => h.bytes n hn
  checks := fun b hb => h.checks b hb
  parity := (hv 2 (by omega) h2).trans h.parity
  violation := (hv 5 (by omega) h5).trans h.violation
  request := h.request
  latch := h.latch
  status := fun i hi h2 h5 hw => by
    simp only [List.mem_append, not_or] at hw
    exact (hv i hi hw.1).trans (h.status i hi h2 h5 hw.2)
  rest := by
    have e := h.rest
    simp only
    rw [e]

theorem Effects.setStBit (h : Effects u t r st w) (i : Nat) (v : Bool) (hi : i < 16) (h2 : i ≠ 2) (h5 : i ≠ 5) :
    Effects u (t.setStBit i v) r st ([i] ++ w) :=
  h.setSt _ [i] (by simp [Ne.symm h2]) (by simp [Ne.symm h5]) fun j _ hj => by
    have := t.stBit_setStBit i j v hi
    rw [if_neg (by simpa using hj)] at this
    exact this

theorem Effects.setOI (h : Effects u t r st w) (v : Bool) : Effects u (t.setOI v) r st ([1] ++ w) :=
  h.setStBit 1 v (by omega) (by omega) (by omega)

theorem Effects.setCO (h : Effects u t r st w) (v : Bool) : Effects u (t.setCO v) r st ([13] ++ w) :=
  h.setStBit 13 v (by omega) (by omega) (by omega)

theorem Effects.setWorker (h : Effects u t r st w) (v : Bool) : Effects u (t.setWorker v) r st ([0] ++ w) :=
  h.setStBit 0 v (by omega) (by omega) (by omega)

theorem Effects.setComparison (h : Effects u t r st w) (c : Comparison) :
    Effects u (t.setComparison c) r st ([10, 11, 12] ++ w) :=
  h.setSt _ [10, 11, 12] (by simp) (by simp) fun j _ hj => by
    simp only [List.mem_cons, List.not_mem_nil, or_false, not_or] at hj
    have := t.stBit_setComparison c j
    rw [if_neg hj.1, if_neg hj.2.1, if_neg hj.2.2] at this
    exact this

/-- Loading a counter. -/
theorem Effects.setCounter (h : Effects u t r st w) (b : Bool) (v : Word) : Effects u (t.setCounter b v) r st w where
  stored := fun p hp => by rw [State.peek_setCounter]; exact h.stored p hp
  kept := fun a ha => by rw [State.peek_setCounter]; exact h.kept a ha
  bytes := fun n hn => by rw [State.setCounter_mem]; exact h.bytes n hn
  checks := fun a ha => by rw [State.badRead_setCounter]; exact h.checks a ha
  parity := by rw [State.stBit_setCounter]; exact h.parity
  violation := by rw [State.stBit_setCounter]; exact h.violation
  request := by rw [State.setCounter_pendInternal]; exact h.request
  latch := by rw [State.setCounter_errorLatch]; exact h.latch
  status := fun i hi h2 h5 hw => by rw [State.stBit_setCounter]; exact h.status i hi h2 h5 hw
  rest := by
    have e := h.rest
    cases b
    · simp only [State.setCounter, Bool.false_eq_true, if_false]; rw [e]
    · simp only [State.setCounter, if_true]; rw [e]

theorem Effects.setCtr (h : Effects u t r st w) (v : Word) : Effects u (t.setCtr v) r st w := h.setCounter _ _

theorem Effects.advance (h : Effects u t r st w) : Effects u t.advance r st w := h.setCounter _ _

theorem Effects.skip (h : Effects u t r st w) (k : Nat) : Effects u (t.skip k) r st w := h.setCounter _ _

/-- The same effects with the reads, stores and written bits listed another way. -/
theorem Effects.congr (h : Effects u t r st w) {r' : List Word} {st' : List (Word × Word)} {w' : List Nat}
    (hr : ∀ a, a ∈ r ↔ a ∈ r') (hs : st = st') (hw : ∀ i ∈ w, i ∈ w') : Effects u t r' st' w' := by
  subst hs
  have hany : r'.any u.badRead = r.any u.badRead := by
    rw [Bool.eq_iff_iff]; simp [List.any_eq_true, hr]
  exact { h with
    parity := by rw [hany]; exact h.parity
    request := by rw [hany]; exact h.request
    latch := by rw [hany]; exact h.latch
    status := fun i hi h2 h5 hn => h.status i hi h2 h5 fun hc => hn (hw i hc) }

theorem State.noteRead_withIB (s : State) (v a : Word) : (s.withIB v).noteRead a = (s.noteRead a).withIB v := by
  have hb : (s.withIB v).badRead a = s.badRead a := rfl
  unfold State.noteRead
  rw [hb]
  cases s.badRead a <;> rfl

/-- The effective-address computation reads the indirect word, if there is one, and leaves EA in IB. -/
theorem Effects.afterEA (s : State) (o : Address) (p : Bool) (hq : s.during = []) :
    Effects (s.withIB (s.ea o p)) (s.afterEA o p) (s.eaReads o p) [] [] := by
  have h := Effects.refl (s.withIB (s.ea o p))
  unfold State.eaReads
  cases ho : o.ind
  · have e : s.afterEA o p = s.withIB (s.ea o p) := by simp [s.afterEA_quiet o p hq, State.withIB, ho]
    rw [e]
    exact h
  · have e : s.afterEA o p = (s.withIB (s.ea o p)).noteRead (s.pointer o p) := by
      rw [State.noteRead_withIB]
      simp [s.afterEA_quiet o p hq, State.withIB, ho]
    rw [e]
    exact h.read _ (by simp)

/-- And EO. -/
theorem Effects.afterEO (s : State) (o : Address) (p : Bool) (hq : s.during = []) :
    Effects (s.withIB (s.ea o p)) (s.afterEO o p) (s.eoReads o p) [] [] := by
  rw [s.afterEO_quiet o p hq]
  exact (Effects.afterEA s o p hq).read _ (by simp)

/-! ## How the shared ends of the instructions complete -/

/-- Writing CB from the comparison of two integers. -/
theorem comparesAs_setComparison (t : State) (x y : Int) : ComparesAs (t.setComparison (compareInt x y)) x y := by
  unfold ComparesAs compareInt
  rcases lt_trichotomy x y with h | h | h
  · simp [h, show ¬y < x by omega, show x ≠ y by omega]
  · subst h; simp
  · simp [h, show ¬x < y by omega, show x ≠ y by omega]

/-- CB does not depend on anything but its three bits. -/
theorem ComparesAs.of_bits {t t' : State} {x y : Int} (h : ComparesAs t x y)
    (e : ∀ j ∈ [10, 11, 12], t'.stBit j = t.stBit j) : ComparesAs t' x y := by
  unfold ComparesAs
  rw [e 10 (by simp), e 11 (by simp), e 12 (by simp)]
  exact h

theorem comparesAs_setCB_advance (t : State) (v : Word) : ComparesAs (t.setCB v).advance v.toInt 0 :=
  (comparesAs_setComparison t v.toInt 0).of_bits fun j _ => by rw [State.stBit_advance]; rfl

/-- A state as far into an instruction as the operand reads: the registers, the counters and the mode of s. -/
structure Base (s u t : State) : Prop where
  worker : t.worker = s.worker
  counter : ∀ b, t.counter b = s.counter b
  regs : t.regs = s.regs
  inLocation : t.inLocation = s.inLocation
  baseWorker : u.worker = s.worker
  baseCounter : ∀ b, u.counter b = s.counter b

theorem Base.file {s u t : State} (h : Base s u t) (i : BitVec 4) : t.file i = s.file i := by
  simp [State.file, h.regs]

theorem Base.refIndex {s u t : State} (h : Base s u t) (g : RegRef) : t.refIndex g = s.refIndex g := by
  simp [State.refIndex, h.worker]

theorem Base.ref {s u t : State} (h : Base s u t) (g : RegRef) : t.ref g = s.ref g := by
  simp [State.ref, h.refIndex, h.file]

theorem Base.refAddress {s u t : State} (h : Base s u t) (g : RegRef) : t.refAddress g = s.refAddress g := by
  simp [State.refAddress, h.refIndex]

theorem Base.ctr {s u t : State} (h : Base s u t) : t.ctr = s.ctr := by simp [State.ctr, h.worker, h.counter]

theorem Base.next {s u t : State} (h : Base s u t) : t.next = s.next := by
  simp [State.next, h.ctr, h.inLocation]

theorem Base.modeReg {s u t : State} (h : Base s u t) (b : Bool) (q : RegNum) : t.modeReg b q = s.modeReg b q := by
  simp [State.modeReg, h.file]

theorem Base.refl (s : State) : Base s s s := ⟨rfl, fun _ => rfl, rfl, rfl, rfl, fun _ => rfl⟩

theorem Base.afterEA (s : State) (o : Address) (p : Bool) (hq : s.during = []) :
    Base s (s.withIB (s.ea o p)) (s.afterEA o p) :=
  ⟨by simp, fun _ => by simp, s.regs_afterEA_quiet o p hq, by simp, rfl, fun _ => rfl⟩

theorem Base.noteRead {s u t : State} (h : Base s u t) (a : Word) : Base s u (t.noteRead a) :=
  ⟨by simp [h.worker], fun _ => by simp [h.counter], by simp [h.regs], by simp [h.inLocation], h.baseWorker,
    h.baseCounter⟩

theorem Base.afterEO (s : State) (o : Address) (p : Bool) (hq : s.during = []) :
    Base s (s.withIB (s.ea o p)) (s.afterEO o p) := by
  rw [s.afterEO_quiet o p hq]
  exact (Base.afterEA s o p hq).noteRead _

/-- A state with the mode and the counters of the operand state goes on to the next instruction. -/
theorem Base.goesTo_advance {s u t t' : State} (h : Base s u t) (hw : t'.worker = t.worker)
    (hc : ∀ b, t'.counter b = t.counter b) (hl : t'.inLocation = t.inLocation) : GoesTo u t'.advance s.next := by
  have hn : t'.next = s.next := by
    rw [← h.next]
    simp [State.next, State.ctr, hw, hc, hl]
  refine ⟨?_, ?_⟩
  · rw [State.counter_advance, h.baseWorker, hw, h.worker, if_pos rfl, hn]
  · rw [State.counter_advance, h.baseWorker, hw, h.worker, if_neg (by simp), hc, h.counter, h.baseCounter]

/-- The end of the load and logical instructions. -/
theorem completes_loadRef {s u t : State} {r : List Word} (g : RegRef) (v : Word) (h : Effects u t r [] [])
    (b : Base s u t) :
    Completes u (.next (t.loadRef g v)) r [(s.refAddress g, v)] [10, 11, 12] s.next
      fun t' => ComparesAs t' v.toInt 0 := by
  refine ⟨_, rfl, ?_, b.goesTo_advance ?_ ?_ ?_, comparesAs_setCB_advance _ _⟩
  · have e := (((h.setFile (t.refIndex g) v (by simp)).setComparison (compareSigned v 0)).advance)
    exact Effects.congr e (r' := r) (st' := [(s.refAddress g, v)]) (w' := [10, 11, 12]) (by simp)
      (by simp [State.refAddress, b.refIndex]) (by simp)
  all_goals simp [State.setRef]

/-- The end of the storing instructions. -/
theorem completes_storeWord {s u t : State} {r : List Word} {w : List Nat} (a v : Word) (h : Effects u t r [] w)
    (b : Base s u t) (hq : u.during = []) :
    Completes u (.next (t.storeWord a v)) r [(a, v)] (w ++ [10, 11, 12]) s.next fun t' => ComparesAs t' v.toInt 0 := by
  refine ⟨_, rfl, ?_, b.goesTo_advance ?_ ?_ ?_, comparesAs_setCB_advance _ _⟩
  · exact ((((h.store hq a v (by simp)).setComparison (compareSigned v 0)).advance)).congr (by simp) (by simp)
      fun i hi => by simpa [or_comm, or_assoc, or_left_comm] using hi
  all_goals simp

end Sys2Proof.Machine
end

