-- ==== Sys2Proof/Laws/Interrupt.lean ====
section
/-! SUPPORT. What fetching and executing, the DMAC's status storage, interrupt entry, and the fields of CRU lines
can do. -/

namespace Sys2Proof.Machine

variable (s : State)

/-! ## Fetching and executing -/

/-- The second instruction word as the fetch at a delivers it. -/
def State.secondWord (s : State) (a : Word) : Word := (s.afterRead a).readWord (a + 1#16)

/-- The state an instruction starts in: its words fetched into IA and IB. -/
def State.fetched (s : State) (a : Word) : State :=
  { (s.afterRead a).afterRead (a + 1#16) with ia := s.readWord a, ib := s.secondWord a }

@[simp] theorem State.fetched_config (a : Word) : (s.fetched a).config = s.config := by simp [State.fetched]

/-- With no other agent at memory, the words are those that stand there. -/
theorem State.secondWord_quiet (a : Word) (h : s.during = []) : s.secondWord a = s.peek (a + 1#16) := by
  rw [State.secondWord, s.afterRead_quiet a h, State.readWord_quiet _ _ (by simp [h]), State.peek_noteRead]

theorem State.fetched_quiet (a : Word) (h : s.during = []) :
    s.fetched a = { s.noteRead2 a with ia := s.peek a, ib := s.peek (a + 1#16) } := by
  have hn : (s.noteRead a).during = [] := by simp [h]
  rw [State.fetched, s.secondWord_quiet a h, s.readWord_quiet a h, s.afterRead_quiet a h, State.afterRead_quiet _ _ hn]
  rfl

/-- An op value of the Arithmetic Option on a machine without it, with an unlisted sub-code. -/
def State.missingCode (s : State) (a : Word) : Bool := isOptionCode (s.readWord a) && !s.config.hasArithOption

theorem executeAt_of_readable (run : Instr → State → Result) (a : Word) (h : s.readable2 a = true) :
    executeAt run s a =
      match decodeWith s.config.layout (s.readWord a) (s.secondWord a) with
      | .instr i => run i (s.fetched a)
      | .undefinedOp => .next (s.fetched a).undefinedCode
      | .unlisted =>
        if s.missingCode a then .next (s.fetched a).undefinedCode else .refused (.unlistedCode (s.readWord a)) := by
  simp only [State.readable2, Bool.and_eq_true] at h
  unfold executeAt
  rw [withRead_of_readable s a _ h.1, withRead_of_readable _ _ _ (by simpa using h.2)]
  cases hd : decodeWith s.config.layout (s.readWord a) (s.secondWord a) <;>
    simp only [State.secondWord] at hd <;>
    simp only [State.afterRead_config, State.fetched, State.secondWord, State.missingCode, hd]

/-- What executing the words at an address can do, if it answers a next state. -/
theorem executeAt_next {run : Instr → State → Result} {a : Word} {t : State} (h : executeAt run s a = .next t) :
    s.readable2 a = true ∧
      ((∃ i, decodeWith s.config.layout (s.readWord a) (s.secondWord a) = .instr i ∧ run i (s.fetched a) = .next t)
        ∨ (decodeWith s.config.layout (s.readWord a) (s.secondWord a) = .undefinedOp
            ∨ decodeWith s.config.layout (s.readWord a) (s.secondWord a) = .unlisted ∧ s.missingCode a = true)
          ∧ t = (s.fetched a).undefinedCode) := by
  have hr : s.readable2 a = true := by
    have h1 := withRead_next s h
    have h2 := withRead_next _ h1.2
    simp only [State.readable_afterRead] at h2
    simp [State.readable2, h1.1, h2.1]
  refine ⟨hr, ?_⟩
  rw [executeAt_of_readable s run a hr] at h
  split at h
  · next i hd => exact .inl ⟨i, hd, h⟩
  · next hd => exact .inr ⟨.inl hd, by simpa using h.symm⟩
  · next hd =>
    split at h
    · next hm => exact .inr ⟨.inr ⟨hd, hm⟩, by simpa using h.symm⟩
    · cases h

/-- What taking an interrupt can do, if it answers a next state. -/
theorem takeInterrupt_next {run : Instr → State → Result} {c : InterruptClass} {t : State}
    (h : takeInterrupt run s c = .next t) :
    ∃ u, executeAt run (s.acknowledge c) (interruptLocation c) = .next u ∧ t = u.enterHandler c := by
  unfold takeInterrupt at h
  split at h
  · next u hu => exact ⟨u, hu, by simpa using h.symm⟩
  · cases h
  · cases h

/-- What a step of the CPU can do: an interrupt, or the instruction at the counter. -/
theorem cpuStep_cases (t : State) (h : cpuStep s = .next t) :
    (∃ c, s.interrupt = some c ∧ takeInterrupt exec s c = .next t)
    ∨ s.interrupt = none ∧ executeAt exec s s.ctr = .next t := by
  unfold cpuStep at h
  split at h
  · next c hc => exact .inl ⟨c, hc, h⟩
  · next hn => exact .inr ⟨hn, h⟩

/-! ## The DMAC's status storage -/

/-- An unchecked write changes the register file, memory and its checks, nothing else. -/
theorem State.poke_rest (a v : Word) :
    s.poke a v =
      { s with regs := (s.poke a v).regs, mem := (s.poke a v).mem, badWords := (s.poke a v).badWords } := by
  unfold State.poke
  split
  · rfl
  · split <;> rfl

/-- Storing status words is a sequence of unchecked writes. -/
theorem State.storeControllers_rest (k : Nat) (l : List (Option (Word × Word))) :
    s.storeControllers k l =
      { s with
        regs := (s.storeControllers k l).regs, mem := (s.storeControllers k l).mem
        badWords := (s.storeControllers k l).badWords } := by
  induction l generalizing s k with
  | nil => rfl
  | cons c rest ih =>
    cases c with
    | none => exact ih s (k + 1)
    | some p =>
      simp only [State.storeControllers]
      conv_lhs => rw [ih]
      simp

/-- Below the status words of controller k nothing is stored by controllers k and on. -/
theorem State.peek_storeControllers (k : Nat) (l : List (Option (Word × Word))) (a : Word)
    (ha : a.toNat < 0x98 + 2 * k) (hk : k + l.length ≤ 8) : (s.storeControllers k l).peek a = s.peek a := by
  induction l generalizing s k with
  | nil => rfl
  | cons c rest ih =>
    simp only [List.length_cons] at hk
    cases c with
    | none => exact ih s (k + 1) (by omega) (by omega)
    | some p =>
      have h0 : a ≠ BitVec.ofNat 16 (0x98 + 2 * k) := by
        rintro rfl
        simp only [BitVec.toNat_ofNat] at ha
        omega
      have h1 : a ≠ BitVec.ofNat 16 (0x99 + 2 * k) := by
        rintro rfl
        simp only [BitVec.toNat_ofNat] at ha
        omega
      simp only [State.storeControllers]
      rw [ih _ (k + 1) (by omega) (by omega), State.peek_poke, State.peek_poke]
      simp [h0, h1]

/-- The status words stored for the controllers keep every read below 0x96. -/
theorem State.peek_dmacRecognized (a : Word) (ha : a.toNat < 0x96) : s.dmacRecognized.peek a = s.peek a := by
  have h0 : a ≠ 0x96#16 := by rintro rfl; simp at ha
  show (State.storeControllers _ 0 s.dmac.toList).peek a = _
  rw [State.peek_storeControllers _ 0 _ a (by omega) (by simp), State.peek_poke]
  simp [h0]

@[simp] theorem State.dmacRecognized_config : s.dmacRecognized.config = s.config := by
  show (State.storeControllers _ 0 s.dmac.toList).config = _
  rw [State.storeControllers_rest]
  simp

@[simp] theorem State.dmacRecognized_during : s.dmacRecognized.during = s.during := by
  show (State.storeControllers _ 0 s.dmac.toList).during = _
  rw [State.storeControllers_rest]
  simp

@[simp] theorem State.dmacRecognized_st : s.dmacRecognized.st = s.st := by
  show (State.storeControllers _ 0 s.dmac.toList).st = _
  rw [State.storeControllers_rest]
  simp

@[simp] theorem State.readable_dmacRecognized (a : Word) : s.dmacRecognized.readable a = s.readable a := by
  simp [State.readable, State.installed]

/-- Before the location is fetched, an interrupt keeps the parameters and every read below 0x96. -/
@[simp] theorem State.acknowledge_config (c : InterruptClass) : (s.acknowledge c).config = s.config := by
  cases c <;> simp [State.acknowledge]

@[simp] theorem State.acknowledge_during (c : InterruptClass) : (s.acknowledge c).during = s.during := by
  cases c <;> simp [State.acknowledge]

@[simp] theorem State.readable_acknowledge (c : InterruptClass) (a : Word) :
    (s.acknowledge c).readable a = s.readable a := by
  simp [State.readable, State.installed]

theorem State.peek_acknowledge (c : InterruptClass) (a : Word) (ha : a.toNat < 0x96) :
    (s.acknowledge c).peek a = s.peek a := by
  cases c
  · rfl
  · rfl
  · exact s.peek_dmacRecognized a ha

/-! ## Fields of CRU lines -/

/-- Setting a field is a sequence of single lines in ascending order, each an output event. -/
theorem State.outputField_eq (a : Line) (width : Nat) (d : Word) :
    s.outputField a width d = { s with
      cruOut := (s.outputField a width d).cruOut
      outbox := s.outbox ++ (List.range width).map fun i => .cru (fieldLine a i) (d.getMsbD (15 - i)) } := by
  induction width with
  | zero => simp [State.outputField]
  | succ n ih =>
    have h : s.outputField a (n + 1) d = (s.outputField a n d).outputLine (fieldLine a n) (d.getMsbD (15 - n)) := by
      simp [State.outputField, List.range_succ]
    rw [h, ih]
    simp [State.outputLine, List.range_succ]

/-- The lines of a field of at most 16 lines are different lines. -/
theorem fieldLine_ne (a : Line) (i j : Nat) (hi : i < 16) (hj : j < 16) (h : i ≠ j) : fieldLine a i ≠ fieldLine a j := by
  intro e
  have h12 : BitVec.ofNat 12 i = BitVec.ofNat 12 j := by simpa [fieldLine] using e
  have := congrArg BitVec.toNat h12
  simp only [BitVec.toNat_ofNat] at this
  omega

/-- The level of every line after a field is set. -/
theorem State.level_outputField (a : Line) (width : Nat) (d : Word) (hw : width ≤ 16) :
    (∀ i, i < width → (s.outputField a width d).cruOut.level (fieldLine a i) = d.getMsbD (15 - i))
    ∧ ∀ l, (∀ i, i < width → l ≠ fieldLine a i) → (s.outputField a width d).cruOut.level l = s.cruOut.level l := by
  induction width with
  | zero => exact ⟨fun i hi => absurd hi (by omega), fun _ _ => rfl⟩
  | succ n ih =>
    obtain ⟨ih1, ih2⟩ := ih (by omega)
    have h : s.outputField a (n + 1) d = (s.outputField a n d).outputLine (fieldLine a n) (d.getMsbD (15 - n)) := by
      simp [State.outputField, List.range_succ]
    rw [h]
    refine ⟨fun i hi => ?_, fun l hl => ?_⟩
    · rw [State.cruOut_outputLine]
      by_cases hin : i = n
      · subst hin; simp
      · rw [if_neg (fieldLine_ne a i n (by omega) (by omega) hin)]
        exact ih1 i (by omega)
    · rw [State.cruOut_outputLine, if_neg (hl n (by omega))]
      exact ih2 l fun i hi => hl i (by omega)

/-- Every bit of an input field: bit 15 - i is line i, or the highest line of the field. -/
theorem State.getMsbD_inputField (a : Line) (width i : Nat) (hi : i < 16) :
    (s.inputField a width).getMsbD (15 - i) = s.inputLine (fieldLine a (min i (width - 1))) := by
  have key : ∀ n, n ≤ 16 → ∀ j, j < 16 →
      ((List.range n).foldl (fun f k => putBit f (15 - k) (s.inputLine (fieldLine a (min k (width - 1))))) 0).getMsbD
        (15 - j) = (decide (j < n) && s.inputLine (fieldLine a (min j (width - 1)))) := by
    intro n
    induction n with
    | zero => intro _ j _; simp
    | succ n ih =>
      intro hn j hj
      rw [List.range_succ, List.foldl_append]
      simp only [List.foldl_cons, List.foldl_nil]
      rw [getMsbD_putBit _ _ _ _ (by omega), ih (by omega) j hj]
      by_cases h : j = n
      · subst h; simp
      · rw [if_neg (by omega)]
        by_cases h2 : j < n
        · simp [h2, show j < n + 1 by omega]
        · simp [h2, show ¬ j < n + 1 by omega]
  have := key 16 (le_refl _) i hi
  simpa [State.inputField, hi] using this

end Sys2Proof.Machine
end

