-- ==== Sys2Proof/Laws/PerInstr.lean ====
section
/-! SUPPORT. Statements made for every instruction, one lemma per constructor. `OpField`: whatever its operands, the
encoder puts into bits 0-5 of the first word the op value that 30_encoding R129 gives the instruction. -/

namespace Sys2Proof

/-- The op value of an instruction (30_encoding R129). -/
def Instr.op (i : Instr) : Nat :=
  match i with
  | .a .. => 0x13
  | .aa .. => 0x13
  | .bl .. => 0x1D
  | .blInd .. => 0x1D
  | .cr .. => 0x30
  | .cra .. => 0x30
  | .crl .. => 0x31
  | .crla .. => 0x31
  | .d .. => 0x34
  | .da .. => 0x34
  | .dad .. => 0x3A
  | .dlax .. => 0x32
  | .drax .. => 0x35
  | .drlx .. => 0x36
  | .drrx .. => 0x37
  | .ds .. => 0x3B
  | .l .. => 0x11
  | .la .. => 0x11
  | .lot .. => 0x15
  | .lota .. => 0x15
  | .m .. => 0x33
  | .ma .. => 0x33
  | .mlax .. => 0x18
  | .mrax .. => 0x19
  | .mrrx .. => 0x1A
  | .n .. => 0x16
  | .na .. => 0x16
  | .or .. => 0x17
  | .ora .. => 0x17
  | .s .. => 0x14
  | .sa .. => 0x14
  | .sat .. => 0x1B
  | .st .. => 0x12
  | .xor .. => 0x10
  | .xora .. => 0x10
  | .bc .. => 0x38
  | .bcInd .. => 0x38
  | .dla .. => 0x32
  | .dra .. => 0x35
  | .drl .. => 0x36
  | .drr .. => 0x37
  | .mla .. => 0x18
  | .mra .. => 0x19
  | .mrr .. => 0x1A
  | .b .. => 0x1C
  | .bInd .. => 0x1C
  | .lds .. => 0x1F
  | .nop => 0x1C
  | .ss .. => 0x1E
  | .ssb .. => 0x1E
  | .sxbs .. => 0x1E
  | .sxbw .. => 0x1E
  | .sxs .. => 0x1E
  | .sxw .. => 0x1E
  | .xs => 0x1C
  | .xsb .. => 0x1C
  | .xsbInd .. => 0x1C
  | .xw => 0x1C
  | .xwb .. => 0x1C
  | .xwbInd .. => 0x1C
  | .arb .. => 0x03
  | .adac .. => 0x09
  | .stps .. => 0x39
  | .cm .. => 0x04
  | .cml .. => 0x06
  | .mov .. => 0x05
  | .brrl .. => 0x0A
  | .ami .. => 0x08
  | .cmi .. => 0x07
  | .setf .. => 0x22
  | .xfne .. => 0x20
  | .bfne .. => 0x21
  | .setb .. => 0x0D
  | .xbne .. => 0x0E
  | .bbne .. => 0x0C
  | .tsbx .. => 0x0F
  | .ldcr .. => 0x02
  | .stcr .. => 0x0B

/-- Bits 0-5 of an instruction word are its number divided by 1024. -/
theorem field_op (n : Nat) (h : n < 65536) : field (BitVec.ofNat 16 n) 0 5 = n / 1024 := by
  simp only [field, BitVec.toNat_ofNat]
  omega

/-- A format group I word carries its op, whatever its operands. -/
theorem field_op_encodeI (op : Nat) (k : Bool) (o : Address) (low : Nat) (h : op < 64) (hl : low < 16) :
    field (encodeI op k o low).1 0 5 = op := by
  have hk := Bool.toNat_lt k
  have hx := Bool.toNat_lt o.index.isSome
  have hi := Bool.toNat_lt o.ind
  have hr := (o.index.getD 0).isLt
  rw [encodeI, field_op] <;> omega

/-- A format I-A word carries its op. -/
theorem field_op_encodeIA (op : Nat) (k : Bool) (g : RegRef) (o : Address) (h : op < 64) :
    field (encodeIA op k g o).1 0 5 = op := by
  have ha := Bool.toNat_lt g.alt
  have hn := g.num.isLt
  exact field_op_encodeI op k o _ h (by omega)

/-- A group II or III word carries its op. -/
theorem field_op_firstII (op : Nat) (m : BitVec 10) (h : op < 64) : field (firstII op m) 0 5 = op := by
  have hm := m.isLt
  rw [firstII, field_op] <;> omega

/-- An rq bit and a 3-bit extension fill the low four bits. -/
theorem rq_low (rq : Bool) (e : Nat) (h : e < 8) : rq.toNat * 8 + e < 16 := by
  have := Bool.toNat_lt rq
  omega

end Sys2Proof

namespace Sys2Proof.Laws

/-- Bits 0-5 of the first word are the op value, at either position of the moved fields. -/
def OpField.Statement (i : Instr) : Prop := ∀ p : Layout, field (encodeWith p i).1 0 5 = i.op

theorem OpField.a (g : RegRef) (o : Address) : OpField.Statement (.a g o) :=
  fun _ => field_op_encodeIA _ _ _ _ (by decide)
theorem OpField.aa (g : RegRef) (o : Address) : OpField.Statement (.aa g o) :=
  fun _ => field_op_encodeIA _ _ _ _ (by decide)
theorem OpField.bl (g : RegRef) (o : Address) : OpField.Statement (.bl g o) :=
  fun _ => field_op_encodeIA _ _ _ _ (by decide)
theorem OpField.blInd (g : RegRef) (o : Address) : OpField.Statement (.blInd g o) :=
  fun _ => field_op_encodeIA _ _ _ _ (by decide)
theorem OpField.cr (g : RegRef) (o : Address) : OpField.Statement (.cr g o) :=
  fun _ => field_op_encodeIA _ _ _ _ (by decide)
theorem OpField.cra (g : RegRef) (o : Address) : OpField.Statement (.cra g o) :=
  fun _ => field_op_encodeIA _ _ _ _ (by decide)
theorem OpField.crl (g : RegRef) (o : Address) : OpField.Statement (.crl g o) :=
  fun _ => field_op_encodeIA _ _ _ _ (by decide)
theorem OpField.crla (g : RegRef) (o : Address) : OpField.Statement (.crla g o) :=
  fun _ => field_op_encodeIA _ _ _ _ (by decide)
theorem OpField.d (g : RegRef) (o : Address) : OpField.Statement (.d g o) :=
  fun _ => field_op_encodeIA _ _ _ _ (by decide)
theorem OpField.da (g : RegRef) (o : Address) : OpField.Statement (.da g o) :=
  fun _ => field_op_encodeIA _ _ _ _ (by decide)
theorem OpField.dad (g : RegRef) (o : Address) : OpField.Statement (.dad g o) :=
  fun _ => field_op_encodeIA _ _ _ _ (by decide)
theorem OpField.dlax (g : RegRef) (o : Address) : OpField.Statement (.dlax g o) :=
  fun _ => field_op_encodeIA _ _ _ _ (by decide)
theorem OpField.drax (g : RegRef) (o : Address) : OpField.Statement (.drax g o) :=
  fun _ => field_op_encodeIA _ _ _ _ (by decide)
theorem OpField.drlx (g : RegRef) (o : Address) : OpField.Statement (.drlx g o) :=
  fun _ => field_op_encodeIA _ _ _ _ (by decide)
theorem OpField.drrx (g : RegRef) (o : Address) : OpField.Statement (.drrx g o) :=
  fun _ => field_op_encodeIA _ _ _ _ (by decide)
theorem OpField.ds (g : RegRef) (o : Address) : OpField.Statement (.ds g o) :=
  fun _ => field_op_encodeIA _ _ _ _ (by decide)
theorem OpField.l (g : RegRef) (o : Address) : OpField.Statement (.l g o) :=
  fun _ => field_op_encodeIA _ _ _ _ (by decide)
theorem OpField.la (g : RegRef) (o : Address) : OpField.Statement (.la g o) :=
  fun _ => field_op_encodeIA _ _ _ _ (by decide)
theorem OpField.lot (g : RegRef) (o : Address) : OpField.Statement (.lot g o) :=
  fun _ => field_op_encodeIA _ _ _ _ (by decide)
theorem OpField.lota (g : RegRef) (o : Address) : OpField.Statement (.lota g o) :=
  fun _ => field_op_encodeIA _ _ _ _ (by decide)
theorem OpField.m (g : RegRef) (o : Address) : OpField.Statement (.m g o) :=
  fun _ => field_op_encodeIA _ _ _ _ (by decide)
theorem OpField.ma (g : RegRef) (o : Address) : OpField.Statement (.ma g o) :=
  fun _ => field_op_encodeIA _ _ _ _ (by decide)
theorem OpField.mlax (g : RegRef) (o : Address) : OpField.Statement (.mlax g o) :=
  fun _ => field_op_encodeIA _ _ _ _ (by decide)
theorem OpField.mrax (g : RegRef) (o : Address) : OpField.Statement (.mrax g o) :=
  fun _ => field_op_encodeIA _ _ _ _ (by decide)
theorem OpField.mrrx (g : RegRef) (o : Address) : OpField.Statement (.mrrx g o) :=
  fun _ => field_op_encodeIA _ _ _ _ (by decide)
theorem OpField.n (g : RegRef) (o : Address) : OpField.Statement (.n g o) :=
  fun _ => field_op_encodeIA _ _ _ _ (by decide)
theorem OpField.na (g : RegRef) (o : Address) : OpField.Statement (.na g o) :=
  fun _ => field_op_encodeIA _ _ _ _ (by decide)
theorem OpField.or (g : RegRef) (o : Address) : OpField.Statement (.or g o) :=
  fun _ => field_op_encodeIA _ _ _ _ (by decide)
theorem OpField.ora (g : RegRef) (o : Address) : OpField.Statement (.ora g o) :=
  fun _ => field_op_encodeIA _ _ _ _ (by decide)
theorem OpField.s (g : RegRef) (o : Address) : OpField.Statement (.s g o) :=
  fun _ => field_op_encodeIA _ _ _ _ (by decide)
theorem OpField.sa (g : RegRef) (o : Address) : OpField.Statement (.sa g o) :=
  fun _ => field_op_encodeIA _ _ _ _ (by decide)
theorem OpField.sat (g : RegRef) (o : Address) : OpField.Statement (.sat g o) :=
  fun _ => field_op_encodeIA _ _ _ _ (by decide)
theorem OpField.st (g : RegRef) (o : Address) : OpField.Statement (.st g o) :=
  fun _ => field_op_encodeIA _ _ _ _ (by decide)
theorem OpField.xor (g : RegRef) (o : Address) : OpField.Statement (.xor g o) :=
  fun _ => field_op_encodeIA _ _ _ _ (by decide)
theorem OpField.xora (g : RegRef) (o : Address) : OpField.Statement (.xora g o) :=
  fun _ => field_op_encodeIA _ _ _ _ (by decide)
theorem OpField.bc (bit : BitVec 4) (o : Address) : OpField.Statement (.bc bit o) :=
  fun _ => field_op_encodeI _ _ _ _ (by decide) bit.isLt
theorem OpField.bcInd (bit : BitVec 4) (o : Address) : OpField.Statement (.bcInd bit o) :=
  fun _ => field_op_encodeI _ _ _ _ (by decide) bit.isLt
theorem OpField.dla (count : Nat) (o : Address) : OpField.Statement (.dla count o) :=
  fun _ => field_op_encodeI _ _ _ _ (by decide) (Nat.mod_lt _ (by decide))
theorem OpField.dra (count : Nat) (o : Address) : OpField.Statement (.dra count o) :=
  fun _ => field_op_encodeI _ _ _ _ (by decide) (Nat.mod_lt _ (by decide))
theorem OpField.drl (count : Nat) (o : Address) : OpField.Statement (.drl count o) :=
  fun _ => field_op_encodeI _ _ _ _ (by decide) (Nat.mod_lt _ (by decide))
theorem OpField.drr (count : Nat) (o : Address) : OpField.Statement (.drr count o) :=
  fun _ => field_op_encodeI _ _ _ _ (by decide) (Nat.mod_lt _ (by decide))
theorem OpField.mla (count : Nat) (o : Address) : OpField.Statement (.mla count o) :=
  fun _ => field_op_encodeI _ _ _ _ (by decide) (Nat.mod_lt _ (by decide))
theorem OpField.mra (count : Nat) (o : Address) : OpField.Statement (.mra count o) :=
  fun _ => field_op_encodeI _ _ _ _ (by decide) (Nat.mod_lt _ (by decide))
theorem OpField.mrr (count : Nat) (o : Address) : OpField.Statement (.mrr count o) :=
  fun _ => field_op_encodeI _ _ _ _ (by decide) (Nat.mod_lt _ (by decide))
theorem OpField.b (o : Address) (rq : Bool) : OpField.Statement (.b o rq) :=
  fun _ => field_op_encodeI _ _ _ _ (by decide) (rq_low _ _ (by decide))
theorem OpField.bInd (o : Address) (rq : Bool) : OpField.Statement (.bInd o rq) :=
  fun _ => field_op_encodeI _ _ _ _ (by decide) (rq_low _ _ (by decide))
theorem OpField.lds (o : Address) (rq : Bool) : OpField.Statement (.lds o rq) :=
  fun _ => field_op_encodeI _ _ _ _ (by decide) (rq_low _ _ (by decide))
theorem OpField.nop : OpField.Statement (.nop) := fun _ => field_op _ (by decide)
theorem OpField.ss (o : Address) (rq : Bool) : OpField.Statement (.ss o rq) :=
  fun _ => field_op_encodeI _ _ _ _ (by decide) (rq_low _ _ (by decide))
theorem OpField.ssb (o : Address) (rq : Bool) : OpField.Statement (.ssb o rq) :=
  fun _ => field_op_encodeI _ _ _ _ (by decide) (rq_low _ _ (by decide))
theorem OpField.sxbs (o : Address) (rq : Bool) : OpField.Statement (.sxbs o rq) :=
  fun _ => field_op_encodeI _ _ _ _ (by decide) (rq_low _ _ (by decide))
theorem OpField.sxbw (o : Address) (rq : Bool) : OpField.Statement (.sxbw o rq) :=
  fun _ => field_op_encodeI _ _ _ _ (by decide) (rq_low _ _ (by decide))
theorem OpField.sxs (o : Address) (rq : Bool) : OpField.Statement (.sxs o rq) :=
  fun _ => field_op_encodeI _ _ _ _ (by decide) (rq_low _ _ (by decide))
theorem OpField.sxw (o : Address) (rq : Bool) : OpField.Statement (.sxw o rq) :=
  fun _ => field_op_encodeI _ _ _ _ (by decide) (rq_low _ _ (by decide))
theorem OpField.xs : OpField.Statement (.xs) := fun _ => field_op _ (by decide)
theorem OpField.xsb (o : Address) (rq : Bool) : OpField.Statement (.xsb o rq) :=
  fun _ => field_op_encodeI _ _ _ _ (by decide) (rq_low _ _ (by decide))
theorem OpField.xsbInd (o : Address) (rq : Bool) : OpField.Statement (.xsbInd o rq) :=
  fun _ => field_op_encodeI _ _ _ _ (by decide) (rq_low _ _ (by decide))
theorem OpField.xw : OpField.Statement (.xw) := fun _ => field_op _ (by decide)
theorem OpField.xwb (o : Address) (rq : Bool) : OpField.Statement (.xwb o rq) :=
  fun _ => field_op_encodeI _ _ _ _ (by decide) (rq_low _ _ (by decide))
theorem OpField.xwbInd (o : Address) (rq : Bool) : OpField.Statement (.xwbInd o rq) :=
  fun _ => field_op_encodeI _ _ _ _ (by decide) (rq_low _ _ (by decide))
theorem OpField.arb (addend : BitVec 4) (n : Word) (xr : RegNum) (rq : Bool) : OpField.Statement (.arb addend n xr rq) :=
  fun _ => by
  have hr := Bool.toNat_lt rq
  have hx := xr.isLt
  have hd := addend.isLt
  simp only [encodeWith, Instr.op]
  rw [field_op] <;> omega
theorem OpField.adac (aq : BitVec 10) (n : Word) : OpField.Statement (.adac aq n) :=
  fun _ => field_op_firstII 0x09 aq (by decide)
theorem OpField.stps (o : Address) : OpField.Statement (.stps o) :=
  fun _ => field_op_encodeI _ _ _ _ (by decide) (by decide)
theorem OpField.cm (p : BaseDisp) (q : BaseDisp) : OpField.Statement (.cm p q) :=
  fun _ => field_op_firstII _ _ (by decide)
theorem OpField.cml (p : BaseDisp) (q : BaseDisp) : OpField.Statement (.cml p q) :=
  fun _ => field_op_firstII _ _ (by decide)
theorem OpField.mov (p : BaseDisp) (q : BaseDisp) : OpField.Statement (.mov p q) :=
  fun _ => field_op_firstII _ _ (by decide)
theorem OpField.brrl (r : RegNum) (q : BaseDisp) : OpField.Statement (.brrl r q) := fun p => by
  have hr := r.isLt
  obtain ⟨pos, ob⟩ := p
  cases pos
  · simp only [encodeWith, encodeBrrl, Instr.op]
    rw [field_op] <;> omega
  · simp only [encodeWith, encodeBrrl, Instr.op]
    decide
theorem OpField.ami (p : BaseDisp) (imm : BitVec 13) : OpField.Statement (.ami p imm) :=
  fun _ => field_op_firstII _ _ (by decide)
theorem OpField.cmi (p : BaseDisp) (imm : BitVec 13) : OpField.Statement (.cmi p imm) :=
  fun _ => field_op_firstII _ _ (by decide)
theorem OpField.setf (alt : Bool) (m : BitVec 10) (bit : BitVec 4) (v : Bool) : OpField.Statement (.setf alt m bit v) :=
  fun _ => field_op_firstII _ _ (by decide)
theorem OpField.xfne (alt : Bool) (m : BitVec 10) (bit : BitVec 4) (v : Bool) : OpField.Statement (.xfne alt m bit v) :=
  fun _ => field_op_firstII _ _ (by decide)
theorem OpField.bfne (alt : Bool) (m : BitVec 10) (bit : BitVec 4) (v : Bool) (n : BitVec 10) : OpField.Statement (.bfne alt m bit v n) :=
  fun _ => field_op_firstII _ _ (by decide)
theorem OpField.setb (alt : Bool) (m : BitVec 10) (v : Bool) : OpField.Statement (.setb alt m v) :=
  fun _ => field_op_firstII _ _ (by decide)
theorem OpField.xbne (alt : Bool) (m : BitVec 10) (v : Bool) : OpField.Statement (.xbne alt m v) :=
  fun _ => field_op_firstII _ _ (by decide)
theorem OpField.bbne (alt : Bool) (m : BitVec 10) (v : Bool) (n : BitVec 10) : OpField.Statement (.bbne alt m v n) :=
  fun _ => field_op_firstII _ _ (by decide)
theorem OpField.tsbx (alt : Bool) (m : BitVec 10) (v : Bool) (n : BitVec 10) (ob : Bool) : OpField.Statement (.tsbx alt m v n ob) :=
  fun _ => field_op_firstII _ _ (by decide)
theorem OpField.ldcr (alt : Bool) (m : BitVec 10) (width : Nat) (n : BitVec 10) : OpField.Statement (.ldcr alt m width n) :=
  fun _ => field_op_firstII _ _ (by decide)
theorem OpField.stcr (alt : Bool) (m : BitVec 10) (width : Nat) (n : BitVec 10) : OpField.Statement (.stcr alt m width n) :=
  fun _ => field_op_firstII _ _ (by decide)

end Sys2Proof.Laws
end

