-- ==== Sys2Proof/Tests/Slice0.lean ====
section
/-! SUPPORT. Tests on one step each, with results from the vectors V of spec/96_derived_vectors.md, and for every
statement with hypotheses a witness that they can be met together. -/

namespace Sys2Proof.Tests

open Sys2Proof Sys2Proof.Machine

/-! ## Well-formedness: one ill-formed term for each check -/

theorem test_wellFormed_count_zero :
    [Instr.dla 0 ⟨false, none, 0⟩, .dra 0 ⟨false, none, 0⟩, .drl 0 ⟨false, none, 0⟩, .drr 0 ⟨false, none, 0⟩,
      .mla 0 ⟨false, none, 0⟩, .mra 0 ⟨false, none, 0⟩, .mrr 0 ⟨false, none, 0⟩].any Instr.wellFormed = false := by
  decide

theorem test_wellFormed_count_seventeen :
    [Instr.dla 17 ⟨false, none, 0⟩, .dra 17 ⟨false, none, 0⟩, .drl 17 ⟨false, none, 0⟩, .drr 17 ⟨false, none, 0⟩,
      .mla 17 ⟨false, none, 0⟩, .mra 17 ⟨false, none, 0⟩, .mrr 17 ⟨false, none, 0⟩].any Instr.wellFormed = false := by
  decide

theorem test_wellFormed_width :
    [Instr.ldcr false 0 0 0, .ldcr false 0 17 0, .stcr false 0 0 0, .stcr false 0 17 0].any Instr.wellFormed = false := by
  decide

theorem test_wellFormed_accepts :
    [Instr.mla 1 ⟨false, none, 0⟩, .drr 16 ⟨false, none, 0⟩, .ldcr true 0 1 0, .stcr false 0 16 0, .nop].all
      Instr.wellFormed = true := by decide

/-! ## Decoding: for every instruction a word of the vectors, decoded to what its source form says -/

theorem test_decode_register_memory :
    [decode 0x4C09 0x0100,
      decode 0x4EB2 0x0004,
      decode 0x76B3 0x0010,
      decode 0x7713 0x0400,
      decode 0xC002 0x0120,
      decode 0xC081 0xFFFF,
      decode 0xC71A 0x0150,
      decode 0xC481 0xFFFF,
      decode 0x5401 0x0150,
      decode 0x5481 0x8001,
      decode 0x463A 0x0150,
      decode 0x46C6 0x0016]
    = [Decoded.instr (.a ⟨true, 1⟩ ⟨false, none, 0x0100⟩),
      .instr (.aa ⟨false, 2⟩ ⟨false, some 3, 0x0004⟩),
      .instr (.bl ⟨false, 3⟩ ⟨false, some 3, 0x0010⟩),
      .instr (.blInd ⟨false, 3⟩ ⟨true, some 1, 0x0400⟩),
      .instr (.cr ⟨false, 2⟩ ⟨false, none, 0x0120⟩),
      .instr (.cra ⟨false, 1⟩ ⟨false, none, 0xFFFF⟩),
      .instr (.crl ⟨true, 2⟩ ⟨true, some 1, 0x0150⟩),
      .instr (.crla ⟨false, 1⟩ ⟨false, none, 0xFFFF⟩),
      .instr (.lot ⟨false, 1⟩ ⟨false, none, 0x0150⟩),
      .instr (.lota ⟨false, 1⟩ ⟨false, none, 0x8001⟩),
      .instr (.l ⟨true, 2⟩ ⟨false, some 3, 0x0150⟩),
      .instr (.la ⟨false, 6⟩ ⟨false, some 4, 0x0016⟩)] := by decide

theorem test_decode_logic_and_store :
    [decode 0x5801 0x0150,
      decode 0x5880 0x00FF,
      decode 0x5C01 0x0150,
      decode 0x5C81 0x8000,
      decode 0x5001 0x0150,
      decode 0x5080 0x5200,
      decode 0x6C01 0x0150,
      decode 0x4BA1 0x0150,
      decode 0x4001 0x0150,
      decode 0x4080 0x4400]
    = [Decoded.instr (.n ⟨false, 1⟩ ⟨false, none, 0x0150⟩),
      .instr (.na ⟨false, 0⟩ ⟨false, none, 0x00FF⟩),
      .instr (.or ⟨false, 1⟩ ⟨false, none, 0x0150⟩),
      .instr (.ora ⟨false, 1⟩ ⟨false, none, 0x8000⟩),
      .instr (.s ⟨false, 1⟩ ⟨false, none, 0x0150⟩),
      .instr (.sa ⟨false, 0⟩ ⟨false, none, 0x5200⟩),
      .instr (.sat ⟨false, 1⟩ ⟨false, none, 0x0150⟩),
      .instr (.st ⟨false, 1⟩ ⟨true, some 2, 0x0150⟩),
      .instr (.xor ⟨false, 1⟩ ⟨false, none, 0x0150⟩),
      .instr (.xora ⟨false, 0⟩ ⟨false, none, 0x4400⟩)] := by decide

theorem test_decode_multiply_divide_shift :
    [decode 0xD002 0x0130,
      decode 0xD082 0xFFFF,
      decode 0xE802 0x0140,
      decode 0xEC02 0x0140,
      decode 0xCC07 0x0150,
      decode 0xCC82 0xFFFF,
      decode 0xC881 0x0140,
      decode 0xD481 0x0140,
      decode 0xD881 0x0140,
      decode 0xDC81 0x0140,
      decode 0x6082 0x0150,
      decode 0x6482 0x0150,
      decode 0x688A 0x0150]
    = [Decoded.instr (.d ⟨false, 2⟩ ⟨false, none, 0x0130⟩),
      .instr (.da ⟨false, 2⟩ ⟨false, none, 0xFFFF⟩),
      .instr (.dad ⟨false, 2⟩ ⟨false, none, 0x0140⟩),
      .instr (.ds ⟨false, 2⟩ ⟨false, none, 0x0140⟩),
      .instr (.m ⟨false, 7⟩ ⟨false, none, 0x0150⟩),
      .instr (.ma ⟨false, 2⟩ ⟨false, none, 0xFFFF⟩),
      .instr (.dlax ⟨false, 1⟩ ⟨false, none, 0x0140⟩),
      .instr (.drax ⟨false, 1⟩ ⟨false, none, 0x0140⟩),
      .instr (.drlx ⟨false, 1⟩ ⟨false, none, 0x0140⟩),
      .instr (.drrx ⟨false, 1⟩ ⟨false, none, 0x0140⟩),
      .instr (.mlax ⟨false, 2⟩ ⟨false, none, 0x0150⟩),
      .instr (.mrax ⟨false, 2⟩ ⟨false, none, 0x0150⟩),
      .instr (.mrrx ⟨true, 2⟩ ⟨false, none, 0x0150⟩)] := by decide

theorem test_decode_format_IB :
    [decode 0xE2A1 0x0010,
      decode 0xE31B 0x0400,
      decode 0xC800 0x0140,
      decode 0xD404 0x0140,
      decode 0xD800 0x0140,
      decode 0xDC04 0x008F,
      decode 0x600F 0x0150,
      decode 0x6401 0x0150,
      decode 0x6800 0x0150]
    = [Decoded.instr (.bc 1 ⟨false, some 2, 0x0010⟩),
      .instr (.bcInd 11 ⟨true, some 1, 0x0400⟩),
      .instr (.dla 16 ⟨false, none, 0x0140⟩),
      .instr (.dra 4 ⟨false, none, 0x0140⟩),
      .instr (.drl 16 ⟨false, none, 0x0140⟩),
      .instr (.drr 4 ⟨false, none, 0x008F⟩),
      .instr (.mla 15 ⟨false, none, 0x0150⟩),
      .instr (.mra 1 ⟨false, none, 0x0150⟩),
      .instr (.mrr 16 ⟨false, none, 0x0150⟩)] := by decide

theorem test_decode_format_IC :
    [decode 0x72AA 0x0010,
      decode 0x700A 0x0400,
      decode 0x7C08 0x0300,
      decode 0x737F 0xFFFF,
      decode 0x788E 0x0300,
      decode 0x788A 0x0300,
      decode 0x7980 0x007F,
      decode 0x7889 0x0300,
      decode 0x7884 0x0300,
      decode 0x7885 0x0300,
      decode 0x7004 0x0000,
      decode 0x72A8 0x0010,
      decode 0x7310 0x0400,
      decode 0x7005 0x0000,
      decode 0x7089 0x0700,
      decode 0x7001 0x0400]
    = [Decoded.instr (.b ⟨false, some 2, 0x0010⟩ true),
      .instr (.bInd ⟨false, none, 0x0400⟩ true),
      .instr (.lds ⟨false, none, 0x0300⟩ true),
      .instr (.nop),
      .instr (.ss ⟨false, none, 0x0300⟩ true),
      .instr (.ssb ⟨false, none, 0x0300⟩ true),
      .instr (.sxbs ⟨true, none, 0x007F⟩ false),
      .instr (.sxbw ⟨false, none, 0x0300⟩ true),
      .instr (.sxs ⟨false, none, 0x0300⟩ false),
      .instr (.sxw ⟨false, none, 0x0300⟩ false),
      .instr (.xs),
      .instr (.xsb ⟨false, some 2, 0x0010⟩ true),
      .instr (.xsbInd ⟨true, some 1, 0x0400⟩ false),
      .instr (.xw),
      .instr (.xwb ⟨false, none, 0x0700⟩ true),
      .instr (.xwbInd ⟨false, none, 0x0400⟩ false)] := by decide

theorem test_decode_formats_ID_to_II :
    [decode 0x0CD1 0x0010,
      decode 0x2403 0x0400,
      decode 0xE6A0 0x0010,
      decode 0x1003 0x9005,
      decode 0x1800 0x97FF,
      decode 0x17FF 0x2BFF,
      decode 0x2803 0x1410,
      decode 0x2002 0x9000,
      decode 0x1C00 0x5FF0]
    = [Decoded.instr (.arb 1 0x0010 5 true),
      .instr (.adac 0x003 0x0400),
      .instr (.stps ⟨false, some 2, 0x0010⟩),
      .instr (.cm ⟨0x003, 4⟩ ⟨0x005, 4⟩),
      .instr (.cml ⟨0x000, 4⟩ ⟨0x3FF, 5⟩),
      .instr (.mov ⟨0x3FF, 1⟩ ⟨0x3FF, 2⟩),
      .instr (.brrl 3 ⟨0x010, 5⟩),
      .instr (.ami ⟨0x002, 4⟩ 0x1000),
      .instr (.cmi ⟨0x000, 2⟩ 0x1FF0)] := by decide

theorem test_decode_format_III :
    [decode 0x8800 0xFC00,
      decode 0x8000 0x3400,
      decode 0x8404 0x17FF,
      decode 0x37FF 0x0800,
      decode 0x3802 0x0000,
      decode 0x3002 0x0C10,
      decode 0x3C01 0x1C02,
      decode 0x3C01 0x0802,
      decode 0x0BFE 0x4000,
      decode 0x2C00 0x0000]
    = [Decoded.instr (.setf true 0x000 15 true),
      .instr (.xfne true 0x000 3 false),
      .instr (.bfne true 0x004 1 false 0x3FF),
      .instr (.setb false 0x3FF true),
      .instr (.xbne false 0x002 false),
      .instr (.bbne true 0x002 true 0x010),
      .instr (.tsbx true 0x001 true 0x002 true),
      .instr (.tsbx false 0x001 true 0x002 false),
      .instr (.ldcr false 0x3FE 4 0x000),
      .instr (.stcr false 0x000 16 0x000)] := by decide

/-- The ends of the four ranges of undefined codes (30_encoding R130), and sub-codes of R131 (V137). -/
theorem test_decode_none :
    ([0x0000, 0x07FF, 0x8C00, 0xBFFF, 0xF000, 0xFFFF] : List Word).map (fun w => decode w 0)
      = List.replicate 6 .undefinedOp
    ∧ ([0x4800, 0x6C80, 0x7003, 0x7083, 0x7800, 0x7883, 0x7C01, 0x7C80, 0xE400, 0xE880, 0xEC80] : List Word).map
        (fun w => decode w 0) = List.replicate 11 .unlisted := by decide

/-- At `BRRL_R_POS` = bits 16-18 and `TSBX_OB_POS` = bit 16 (30_encoding R123, R127). -/
theorem test_decode_moved_fields :
    decodeWith ⟨.bits16to18, 0⟩ 0x2800 0x7410 = .instr (.brrl 3 ⟨0x010, 5⟩)
    ∧ decodeWith ⟨.bits16to18, 0⟩ 0x3C01 0x8802 = .instr (.tsbx false 1 true 2 true) := by decide

/-- spec/opcode_table.json keeps the first word in the high half: `L 2,*X'150',3` is 4732 0150 (30_encoding R112). -/
theorem test_decodeTableWord : decodeTableWord 32 0x47320150 = some (.l ⟨false, 2⟩ ⟨true, some 3, 0x0150⟩) := by decide

/-! ## One step -/

/-- A running machine with ST, both counters, the two instruction words at the active one, and further words of memory
or registers. -/
def start (st pc ec w0 w1 : Word) (l : List (Word × Word)) : State :=
  let s : State := { State.reset with st := st, pc := pc, ec := ec, modeRun := true, running := true }
  State.pokeAll s ((s.ctr, w0) :: (s.ctr + 1, w1) :: l)

/-- The step goes on, with these values of ST, the counters and the listed words. -/
def gives (r : Result) (st pc ec : Word) (l : List (Word × Word)) : Bool :=
  match r with
  | .next t => t.st == st && t.pc == pc && t.ec == ec && l.all fun p => t.peek p.1 == p.2
  | _ => false

/-- The step goes on and the state has the property. -/
def goesOn (r : Result) (p : State → Bool) : Bool :=
  match r with
  | .next t => p t
  | _ => false

/-- The step is refused, for this reason. -/
def refuses (r : Result) (why : Refusal) : Bool :=
  match r with
  | .refused r => r == why
  | _ => false

theorem next_of_goesOn {r : Result} {p : State → Bool} (h : goesOn r p = true) : ∃ t, r = .next t ∧ p t = true := by
  cases r with
  | next t => exact ⟨t, rfl, h⟩
  | fault _ => simp [goesOn] at h
  | refused _ => simp [goesOn] at h

/-- V3: A 1,X'100'. -/
theorem test_a :
    gives (step (start 0x0000 0x0200 0x0700 0x4C01 0x0100 [(0x0081, 0x8000), (0x0100, 0x8000)]))
      0x4014 0x0202 0x0700 [(0x0081, 0x0000)] = true := by decide

/-- V6: A 1,X'81'. -/
theorem test_a_2 :
    gives (step (start 0x0000 0x0200 0x0700 0x4C01 0x0081 [(0x0081, 0x0123)]))
      0x0020 0x0202 0x0700 [(0x0081, 0x0246)] = true := by decide

/-- V7: AA 2,-1. -/
theorem test_aa :
    gives (step (start 0x0000 0x0200 0x0700 0x4C82 0xFFFF [(0x0082, 0x0001)]))
      0x0014 0x0202 0x0700 [(0x0082, 0x0000)] = true := by decide

/-- V12: S 1,X'150'. -/
theorem test_s :
    gives (step (start 0x0000 0x0200 0x0700 0x5001 0x0150 [(0x0081, 0x0000), (0x0150, 0x8000)]))
      0x4008 0x0202 0x0700 [(0x0081, 0x8000)] = true := by decide

/-- V14: SA 0,1. -/
theorem test_sa :
    gives (step (start 0x0000 0x0200 0x0700 0x5080 0x0001 [(0x0080, 0x0000)]))
      0x0008 0x0202 0x0700 [(0x0080, 0xFFFF)] = true := by decide

/-- V15: CR 2,X'120'. -/
theorem test_cr :
    gives (step (start 0x0000 0x0200 0x0700 0xC002 0x0120 [(0x0082, 0x8000), (0x0120, 0x0001)]))
      0x0008 0x0202 0x0700 [] = true := by decide

/-- V18: CRA 1,X'FFFF'. -/
theorem test_cra :
    gives (step (start 0x0000 0x0200 0x0700 0xC081 0xFFFF [(0x0081, 0x0000)]))
      0x0020 0x0202 0x0700 [] = true := by decide

/-- V20: CRL #2,*X'150',1. -/
theorem test_crl :
    gives (step (start 0x8200 0x0700 0x0400 0xC71A 0x0150 [(0x0082, 0x0042), (0x0089, 0x0002), (0x0150, 0x0300),
        (0x0152, 0x0999), (0x0302, 0x0042)]))
      0x8210 0x0700 0x0402 [] = true := by decide

/-- V19: CRLA 1,X'FFFF'. -/
theorem test_crla :
    gives (step (start 0x0000 0x0200 0x0700 0xC481 0xFFFF [(0x0081, 0x0000)]))
      0x0008 0x0202 0x0700 [] = true := by decide

/-- V22: L 2,X'150',2. -/
theorem test_l :
    gives (step (start 0x0000 0x0200 0x0700 0x4622 0x0150 [(0x0082, 0x0004), (0x0154, 0x7777)]))
      0x0020 0x0202 0x0700 [(0x0082, 0x7777)] = true := by decide

/-- V25: L 0,X'FFFF',1. -/
theorem test_l_2 :
    gives (step (start 0x0000 0x0200 0x0700 0x4610 0xFFFF [(0x0081, 0x0002), (0x0001, 0x00AA)]))
      0x0020 0x0202 0x0700 [(0x0080, 0x00AA)] = true := by decide

/-- V26: LA 2,*X'150'. -/
theorem test_la :
    gives (step (start 0x0000 0x0200 0x0700 0x4582 0x0150 [(0x0150, 0xF15A)]))
      0x0008 0x0202 0x0700 [(0x0082, 0xF15A)] = true := by decide

/-- V30: LOT 1,X'150'. -/
theorem test_lot :
    gives (step (start 0x0000 0x0200 0x0700 0x5401 0x0150 [(0x0150, 0xFFFF)]))
      0x0020 0x0202 0x0700 [(0x0081, 0x0010)] = true := by decide

/-- V31: LOTA 1,X'8001'. -/
theorem test_lota :
    gives (step (start 0x0000 0x0200 0x0700 0x5481 0x8001 []))
      0x0020 0x0202 0x0700 [(0x0081, 0x0002)] = true := by decide

/-- V33: NA 0,X'FF'. -/
theorem test_na :
    gives (step (start 0x0000 0x0200 0x0700 0x5880 0x00FF [(0x0080, 0x4142)]))
      0x0020 0x0202 0x0700 [(0x0080, 0x0042)] = true := by decide

/-- V35: ORA 1,X'8000'. -/
theorem test_ora :
    gives (step (start 0x0000 0x0200 0x0700 0x5C81 0x8000 [(0x0081, 0x0001)]))
      0x0008 0x0202 0x0700 [(0x0081, 0x8001)] = true := by decide

/-- V37: XORA 0,X'4400'. -/
theorem test_xora :
    gives (step (start 0x0000 0x0200 0x0700 0x4080 0x4400 [(0x0080, 0x4400)]))
      0x0010 0x0202 0x0700 [(0x0080, 0x0000)] = true := by decide

/-- V57: D 2,X'130'. -/
theorem test_d :
    gives (step (start 0x0000 0x0200 0x0700 0xD002 0x0130 [(0x0082, 0xFFFF), (0x0083, 0xFFF9), (0x0130, 0xFFFE)]))
      0x0008 0x0202 0x0700 [(0x0083, 0x0003)] = true := by decide

/-- V59: D 2,X'130'. -/
theorem test_d_2 :
    gives (step (start 0x0000 0x0200 0x0700 0xD002 0x0130 [(0x0082, 0xFFFF), (0x0083, 0x0000), (0x0130, 0x0002)]))
      0x0010 0x0202 0x0700 [(0x0082, 0x0000), (0x0083, 0x8000)] = true := by decide

/-- V62: DA 2,X'FFFF'. -/
theorem test_da :
    gives (step (start 0x0000 0x0200 0x0700 0xD082 0xFFFF [(0x0082, 0x0000), (0x0083, 0x8000)]))
      0x0010 0x0202 0x0700 [] = true := by decide

/-- V63: DAD 2,X'140'. -/
theorem test_dad :
    gives (step (start 0x0000 0x0200 0x0700 0xE802 0x0140 [(0x0082, 0x7FFF), (0x0083, 0xFFFF), (0x0140, 0x0000),
        (0x0141, 0x0001)]))
      0x4008 0x0202 0x0700 [(0x0082, 0x8000), (0x0083, 0x0000)] = true := by decide

/-- V65: DS 2,X'140'. -/
theorem test_ds :
    gives (step (start 0x0000 0x0200 0x0700 0xEC02 0x0140 [(0x0082, 0x8000), (0x0083, 0x0000), (0x0140, 0x0000),
        (0x0141, 0x0001)]))
      0x4020 0x0202 0x0700 [(0x0082, 0x7FFF), (0x0083, 0xFFFF)] = true := by decide

/-- V74: DLAX 1,X'140'. -/
theorem test_dlax :
    gives (step (start 0x0000 0x0200 0x0700 0xC881 0x0140 [(0x0081, 0x0021), (0x0140, 0x4000), (0x0141, 0x0000)]))
      0x4008 0x0202 0x0700 [(0x0140, 0x8000), (0x0141, 0x0000)] = true := by decide

/-- V75: DRAX 1,X'140'. -/
theorem test_drax :
    gives (step (start 0x0000 0x0200 0x0700 0xD481 0x0140 [(0x0081, 0x0000), (0x0140, 0x8000), (0x0141, 0x0000)]))
      0x0008 0x0202 0x0700 [(0x0140, 0xFFFF), (0x0141, 0xFFFF)] = true := by decide

/-- V76: DRLX 1,X'140'. -/
theorem test_drlx :
    gives (step (start 0x0000 0x0200 0x0700 0xD881 0x0140 [(0x0081, 0x001F), (0x0140, 0x8000), (0x0141, 0x0000)]))
      0x0010 0x0202 0x0700 [(0x0140, 0x0000), (0x0141, 0x0001)] = true := by decide

/-- V78: DRRX 1,X'140'. -/
theorem test_drrx :
    gives (step (start 0x0000 0x0200 0x0700 0xDC81 0x0140 [(0x0081, 0x0001), (0x0140, 0x0000), (0x0141, 0x0001)]))
      0x0008 0x0202 0x0700 [(0x0140, 0x8000), (0x0141, 0x0000)] = true := by decide

/-- V79: DRRX 1,X'7F'. -/
theorem test_drrx_2 :
    goesOn (step (start 0x0000 0x0200 0x0700 0xDC81 0x007F [(0x0080, 0xBBBB), (0x0081, 0x0010), (0x007F, 0xAAAA)])) (fun t =>
      gives (.next t) 0x0408 0x0202 0x0700 [(0x0080, 0xAAAA), (0x007F, 0xAAAA)] && t.pendInternal) = true := by decide

/-- V52: M 7,X'150'. -/
theorem test_m :
    gives (step (start 0x0000 0x0200 0x0700 0xCC07 0x0150 [(0x0087, 0xFFFF), (0x0150, 0x0002)]))
      0x0008 0x0202 0x0700 [(0x0088, 0xFFFE)] = true := by decide

/-- V53: M 7,X'150'. -/
theorem test_m_2 :
    gives (step (start 0x8000 0x0700 0x0200 0xCC07 0x0150 [(0x008F, 0x0100), (0x0090, 0x7880), (0x0150, 0x0100)]))
      0x8020 0x0700 0x0202 [(0x008F, 0x0001), (0x0090, 0x0000)] = true := by decide

/-- V54: MA 2,-1. -/
theorem test_ma :
    gives (step (start 0x0000 0x0200 0x0700 0xCC82 0xFFFF [(0x0082, 0x0001)]))
      0x0008 0x0202 0x0700 [(0x0082, 0xFFFF), (0x0083, 0xFFFF)] = true := by decide

/-- V68: MLAX 2,X'150'. -/
theorem test_mlax :
    gives (step (start 0x0000 0x0200 0x0700 0x6082 0x0150 [(0x0082, 0xFFF1), (0x0150, 0xC000)]))
      0x0008 0x0202 0x0700 [(0x0150, 0x8000)] = true := by decide

/-- V70: MRAX 2,X'150'. -/
theorem test_mrax :
    gives (step (start 0x0000 0x0200 0x0700 0x6482 0x0150 [(0x0082, 0x0000), (0x0150, 0x8000)]))
      0x0008 0x0202 0x0700 [(0x0150, 0xFFFF)] = true := by decide

/-- V72: MRRX #2,X'150'. -/
theorem test_mrrx :
    gives (step (start 0x0000 0x0200 0x0700 0x688A 0x0150 [(0x0082, 0x0000), (0x008A, 0x0004), (0x0150, 0x1234)]))
      0x0020 0x0202 0x0700 [(0x0150, 0x4123)] = true := by decide

/-- V48: SAT 1,X'150'. -/
theorem test_sat :
    gives (step (start 0x0000 0x0200 0x0700 0x6C01 0x0150 [(0x0081, 0xFFFF), (0x0150, 0x0001)]))
      0x0024 0x0202 0x0700 [(0x0081, 0x000E), (0x0150, 0x0000)] = true := by decide

/-- V49: SAT 1,X'150'. -/
theorem test_sat_2 :
    gives (step (start 0x4000 0x0200 0x0700 0x6C01 0x0150 [(0x0081, 0x7FFF), (0x0150, 0x4000)]))
      0x4008 0x0202 0x0700 [(0x0081, 0x8000), (0x0150, 0x0000)] = true := by decide

/-- V40: ST 1,X'40'. -/
theorem test_st :
    goesOn (step (start 0x0000 0x0200 0x0700 0x4881 0x0040 [(0x0081, 0x0005), (0x0040, 0x9999)])) (fun t =>
      gives (.next t) 0x0420 0x0202 0x0700 [(0x0040, 0x9999)] && t.pendInternal) = true := by decide

/-- V44: ST 1,*X'150',2. -/
theorem test_st_2 :
    gives (step (start 0x0200 0x0200 0x0700 0x4BA1 0x0150 [(0x0081, 0x00AA), (0x0082, 0x0003), (0x0150, 0x0400),
        (0x0153, 0x0500)]))
      0x0220 0x0202 0x0700 [(0x0403, 0x00AA)] = true := by decide

/-- V80: BL 3,X'10',3. -/
theorem test_bl :
    gives (step (start 0x0000 0x0200 0x0700 0x76B3 0x0010 [(0x0083, 0x0400)]))
      0x0000 0x0410 0x0700 [(0x0083, 0x0200)] = true := by decide

/-- V82: *BL 3,*X'400',1. -/
theorem test_blInd :
    gives (step (start 0x0200 0x0200 0x0700 0x7713 0x0400 [(0x0081, 0x0002), (0x0400, 0x0500), (0x0402, 0x0600),
        (0x0502, 0x0999), (0x0600, 0x0650)]))
      0x0200 0x0650 0x0700 [(0x0083, 0x0200)] = true := by decide

/-- V87: BC 1,X'10',2. -/
theorem test_bc :
    gives (step (start 0x4000 0x0200 0x0700 0xE2A1 0x0010 [(0x0082, 0x0400)]))
      0x4000 0x0410 0x0700 [] = true := by decide

/-- V84: BC 11,X'300'. -/
theorem test_bc_2 :
    gives (step (start 0x0020 0x0200 0x0700 0xE08B 0x0300 []))
      0x0020 0x0202 0x0700 [] = true := by decide

/-- V89: *BC 11,*X'400',1. -/
theorem test_bcInd :
    gives (step (start 0x0210 0x0200 0x0700 0xE31B 0x0400 [(0x0081, 0x0002), (0x0400, 0x0500), (0x0402, 0x0600),
        (0x0502, 0x0999), (0x0600, 0x0650)]))
      0x0210 0x0650 0x0700 [] = true := by decide

/-- V101: DLA 1,X'140'. -/
theorem test_dla :
    gives (step (start 0x0000 0x0200 0x0700 0xC801 0x0140 [(0x0140, 0x7FFF), (0x0141, 0xFFFF)]))
      0x4008 0x0202 0x0700 [(0x0140, 0xFFFF), (0x0141, 0xFFFE)] = true := by decide

/-- V102: DRA 0,X'140'. -/
theorem test_dra :
    gives (step (start 0x0000 0x0200 0x0700 0xD400 0x0140 [(0x0140, 0x8000), (0x0141, 0x1234)]))
      0x0008 0x0202 0x0700 [(0x0140, 0xFFFF), (0x0141, 0x8000)] = true := by decide

/-- V103: DRL 0,X'140'. -/
theorem test_drl :
    gives (step (start 0x0000 0x0200 0x0700 0xD800 0x0140 [(0x0140, 0x8000), (0x0141, 0x1234)]))
      0x0010 0x0202 0x0700 [(0x0140, 0x0000), (0x0141, 0x8000)] = true := by decide

/-- V105: DRR 4,X'8F'. -/
theorem test_drr :
    gives (step (start 0x0000 0x0200 0x0700 0xDC04 0x008F [(0x008F, 0x000F), (0x0090, 0x00F0)]))
      0x0010 0x0202 0x0700 [(0x008F, 0x0000), (0x0090, 0xF00F)] = true := by decide

/-- V94: MLA 4,X'88'. -/
theorem test_mla :
    gives (step (start 0x0000 0x0200 0x0700 0x6004 0x0088 [(0x0088, 0xF123)]))
      0x4020 0x0202 0x0700 [(0x0088, 0x1230)] = true := by decide

/-- V95: MLA 1,X'40'. -/
theorem test_mla_2 :
    goesOn (step (start 0x0000 0x0200 0x0700 0x6001 0x0040 [(0x0040, 0x0001)])) (fun t =>
      gives (.next t) 0x0420 0x0202 0x0700 [(0x0040, 0x0001)] && t.pendInternal) = true := by decide

/-- V97: MRA 1,X'150'. -/
theorem test_mra :
    gives (step (start 0x0000 0x0200 0x0700 0x6401 0x0150 [(0x0150, 0x8001)]))
      0x0008 0x0202 0x0700 [(0x0150, 0xC000)] = true := by decide

/-- V98: MRR 1,X'150'. -/
theorem test_mrr :
    gives (step (start 0x0000 0x0200 0x0700 0x6801 0x0150 [(0x0150, 0x0001)]))
      0x0008 0x0202 0x0700 [(0x0150, 0x8000)] = true := by decide

/-- V107: B X'10',2,1. -/
theorem test_b :
    gives (step (start 0x0000 0x0200 0x0700 0x72AA 0x0010 [(0x0082, 0x0100), (0x0085, 0x1000)]))
      0x0000 0x1110 0x0700 [] = true := by decide

/-- V111: *B X'400',,1. -/
theorem test_bInd :
    gives (step (start 0x0000 0x0200 0x0700 0x700A 0x0400 [(0x0085, 0x1000), (0x0400, 0x0022)]))
      0x0000 0x1022 0x0700 [] = true := by decide

/-- V110: *B X'400',2. -/
theorem test_bInd_2 :
    gives (step (start 0x0200 0x0200 0x0700 0x7222 0x0400 [(0x0082, 0x0003), (0x0403, 0x0650)]))
      0x0200 0x0650 0x0700 [] = true := by decide

/-- V114: LDS X'300'. -/
theorem test_lds :
    gives (step (start 0x0000 0x0200 0x0700 0x7C00 0x0300 [(0x0300, 0x0212), (0x0301, 0x81C4)]))
      0x81C4 0x0212 0x0700 [] = true := by decide

/-- V115: LDS X'300',,1. -/
theorem test_lds_2 :
    gives (step (start 0x8000 0x0700 0x0200 0x7C08 0x0300 [(0x0085, 0x2000), (0x008D, 0x1000), (0x0300, 0x0012),
        (0x0301, 0x8000)]))
      0x8000 0x0700 0x1012 [] = true := by decide

/-- V113: NOP (unused bits set). -/
theorem test_nop :
    gives (step (start 0x0000 0x0200 0x0700 0x737F 0xFFFF []))
      0x0000 0x0202 0x0700 [] = true := by decide

/-- V118: SS X'300',,1. -/
theorem test_ss :
    gives (step (start 0x0020 0x0200 0x0700 0x788E 0x0300 [(0x0085, 0x0200)]))
      0x0020 0x0202 0x0700 [(0x0300, 0x0002), (0x0301, 0x0020)] = true := by decide

/-- V119: SS X'7F'. -/
theorem test_ss_2 :
    goesOn (step (start 0x0020 0x0200 0x0700 0x7886 0x007F [(0x0080, 0x1111), (0x007F, 0x2222)])) (fun t =>
      gives (.next t) 0x0420 0x0202 0x0700 [(0x0080, 0x0420), (0x007F, 0x2222)] && t.pendInternal) = true := by decide

/-- V121: SSB X'300',,1. -/
theorem test_ssb :
    gives (step (start 0x0000 0x0200 0x0700 0x788A 0x0300 [(0x0085, 0x0100), (0x0302, 0x0010)]))
      0x0000 0x0110 0x0700 [(0x0300, 0x0102), (0x0301, 0x0000)] = true := by decide

/-- V122: SXBS *X'7F'. -/
theorem test_sxbs :
    gives (step (start 0x8020 0x0700 0x0200 0x7980 0x007F [(0x007F, 0x0500), (0x0502, 0x0600)]))
      0x0020 0x0600 0x0202 [(0x0500, 0x0202), (0x0501, 0x8020)] = true := by decide

/-- V124: SXBS X'500',,1. -/
theorem test_sxbs_2 :
    gives (step (start 0x8000 0x0700 0x0200 0x7888 0x0500 [(0x0085, 0x0100), (0x008D, 0x0900), (0x0502, 0x0010)]))
      0x0000 0x0110 0x0202 [(0x0500, 0x0102), (0x0501, 0x8000)] = true := by decide

/-- V125: SXBW X'300'. -/
theorem test_sxbw :
    gives (step (start 0x0000 0x0200 0x0700 0x7881 0x0300 [(0x0302, 0x0700)]))
      0x8000 0x0202 0x0700 [(0x0300, 0x0202), (0x0301, 0x0000)] = true := by decide

/-- V127: SXS X'300'. -/
theorem test_sxs :
    gives (step (start 0x8000 0x0700 0x0200 0x7884 0x0300 []))
      0x0000 0x0700 0x0202 [(0x0300, 0x0202), (0x0301, 0x8000)] = true := by decide

/-- V128: SXW X'300'. -/
theorem test_sxw :
    gives (step (start 0x0000 0x0200 0x0700 0x7885 0x0300 []))
      0x8000 0x0202 0x0700 [(0x0300, 0x0202), (0x0301, 0x0000)] = true := by decide

/-- V129: XS. -/
theorem test_xs :
    gives (step (start 0x8000 0x0700 0x0200 0x7004 0x0000 []))
      0x0000 0x0700 0x0202 [] = true := by decide

/-- V132: XSB X'10',2,1. -/
theorem test_xsb :
    gives (step (start 0x8000 0x0700 0x0200 0x72A8 0x0010 [(0x0082, 0x0300), (0x0085, 0x1000), (0x008A, 0x0100),
        (0x008D, 0x0900)]))
      0x0000 0x1110 0x0202 [] = true := by decide

/-- V133: *XSB *X'400',1. -/
theorem test_xsbInd :
    gives (step (start 0x8200 0x0700 0x0200 0x7310 0x0400 [(0x0089, 0x0002), (0x0400, 0x0500), (0x0402, 0x0600),
        (0x0502, 0x0999), (0x0600, 0x0650)]))
      0x0200 0x0999 0x0202 [] = true := by decide

/-- V131: XW. -/
theorem test_xw :
    gives (step (start 0x0000 0x0200 0x0700 0x7005 0x0000 []))
      0x8000 0x0202 0x0700 [] = true := by decide

/-- V134: XWB X'700',,1. -/
theorem test_xwb :
    gives (step (start 0x0000 0x0200 0x0700 0x7089 0x0700 [(0x0085, 0x1000), (0x008D, 0x0100)]))
      0x8000 0x0202 0x0800 [] = true := by decide

/-- V135: *XWB X'400'. -/
theorem test_xwbInd :
    gives (step (start 0x0000 0x0200 0x0700 0x7001 0x0400 [(0x0400, 0x0060)]))
      0x8000 0x0202 0x0060 [] = true := by decide

/-- V146: ARB 1,X'10',5,1. -/
theorem test_arb :
    gives (step (start 0x0000 0x0200 0x0700 0x0CD1 0x0010 [(0x0085, 0x0200)]))
      0x0020 0x0211 0x0700 [(0x0085, 0x0201)] = true := by decide

/-- V141: ARB 1,X'200',2. -/
theorem test_arb_2 :
    gives (step (start 0x4004 0x0200 0x0700 0x0C21 0x0300 [(0x0082, 0x7FFF)]))
      0x400C 0x0202 0x0700 [(0x0082, 0x8000)] = true := by decide

/-- V148: ADAC (aq = 0x003). -/
theorem test_adac :
    goesOn (step (start 0x0020 0x0200 0x0700 0x2403 0x0400 [])) (fun t =>
      gives (.next t) 0x0020 0x0202 0x0700 [] && t.outbox == [.dmac 0x003 0x0400 none]) = true := by decide

/-- V150: STPS X'10',2. -/
theorem test_stps :
    gives (step { start 0x0000 0x0200 0x0700 0xE6A0 0x0010 [(0x0082, 0x0300)] with switches := 0x7FFF })
      0x0020 0x0202 0x0700 [(0x0310, 0x7FFF)] = true := by decide

/-- V153: CM (3,4),(5,4). -/
theorem test_cm :
    gives (step (start 0x0008 0x0200 0x0700 0x1003 0x9005 [(0x0084, 0x0100), (0x0103, 0x7FFF), (0x0105, 0x8000)]))
      0x0008 0x0204 0x0700 [] = true := by decide

/-- V157: CML (0,4),(2,4). -/
theorem test_cml :
    gives (step (start 0x0000 0x0200 0x0700 0x1800 0x9002 [(0x0084, 0x0100), (0x0100, 0x0005), (0x0102, 0x0009),
        (0x0103, 0x0001)]))
      0x0000 0x0202 0x0700 [] = true := by decide

/-- V156: CML (0,4),(2,4). -/
theorem test_cml_2 :
    gives (step (start 0x0000 0x0200 0x0700 0x1800 0x9002 [(0x0084, 0x0100), (0x0100, 0xFFFF), (0x0102, 0xFFFE),
        (0x0103, 0x0001)]))
      0x0000 0x0206 0x0700 [] = true := by decide

/-- V160: MOV (0,0),(1,0). -/
theorem test_mov :
    gives (step (start 0x0000 0x0200 0x0700 0x1400 0x0001 [(0x0080, 0x0088), (0x0088, 0xBEEF)]))
      0x0008 0x0202 0x0700 [(0x0089, 0xBEEF)] = true := by decide

/-- V164: BRRL 5,(X'10',5). -/
theorem test_brrl :
    gives (step (start 0x0000 0x0220 0x0700 0x2805 0x1410 [(0x0085, 0x0200)]))
      0x0000 0x0210 0x0700 [(0x0085, 0x0022)] = true := by decide

/-- V167: AMI (2,4),-4096. -/
theorem test_ami :
    gives (step (start 0x0000 0x0200 0x0700 0x2002 0x9000 [(0x0084, 0x0100), (0x0102, 0x1000)]))
      0x0014 0x0202 0x0700 [(0x0102, 0x0000)] = true := by decide

/-- V171: CMI (0,2),X'1FF0'. -/
theorem test_cmi :
    gives (step (start 0x0000 0x0200 0x0700 0x1C00 0x5FF0 [(0x0082, 0x0300), (0x0300, 0xFFF0)]))
      0x0000 0x0206 0x0700 [] = true := by decide

/-- V174: SETF (4,6),1. -/
theorem test_setf :
    gives (step (start 0x0008 0x0200 0x0700 0x8804 0x6800 [(0x0086, 0x0150), (0x0154, 0x8001)]))
      0x0008 0x0202 0x0700 [(0x0154, 0x8201)] = true := by decide

/-- V181: XFNE (0,3),1. -/
theorem test_xfne :
    gives (step (start 0x0000 0x0200 0x0700 0x8000 0x3800 [(0x0086, 0x0150), (0x0150, 0x0000)]))
      0x8000 0x0200 0x0700 [] = true := by decide

/-- V182: XFNE #(0,3),0. -/
theorem test_xfne_2 :
    gives (step (start 0x8000 0x0700 0x0200 0x8000 0x3400 [(0x0086, 0x0150), (0x008E, 0x0160), (0x0150, 0x1000),
        (0x0160, 0x0000)]))
      0x0000 0x0700 0x0200 [] = true := by decide

/-- V184: BFNE #(4,1),0,X'3FF'. -/
theorem test_bfne :
    gives (step (start 0x0000 0x0200 0x0700 0x8404 0x17FF [(0x0085, 0xFFFF), (0x0086, 0x0010), (0x008D, 0x1111),
        (0x008E, 0x0020), (0x0014, 0x0000), (0x0024, 0x4000)]))
      0x0000 0x03FE 0x0700 [] = true := by decide

/-- V185: SETB X'3FF',1. -/
theorem test_setb :
    goesOn (step (start 0x0000 0x0200 0x0700 0x37FF 0x0800 [(0x0087, 0x0F00)])) (fun t =>
      gives (.next t) 0x0000 0x0202 0x0700 [] && t.outbox == [.cru 0x2FF true]) = true := by decide

/-- V189: XBNE 2,0. -/
theorem test_xbne :
    gives (step { start 0x0000 0x0200 0x0700 0x3802 0x0000 [(0x0087, 0x0F00)] with cruIn := [0xF02] })
      0x8000 0x0200 0x0700 [] = true := by decide

/-- V191: BBNE #2,1,X'10'. -/
theorem test_bbne :
    gives (step { start 0x8000 0x0700 0x0200 0x3002 0x0C10 [(0x0085, 0x0900), (0x0087, 0x0F00),
        (0x008D, 0x0200), (0x008F, 0x0E00)] with cruIn := [0xE02] })
      0x8000 0x0700 0x0210 [] = true := by decide

/-- V195: TSBX #1,1,2,1. -/
theorem test_tsbx :
    gives (step (start 0x0000 0x0200 0x0700 0x3C01 0x1C02 [(0x0087, 0x0F00), (0x008F, 0x0E00)]))
      0x0000 0x0202 0x0700 [] = true := by decide

/-- V192: TSBX 1,1,2,1. -/
theorem test_tsbx_2 :
    goesOn (step { start 0x0000 0x0200 0x0700 0x3C01 0x1802 [(0x0087, 0x0F00)] with cruIn := [0xF01] }) (fun t =>
      gives (.next t) 0x0000 0x0202 0x0700 [] && t.outbox == [.cru 0xF02 true]) = true := by decide

/-- V198: LDCR (X'3FE',4),0. -/
theorem test_ldcr :
    goesOn (step (start 0x0000 0x0200 0x0700 0x0BFE 0x4000 [(0x0084, 0x0100), (0x0087, 0x0C00), (0x0100, 0xFFF5)])) (fun t =>
      gives (.next t) 0x0000 0x0202 0x0700 [] && t.outbox == [.cru 0xFFE true, .cru 0xFFF false, .cru 0x000 true, .cru 0x001 false]) = true := by decide

/-- V201: STCR (0,3),0. -/
theorem test_stcr :
    gives (step { start 0x0000 0x0200 0x0700 0x2C00 0x3000 [(0x0084, 0x0100),
        (0x0087, 0x0F70)] with cruIn := [0xF70, 0xF71] })
      0x0020 0x0202 0x0700 [(0x0100, 0x0003)] = true := by decide

/-- N, OR, XOR with the operands worked out by hand (40_format_IA R176, R178, R184). -/
theorem test_n :
    gives (step (start 0 0x0200 0x0700 0x5801 0x0150 [(0x0081, 0xF0F0), (0x0150, 0xFF00)]))
      0x0008 0x0202 0x0700 [(0x0081, 0xF000)] = true := by decide

theorem test_or :
    gives (step (start 0 0x0200 0x0700 0x5C01 0x0150 [(0x0081, 0x00F0), (0x0150, 0x0F00)]))
      0x0020 0x0202 0x0700 [(0x0081, 0x0FF0)] = true := by decide

theorem test_xor :
    gives (step (start 0 0x0200 0x0700 0x4001 0x0150 [(0x0081, 0xF0F0), (0x0150, 0xFF00)]))
      0x0020 0x0202 0x0700 [(0x0081, 0x0FF0)] = true := by decide

/-! ## Protection, undefined codes, interrupts, the panel -/

/-- V43: ST 1,X'A8'. -/
theorem test_protected_limit :
    goesOn (step { start 0x0000 0x0200 0x0700 0x4881 0x00A8 [(0x0081, 0x0005)] with config := { protectSteps := 5 } }) (fun t =>
      gives (.next t) 0x0420 0x0202 0x0700 [(0x00A8, 0x0000)] && t.pendInternal) = true := by decide

/-- V55: M 2,X'150'. -/
theorem test_option_absent :
    goesOn (step { start 0x0000 0x0200 0x0700 0xCC02 0x0150 [(0x0082, 0x0003),
        (0x0150, 0x0004)] with config := { hasArithOption := false } }) (fun t =>
      gives (.next t) 0x0800 0x0202 0x0700 [] && t.pendInternal) = true := by decide

/-- V206: (op 8C). -/
theorem test_undefined_code :
    goesOn (step (start 0x8000 0x0700 0x0200 0x8FFF 0xFFFF [])) (fun t =>
      gives (.next t) 0x8800 0x0700 0x0202 [] && t.pendInternal) = true := by decide

/-- V137: a sub-code without an instruction. -/
theorem test_unlisted : refuses (step (start 0 0x0200 0x0700 0x7003 0x0000 [])) (.unlistedCode 0x7003) = true := by decide

/-- V210: internal interrupt in Worker Mode through SXBS. -/
theorem test_interrupt_internal :
    gives (step { start 0x8820 0x0150 0x0302 0 0 [(0x0090, 0x7880), (0x0091, 0x0400), (0x0402, 0x0500)] with
        pendInternal := true })
      0x09E0 0x0500 0x0302 [(0x0400, 0x0302), (0x0401, 0x8820)] = true := by decide

/-- V217: the location holds NOP, the counter stays. -/
theorem test_interrupt_nop :
    gives (step { start 0x0800 0x0200 0x0700 0x4C81 0x0001 [(0x0090, 0x7007)] with pendInternal := true })
      0x09C0 0x0200 0x0700 [] = true := by decide

/-- V219: CRU interrupt, BL in the location links to the interrupted counter. -/
theorem test_interrupt_cru :
    gives (step { start 0 0x0200 0x0700 0 0 [(0x0094, 0x7483), (0x0095, 0x0600)] with cruLine := true })
      0x00C0 0x0600 0x0700 [(0x0083, 0x0200)] = true := by decide

/-- V212: a masked request waits. -/
theorem test_interrupt_masked :
    goesOn (step { start 0x0900 0x0200 0x0700 0x7007 0 [(0x0090, 0x7880), (0x0091, 0x0400)] with pendInternal := true })
      (fun t => gives (.next t) 0x0900 0x0202 0x0700 [] && t.pendInternal) = true := by decide

/-- EC80 without the Arithmetic Option is an undefined code (30_encoding R133; log 31), with it an unlisted one. -/
theorem test_unlisted_without_option :
    (gives (step { start 0 0x0200 0x0700 0xEC80 0x0000 [] with config := { hasArithOption := false } })
        0x0800 0x0202 0x0700 []
      && refuses (step (start 0 0x0200 0x0700 0xEC80 0x0000 [])) (.unlistedCode 0xEC80)) = true := by decide

/-- A DMAC write between the read and the write of `MOV` (20_memory R77): the word moved is the old one, and the word
stored over it is the CPU's. The accesses are two fetches, the read and the store. -/
theorem test_dmac_inside :
    gives (step { start 0 0x0200 0x0700 0x1403 0x9416 [(0x0084, 0x0300), (0x0085, 0x0400), (0x0303, 0x1111)] with
        inbox := [.cpuTurn [{}, {}, {}, { dmac := [(0x0303, 0x2222), (0x0416, 0x3333)] }]] })
      0x0020 0x0202 0x0700 [(0x0303, 0x2222), (0x0416, 0x1111)] = true := by decide

/-- The index register is read before the indirect word (30_encoding R119): `LA 2,*X'150',3`, post-indexed, with a DMAC
write to register 3 just before the indirect read. -/
theorem test_index_read_first :
    gives (step { start 0x0200 0x0200 0x0700 0x47B2 0x0150 [(0x0083, 0x0004), (0x0150, 0x0300)] with
        inbox := [.cpuTurn [{}, {}, { dmac := [(0x0083, 0x0100)] }]] })
      0x0220 0x0202 0x0700 [(0x0082, 0x0304), (0x0083, 0x0100)] = true := by decide

/-- Both base registers are read before operand 1 (44_format_II R250): `MOV`, with a DMAC write to the second base
register just before operand 1 is read. -/
theorem test_bases_read_first :
    gives (step { start 0 0x0200 0x0700 0x1403 0x9416 [(0x0084, 0x0300), (0x0085, 0x0400), (0x0303, 0x1111)] with
        inbox := [.cpuTurn [{}, {}, { dmac := [(0x0085, 0x0500)] }]] })
      0x0020 0x0202 0x0700 [(0x0085, 0x0500), (0x0416, 0x1111), (0x0516, 0)] = true := by decide

/-- The dividend is read before the divisor (40_format_IA R159): `D 2,X'300'`, with DMAC writes to both just before the
divisor is read, so that 7 is divided by 3. -/
theorem test_dividend_read_first :
    gives (step { start 0 0x0200 0x0700 0xD002 0x0300 [(0x0083, 0x0007), (0x0300, 0x0002)] with
        inbox := [.cpuTurn [{}, {}, {}, {}, { dmac := [(0x0083, 0x0064), (0x0300, 0x0003)] }]] })
      0x0020 0x0202 0x0700 [(0x0082, 0x0001), (0x0083, 0x0002)] = true := by decide

/-- The operand read meets an error: MP, and whatever word is delivered (60_exceptions R336). `L 1,X'150'`. -/
theorem test_memory_error :
    goesOn (step { start 0 0x0200 0x0700 0x4401 0x0150 [(0x0150, 0x1111)] with
        inbox := [.cpuTurn [{}, {}, { error := some 0x8000 }]] })
      (fun t => gives (.next t) 0x2008 0x0202 0x0700 [(0x0081, 0x8000), (0x0150, 0x1111)] && t.pendInternal) = true := by
  decide

/-- Power goes down only after power loss was sensed (70_reset R392). -/
theorem test_power_down :
    (goesOn (handle .powerDown (start 0 0 0 0 0 [])) (fun t => t.power == .on && t.running)
      && goesOn (handle .powerDown { start 0 0 0 0 0 [] with power := .failing }) (fun t => t.power == .off && !t.running))
      = true := by decide

/-- MDI enters memory and increments MA (10_state R50). -/
theorem test_panel_enter :
    goesOn (step { State.reset with ma := 0x0300, switches := 0x1234, inbox := [.enter .mdi] })
      (fun t => t.peek 0x0300 == 0x1234 && t.ma == 0x0301 && t.inbox == []) = true := by decide

/-- From reset, with nothing placed, a step changes nothing: the machine is halted (70_reset R381). -/
theorem test_reset_halted : goesOn (step State.reset) (fun t => t == State.reset) = true := by decide

/-- The host's placing of a word: the next step runs it. `LA 2,15` is 4482 000F (spec/95_test_vectors S3). -/
theorem test_withFetchWord :
    gives (step (State.reset.withFetchWord 32 0x4482000F)) 0x0020 0x0002 0 [(0x0082, 0x000F)] = true := by decide

/-! ## Witnesses: the hypotheses of each statement can be met together -/

/-- ST = 0 (or `st`), registers 2 = 3 and 5 = 0x1000, an indirect word 0x150 -> 0x300, and words 0x300 on. -/
def demo (st : Word) : State :=
  start st 0x0200 0x0700 0x7007 0
    [(0x0082, 0x0003), (0x0083, 0x0007), (0x0085, 0x1000), (0x0150, 0x0300), (0x0153, 0x0340), (0x0300, 0x1234),
     (0x0301, 0x0005), (0x0340, 0xFFFE)]

/-- `X'300'` and `*X'150',2`. -/
def direct : Address := ⟨false, none, 0x0300⟩

@[inherit_doc direct] def indirect : Address := ⟨true, some 2, 0x0150⟩

/-- `exec` answers a next state. -/
def runs (i : Instr) (s : State) : Bool := goesOn (exec i s) fun _ => true

theorem exists_next {i : Instr} {s : State} (h : runs i s = true) : ∃ t, exec i s = .next t :=
  (next_of_goesOn h).imp fun _ h => h.1

theorem witness_DecodeOfEncode :
    (Instr.mla 16 direct).WellFormed ∧ (Instr.mla 1 direct).WellFormed ∧ (Instr.stcr true 0 16 0).WellFormed
    ∧ (Instr.ldcr true 0 1 0).WellFormed ∧ Instr.nop.WellFormed := by decide

theorem witness_UnlistedCodesRefused :
    let s := start 0 0x0200 0x0700 0x7003 0 []
    s.during = [] ∧ s.readable2 s.ctr = true ∧ s.interrupt = none ∧ field (s.peek s.ctr) 0 5 ∉ [0x3A, 0x3B]
    ∧ decodeWith s.config.layout (s.peek s.ctr) (s.peek (s.ctr + 1#16)) = .unlisted := by decide

theorem witness_UnusedBitsIgnored :
    field 0x0F2F 0 5 = 0x03 ∧ field 0xE48F 0 5 = 0x39 ∧ field 0x3405 0 5 = 0x0D ∧ field 0x3802 0 5 = 0x0E
    ∧ field 0x3002 0 5 = 0x0C ∧ field 0x8000 0 5 = 0x20 ∧ field 0x8800 0 5 = 0x22 ∧ field 0x0BFE 0 5 = 0x02
    ∧ field 0x2C00 0 5 = 0x0B ∧ (field 0x737F 0 5 = 0x1C ∧ flag 0x737F 8 = false ∧ field 0x737F 13 15 ∈ [4, 5, 7])
    ∧ field 0x2BFB 0 5 = 0x0A ∧ field 0x3FFF 0 5 = 0x0F := by decide

theorem witness_StepKeepsInv : ∃ t, Inv (demo 0) ∧ step (demo 0) = .next t := by
  obtain ⟨t, h, -⟩ := next_of_goesOn (r := step (demo 0)) (p := fun _ => true) (by decide)
  exact ⟨t, ⟨by decide, by decide, by decide, by decide, by decide, by decide, by decide, by decide, by decide⟩, h⟩

/-- With no event, and with a turn of the CPU during which the DMAC changes the second word before it is fetched. -/
theorem witness_StepRunsDecoded :
    let s := start 0 0x0200 0x0700 0x4482 0x000F []
    let d : List MemoryCycle := [{}, { dmac := [(0x0201, 0x0010)] }]
    let s' : State := { s with inbox := [.cpuTurn d] }
    let s0 : State := { s with during := d }
    s'.inbox = .cpuTurn d :: [] ∧ s'.active = true ∧ s'.interrupt = none ∧ s'.readable2 s'.ctr = true
    ∧ decodeWith s'.config.layout (s0.readWord s.ctr) ((s0.afterRead s.ctr).readWord (s.ctr + 1#16))
      = .instr (.la ⟨false, 2⟩ ⟨false, none, 0x0010⟩) ∧
    s.inbox = [] ∧ s.active = true ∧ s.interrupt = none ∧ s.readable2 s.ctr = true
    ∧ decodeWith s.config.layout (s.peek s.ctr) (s.peek (s.ctr + 1#16)) = .instr (.la ⟨false, 2⟩ ⟨false, none, 0x000F⟩) := by
  decide

theorem witness_ExecKeepsSurroundings : ∃ t, exec (.sat ⟨false, 2⟩ direct) (demo 0) = .next t := exists_next (by decide)

theorem witness_OnlyListedWriteArithmeticFlags :
    (∃ t, exec (.m ⟨false, 2⟩ direct) (demo 0) = .next t) ∧ (Instr.m ⟨false, 2⟩ direct).writesOI = false
    ∧ (Instr.m ⟨false, 2⟩ direct).writesCO = false := ⟨exists_next (by decide), by decide, by decide⟩

theorem witness_ComparisonBits :
    (demo 0).config.setfWritesCB = false ∧ (demo 0).config.hasArithOption = true
    ∧ (∃ t, exec (.d ⟨false, 2⟩ direct) (demo 0) = .next t) ∧ (Instr.d ⟨false, 2⟩ direct).writesCB = true
    ∧ (∃ t, exec (.setf false 0x300 0 true) (demo 0) = .next t) ∧ (Instr.setf false 0x300 0 true).writesCB = false
    ∧ ∀ o rq, Instr.setf false 0x300 0 true ≠ .lds o rq :=
  ⟨by decide, by decide, exists_next (by decide), by decide, exists_next (by decide), by decide, nofun⟩

theorem witness_OnlyListedWriteMI :
    (∃ t, exec (.ss direct true) (demo 0x8000) = .next t) ∧ (Instr.ss direct true).writesMI = false :=
  ⟨exists_next (by decide), by decide⟩

theorem witness_OnlyLdsWritesMasks :
    (∃ t, exec (.sxbs direct true) (demo 0) = .next t) ∧ ∀ o rq, Instr.sxbs direct true ≠ .lds o rq :=
  ⟨exists_next (by decide), nofun⟩

theorem witness_InactiveCounterKept :
    (∃ t, exec (.xw) (demo 0) = .next t) ∧ Instr.xw.loadsOtherCounter = false := ⟨exists_next (by decide), by decide⟩

theorem witness_OthersKeepMemory :
    (∃ t, exec (.l ⟨true, 7⟩ indirect) (demo 0) = .next t) ∧ (Instr.l ⟨true, 7⟩ indirect).writesMemory = false
    ∧ ∀ c ∈ (demo 0).during, c.dmac = [] := ⟨exists_next (by decide), by decide, by decide⟩

theorem witness_ProtectedWordsKept :
    let s := start 0 0x0200 0x0700 0x4881 0x007F [(0x0081, 0x0005)]
    let s' := { s with config := { protectSteps := 1 } }
    ((s.mpo = false ∧ ∀ c ∈ s.during, c.dmac = []) ∧ ∃ t, cpuStep s = .next t) ∧ (s'.mpo = false ∧ ∃ t, cpuStep s' = .next t)
    ∧ (0x7F#16).toNat ≤ s.config.protectLimit ∧ ¬(0x80 ≤ (0x7F#16).toNat ∧ (0x7F#16).toNat ≤ 0xA7)
    ∧ (0xA8#16).toNat ≤ s'.config.protectLimit ∧ ¬(0x80 ≤ (0xA8#16).toNat ∧ (0xA8#16).toNat ≤ 0xA7) := by
  refine ⟨⟨by decide, ?_⟩, ⟨by decide, ?_⟩, by decide, by decide, by decide, by decide⟩
  · exact (next_of_goesOn (p := fun _ => true) (by decide)).imp fun _ h => h.1
  · exact (next_of_goesOn (p := fun _ => true) (by decide)).imp fun _ h => h.1

theorem witness_RegisterOverlay :
    State.reset.during = [] ∧ 0x80 ≤ (0x80#16).toNat ∧ (0x80#16).toNat ≤ 0x8F ∧ 0x80 ≤ (0x8F#16).toNat ∧ (0x8F#16).toNat ≤ 0x8F := by decide

theorem witness_ProtectedWrite :
    let s := State.reset
    let s' := { s with config := { protectSteps := 9 } }
    (s.during = [] ∧ (0x7F#16).toNat ≤ s.config.protectLimit ∧ ¬(0x80 ≤ (0x7F#16).toNat ∧ (0x7F#16).toNat ≤ 0xA7)
      ∧ s.mpo = false)
    ∧ ((0xFFFF#16).toNat ≤ s'.config.protectLimit ∧ ¬(0x80 ≤ (0xFFFF#16).toNat ∧ (0xFFFF#16).toNat ≤ 0xA7))
    ∧ { s with mpo := true }.mpo = true ∧ s.config.protectLimit < (0x80#16).toNat
    ∧ (0x80 ≤ (0xA7#16).toNat ∧ (0xA7#16).toNat ≤ 0xA7) ∧ s.readable 0xFFFF = true := by decide

theorem witness_EffectiveAddress :
    let small := { demo 0 with pc := 0x1000, config := { model := .m960A, memWords := 4096 } }
    ((demo 0).during = [] ∧ (demo 0).stBit 6 = false) ∧ ((demo 0x0200).during = [] ∧ (demo 0x0200).stBit 6 = true)
    ∧ true ≠ false
    ∧ (small.during = [] ∧ small.eaOk ⟨true, none, 0x1000⟩ false = false ∧ small.readable 0x1000 = false
      ∧ small.interrupt = none ∧ small.readable small.ctr = false) := by decide

/-- For LoadAndLogicOperand, LoadAndLogicAddress, AddAndSubtract, Compare, StoreRegisterAndSwitches, BranchAndLink,
BranchOnCondition, BranchAndNop and Transfer: direct, and indirect with an index, before and after the indirection. -/
theorem witness_operands :
    (demo 0).during = [] ∧ (demo 0x0200).during = [] ∧ (demo 0x8200).during = [] ∧ (demo 0).eoOk direct false = true ∧ (demo 0).eoOk indirect false = true ∧ (demo 0x0200).eoOk indirect false = true
    ∧ (demo 0x0200).eoOk indirect true = true ∧ (demo 0).eaOk direct false = true ∧ (demo 0).eaOk indirect true = true
    ∧ (demo 0x8200).eaOk indirect false = true := by decide

theorem witness_BranchOnCondition :
    (demo 0x0010).during = [] ∧ (demo 0x0020).during = []
    ∧ ((demo 0x0010).eoOk indirect true = true ∧ ((demo 0x0010).afterEA indirect true).stBit (11#4).toNat = true)
    ∧ ((demo 0x0020).eaOk indirect true = true ∧ ((demo 0x0020).afterEA indirect true).stBit (11#4).toNat = false) := by
  decide

/-- The operand is 0x1234 (3 leading zeros), 0 (16), and the register itself. -/
theorem witness_ShiftAndAddTally :
    let s := demo 0
    let own : Address := ⟨false, none, 0x0082⟩
    s.during = [] ∧ (s.eoOk direct false = true ∧ 3 ≤ 16 ∧ (∀ i, i < 3 → (s.eo direct false).getMsbD i = false)
      ∧ (s.eo direct false).getMsbD 3 = true ∧ s.ea direct false ≠ s.refAddress ⟨false, 2⟩)
    ∧ (s.eoOk ⟨false, none, 0x0310⟩ false = true ∧ ∀ i, i < 16 → (s.eo ⟨false, none, 0x0310⟩ false).getMsbD i = false)
    ∧ (s.eoOk own false = true ∧ (∀ i, i < 14 → (s.eo own false).getMsbD i = false)
      ∧ (s.eo own false).getMsbD 14 = true ∧ s.ea own false = s.refAddress ⟨false, 2⟩) := by decide

theorem witness_ShiftWord :
    (demo 0).during = [] ∧ (demo 0).eoOk indirect false = true ∧ (1 ≤ 1 ∧ 1 ≤ 16) ∧ (1 ≤ 16 ∧ 16 ≤ 16) := by decide

/-- For ShiftDouble, Multiply and DoubleAddAndSubtract. -/
theorem witness_doubles :
    (demo 0).during = [] ∧ (demo 0).config.hasArithOption = true ∧ (demo 0).eo2Ok indirect = true ∧ (demo 0).eoOk indirect false = true
    ∧ (demo 0).eaOk indirect false = true ∧ (demo 0).readable2 ((demo 0).refAddress ⟨true, 7⟩) = true := by decide

/-- 7 / -2 = -3 remainder 1 (V56) and -65536 / 2 = -32768 remainder 0 (V59). -/
theorem witness_DivideFits :
    let s := start 0 0x0200 0x0700 0 0 [(0x0082, 0), (0x0083, 7), (0x0130, 0xFFFE)]
    let s' := start 0 0x0200 0x0700 0 0 [(0x0082, 0xFFFF), (0x0083, 0), (0x0130, 2)]
    let g : RegRef := ⟨false, 2⟩
    let o : Address := ⟨false, none, 0x0130⟩
    s.during = [] ∧ s'.during = [] ∧ (s.config.hasArithOption = true ∧ s.readable2 (s.refAddress g) = true ∧ s.eoOk o false = true
      ∧ (s.peek2 (s.refAddress g)).toInt = -3 * (s.eo o false).toInt + 1 ∧ (1 : Int).natAbs < (s.eo o false).toInt.natAbs)
    ∧ (s'.peek2 (s'.refAddress g)).toInt = -32768 * (s'.eo o false).toInt + 0 ∧ s'.eoOk o false = true
    ∧ (0 : Int).natAbs < (s'.eo o false).toInt.natAbs := by decide

/-- 65536 / 2 (V58) and a zero divisor (V60). -/
theorem witness_DivideOverflows :
    let s := start 0 0x0200 0x0700 0 0 [(0x0082, 1), (0x0083, 0), (0x0130, 2)]
    let g : RegRef := ⟨false, 2⟩
    let o : Address := ⟨false, none, 0x0130⟩
    s.during = [] ∧ s.config.hasArithOption = true ∧ s.readable2 (s.refAddress g) = true ∧ s.eoOk o false = true
    ∧ 32767 < (s.peek2 (s.refAddress g)).toInt.tdiv (s.eo o false).toInt
    ∧ s.eaOk ⟨false, none, 0⟩ false = true ∧ (s.ea ⟨false, none, 0⟩ false).toInt = 0 := by decide

theorem witness_OptionAbsent :
    { demo 0 with config := { hasArithOption := false } }.config.hasArithOption = false
    ∧ (Instr.drr 16 direct).optional = true := by decide

/-- For LoadStatus, StoreStatus and StoreStatusAndTransfer. -/
theorem witness_status_block :
    (demo 0).during = [] ∧ (demo 0).eo2Ok indirect = true ∧ (demo 0).eaOk indirect false = true
    ∧ (demo 0).readable ((demo 0).ea indirect false + 2#16) = true := by decide

/-- For CompareAndSkip, MoveWord and AddImmediateToMemory. -/
theorem witness_group_II :
    (demo 0).during = [] ∧ (demo 0).readable ((demo 0).baseAddress ⟨0x3FF, 5⟩) = true ∧ (demo 0).readable ((demo 0).baseAddress ⟨0, 2⟩) = true
    ∧ (demo 0).readable2 ((demo 0).baseAddress ⟨0x300, 0⟩) = true := by decide

/-- For SetFlag and TestFlag, a set and a clear flag. -/
theorem witness_flags :
    (demo 0).during = [] ∧ (demo 0).readable ((demo 0).flagAddress false 0x300) = true ∧ (demo 0).readable ((demo 0).flagAddress true 0x300) = true
    ∧ ((demo 0).peek ((demo 0).flagAddress false 0x300)).getMsbD (3#4).toNat = true
    ∧ ((demo 0).peek ((demo 0).flagAddress false 0x300)).getMsbD (0#4).toNat = false
    ∧ { demo 0 with config := { setfWritesCB := true } }.config.setfWritesCB = true := by decide

/-- For TestInputLine, SetOutputLines and StoreInputLines. -/
theorem witness_lines :
    let s := { demo 0 with cruIn := [3] }
    s.during = [] ∧ s.inputLine (s.lineAddress false 3) = true ∧ s.inputLine (s.lineAddress false 4) ≠ true
    ∧ s.readable (s.dataAddress false 0x300) = true ∧ (1 ≤ 1 ∧ 1 ≤ 16) ∧ (1 ≤ 16 ∧ 16 ≤ 16) := by decide

theorem witness_UndefinedCode :
    let s := start 0 0x0200 0x0700 0x0000 0 []
    let s' := { start 0 0x0200 0x0700 0xE880 0 [] with config := { hasArithOption := false } }
    (s.inbox = [] ∧ s.active = true ∧ s.interrupt = none ∧ s.inLocation = false ∧ s.readable2 s.ctr = true
      ∧ decodeWith s.config.layout (s.peek s.ctr) (s.peek (s.ctr + 1#16)) = .undefinedOp)
    ∧ (s'.inbox = [] ∧ s'.active = true ∧ s'.interrupt = none ∧ s'.inLocation = false ∧ s'.readable2 s'.ctr = true
      ∧ decodeWith s'.config.layout (s'.peek s'.ctr) (s'.peek (s'.ctr + 1#16)) = .unlisted
      ∧ s'.config.hasArithOption = false ∧ field (s'.peek s'.ctr) 0 5 ∈ [0x3A, 0x3B]) := by decide

/-- A read that meets an error. -/
theorem witness_RaiseCause :
    let s := { demo 0 with during := [{ error := some 0x5555 }] }
    isRegister 0x0300 = false ∧ s.readable 0x0300 = true ∧ s.during = { dmac := [], error := some 0x5555 } :: [] := by
  decide

/-- A machine with a DMAC request alone and NOP in its location. The word the DMAC stores at 0x96 is opaque, so that
the step is followed by the laws and not by evaluation. -/
def dmacDemo : State :=
  { start 0 0x0200 0x0700 0x7007 0 [(0x0092, 0x7007)] with
    dmac := (Vector.replicate 8 none).set 7 (some (0x1111, 0x2222)) }

theorem dmacDemo_runs : ∃ t, cpuStep dmacDemo = .next t := by
  have hi : dmacDemo.interrupt = some .dmac := by decide
  have hr : (dmacDemo.acknowledge .dmac).readable2 0x0092 = true := by
    simp only [State.readable2, State.readable_acknowledge]
    decide
  have hq : (dmacDemo.acknowledge .dmac).during = [] := by
    rw [State.acknowledge_during]
    decide
  have h0 : (dmacDemo.acknowledge .dmac).readWord 0x0092 = 0x7007 := by
    rw [State.readWord_quiet _ _ hq, State.peek_acknowledge _ _ _ (by decide)]
    decide
  have h1 : (dmacDemo.acknowledge .dmac).secondWord 0x0092 = 0 := by
    rw [State.secondWord_quiet _ _ hq, State.peek_acknowledge _ _ _ (by decide)]
    decide
  have hd : decodeWith (dmacDemo.acknowledge .dmac).config.layout 0x7007 0 = .instr .nop := by
    rw [State.acknowledge_config]
    decide
  have he := executeAt_of_readable (dmacDemo.acknowledge .dmac) exec 0x0092 hr
  rw [h0, h1, hd] at he
  have hn : exec .nop ((dmacDemo.acknowledge .dmac).fetched 0x0092)
      = .next ((dmacDemo.acknowledge .dmac).fetched 0x0092).advance := rfl
  dsimp only at he
  rw [hn] at he
  unfold cpuStep
  rw [hi]
  unfold takeInterrupt interruptLocation
  simp only [he]
  exact ⟨_, rfl⟩

/-- Each class once, with NOP in the location. -/
theorem witness_InterruptEntry :
    let s := start 0 0x0200 0x0700 0x7007 0 [(0x0090, 0x7007), (0x0094, 0x7007)]
    let s1 := { s with pendInternal := true }
    let s2 := { s with cruLine := true }
    (s1.interrupt = some .internal ∧ ∃ t, cpuStep s1 = .next t) ∧ (s2.interrupt = some .cru ∧ ∃ t, cpuStep s2 = .next t)
    ∧ (dmacDemo.interrupt = some .dmac ∧ ∃ t, cpuStep dmacDemo = .next t) := by
  refine ⟨⟨by decide, ?_⟩, ⟨by decide, ?_⟩, by decide, dmacDemo_runs⟩
  · exact (next_of_goesOn (p := fun _ => true) (by decide)).imp fun _ h => h.1
  · exact (next_of_goesOn (p := fun _ => true) (by decide)).imp fun _ h => h.1

/-- `SXBS X'400'` in the location (V210, V219). -/
theorem witness_InterruptLinkage :
    let s := start 0x8820 0x0150 0x0302 0 0 [(0x0090, 0x7880), (0x0091, 0x0400), (0x0402, 0x0500)]
    let s1 := { s with pendInternal := true }
    let s2 := { s with mem := (s.mem.putWord 0x0094 0x7880).putWord 0x0095 0x0400, cruLine := true }
    (s1.interrupt = some .internal ∧ s1.mem.word 0x0090 = 0x7880 ∧ s1.mem.word 0x0091 = 0x0400)
    ∧ (s2.interrupt = some .cru ∧ s2.mem.word 0x0094 = 0x7880 ∧ s2.mem.word 0x0095 = 0x0400)
    ∧ s.during = [] ∧ s.inLocation = false ∧ s.badWords = [] ∧ 0xA8 ≤ (0x0400#16).toNat
    ∧ (0x0400#16).toNat + 2 < s.config.memWords ∧ s.config.protectLimit < (0x0400#16).toNat
    ∧ s.config.memWords ≤ 65536 ∧ s.config.sxStoresTargetCounter = false := by decide

theorem witness_DmacWritesAndRecognized :
    let s := { demo 0 with dmac := (Vector.replicate 8 none).set 7 (some (0x1111, 0x2222)) }
    let s1 := { s with config := { dmacObeysProtect := true } }
    let s2 := { s with during := [{ dmac := [(0x0300, 0x5555)] }] }
    (s1.config.dmacObeysProtect = true ∧ s1.refusesWrite 0x007F = true ∧ s1.refusesWrite 0x0300 = false)
    ∧ s.config.dmacObeysProtect = false
    ∧ (s2.during = { dmac := [(0x0300, 0x5555)], error := none } :: [] ∧ s2.readable 0x0300 = true)
    ∧ 0xA8 ≤ s.config.memWords ∧ s.dmac[(7 : Fin 8)] = some (0x1111, 0x2222) ∧ (0x98#16) ≠ 0x96
    ∧ ∀ k : Fin 8, (s.dmac[k]).isSome = true → (0x98#16).toNat ≠ 0x98 + 2 * k.val ∧ (0x98#16).toNat ≠ 0x99 + 2 * k.val := by
  decide

theorem witness_PanelEnterAndDisplay :
    (demo 0).panelHalted = false ∧ State.reset.panelHalted = true ∧ PanelSwitch.pc ≠ .md ∧ PanelSwitch.pc ≠ .mdi ∧ State.reset.readable State.reset.ma = true := by decide

theorem witness_PowerEvents :
    (demo 0).power = .on ∧ { demo 0 with power := .off }.power ≠ .on ∧ { demo 0 with power := .off }.power = .off
    ∧ (demo 0).config.hasBattery = false ∧ isRegister 0x0300 = false ∧ (demo 0).installed 0x0300 = true
    ∧ { demo 0 with config := { hasBattery := true } }.config.hasBattery = true := by decide

theorem witness_RunControl :
    State.reset.panelLive = true ∧ { State.reset with modeRun := true }.modeRun = true ∧ State.reset.modeRun = false
    ∧ { State.reset with sie := true }.sie = true ∧ State.reset.running = false
    ∧ State.reset.sie = false := by decide

end Sys2Proof.Tests
end

/-! What an instruction may change: status bits, counters and surroundings, said once for all 78 (10_state R27 to R45),
and the statements of 10_state that rest on it. -/

namespace Sys2Proof

/-- LDS, which loads the whole of ST (10_state R32; 42_format_IC R217). -/
def Instr.isLds (i : Instr) : Bool :=
  match i with
  | .lds .. => true
  | _ => false

/-- SETF, which writes CB under `SETF_WRITES_CB` (45_format_III R265). -/
def Instr.isSetf (i : Instr) : Bool :=
  match i with
  | .setf .. => true
  | _ => false

/-- The bits of ST an instruction may write on purpose, in the terms of the frozen classes; MP, UC and MV (bits 2, 4
and 5), which any instruction may raise, are not spoken of. -/
def Instr.mayWrite (i : Instr) (setfCB : Bool) (j : Nat) : Bool :=
  match j with
  | 0 => i.writesMI
  | 1 => i.writesOI
  | 10 | 11 | 12 => i.isLds || i.writesCB || (i.isSetf && setfCB)
  | 13 => i.writesCO
  | _ => i.isLds

theorem Instr.isLds_eq_false {i : Instr} (h : ∀ o rq, i ≠ .lds o rq) : i.isLds = false := by
  cases i with
  | lds o rq => exact absurd rfl (h o rq)
  | _ => rfl

theorem Instr.mayWrite_lds (o : Address) (rq c : Bool) (j : Nat) : (Instr.lds o rq).mayWrite c j = true := by
  unfold Instr.mayWrite
  split <;> rfl

theorem Instr.mayWrite_comparison (i : Instr) (c : Bool) {j : Nat} (hj : j ∈ [10, 11, 12]) :
    i.mayWrite c j = (i.isLds || i.writesCB || (i.isSetf && c)) := by
  fin_cases hj <;> rfl

end Sys2Proof

namespace Sys2Proof.Machine

/-! ## What a result ensures of the next state -/

/-- If the result is a next state, P holds of it. -/
def Ensures (P : State → Prop) (r : Result) : Prop := ∀ t, r = .next t → P t

section
variable {P : State → Prop} {s : State}

theorem Ensures.next (h : P s) : Ensures P (.next s) := fun _ e => Host.Outcome.next.inj e ▸ h

theorem Ensures.withRead {a : Word} {k : Word → State → Result}
    (h : Ensures P (k (s.readWord a) (s.afterRead a))) : Ensures P (withRead s a k) :=
  fun t e => h t (withRead_next s e).2

theorem Ensures.withRead2 {a : Word} {k : DWord → State → Result}
    (h : Ensures P (k (s.readWord a ++ (s.afterRead a).readWord (a + 1#16)) ((s.afterRead a).afterRead (a + 1#16)))) :
    Ensures P (withRead2 s a k) :=
  fun t e => h t (withRead2_next s e).2

theorem Ensures.withEA {o : Address} {p : Bool} {k : Word → State → Result}
    (h : Ensures P (k (s.ea o p) (s.afterEA o p))) : Ensures P (withEA s o p k) :=
  fun t e => h t (withEA_next s e).2

theorem Ensures.withEO {o : Address} {p : Bool} {k : Word → State → Result}
    (h : Ensures P (k (s.eo o p) (s.afterEO o p))) : Ensures P (withEO s o p k) :=
  fun t e => h t (withEO_next s e).2

theorem Ensures.withOperands {g : RegRef} {o : Address} {k : Word → Word → State → Result}
    (h : Ensures P (k ((s.afterEA o false).ref g) (s.eo o false) (s.afterEO o false))) :
    Ensures P (withOperands s g o k) :=
  fun t e => h t (withOperands_next s e).2

/-- An optional instruction executes, or is an undefined code (30_encoding R133). -/
theorem Ensures.withArithOption {k : State → Result} (on : s.config.hasArithOption = true → Ensures P (k s))
    (off : s.config.hasArithOption = false → P s.undefinedCode) : Ensures P (withArithOption s k) := by
  cases h : s.config.hasArithOption
  · rw [withArithOption_off s k h]; exact .next (off h)
  · rw [withArithOption_on s k h]; exact on h

end

/-! ## The surroundings of the CPU -/

/-- The state with everything blanked out that an instruction may write: what is left are IA, the panel, the power
system, the input lines, the DMAC's requests, the events to come and the parameters. -/
def State.surroundings (s : State) : State :=
  { s with
    regs := Vector.replicate 16 0, pc := 0, ec := 0, st := 0, ib := 0, pendInternal := false, mem := [], badWords := []
    errorLatch := false, cruOut := [], outbox := [], freeNext := 0, during := [] }

/-- A state is its surroundings and what an instruction may write. -/
theorem State.eq_of_surroundings {s t : State} (h : t.surroundings = s.surroundings) :
    t = { s with
      regs := t.regs, pc := t.pc, ec := t.ec, st := t.st, ib := t.ib, pendInternal := t.pendInternal
      mem := t.mem, badWords := t.badWords, errorLatch := t.errorLatch, cruOut := t.cruOut, outbox := t.outbox
      freeNext := t.freeNext, during := t.during } :=
  congrArg (fun u : State => { u with
    regs := t.regs, pc := t.pc, ec := t.ec, st := t.st, ib := t.ib, pendInternal := t.pendInternal
    mem := t.mem, badWords := t.badWords, errorLatch := t.errorLatch, cruOut := t.cruOut, outbox := t.outbox
    freeNext := t.freeNext, during := t.during }) h

section
variable (s : State)

@[simp] theorem State.surroundings_setCounter (b : Bool) (v : Word) :
    (s.setCounter b v).surroundings = s.surroundings := by cases b <;> rfl

@[simp] theorem State.surroundings_poke (a v : Word) : (s.poke a v).surroundings = s.surroundings := by
  unfold State.poke
  split
  · rfl
  · split <;> rfl

@[simp] theorem State.surroundings_write (a v : Word) : (s.write a v).surroundings = s.surroundings := by
  rcases s.write_cases a v with ⟨_, e⟩ | ⟨_, e⟩
  · rw [e]; rfl
  · rw [e, State.surroundings_poke]

@[simp] theorem State.surroundings_dmacPuts (l : List (Word × Word)) :
    (s.dmacPuts l).surroundings = s.surroundings := by
  induction l generalizing s with
  | nil => rfl
  | cons p rest ih =>
    have hput : (s.dmacPut p.1 p.2).surroundings = s.surroundings := by
      unfold State.dmacPut
      split
      · rfl
      · exact s.surroundings_poke _ _
    rw [State.dmacPuts, ih, hput]

@[simp] theorem State.surroundings_grant : s.grant.surroundings = s.surroundings :=
  s.surroundings_dmacPuts s.cycle.dmac

@[simp] theorem State.surroundings_afterRead (a : Word) : (s.afterRead a).surroundings = s.surroundings := by
  have hg := s.surroundings_grant
  unfold State.afterRead State.noteRead
  split
  · exact hg
  · split <;> exact hg

@[simp] theorem State.surroundings_store (a v : Word) : (s.store a v).surroundings = s.surroundings := by
  rw [State.store, State.surroundings_write, State.surroundings_grant]

end

/-! ## What an instruction may change -/

/-- From s to t nothing changed but what an instruction may write: no part of the surroundings; of the status bits, MP,
UC and MV aside, those of `bits` only; and of the inactive mode's counter nothing, unless `other`. -/
structure ChangesOnly (bits : Nat → Bool) (other : Bool) (s t : State) : Prop where
  surroundings : t.surroundings = s.surroundings
  status : ∀ j, j ∉ [2, 4, 5] → bits j = false → t.stBit j = s.stBit j
  inactive : other = false → t.counter (!s.worker) = s.counter (!s.worker)

namespace ChangesOnly
variable {bits : Nat → Bool} {other : Bool} {s t : State}

theorem refl (s : State) : ChangesOnly bits other s s := ⟨rfl, fun _ _ _ => rfl, fun _ => rfl⟩

theorem worker_eq (h : ChangesOnly bits other s t) (hb : bits 0 = false) : t.worker = s.worker :=
  h.status 0 (by decide) hb

theorem config_eq (h : ChangesOnly bits other s t) : t.config = s.config :=
  show t.surroundings.config = s.surroundings.config from congrArg State.config h.surroundings

/-- A further change that leaves the counters alone. -/
theorem step {t' : State} (h : ChangesOnly bits other s t) (hs : t'.surroundings = t.surroundings)
    (hst : ∀ j, j ∉ [2, 4, 5] → bits j = false → t'.stBit j = t.stBit j)
    (hc : ∀ b, t'.counter b = t.counter b) : ChangesOnly bits other s t' where
  surroundings := hs.trans h.surroundings
  status := fun j hj hb => (hst j hj hb).trans (h.status j hj hb)
  inactive := fun ho => (hc _).trans (h.inactive ho)

/-- A further change of what neither the surroundings nor ST nor a counter holds. -/
theorem stepKeep {t' : State} (h : ChangesOnly bits other s t) (hs : t'.surroundings = t.surroundings := by rfl)
    (hst : t'.st = t.st := by rfl) (hc : ∀ b, t'.counter b = t.counter b := by intro b; rfl) :
    ChangesOnly bits other s t' :=
  h.step hs (fun j _ _ => congrArg (·.getMsbD j) hst) hc

/-! ### Registers and memory -/

theorem setFile (h : ChangesOnly bits other s t) (i : BitVec 4) (v : Word) : ChangesOnly bits other s (t.setFile i v) :=
  h.stepKeep

theorem setRef (h : ChangesOnly bits other s t) (g : RegRef) (v : Word) : ChangesOnly bits other s (t.setRef g v) :=
  h.setFile _ _

theorem setX (h : ChangesOnly bits other s t) (r : RegNum) (v : Word) : ChangesOnly bits other s (t.setX r v) :=
  h.setFile _ _

theorem afterRead (h : ChangesOnly bits other s t) (a : Word) : ChangesOnly bits other s (t.afterRead a) :=
  h.step (by simp) (fun j hj _ => t.stBit_afterRead a j (by rintro rfl; simp at hj)) (by simp)

theorem afterEA (h : ChangesOnly bits other s t) (o : Address) (p : Bool) :
    ChangesOnly bits other s (t.afterEA o p) := by
  unfold State.afterEA
  split
  · exact (h.afterRead _).stepKeep
  · exact h.stepKeep

theorem afterEO (h : ChangesOnly bits other s t) (o : Address) (p : Bool) :
    ChangesOnly bits other s (t.afterEO o p) :=
  (h.afterEA o p).afterRead _

theorem store (h : ChangesOnly bits other s t) (a v : Word) : ChangesOnly bits other s (t.store a v) :=
  h.step (by simp) (fun j hj _ => by rw [State.stBit_store, if_neg (by rintro rfl; simp at hj)]) (by simp)

theorem store2 (h : ChangesOnly bits other s t) (a : Word) (v : DWord) : ChangesOnly bits other s (t.store2 a v) :=
  (h.store _ _).store _ _

theorem storeStatusBlock (h : ChangesOnly bits other s t) (a link : Word) :
    ChangesOnly bits other s (t.storeStatusBlock a link) :=
  (h.store _ _).store _ _

/-! ### Status bits -/

theorem setStBit (h : ChangesOnly bits other s t) (i : Nat) (v : Bool) (hi : i < 16)
    (hb : i ∈ [2, 4, 5] ∨ bits i = true) : ChangesOnly bits other s (t.setStBit i v) :=
  h.step rfl (fun j hj hn => by
    have hne : j ≠ i := by rintro rfl; simp_all
    rw [State.stBit_setStBit t i j v hi, if_neg hne]) fun _ => rfl

theorem setOI (h : ChangesOnly bits other s t) (v : Bool) (hb : bits 1 = true := by rfl) :
    ChangesOnly bits other s (t.setOI v) :=
  h.setStBit 1 v (by decide) (.inr hb)

theorem setCO (h : ChangesOnly bits other s t) (v : Bool) (hb : bits 13 = true := by rfl) :
    ChangesOnly bits other s (t.setCO v) :=
  h.setStBit 13 v (by decide) (.inr hb)

theorem setWorker (h : ChangesOnly bits other s t) (v : Bool) (hb : bits 0 = true := by rfl) :
    ChangesOnly bits other s (t.setWorker v) :=
  h.setStBit 0 v (by decide) (.inr hb)

theorem toggleMode (h : ChangesOnly bits other s t) (hb : bits 0 = true := by rfl) :
    ChangesOnly bits other s t.toggleMode :=
  h.setWorker _ hb

theorem setComparison (h : ChangesOnly bits other s t) (c : Comparison)
    (hb : (bits 10 && bits 11 && bits 12) = true := by rfl) : ChangesOnly bits other s (t.setComparison c) := by
  simp only [Bool.and_eq_true] at hb
  obtain ⟨⟨h10, h11⟩, h12⟩ := hb
  refine h.step rfl (fun j _ hn => ?_) fun _ => rfl
  have hne : j ≠ 10 ∧ j ≠ 11 ∧ j ≠ 12 := by
    refine ⟨?_, ?_, ?_⟩ <;> (rintro rfl; simp_all)
  rw [State.stBit_setComparison, if_neg hne.1, if_neg hne.2.1, if_neg hne.2.2]

theorem setCB (h : ChangesOnly bits other s t) (v : Word)
    (hb : (bits 10 && bits 11 && bits 12) = true := by rfl) : ChangesOnly bits other s (t.setCB v) :=
  h.setComparison _ hb

theorem setAddFlags (h : ChangesOnly bits other s t) (a b : Word) (h1 : bits 1 = true := by rfl)
    (h13 : bits 13 = true := by rfl) (hb : (bits 10 && bits 11 && bits 12) = true := by rfl) :
    ChangesOnly bits other s (t.setAddFlags a b) :=
  ((h.setOI _ h1).setCO _ h13).setCB _ hb

theorem setSubFlags (h : ChangesOnly bits other s t) (a b : Word) (h1 : bits 1 = true := by rfl)
    (h13 : bits 13 = true := by rfl) (hb : (bits 10 && bits 11 && bits 12) = true := by rfl) :
    ChangesOnly bits other s (t.setSubFlags a b) :=
  ((h.setOI _ h1).setCO _ h13).setCB _ hb

/-! ### Counters -/

/-- The active counter may be loaded as long as the mode is the one the instruction started in. -/
theorem setCtr_of_worker (h : ChangesOnly bits other s t) (v : Word) (hw : t.worker = s.worker) :
    ChangesOnly bits other s (t.setCtr v) where
  surroundings := (t.surroundings_setCounter _ _).trans h.surroundings
  status := fun j hj hb => (State.stBit_setCounter t _ _ j).trans (h.status j hj hb)
  inactive := fun ho => by
    rw [State.counter_setCtr, hw, if_neg (by simp)]
    exact h.inactive ho

theorem setCtr (h : ChangesOnly bits other s t) (v : Word) (hb : bits 0 = false := by rfl) :
    ChangesOnly bits other s (t.setCtr v) :=
  h.setCtr_of_worker v (h.worker_eq hb)

theorem advance (h : ChangesOnly bits other s t) (hb : bits 0 = false := by rfl) :
    ChangesOnly bits other s t.advance :=
  h.setCtr _ hb

/-- Either counter, for an instruction that may load the inactive one. -/
theorem setCounter (h : ChangesOnly bits other s t) (b : Bool) (v : Word) (ho : other = true := by rfl) :
    ChangesOnly bits other s (t.setCounter b v) where
  surroundings := (t.surroundings_setCounter _ _).trans h.surroundings
  status := fun j hj hb => (State.stBit_setCounter t _ _ j).trans (h.status j hj hb)
  inactive := fun hn => absurd ho (by simp [hn])

theorem transfer (h : ChangesOnly bits other s t) (target : Bool) (hw : t.worker = s.worker)
    (hb : bits 0 = true := by rfl) : ChangesOnly bits other s (t.transfer target) :=
  (h.setCtr_of_worker _ hw).setWorker _ hb

/-! ### The shared ends of instructions -/

theorem raiseUC (h : ChangesOnly bits other s t) : ChangesOnly bits other s (t.raise .uc) :=
  (h.setStBit 4 true (by decide) (.inl (by decide))).stepKeep

theorem undefinedCode (h : ChangesOnly bits other s t) (hb : bits 0 = false := by rfl) :
    ChangesOnly bits other s t.undefinedCode :=
  h.raiseUC.advance hb

theorem loadRef (h : ChangesOnly bits other s t) (g : RegRef) (v : Word) (h0 : bits 0 = false := by rfl)
    (hb : (bits 10 && bits 11 && bits 12) = true := by rfl) : ChangesOnly bits other s (t.loadRef g v) :=
  ((h.setRef g v).setCB v hb).advance h0

theorem storeWord (h : ChangesOnly bits other s t) (a v : Word) (h0 : bits 0 = false := by rfl)
    (hb : (bits 10 && bits 11 && bits 12) = true := by rfl) : ChangesOnly bits other s (t.storeWord a v) :=
  ((h.store a v).setCB v hb).advance h0

theorem storeDouble (h : ChangesOnly bits other s t) (a : Word) (v : DWord) (h0 : bits 0 = false := by rfl)
    (hb : (bits 10 && bits 11 && bits 12) = true := by rfl) : ChangesOnly bits other s (t.storeDouble a v) :=
  ((h.store2 a v).setCB _ hb).advance h0

theorem shiftLeft (h : ChangesOnly bits other s t) (a v : Word) (c : Nat) (h0 : bits 0 = false := by rfl)
    (h1 : bits 1 = true := by rfl) (hb : (bits 10 && bits 11 && bits 12) = true := by rfl) :
    ChangesOnly bits other s (t.shiftLeft a v c) :=
  (h.setOI _ h1).storeWord _ _ h0 hb

theorem shiftLeft2 (h : ChangesOnly bits other s t) (a : Word) (v : DWord) (c : Nat) (h0 : bits 0 = false := by rfl)
    (h1 : bits 1 = true := by rfl) (hb : (bits 10 && bits 11 && bits 12) = true := by rfl) :
    ChangesOnly bits other s (t.shiftLeft2 a v c) :=
  (h.setOI _ h1).storeDouble _ _ h0 hb

theorem multiply (h : ChangesOnly bits other s t) (g : RegRef) (a b : Word) (h0 : bits 0 = false := by rfl)
    (hb : (bits 10 && bits 11 && bits 12) = true := by rfl) : ChangesOnly bits other s (t.multiply g a b) :=
  h.storeDouble _ _ h0 hb

theorem doubleResult (h : ChangesOnly bits other s t) (g : RegRef) (v : DWord) (value : Int)
    (h0 : bits 0 = false := by rfl) (h1 : bits 1 = true := by rfl)
    (hb : (bits 10 && bits 11 && bits 12) = true := by rfl) : ChangesOnly bits other s (t.doubleResult g v value) :=
  (((h.store2 _ _).setOI _ h1).setCB _ hb).advance h0

/-- A free value is used up. -/
theorem takeFree (h : ChangesOnly bits other s t) (n : Nat) : ChangesOnly bits other s { t with freeNext := n } :=
  h.stepKeep

theorem divide (h : ChangesOnly bits other s t) (g : RegRef) (a : DWord) (b : Word)
    (h0 : bits 0 = false := by rfl) (h1 : bits 1 = true := by rfl)
    (hb : (bits 10 && bits 11 && bits 12) = true := by rfl) : ChangesOnly bits other s (t.divide g a b) := by
  unfold State.divide State.divideOverflow
  split
  · exact ((((h.store2 _ _).setOI _ h1).setComparison _ hb).takeFree _).advance h0
  · exact (((h.store2 _ _).setOI _ h1).setCB _ hb).advance h0

theorem skipOn (h : ChangesOnly bits other s t) (c : Comparison) (hb : bits 0 = false := by rfl) :
    ChangesOnly bits other s (t.skipOn c) := by
  cases c <;> exact h.setCtr _ hb

theorem outputLine (h : ChangesOnly bits other s t) (a : Line) (v : Bool) :
    ChangesOnly bits other s (t.outputLine a v) :=
  h.stepKeep

theorem send (h : ChangesOnly bits other s t) (e : Output) :
    ChangesOnly bits other s { t with outbox := t.outbox ++ [e] } :=
  h.stepKeep

theorem outputField (h : ChangesOnly bits other s t) (a : Line) (width : Nat) (d : Word) :
    ChangesOnly bits other s (t.outputField a width d) := by
  unfold State.outputField
  generalize List.range width = l
  induction l generalizing t with
  | nil => exact h
  | cons i rest ih => exact ih (h.outputLine _ _)

end ChangesOnly


/-- SETF writes CB under its parameter only (45_format_III R265). -/
theorem execSetf_changesOnly (alt : Bool) (m : BitVec 10) (bit : BitVec 4) (v : Bool) (s : State) :
    Ensures (ChangesOnly ((Instr.setf alt m bit v).mayWrite s.config.setfWritesCB) false s)
      (execSetf alt m bit v s) := by
  unfold execSetf
  refine .withRead (.next (ChangesOnly.advance ?_ rfl))
  have h {w} := ((ChangesOnly.refl s).afterRead (s.flagAddress alt m)).store
    (bits := (Instr.setf alt m bit v).mayWrite s.config.setfWritesCB) (other := false) (s.flagAddress alt m) w
  split
  · next hc =>
    rw [h.config_eq] at hc
    exact h.setCB _ (by rw [hc]; rfl)
  · exact h

/-- LDS may write every bit of ST, and loads the active counter before (42_format_IC R217). -/
theorem execLds_changesOnly (o : Address) (rq c : Bool) (s : State) :
    Ensures (ChangesOnly ((Instr.lds o rq).mayWrite c) false s) (execLds o rq s) := by
  refine .withEA (.withRead (.withRead (.next ?_)))
  have h {v} := ((((ChangesOnly.refl s).afterEA o false).afterRead (s.ea o false)).afterRead
    (s.ea o false + 1#16)).setCtr_of_worker (bits := (Instr.lds o rq).mayWrite c) (other := false) v (by simp)
  exact h.step rfl (fun j _ hn => by rw [Instr.mayWrite_lds] at hn; cases hn) fun _ => rfl

/-- Every instruction changes only what its classes allow. -/
theorem exec_changesOnly (i : Instr) (s : State) :
    Ensures (ChangesOnly (i.mayWrite s.config.setfWritesCB) i.loadsOtherCounter s) (exec i s) := by
  have h {bits other} : ChangesOnly bits other s s := .refl s
  unfold exec
  cases i with
  | a g o => exact .withOperands (.next ((h.afterEO _ _).setRef _ _ |>.setAddFlags _ _ |>.advance))
  | s g o => exact .withOperands (.next ((h.afterEO _ _).setRef _ _ |>.setSubFlags _ _ |>.advance))
  | aa g o => exact .withEA (.next ((h.afterEA _ _).setRef _ _ |>.setAddFlags _ _ |>.advance))
  | sa g o => exact .withEA (.next ((h.afterEA _ _).setRef _ _ |>.setSubFlags _ _ |>.advance))
  | cr g o | crl g o => exact .withOperands (.next ((h.afterEO _ _).setComparison _ |>.advance))
  | cra g o | crla g o => exact .withEA (.next ((h.afterEA _ _).setComparison _ |>.advance))
  | l g o | lot g o => exact .withEO (.next ((h.afterEO _ _).loadRef _ _))
  | n g o | or g o | xor g o => exact .withOperands (.next ((h.afterEO _ _).loadRef _ _))
  | la g o | lota g o | na g o | ora g o | xora g o => exact .withEA (.next ((h.afterEA _ _).loadRef _ _))
  | sat g o =>
    exact .withEA (.withRead (.next
      ((h.afterEO _ _).store _ _ |>.setRef _ _ |>.setCO _ |>.setCB _ |>.advance)))
  | st g o | stps o => exact .withEA (.next ((h.afterEA _ _).storeWord _ _))
  -- branches
  | bl g o => exact .withEA (.next ((h.afterEA _ _).setRef _ _ |>.setCtr _))
  | blInd g o => exact .withEO (.next ((h.afterEO _ _).setRef _ _ |>.setCtr _))
  | b o rq => exact .withEA (.next ((h.afterEA _ _).setCtr _))
  | bInd o rq => exact .withEO (.next ((h.afterEO _ _).setCtr _))
  | bc bit o =>
    refine .withEA (.next ?_)
    split <;> exact (h.afterEA _ _).setCtr _
  | bcInd bit o =>
    refine .withEA ?_
    split
    · exact .withRead (.next ((h.afterEO _ _).setCtr _))
    · exact .next (h.afterEA _ _).advance
  | nop => exact .next h.advance
  | arb addend n xr rq =>
    refine .next ?_
    split <;> exact (h.setX _ _).setCB _ |>.setCtr _
  | brrl r q => exact .next ((h.setX _ _).setCtr _)
  -- the Arithmetic Option
  | d g o =>
    exact .withArithOption (fun _ => .withEA (.withRead2 (.withRead (.next
      ((h.afterEA _ _).afterRead _ |>.afterRead _ |>.afterRead _ |>.divide _ _ _))))) fun _ => h.undefinedCode
  | da g o =>
    exact .withArithOption (fun _ => .withEA (.withRead2 (.next
      ((h.afterEA _ _).afterRead _ |>.afterRead _ |>.divide _ _ _)))) fun _ => h.undefinedCode
  | m g o =>
    exact .withArithOption (fun _ => .withOperands (.next ((h.afterEO _ _).multiply _ _ _))) fun _ => h.undefinedCode
  | ma g o =>
    exact .withArithOption (fun _ => .withEA (.next ((h.afterEA _ _).multiply _ _ _))) fun _ => h.undefinedCode
  | dad g o | ds g o =>
    exact .withArithOption (fun _ => .withEA (.withRead2 (.withRead2 (.next
      ((h.afterEA _ _).afterRead _ |>.afterRead _ |>.afterRead _ |>.afterRead _ |>.doubleResult _ _ _)))))
      fun _ => h.undefinedCode
  | dla c o | dlax g o =>
    exact .withArithOption (fun _ => .withEA (.withRead2 (.next
      ((h.afterEA _ _).afterRead _ |>.afterRead _ |>.shiftLeft2 _ _ _)))) fun _ => h.undefinedCode
  | dra c o | drax g o | drl c o | drlx g o | drr c o | drrx g o =>
    exact .withArithOption (fun _ => .withEA (.withRead2 (.next
      ((h.afterEA _ _).afterRead _ |>.afterRead _ |>.storeDouble _ _)))) fun _ => h.undefinedCode
  -- shifts of a word
  | mla c o | mlax g o => exact .withEA (.withRead (.next ((h.afterEO _ _).shiftLeft _ _ _)))
  | mra c o | mrax g o | mrr c o | mrrx g o => exact .withEA (.withRead (.next ((h.afterEO _ _).storeWord _ _)))
  -- status blocks and transfers
  | lds o rq => exact execLds_changesOnly o rq _ s
  | ss o rq => exact .withEA (.next ((h.afterEA _ _).storeStatusBlock _ _ |>.advance))
  | ssb o rq => exact .withEA (.withRead (.next ((h.afterEA _ _).storeStatusBlock _ _ |>.afterRead _ |>.setCtr _)))
  | sxs o rq | sxw o rq =>
    exact .withEA (.next ((h.afterEA _ _).storeStatusBlock _ _ |>.transfer _ (by simp [State.storeStatusBlock])))
  | sxbs o rq | sxbw o rq =>
    exact .withEA (.withRead (.next ((h.afterEA _ _).storeStatusBlock _ _
      |>.transfer _ (by simp [State.storeStatusBlock]) |>.afterRead _ |>.setCounter _ _)))
  | xs | xw => exact .next (h.transfer _ rfl)
  | xsb o rq | xwb o rq => exact .withEA (.next ((h.afterEA _ _).transfer _ (by simp) |>.setCounter _ _))
  | xsbInd o rq | xwbInd o rq => exact .withEO (.next ((h.afterEO _ _).transfer _ (by simp) |>.setCounter _ _))
  -- memory with memory
  | cm p q => exact .withRead (.withRead (.next ((h.afterRead _).afterRead _ |>.skipOn _)))
  | cml p q =>
    exact .withRead (.withRead (.withRead (.next ((h.afterRead _).afterRead _ |>.afterRead _ |>.skipOn _))))
  | cmi p imm => exact .withRead (.next ((h.afterRead _).skipOn _))
  | mov p q => exact .withRead (.next ((h.afterRead _).storeWord _ _))
  | ami p imm =>
    unfold execAmi
    exact .withRead (.next ((h.afterRead _).store _ _ |>.setAddFlags _ _ |>.advance))
  -- flags, lines and channels
  | setf alt m bit v => exact execSetf_changesOnly alt m bit v s
  | xfne alt m bit v =>
    refine .withRead (.next ?_)
    split
    · exact (h.afterRead _).setCtr_of_worker _ (by simp)
    · exact (h.afterRead _).toggleMode
  | bfne alt m bit v n =>
    refine .withRead (.next ?_)
    split <;> exact (h.afterRead _).setCtr _
  | setb alt m v => exact .next ((h.outputLine _ _).advance)
  | xbne alt m v =>
    refine .next ?_
    split
    · exact h.setCtr_of_worker _ rfl
    · exact h.toggleMode
  | bbne alt m v n =>
    refine .next ?_
    split <;> exact h.setCtr _
  | tsbx alt m v n ob =>
    refine .next ?_
    split
    · exact (h.outputLine _ _).setCtr_of_worker _ rfl
    · split
      · exact h.setCtr_of_worker _ rfl
      · exact h.toggleMode
  | ldcr alt m width n => exact .withRead (.next ((h.afterRead _).outputField _ _ _ |>.advance))
  | stcr alt m width n => exact .next (h.storeWord _ _)
  | adac aq n => exact .next (h.send _ |>.advance)

/-! ## The comparison bits -/

/-- Writing CB leaves exactly one of its bits set (10_state R40). -/
theorem oneComparison_setComparison (t : State) (c : Comparison) : OneComparison (t.setComparison c) := by
  cases c <;> simp [OneComparison]

/-- A state with the same ST has the same comparison bits. -/
theorem OneComparison.of_st {t u : State} (h : OneComparison t) (e : u.st = t.st) : OneComparison u := by
  unfold OneComparison State.stBit
  rw [e]
  exact h

/-- The end of most instructions that write CB. -/
theorem oneComparison_setComparison_setCtr (t : State) (c : Comparison) (v : Word) :
    OneComparison ((t.setComparison c).setCtr v) :=
  (oneComparison_setComparison t c).of_st (State.setCtr_st _ _)

theorem oneComparison_divide (t : State) (g : RegRef) (a : DWord) (b : Word) : OneComparison (t.divide g a b) := by
  unfold State.divide State.divideOverflow
  split
  · exact (oneComparison_setComparison ((t.setPair g _).setOI true) _).of_st (State.advance_st _)
  · exact oneComparison_setComparison_setCtr _ _ _

/-- The instructions of 10_state R41 leave one comparison bit set, an optional one where it executes. -/
theorem exec_oneComparison (i : Instr) (s : State) (ho : i.optional = true → s.config.hasArithOption = true)
    (hi : i.writesCB = true) : Ensures OneComparison (exec i s) := by
  have one := oneComparison_setComparison_setCtr
  have opt {k : State → Result} (hk : Ensures OneComparison (k s)) (h : s.config.hasArithOption = true) :
      Ensures OneComparison (withArithOption s k) :=
    .withArithOption (fun _ => hk) fun hn => by rw [h] at hn; cases hn
  unfold exec
  cases i with
  | a | s | cr | crl | n | or | xor => exact .withOperands (.next (one _ _ _))
  | aa | sa | cra | crla | la | lota | na | ora | xora | st | stps => exact .withEA (.next (one _ _ _))
  | l | lot => exact .withEO (.next (one _ _ _))
  | sat | mla | mlax | mra | mrax | mrr | mrrx => exact .withEA (.withRead (.next (one _ _ _)))
  | mov => exact .withRead (.next (one _ _ _))
  | ami =>
    unfold execAmi
    exact .withRead (.next (one _ _ _))
  | stcr => exact .next (one _ _ _)
  | arb =>
    refine .next ?_
    split <;> exact one _ _ _
  | d => exact opt (.withEA (.withRead2 (.withRead (.next (oneComparison_divide _ _ _ _))))) (ho rfl)
  | da => exact opt (.withEA (.withRead2 (.next (oneComparison_divide _ _ _ _)))) (ho rfl)
  | m => exact opt (.withOperands (.next (one _ _ _))) (ho rfl)
  | ma => exact opt (.withEA (.next (one _ _ _))) (ho rfl)
  | dad | ds => exact opt (.withEA (.withRead2 (.withRead2 (.next (one _ _ _))))) (ho rfl)
  | dla | dlax | dra | drax | drl | drlx | drr | drrx =>
    exact opt (.withEA (.withRead2 (.next (one _ _ _)))) (ho rfl)
  | _ => cases hi

/-! ## The obligations on every instruction -/

/-- Settles O10. -/
theorem execKeepsSurroundings : Obligations.ExecKeepsSurroundings :=
  fun i s t h => State.eq_of_surroundings (exec_changesOnly i s t h).surroundings

/-- Settles O11: OI is bit 1 and CO bit 13. -/
theorem onlyListedWriteArithmeticFlags : Obligations.OnlyListedWriteArithmeticFlags := fun i s t h =>
  have status := (exec_changesOnly i s t h).status
  ⟨status 1 (by decide), status 13 (by decide)⟩

/-- Settles O12: what the listed ones leave, and the frame of the others. -/
theorem comparisonBits : Obligations.ComparisonBits := by
  intro i s t hp ho h
  refine ⟨fun hi => exec_oneComparison i s ho hi t h, fun hi hl => ?_⟩
  have kept (j : Nat) (hj : j ∈ [10, 11, 12]) : t.stBit j = s.stBit j := by
    have hm : i.mayWrite s.config.setfWritesCB j = false := by
      rw [i.mayWrite_comparison _ hj, Instr.isLds_eq_false hl, hi, hp]
      simp
    refine (exec_changesOnly i s t h).status j (fun h' => ?_) hm
    simp only [List.mem_cons, List.not_mem_nil, or_false] at hj h'
    omega
  exact ⟨kept 10 (by decide), kept 11 (by decide), kept 12 (by decide)⟩

/-- Settles O13: MI is bit 0. -/
theorem onlyListedWriteMI : Obligations.OnlyListedWriteMI :=
  fun i s t h => (exec_changesOnly i s t h).status 0 (by decide)

/-- Settles O14. -/
theorem onlyLdsWritesMasks : Obligations.OnlyLdsWritesMasks := by
  intro i s t h hl j hj
  have frame := (exec_changesOnly i s t h).status j
  have hlds := Instr.isLds_eq_false hl
  fin_cases hj <;> exact frame (by decide) hlds

/-- Settles O15. -/
theorem inactiveCounterKept : Obligations.InactiveCounterKept :=
  fun i s t h => (exec_changesOnly i s t h).inactive


/-! ## Registers as memory words -/

/-- The register an overlay address names, by its distance from 0x80 (10_state R22). -/
theorem registerAt_eq_ofNat {a : Word} (h : isRegister a = true) :
    registerAt a = BitVec.ofNat 4 (a.toNat - 0x80) := by
  simp only [isRegister, decide_eq_true_eq] at h
  apply BitVec.eq_of_toNat_eq
  simp only [registerAt, BitVec.toNat_setWidth, BitVec.toNat_ofNat]
  omega

/-- A CPU store at a register's address writes the register. -/
theorem State.store_register (s : State) (a v : Word) (hq : s.during = []) (h : isRegister a = true) :
    s.store a v = s.setFile (registerAt a) v := by
  rw [s.store_quiet a v hq]
  conv_lhs => rw [(isRegister_iff a).1 h]
  exact s.write_registerAddress _ _

/-- Settles O18: a register is read and written at its address as by its number. -/
theorem registerOverlay : Obligations.RegisterOverlay := by
  intro s a v hq hlo hhi
  have hr : isRegister a = true := decide_eq_true ⟨hlo, hhi⟩
  have hreg := registerAt_eq_ofNat hr
  have hstore := s.store_register a v hq hr
  have hindex (i : BitVec 4) : i = registerAt a ↔ i.toNat = a.toNat - 0x80 := by
    rw [hreg]
    have hi := i.isLt
    refine ⟨fun e => by rw [e, BitVec.toNat_ofNat]; omega, fun e => BitVec.eq_of_toNat_eq ?_⟩
    rw [BitVec.toNat_ofNat]
    omega
  refine ⟨?_, ?_, readable_of_register s a hr, hreg ▸ hstore, fun i => ?_, fun n => ?_⟩
  · rw [← hreg]; simp [State.peek, hr]
  · simp [State.noteRead, State.badRead, hr]
  · rw [hstore, State.file_setFile]; simp only [hindex]
  · rw [hstore, State.setFile_mem]

/-! ## Addition and subtraction -/

/-- The carry of a subtraction tells that nothing is borrowed. -/
theorem subtractCarry_eq (a b : Word) : subtractCarry a b = decide (b.toNat ≤ a.toNat) := by
  have ha := a.isLt
  have hb := b.isLt
  simp only [subtractCarry, BitVec.toNat_not, decide_eq_decide]
  omega

/-- The end of the additions and subtractions: a register, OI, CO and CB. -/
theorem completes_setFlags {s u t : State} {r : List Word} (g : RegRef) (v : Word) (oi co : Bool)
    (h : Effects u t r [] []) (b : Base s u t) :
    Completes u (.next (((((t.setRef g v).setOI oi).setCO co).setCB v).advance)) r [(s.refAddress g, v)]
      [1, 10, 11, 12, 13] s.next fun t' => t'.stBit 1 = oi ∧ t'.stBit 13 = co ∧ ComparesAs t' v.toInt 0 := by
  refine ⟨_, rfl, ?_, b.goesTo_advance ?_ ?_ ?_, ?_, ?_, comparesAs_setCB_advance _ _⟩
  · have e := ((((h.setFile (t.refIndex g) v (by simp)).setOI oi).setCO co).setComparison (compareSigned v 0)).advance
    exact e.congr (by simp) (by simp [State.refAddress, b.refIndex]) (by simp)
  all_goals simp [State.setRef]

/-- An addition, once its operand is at hand. -/
theorem completes_add {s u t : State} {r : List Word} (g : RegRef) (b : Word) (h : Effects u t r [] [])
    (hb : Base s u t) :
    Completes u (.next (((t.setRef g (s.ref g + b)).setAddFlags (s.ref g) b).advance)) r
      [(s.refAddress g, s.ref g + b)] [1, 10, 11, 12, 13] s.next fun t' =>
      t'.stBit 1 = decide ((s.ref g).toInt + b.toInt < -32768 ∨ 32767 < (s.ref g).toInt + b.toInt)
      ∧ t'.stBit 13 = decide (65536 ≤ (s.ref g).toNat + b.toNat) ∧ ComparesAs t' (s.ref g + b).toInt 0 :=
  completes_setFlags g _ _ _ h hb

/-- A subtraction, once its operand is at hand. -/
theorem completes_sub {s u t : State} {r : List Word} (g : RegRef) (b : Word) (h : Effects u t r [] [])
    (hb : Base s u t) :
    Completes u (.next (((t.setRef g (s.ref g - b)).setSubFlags (s.ref g) b).advance)) r
      [(s.refAddress g, s.ref g - b)] [1, 10, 11, 12, 13] s.next fun t' =>
      t'.stBit 1 = decide ((s.ref g).toInt - b.toInt < -32768 ∨ 32767 < (s.ref g).toInt - b.toInt)
      ∧ t'.stBit 13 = decide (b.toNat ≤ (s.ref g).toNat) ∧ ComparesAs t' (s.ref g - b).toInt 0 := by
  rw [← subtractCarry_eq]
  exact completes_setFlags g _ _ _ h hb

/-- Settles O23: the operand forms EO and EA, of an addition and of a subtraction each. -/
theorem addAndSubtract : Obligations.AddAndSubtract := by
  intro s g o hq
  have baseEA := Base.afterEA s o false hq
  have baseEO := Base.afterEO s o false hq
  refine ⟨fun ok => ?_, fun ok => ?_⟩
  · have operands {k} : withOperands s g o k = k (s.ref g) (s.eo o false) (s.afterEO o false) := by
      rw [withOperands_of_ok s g o k ok, baseEA.ref]
    have reads := Effects.afterEO s o false hq
    constructor
    · simpa only [exec, execA, operands, Bool.false_eq_true, if_true, if_false]
        using completes_add g (s.eo o false) reads baseEO
    · simpa only [exec, execS, operands, Bool.false_eq_true, if_true, if_false]
        using completes_sub g (s.eo o false) reads baseEO
  · have reads := Effects.afterEA s o false hq
    constructor
    · simpa only [exec, execAa, withEA_of_ok s o false _ ok, baseEA.ref, Bool.false_eq_true, if_true, if_false]
        using completes_add g (s.ea o false) reads baseEA
    · simpa only [exec, execSa, withEA_of_ok s o false _ ok, baseEA.ref, Bool.false_eq_true, if_true, if_false]
        using completes_sub g (s.ea o false) reads baseEA


/-! ## The panel -/

section
variable (s : State) (a v : Word)

@[simp] theorem State.panelPut_pc : (s.panelPut a v).pc = s.pc := by unfold State.panelPut; split <;> simp
@[simp] theorem State.panelPut_ec : (s.panelPut a v).ec = s.ec := by unfold State.panelPut; split <;> simp
@[simp] theorem State.panelPut_st : (s.panelPut a v).st = s.st := by unfold State.panelPut; split <;> simp
@[simp] theorem State.panelPut_ma : (s.panelPut a v).ma = s.ma := by unfold State.panelPut; split <;> simp
@[simp] theorem State.panelPut_display : (s.panelPut a v).display = s.display := by
  unfold State.panelPut; split <;> simp
@[simp] theorem State.panelPut_pendInternal : (s.panelPut a v).pendInternal = s.pendInternal := by
  unfold State.panelPut; split <;> simp

/-- Reading any address after a panel write (20_memory R72). -/
theorem State.peek_panelPut (b : Word) :
    (s.panelPut a v).peek b = if b = a ∧ s.readable b = true ∧ s.refusesWrite b = false then v else s.peek b := by
  unfold State.panelPut
  cases hw : s.refusesWrite a
  · rw [if_neg (by simp), State.peek_poke]
    refine if_congr (and_congr_right ?_) rfl rfl
    rintro rfl
    simp [hw]
  · rw [if_pos rfl, if_neg]
    rintro ⟨rfl, -, hn⟩
    simp [hw] at hn

end

@[simp] theorem State.peek_incrementMA (s : State) (a : Word) : s.incrementMA.peek a = s.peek a := rfl

/-- Reading any address after a switch is pressed to ENTER: only MD and MDI write, at MA. -/
theorem State.peek_enter (s : State) (r : PanelSwitch) (a : Word) :
    (s.enter r).peek a =
      if (r = .md ∨ r = .mdi) ∧ a = s.ma ∧ s.readable a = true ∧ s.refusesWrite a = false then s.switches
      else s.peek a := by
  cases r with
  | md => simpa [State.enter] using s.peek_panelPut s.ma s.switches a
  | mdi => simpa [State.enter] using s.peek_panelPut s.ma s.switches a
  | _ => rw [if_neg (by simp)]; rfl

/-- What ENTER does to the other registers. -/
theorem State.enter_registers (s : State) (r : PanelSwitch) :
    (s.enter r).pc = (if r = .pc then s.switches else s.pc) ∧ (s.enter r).ec = (if r = .ec then s.switches else s.ec)
    ∧ (s.enter r).st = (if r = .st then s.switches else s.st)
    ∧ (s.enter r).ma = (if r = .ma then s.switches else if r = .mdi then s.ma + 1#16 else s.ma)
    ∧ (s.enter r).pendInternal = s.pendInternal ∧ (s.enter r).display = s.display := by
  cases r <;> simp [State.enter, State.incrementMA]

/-- Where the word at MA can be read, it is what MD and MDI show. -/
theorem State.showMemory_of_readable (s : State) (h : s.readable s.ma = true) :
    s.showMemory = s.showWord (s.peek s.ma) := if_pos h

/-- Settles O58. -/
theorem panelEnterAndDisplay : Obligations.PanelEnterAndDisplay := by
  intro s r
  refine ⟨fun off => ⟨?_, ?_⟩, fun on => ⟨?_, fun hr => ?_⟩⟩
  · simp [handle, off]
  · simp [handle, off]
  · obtain ⟨hpc, hec, hst, hma, hpend, hdisplay⟩ := s.enter_registers r
    exact ⟨s.enter r, by simp [handle, on], hpc, hec, hst, hma, s.peek_enter r, hpend, hdisplay⟩
  · have handled : handle (.display r) s = .next (s.showRegister r) := by simp [handle, on]
    rw [handled]
    cases r with
    | md | mdi =>
      have hread : s.readable s.ma = true := by simpa using hr
      simp only [State.showRegister, s.showMemory_of_readable hread]
      rfl
    | _ => rfl

/-- Settles O6: RESET is one record update, and so is the switch. -/
theorem resetValues : Obligations.ResetValues :=
  ⟨⟨rfl, rfl, rfl, rfl, rfl, rfl, rfl⟩, fun _ => rfl⟩

/-- Settles O60. -/
theorem runControl : Obligations.RunControl := by
  intro s d live
  refine ⟨fun run => ?_, fun halt sie stopped => ?_, fun halt sie => ?_, ?_, fun stopped => ?_⟩
  · simp [handle, pressStart, live, run]
  · simp [handle, pressStart, live, halt, sie, stopped]
  · simp [handle, pressStart, live, halt, sie]
  · simp [handle, live]
  · simp [handle, cpuTurn, State.active, stopped]

/-! ## Interrupts and the step -/

/-- The DMAC's line is up when a bit of its Status Register is set (60_exceptions R331). -/
theorem State.dmacLine_iff (s : State) : s.dmacLine = true ↔ ∃ k : Fin 8, (s.dmac[k]).isSome = true := by
  simp only [State.dmacLine, List.any_eq_true, Vector.mem_toList_iff, Vector.mem_iff_getElem]
  constructor
  · rintro ⟨_, ⟨k, hk, rfl⟩, h⟩
    exact ⟨⟨k, hk⟩, h⟩
  · rintro ⟨k, h⟩
    exact ⟨_, ⟨k.val, k.isLt, rfl⟩, h⟩

/-- A request that is not to be taken is absent or masked. -/
theorem absent_or_masked {request mask : Bool} (h : ¬(request && !mask) = true) : request = false ∨ mask = true := by
  cases request
  · exact .inl rfl
  · simpa using h

/-- Settles O54: the branches of `State.interrupt`, in their order. -/
theorem interruptPriority : Obligations.InterruptPriority := by
  intro s
  simp only [← s.dmacLine_iff]
  unfold State.interrupt
  split
  · next internal => simp_all
  · next noInternal =>
    have h7 := absent_or_masked noInternal
    split
    · next cru => simp_all
    · next noCru =>
      have h9 := absent_or_masked noCru
      split <;> simp_all


/-- A read notes the same whatever other agents do later. -/
theorem State.noteRead_withDuring (s : State) (d : List MemoryCycle) (a : Word) :
    (s.withDuring d).noteRead a = (s.noteRead a).withDuring d := by
  have hb : (s.withDuring d).badRead a = s.badRead a := s.badRead_withDuring d a
  unfold State.noteRead
  rw [hb]
  cases s.badRead a <;> rfl

/-- An active machine with no request to take executes the words at its counter. -/
theorem cpuTurn_runs {s : State} {i : Instr} (d : List MemoryCycle) (active : s.active = true)
    (calm : s.interrupt = none) (hr : s.readable2 s.ctr = true)
    (hd : decodeWith s.config.layout ((s.withDuring d).readWord s.ctr) ((s.withDuring d).secondWord s.ctr) = .instr i) :
    cpuTurn d s = exec i ((s.withDuring d).fetched s.ctr) := by
  have calm' : (s.withDuring d).interrupt = none := calm
  have fetch := executeAt_of_readable (s.withDuring d) exec s.ctr hr
  rw [State.withDuring_config, hd] at fetch
  rw [cpuTurn, if_pos active, cpuStep, calm']
  exact fetch

/-- Settles O9: the turn of the CPU, with no other agent at memory and with some. -/
theorem stepRunsDecoded : Obligations.StepRunsDecoded := by
  intro s i active calm hr
  refine ⟨fun idle hd => ?_, fun d rest event => ?_⟩
  · have quiet : (s.withDuring []).during = [] := rfl
    have words := cpuTurn_runs (i := i) [] active calm hr
    rw [State.readWord_quiet _ _ quiet, State.secondWord_quiet _ _ quiet, State.peek_withDuring,
      State.peek_withDuring, State.fetched_quiet _ _ quiet, State.noteRead2, State.noteRead_withDuring,
      State.noteRead_withDuring, State.peek_withDuring, State.peek_withDuring] at words
    rw [step, idle]
    exact words hd
  · intro s0 s1 hd
    rw [step, event]
    exact cpuTurn_runs (s := { s with inbox := rest }) d active calm hr hd

end Sys2Proof.Machine

/-! How a step of the CPU reaches the sparse stores: an inversion of every instruction into turns at memory, stores and
output lines, from which the invariant and the protection of memory follow (20_memory R60 to R77). -/

namespace Sys2Proof.Machine

/-! ## The storage behind a state -/

/-- The state with the CPU's registers, the internal request and the output events blanked out: what is left are memory,
the output latches, the agents of memory still to act, the panel, the power system, the input lines, the DMAC's requests
and the parameters. -/
def State.storage (s : State) : State :=
  { s with
    regs := Vector.replicate 16 0, pc := 0, ec := 0, st := 0, ia := 0, ib := 0, pendInternal := false
    errorLatch := false, outbox := [], freeNext := 0 }

section
variable (s : State)

@[simp] theorem State.storage_setX (r : RegNum) (v : Word) : (s.setX r v).storage = s.storage := rfl

@[simp] theorem State.storage_setRef (g : RegRef) (v : Word) : (s.setRef g v).storage = s.storage := rfl

@[simp] theorem State.storage_setOI (v : Bool) : (s.setOI v).storage = s.storage := rfl

@[simp] theorem State.storage_setCO (v : Bool) : (s.setCO v).storage = s.storage := rfl

@[simp] theorem State.storage_toggleMode : s.toggleMode.storage = s.storage := rfl

@[simp] theorem State.storage_setComparison (c : Comparison) : (s.setComparison c).storage = s.storage := rfl

@[simp] theorem State.storage_setCB (v : Word) : (s.setCB v).storage = s.storage := rfl

@[simp] theorem State.storage_setAddFlags (a b : Word) : (s.setAddFlags a b).storage = s.storage := by
  simp [State.setAddFlags]

@[simp] theorem State.storage_setSubFlags (a b : Word) : (s.setSubFlags a b).storage = s.storage := by
  simp [State.setSubFlags]

@[simp] theorem State.storage_raise (c : Cause) : (s.raise c).storage = s.storage := rfl

@[simp] theorem State.storage_memoryError : s.memoryError.storage = s.storage := rfl

@[simp] theorem State.storage_noteRead (a : Word) : (s.noteRead a).storage = s.storage := by
  unfold State.noteRead; split <;> rfl

@[simp] theorem State.storage_setCounter (b : Bool) (v : Word) : (s.setCounter b v).storage = s.storage := by
  cases b <;> rfl

@[simp] theorem State.storage_setCtr (v : Word) : (s.setCtr v).storage = s.storage := s.storage_setCounter _ v

@[simp] theorem State.storage_advance : s.advance.storage = s.storage := s.storage_setCtr _

@[simp] theorem State.storage_branchBase5 (n : BitVec 10) : (s.branchBase5 n).storage = s.storage := s.storage_setCtr _

@[simp] theorem State.storage_undefinedCode : s.undefinedCode.storage = s.storage := (s.raise .uc).storage_advance

@[simp] theorem State.storage_transfer (target : Bool) : (s.transfer target).storage = s.storage := s.storage_advance

@[simp] theorem State.storage_loadRef (g : RegRef) (v : Word) : (s.loadRef g v).storage = s.storage :=
  State.storage_advance _

@[simp] theorem State.storage_skipOn (c : Comparison) : (s.skipOn c).storage = s.storage := by
  cases c <;> exact s.storage_setCtr _

end

/-! ## What the CPU does with memory and the output lines -/

/-- t comes from s by turns of the CPU at memory, by stores, if `stores`, by setting output lines, and by changes that
leave the storage alone. -/
inductive Accesses (stores : Bool) (s : State) : State → Prop where
  | refl : Accesses stores s s
  | elsewhere {t u : State} (h : Accesses stores s t) (e : u.storage = t.storage := by simp) : Accesses stores s u
  | grant {t : State} (h : Accesses stores s t) : Accesses stores s t.grant
  | write {t : State} (h : Accesses stores s t) (a v : Word) (hs : stores = true) : Accesses stores s (t.write a v)
  | outputLine {t : State} (h : Accesses stores s t) (a : Line) (v : Bool) : Accesses stores s (t.outputLine a v)

namespace Accesses
variable {stores : Bool} {s t : State}

/-! ### Where registers, flags and counters go -/

theorem setRef (h : Accesses stores s t) (g : RegRef) (v : Word) : Accesses stores s (t.setRef g v) := h.elsewhere

theorem setOI (h : Accesses stores s t) (v : Bool) : Accesses stores s (t.setOI v) := h.elsewhere

theorem setCO (h : Accesses stores s t) (v : Bool) : Accesses stores s (t.setCO v) := h.elsewhere

theorem setComparison (h : Accesses stores s t) (c : Comparison) : Accesses stores s (t.setComparison c) := h.elsewhere

theorem setCB (h : Accesses stores s t) (v : Word) : Accesses stores s (t.setCB v) := h.elsewhere

theorem setAddFlags (h : Accesses stores s t) (a b : Word) : Accesses stores s (t.setAddFlags a b) := h.elsewhere

theorem setCounter (h : Accesses stores s t) (b : Bool) (v : Word) : Accesses stores s (t.setCounter b v) :=
  h.elsewhere

theorem setCtr (h : Accesses stores s t) (v : Word) : Accesses stores s (t.setCtr v) := h.elsewhere

theorem advance (h : Accesses stores s t) : Accesses stores s t.advance := h.elsewhere

theorem transfer (h : Accesses stores s t) (target : Bool) : Accesses stores s (t.transfer target) := h.elsewhere

theorem takeFree (h : Accesses stores s t) (n : Nat) : Accesses stores s { t with freeNext := n } := h.elsewhere rfl

theorem send (h : Accesses stores s t) (e : Output) : Accesses stores s { t with outbox := t.outbox ++ [e] } :=
  h.elsewhere rfl

/-! ### Turns at memory -/

theorem afterRead (h : Accesses stores s t) (a : Word) : Accesses stores s (t.afterRead a) := by
  unfold State.afterRead
  split <;> exact h.grant.elsewhere

theorem afterEA (h : Accesses stores s t) (o : Address) (p : Bool) : Accesses stores s (t.afterEA o p) := by
  unfold State.afterEA
  split
  · exact (h.afterRead _).elsewhere rfl
  · exact h.elsewhere rfl

theorem afterEO (h : Accesses stores s t) (o : Address) (p : Bool) : Accesses stores s (t.afterEO o p) :=
  (h.afterEA o p).afterRead _

theorem store (h : Accesses stores s t) (a v : Word) (hs : stores = true := by rfl) :
    Accesses stores s (t.store a v) :=
  h.grant.write a v hs

theorem store2 (h : Accesses stores s t) (a : Word) (v : DWord) (hs : stores = true := by rfl) :
    Accesses stores s (t.store2 a v) :=
  (h.store _ _ hs).store _ _ hs

theorem storeStatusBlock (h : Accesses stores s t) (a link : Word) (hs : stores = true := by rfl) :
    Accesses stores s (t.storeStatusBlock a link) :=
  (h.store _ _ hs).store _ _ hs

theorem storeWord (h : Accesses stores s t) (a v : Word) (hs : stores = true := by rfl) :
    Accesses stores s (t.storeWord a v) :=
  ((h.store a v hs).setCB v).advance

theorem storeDouble (h : Accesses stores s t) (a : Word) (v : DWord) (hs : stores = true := by rfl) :
    Accesses stores s (t.storeDouble a v) :=
  ((h.store2 a v hs).setCB _).advance

theorem doubleResult (h : Accesses stores s t) (g : RegRef) (v : DWord) (value : Int)
    (hs : stores = true := by rfl) : Accesses stores s (t.doubleResult g v value) :=
  (((h.store2 _ v hs).setOI _).setCB _).advance

theorem divide (h : Accesses stores s t) (g : RegRef) (a : DWord) (b : Word) (hs : stores = true := by rfl) :
    Accesses stores s (t.divide g a b) := by
  unfold State.divide State.divideOverflow
  split
  · exact ((((h.store2 _ _ hs).setOI _).setComparison _).takeFree _).advance
  · exact (((h.store2 _ _ hs).setOI _).setCB _).advance

theorem outputField (h : Accesses stores s t) (a : Line) (width : Nat) (d : Word) :
    Accesses stores s (t.outputField a width d) := by
  unfold State.outputField
  generalize List.range width = l
  induction l generalizing t with
  | nil => exact h
  | cons i rest ih => exact ih (h.outputLine _ _)

end Accesses

/-- What an instruction does with memory and the output lines; one that is not of the storing ones makes no store. -/
theorem exec_accesses (i : Instr) (s : State) : Ensures (Accesses i.writesMemory s) (exec i s) := by
  have h {stores} : Accesses stores s s := .refl
  unfold exec
  cases i with
  | a _ o | s _ o | cr _ o | crl _ o | n _ o | or _ o | xor _ o =>
    exact .withOperands (.next (h.afterEO o false).elsewhere)
  | l _ o | lot _ o => exact .withEO (.next (h.afterEO o false).elsewhere)
  | aa _ o | sa _ o | cra _ o | crla _ o | la _ o | lota _ o | na _ o | ora _ o | xora _ o =>
    exact .withEA (.next (h.afterEA o false).elsewhere)
  | sat => exact .withEA (.withRead (.next
      ((h.afterEO _ _).store _ _ |>.setRef _ _ |>.setCO _ |>.setCB _ |>.advance)))
  | st | stps => exact .withEA (.next ((h.afterEA _ _).storeWord _ _))
  -- branches
  | bl _ o | b o | xsb o | xwb o => exact .withEA (.next (h.afterEA o false).elsewhere)
  | blInd _ o | bInd o => exact .withEO (.next (h.afterEO o true).elsewhere)
  | bc _ o =>
    refine .withEA (.next ?_)
    split <;> exact (h.afterEA o false).elsewhere
  | bcInd _ o =>
    refine .withEA ?_
    split
    · exact .withRead (.next ((h.afterEO o true).setCtr _))
    · exact .next (h.afterEA o true).advance
  | nop | brrl | xs | xw => exact .next h.elsewhere
  | arb =>
    refine .next ?_
    split <;> exact h.elsewhere
  -- the Arithmetic Option
  | d =>
    exact .withArithOption (fun _ => .withEA (.withRead2 (.withRead (.next
      ((h.afterEA _ _).afterRead _ |>.afterRead _ |>.afterRead _ |>.divide _ _ _))))) fun _ => h.elsewhere
  | da =>
    exact .withArithOption (fun _ => .withEA (.withRead2 (.next
      ((h.afterEA _ _).afterRead _ |>.afterRead _ |>.divide _ _ _)))) fun _ => h.elsewhere
  | m => exact .withArithOption (fun _ => .withOperands (.next ((h.afterEO _ _).storeDouble _ _))) fun _ => h.elsewhere
  | ma => exact .withArithOption (fun _ => .withEA (.next ((h.afterEA _ _).storeDouble _ _))) fun _ => h.elsewhere
  | dad | ds =>
    exact .withArithOption (fun _ => .withEA (.withRead2 (.withRead2 (.next
      ((h.afterEA _ _).afterRead _ |>.afterRead _ |>.afterRead _ |>.afterRead _ |>.doubleResult _ _ _)))))
      fun _ => h.elsewhere
  | dla | dlax =>
    exact .withArithOption (fun _ => .withEA (.withRead2 (.next
      ((h.afterEA _ _).afterRead _ |>.afterRead _ |>.setOI _ |>.storeDouble _ _)))) fun _ => h.elsewhere
  | dra | drax | drl | drlx | drr | drrx =>
    exact .withArithOption (fun _ => .withEA (.withRead2 (.next
      ((h.afterEA _ _).afterRead _ |>.afterRead _ |>.storeDouble _ _)))) fun _ => h.elsewhere
  -- shifts of a word
  | mla | mlax => exact .withEA (.withRead (.next ((h.afterEO _ _).setOI _ |>.storeWord _ _)))
  | mra | mrax | mrr | mrrx => exact .withEA (.withRead (.next ((h.afterEO _ _).storeWord _ _)))
  -- status blocks and transfers
  | lds => exact .withEA (.withRead (.withRead (.next
      (((h.afterEA _ _).afterRead _ |>.afterRead _ |>.setCtr _).elsewhere rfl))))
  | ss => exact .withEA (.next ((h.afterEA _ _).storeStatusBlock _ _ |>.advance))
  | ssb => exact .withEA (.withRead (.next ((h.afterEA _ _).storeStatusBlock _ _ |>.afterRead _ |>.setCtr _)))
  | sxs | sxw => exact .withEA (.next ((h.afterEA _ _).storeStatusBlock _ _ |>.transfer _))
  | sxbs | sxbw =>
    exact .withEA (.withRead (.next
      ((h.afterEA _ _).storeStatusBlock _ _ |>.transfer _ |>.afterRead _ |>.setCounter _ _)))
  | xsbInd o | xwbInd o => exact .withEO (.next (h.afterEO o false).elsewhere)
  -- memory with memory
  | cm p q =>
    exact .withRead (.withRead (.next ((h.afterRead (s.baseAddress p)).afterRead (s.baseAddress q)).elsewhere))
  | cml p q =>
    exact .withRead (.withRead (.withRead (.next
      (((h.afterRead (s.baseAddress p)).afterRead (s.baseAddress q)).afterRead (s.baseAddress q + 1#16)).elsewhere)))
  | cmi p => exact .withRead (.next (h.afterRead (s.baseAddress p)).elsewhere)
  | mov => exact .withRead (.next ((h.afterRead _).storeWord _ _))
  | ami =>
    unfold execAmi
    exact .withRead (.next ((h.afterRead _).store _ _ |>.setAddFlags _ _ |>.advance))
  -- flags, lines and channels
  | setf =>
    unfold execSetf
    refine .withRead (.next (Accesses.advance ?_))
    split
    · exact ((h.afterRead _).store _ _).setCB _
    · exact (h.afterRead _).store _ _
  | xfne alt m | bfne alt m =>
    refine .withRead (.next ?_)
    split <;> exact (h.afterRead (s.flagAddress alt m)).elsewhere
  | setb => exact .next (h.outputLine _ _).advance
  | xbne | bbne =>
    refine .next ?_
    split <;> exact h.elsewhere
  | tsbx =>
    refine .next ?_
    split
    · exact (h.outputLine _ _).advance
    · split <;> exact h.elsewhere
  | ldcr => exact .withRead (.next ((h.afterRead _).outputField _ _ _).advance)
  | stcr => exact .next (h.storeWord _ _)
  | adac => exact .next (h.send _).advance

end Sys2Proof.Machine

namespace Sys2Proof.Machine

/-! ## Unchecked writes -/

/-- Any word but the one written keeps its value. -/
theorem State.word_poke_of_ne (s : State) {a b : Word} (v : Word) (h : a ≠ b) :
    (s.poke b v).mem.word a = s.mem.word a := by
  unfold State.poke
  split
  · rfl
  · split
    · rw [Memory.word_putWord, if_neg h]
    · rfl

/-- A DMAC write is refused, or is an unchecked write. -/
theorem State.dmacPut_cases (s : State) (a v : Word) :
    ((s.config.dmacObeysProtect && s.refusesWrite a) = true ∧ s.dmacPut a v = s)
    ∨ ((s.config.dmacObeysProtect && s.refusesWrite a) = false ∧ s.dmacPut a v = s.poke a v) := by
  unfold State.dmacPut
  cases h : s.config.dmacObeysProtect && s.refusesWrite a <;> simp

/-- Storing the controllers' status words is a sequence of unchecked writes below 0xA8 (60_exceptions R349). -/
theorem State.storeControllers_of_poke {P : State → Prop}
    (poke : ∀ (t : State) (a v : Word), 0x96 ≤ a.toNat → a.toNat ≤ 0xA7 → P t → P (t.poke a v))
    (l : List (Option (Word × Word))) (k : Nat) (hk : k + l.length ≤ 8) {s : State} (h : P s) :
    P (s.storeControllers k l) := by
  induction l generalizing s k with
  | nil => exact h
  | cons c rest ih =>
    simp only [List.length_cons] at hk
    cases c with
    | none => exact ih (k + 1) (by omega) h
    | some p =>
      refine ih (k + 1) (by omega) (poke _ _ _ ?_ ?_ (poke _ _ _ ?_ ?_ h)) <;>
        (rw [BitVec.toNat_ofNat]; omega)

/-- The DMAC's status storage writes addresses from 0x96 to 0xA7 only, then clears the Status Register. -/
theorem State.dmacRecognized_of_poke {P : State → Prop}
    (poke : ∀ (t : State) (a v : Word), 0x96 ≤ a.toNat → a.toNat ≤ 0xA7 → P t → P (t.poke a v))
    (clear : ∀ t : State, P t → P { t with dmac := Vector.replicate 8 none }) {s : State} (h : P s) :
    P s.dmacRecognized :=
  clear _ (State.storeControllers_of_poke poke _ 0 (by simp) (poke _ _ _ (by decide) (by decide) h))

/-! ## Soundness: the invariant, inside an interrupt entry too -/

/-- The memory bytes and the failing words are canonical and lie where the machine has memory. -/
structure SoundMemory (c : Config) (m : Memory) (b : BadWords) : Prop where
  memForm : m.wf = true
  memPlaced : ∀ cell ∈ m, cell.1 < 2 * c.memWords ∧ ¬(0x100 ≤ cell.1 ∧ cell.1 < 0x120)
  badForm : risingFrom 0 b = true
  badPlaced : ∀ p ∈ b, p.1 < c.memWords ∧ ¬(0x80 ≤ p.1 ∧ p.1 ≤ 0x8F)

namespace SoundMemory
variable {c : Config} {m : Memory} {b : BadWords}

theorem empty : SoundMemory c [] [] := ⟨rfl, by simp, rfl, by simp⟩

theorem heal (h : SoundMemory c m b) (a : Nat) : SoundMemory c m (b.heal a) where
  memForm := h.memForm
  memPlaced := h.memPlaced
  badForm := BadWords.rising_heal a h.badForm
  badPlaced := fun p hp => h.badPlaced p (BadWords.mem_heal hp)

theorem putWord (h : SoundMemory c m b) (a v : Word) (hr : isRegister a = false) (hi : a.toNat < c.memWords) :
    SoundMemory c (m.putWord a v) b where
  memForm := Memory.putWord_wf m a v h.memForm
  memPlaced := fun cell hc => by
    rcases Memory.mem_putWord m a v cell hc with e | hold
    · simp only [isRegister, decide_eq_false_iff_not] at hr
      omega
    · exact h.memPlaced cell hold
  badForm := h.badForm
  badPlaced := h.badPlaced

theorem spoil (h : SoundMemory c m b) (a v : Word) (hr : isRegister a = false) (hi : a.toNat < c.memWords) :
    SoundMemory c m (b.put a.toNat v) where
  memForm := h.memForm
  memPlaced := h.memPlaced
  badForm := BadWords.rising_put b a.toNat v 0 h.badForm (by omega)
  badPlaced := fun p hp => by
    rcases BadWords.mem_put hp with rfl | hold
    · simp only [isRegister, decide_eq_false_iff_not] at hr
      exact ⟨hi, hr⟩
    · exact h.badPlaced p hold

end SoundMemory

/-- The invariant of a state that is, if `location`, inside an interrupt entry, or between two steps. -/
structure Sound (location : Bool) (s : State) : Prop where
  memory : SoundMemory s.config s.mem s.badWords
  linesIn : LineSet.risingFrom 0 s.cruIn = true
  linesOut : LineSet.risingFrom 0 s.cruOut = true
  configOk : s.config.WellFormed
  poweredRun : s.power = .off → s.running = false
  inLocation : s.inLocation = location

/-- Between two steps it is the invariant. -/
theorem inv_iff (s : State) : Inv s ↔ Sound false s := by
  have placed : s.memoryPlaced = true ↔
      ∀ cell ∈ s.mem, cell.1 < 2 * s.config.memWords ∧ ¬(0x100 ≤ cell.1 ∧ cell.1 < 0x120) := by
    simp only [State.memoryPlaced, List.all_eq_true, Bool.and_eq_true, Bool.not_eq_true', decide_eq_true_eq,
      decide_eq_false_iff_not]
  have badPlaced : s.badPlaced = true ↔
      ∀ p ∈ s.badWords, p.1 < s.config.memWords ∧ ¬(0x80 ≤ p.1 ∧ p.1 ≤ 0x8F) := by
    simp only [State.badPlaced, List.all_eq_true, Bool.and_eq_true, Bool.not_eq_true', decide_eq_true_eq,
      decide_eq_false_iff_not]
  constructor
  · rintro ⟨memForm, memPlaced, badForm, hbad, linesIn, linesOut, configOk, noLocation, poweredRun⟩
    exact ⟨⟨memForm, placed.1 memPlaced, badForm, badPlaced.1 hbad⟩, linesIn, linesOut, configOk, poweredRun,
      noLocation⟩
  · rintro ⟨⟨memForm, memPlaced, badForm, hbad⟩, linesIn, linesOut, configOk, poweredRun, noLocation⟩
    exact ⟨memForm, placed.2 memPlaced, badForm, badPlaced.2 hbad, linesIn, linesOut, configOk, noLocation,
      poweredRun⟩

namespace Sound
variable {location : Bool} {s t : State}

/-- Soundness is of the storage. -/
theorem of_storage (h : Sound location s) (e : t.storage = s.storage) : Sound location t := by
  have hs : Sound location s.storage := { h with }
  rw [← e] at hs
  exact { hs with }

theorem setMemory (h : Sound location s) (r : Vector Word 16) {m : Memory} {b : BadWords}
    (hm : SoundMemory s.config m b) :
    Sound location { s with regs := r, mem := m, badWords := b } :=
  { h with memory := hm }

theorem poke (h : Sound location s) (a v : Word) : Sound location (s.poke a v) := by
  unfold State.poke
  split
  · exact { h with }
  · next hr =>
    split
    · next hi =>
      exact h.setMemory _ ((h.memory.putWord a v (by simpa using hr) (of_decide_eq_true hi)).heal _)
    · exact h

theorem write (h : Sound location s) (a v : Word) : Sound location (s.write a v) := by
  rcases s.write_cases a v with ⟨-, e⟩ | ⟨-, e⟩
  · rw [e]; exact { h with }
  · rw [e]; exact h.poke a v

theorem dmacPut (h : Sound location s) (a v : Word) : Sound location (s.dmacPut a v) := by
  rcases s.dmacPut_cases a v with ⟨-, e⟩ | ⟨-, e⟩
  · rw [e]; exact h
  · rw [e]; exact h.poke a v

theorem dmacPuts (h : Sound location s) (l : List (Word × Word)) : Sound location (s.dmacPuts l) := by
  induction l generalizing s with
  | nil => exact h
  | cons p rest ih => exact ih (h.dmacPut p.1 p.2)

theorem grant (h : Sound location s) : Sound location s.grant := { h.dmacPuts s.cycle.dmac with }

theorem setInbox (h : Sound location s) (l : List Event) : Sound location { s with inbox := l } := { h with }

theorem outputLine (h : Sound location s) (a : Line) (v : Bool) : Sound location (s.outputLine a v) :=
  { h with linesOut := LineSet.set_rising _ a v h.linesOut }

/-- What an instruction does with memory and the output lines keeps it. -/
theorem accesses {stores : Bool} (h : Sound location s) (ht : Accesses stores s t) : Sound location t := by
  induction ht with
  | refl => exact h
  | elsewhere _ e ih => exact ih.of_storage e
  | grant _ ih => exact ih.grant
  | write _ a v _ ih => exact ih.write a v
  | outputLine _ a v ih => exact ih.outputLine a v

/-! ### The panel and the power system -/

theorem panelPut (h : Sound location s) (a v : Word) : Sound location (s.panelPut a v) := by
  unfold State.panelPut
  split
  · exact h
  · exact h.poke a v

theorem loadRom (h : Sound location s) (i n : Nat) : Sound location (s.loadRom i n) := by
  induction n generalizing s i with
  | zero => exact h
  | succ n ih => exact ih (h.panelPut _ _) _

theorem enter (h : Sound location s) (r : PanelSwitch) : Sound location (s.enter r) := by
  cases r with
  | md => exact h.panelPut _ _
  | mdi => exact { h.panelPut s.ma s.switches with }
  | _ => exact { h with }

theorem showMemory (h : Sound location s) : Sound location s.showMemory := by
  unfold State.showMemory
  split <;> exact { h with }

theorem showRegister (h : Sound location s) (r : PanelSwitch) : Sound location (s.showRegister r) := by
  cases r with
  | md => exact h.showMemory
  | mdi => exact { h.showMemory with }
  | _ => exact { h with }

theorem spoil (h : Sound location s) (a v : Word) : Sound location (s.spoil a v) := by
  unfold State.spoil
  split
  · next hc =>
    simp only [Bool.and_eq_true, Bool.not_eq_true'] at hc
    exact h.setMemory _ (h.memory.spoil a v hc.1 (of_decide_eq_true hc.2))
  · exact h

theorem pokeAll (h : Sound location s) (l : List (Word × Word)) : Sound location (s.pokeAll l) := by
  unfold State.pokeAll
  induction l generalizing s with
  | nil => exact h
  | cons p rest ih => exact ih (h.poke _ _)

theorem spoilAll (h : Sound location s) (l : List (Word × Word)) :
    Sound location (l.foldl (fun t p => t.spoil p.1 p.2) s) := by
  induction l generalizing s with
  | nil => exact h
  | cons p rest ih => exact ih (h.spoil _ _)

theorem restorePower (h : Sound location s) (u : PowerUp) : Sound location (s.restorePower u) := by
  have lines := LineSet.ofList_rising
  unfold State.restorePower
  dsimp only
  split
  · exact { h with linesIn := lines _, linesOut := lines _, poweredRun := nofun }
  · refine { Sound.spoilAll (Sound.pokeAll ?_ u.mem) u.badWords with }
    exact { h with memory := .empty, linesIn := lines _, linesOut := lines _, poweredRun := nofun }

end Sound

/-! ## The steps of the CPU -/

namespace Accesses
variable {stores : Bool} {s t u : State}

/-- One thing after another. -/
theorem trans (h : Accesses true s t) (h' : Accesses stores t u) : Accesses true s u := by
  induction h' with
  | refl => exact h
  | elsewhere _ e ih => exact ih.elsewhere e
  | grant _ ih => exact ih.grant
  | write _ a v _ ih => exact ih.write a v rfl
  | outputLine _ a v ih => exact ih.outputLine a v

end Accesses

/-- The two fetches come before the instruction, or before an undefined code. -/
theorem executeAt_accesses (s : State) (a : Word) : Ensures (Accesses true s) (executeAt exec s a) := by
  intro t h
  have fetched : Accesses true s (s.fetched a) := ((Accesses.refl.afterRead a).afterRead (a + 1#16)).elsewhere rfl
  obtain ⟨-, ⟨i, -, hi⟩ | ⟨-, rfl⟩⟩ := executeAt_next s h
  · exact fetched.trans (exec_accesses i _ t hi)
  · exact fetched.elsewhere

/-- A step of the CPU executes at the counter, or acknowledges an interrupt, executes at its location and enters the
handler. -/
theorem cpuStep_accesses {s t : State} (h : cpuStep s = .next t) :
    Accesses true s t ∨ ∃ c u, Accesses true (s.acknowledge c) u ∧ t = u.enterHandler c := by
  obtain ⟨c, -, hc⟩ | ⟨-, hn⟩ := cpuStep_cases s t h
  · obtain ⟨u, hu, ht⟩ := takeInterrupt_next s hc
    exact .inr ⟨c, u, executeAt_accesses _ _ u hu, ht⟩
  · exact .inl (executeAt_accesses _ _ t hn)

/-! ## Every step keeps the invariant -/

theorem Sound.acknowledge {location : Bool} {s : State} (h : Sound location s) (c : InterruptClass) :
    Sound true (s.acknowledge c) := by
  cases c with
  | internal | cru => exact { h with inLocation := rfl }
  | dmac =>
    have recognized : Sound location s.dmacRecognized :=
      State.dmacRecognized_of_poke (fun t a v _ _ ht => ht.poke a v) (fun t ht => { ht with }) h
    exact { recognized with inLocation := rfl }

theorem Sound.enterHandler {location : Bool} {s : State} (h : Sound location s) (c : InterruptClass) :
    Sound false (s.enterHandler c) :=
  { h with inLocation := rfl }

/-- Every instruction and every interrupt entry. -/
theorem cpuStep_sound {s : State} (h : Sound false s) : Ensures (Sound false) (cpuStep s) := by
  intro t ht
  obtain acc | ⟨c, u, acc, rfl⟩ := cpuStep_accesses ht
  · exact h.accesses acc
  · exact ((h.acknowledge c).accesses acc).enterHandler c

theorem cpuStep_withDuring_sound {s : State} (d : List MemoryCycle) (h : Sound false s) :
    Ensures (Sound false) (cpuStep (s.withDuring d)) :=
  cpuStep_sound { h with }

theorem cpuTurn_sound {s : State} (d : List MemoryCycle) (h : Sound false s) :
    Ensures (Sound false) (cpuTurn d s) := by
  unfold cpuTurn
  split
  · exact cpuStep_withDuring_sound d h
  · exact .next h

/-- A machine that START sets running is powered. -/
theorem pressStart_sound {s : State} (d : List MemoryCycle) (h : Sound false s) :
    Ensures (Sound false) (pressStart d s) := by
  unfold pressStart
  split
  · exact .next h
  · next live =>
    split
    · have powered : s.power ≠ .off := by simp_all [State.panelLive]
      exact .next { h with poweredRun := fun off => absurd off powered }
    · split
      · exact cpuStep_withDuring_sound d h
      · exact .next h

/-- An event that acts under a condition. -/
theorem Ensures.ite {P : State → Prop} {s t : State} {c : Prop} [Decidable c] (ht : P t) (hs : P s) :
    Ensures P (.next (if c then t else s)) := by
  split
  · exact .next ht
  · exact .next hs

/-- Every external event. -/
theorem handle_sound {s : State} (e : Event) (h : Sound false s) : Ensures (Sound false) (handle e s) := by
  unfold handle
  cases e with
  | cpuTurn d => exact cpuTurn_sound d h
  | start d => exact pressStart_sound d h
  | setSwitches | setLock | cruInterrupt => exact .next { h with }
  | setMpo | setSie | setClock | clockStep | reset => exact .ite { h with } h
  | setMode run => exact .ite { h with poweredRun := fun off => by simp [h.poweredRun off] } h
  | enter r => exact .ite (h.enter r) h
  | display r => exact .ite (h.showRegister r) h
  | load => exact .ite (h.loadRom 0 256) h
  | cruInput a v => exact .next { h with linesIn := LineSet.set_rising _ a v h.linesIn }
  | dmacWrite a v => exact .ite h (h.dmacPut a v)
  | dmacRequest => exact .ite h { h with }
  | memError a v => exact .next (h.spoil a v)
  | memHeal a => exact .next (h.setMemory _ (h.memory.heal a.toNat))
  | powerLoss => exact .ite { h with poweredRun := nofun } h
  | powerDown => exact .ite { h with poweredRun := fun _ => rfl } h
  | powerRestore u => exact .ite h (h.restorePower u)

/-- Settles O8: a step is an external event or a turn of the CPU. -/
theorem stepKeepsInv : Obligations.StepKeepsInv := by
  intro s t h ht
  rw [inv_iff] at h ⊢
  unfold step at ht
  split at ht
  · next e rest _ => exact handle_sound e (h.setInbox rest) t ht
  · exact cpuTurn_sound [] h t ht

end Sys2Proof.Machine

namespace Sys2Proof.Machine

/-! ## Protected words -/

/-- The protected word a holds w, MPO is off, and the DMAC obeys protection or writes nothing during the step. -/
structure Guarded (a w : Word) (s : State) : Prop where
  word : s.mem.word a = w
  isProtected : protectedBy s.config a = true
  mpoOff : s.mpo = false
  agents : s.config.dmacObeysProtect = true ∨ ∀ c ∈ s.during, c.dmac = []

namespace Guarded
variable {a w : Word} {s t : State}

theorem refuses (h : Guarded a w s) : s.refusesWrite a = true := by
  simp [State.refusesWrite, h.isProtected, h.mpoOff]

theorem of_storage (h : Guarded a w s) (e : t.storage = s.storage) : Guarded a w t := by
  have hs : Guarded a w s.storage := { h with }
  rw [← e] at hs
  exact { hs with }

theorem poke_of_ne (h : Guarded a w s) {b : Word} (v : Word) (hb : a ≠ b) : Guarded a w (s.poke b v) where
  word := (s.word_poke_of_ne v hb).trans h.word
  isProtected := by simpa using h.isProtected
  mpoOff := by simpa using h.mpoOff
  agents := by simpa using h.agents

theorem write (h : Guarded a w s) (b v : Word) : Guarded a w (s.write b v) := by
  rcases s.write_cases b v with ⟨-, e⟩ | ⟨allowed, e⟩
  · rw [e]; exact { h with }
  · rw [e]
    refine h.poke_of_ne v ?_
    rintro rfl
    rw [h.refuses] at allowed
    cases allowed

theorem dmacPut (h : Guarded a w s) (obeys : s.config.dmacObeysProtect = true) (b v : Word) :
    Guarded a w (s.dmacPut b v) := by
  rcases s.dmacPut_cases b v with ⟨-, e⟩ | ⟨allowed, e⟩
  · rw [e]; exact h
  · rw [e]
    refine h.poke_of_ne v ?_
    rintro rfl
    simp [h.refuses, obeys] at allowed

theorem dmacPuts (h : Guarded a w s) (obeys : s.config.dmacObeysProtect = true) (l : List (Word × Word)) :
    Guarded a w (s.dmacPuts l) := by
  induction l generalizing s with
  | nil => exact h
  | cons p rest ih => exact ih (h.dmacPut obeys p.1 p.2) (by simpa using obeys)

/-- A DMAC that disobeys protection writes nothing at this access, nor at the later ones. -/
theorem grant (h : Guarded a w s) : Guarded a w s.grant := by
  rcases h.agents with obeys | silent
  · exact { h.dmacPuts obeys s.cycle.dmac with agents := .inl (by simpa using obeys) }
  · have none_now : s.cycle.dmac = [] := by
      unfold State.cycle
      cases hd : s.during with
      | nil => rfl
      | cons c rest => exact silent c (by simp [hd])
    have quiet : s.grant = { s with during := s.during.tail } := by rw [State.grant, none_now, State.dmacPuts]
    rw [quiet]
    exact { h with agents := .inr fun c hc => silent c (List.mem_of_mem_tail hc) }

/-- What an instruction does with memory and the output lines leaves the word. -/
theorem accesses {stores : Bool} (h : Guarded a w s) (ht : Accesses stores s t) : Guarded a w t := by
  induction ht with
  | refl => exact h
  | elsewhere _ e ih => exact ih.of_storage e
  | grant _ ih => exact ih.grant
  | write _ b v _ ih => exact ih.write b v
  | outputLine _ l v ih => exact { ih with }

/-- The DMAC's status storage lies outside the protected set (20_memory R70). -/
theorem acknowledge (h : Guarded a w s) (c : InterruptClass) : Guarded a w (s.acknowledge c) := by
  cases c with
  | internal | cru => exact { h with }
  | dmac =>
    have outside (b : Word) (lo : 0x96 ≤ b.toNat) (hi : b.toNat ≤ 0xA7) : a ≠ b := by
      have hp := h.isProtected
      simp only [protectedBy, decide_eq_true_eq] at hp
      rintro rfl
      omega
    have recognized : Guarded a w s.dmacRecognized :=
      State.dmacRecognized_of_poke (fun t b v lo hi ht => ht.poke_of_ne v (outside b lo hi))
        (fun t ht => { ht with }) h
    exact { recognized with }

end Guarded

/-- No step of the CPU alters a guarded word. -/
theorem cpuStep_guarded {a w : Word} {s : State} (h : Guarded a w s) : Ensures (Guarded a w) (cpuStep s) := by
  intro t ht
  obtain acc | ⟨c, u, acc, rfl⟩ := cpuStep_accesses ht
  · exact h.accesses acc
  · exact { (h.acknowledge c).accesses acc with }

/-- Settles O17. -/
theorem protectedWordsKept : Obligations.ProtectedWordsKept := by
  intro s t mpoOff agents ht a hlimit hgap
  have guarded : Guarded a (s.mem.word a) s := ⟨rfl, decide_eq_true ⟨hlimit, hgap⟩, mpoOff, agents⟩
  exact (cpuStep_guarded guarded t ht).word

/-! ## CPU writes -/

/-- A write is refused at a protected address with MPO off (20_memory R70, R71). -/
theorem State.refusesWrite_iff (s : State) (a : Word) :
    s.refusesWrite a = true ↔
      (a.toNat ≤ s.config.protectLimit ∧ ¬(0x80 ≤ a.toNat ∧ a.toNat ≤ 0xA7)) ∧ s.mpo = false := by
  simp only [State.refusesWrite, protectedBy, Bool.and_eq_true, decide_eq_true_eq, Bool.not_eq_true']

/-- A refused write leaves memory. -/
theorem State.mem_write_of_refused (s : State) (a v : Word) (h : s.refusesWrite a = true) :
    (s.write a v).mem = s.mem := by
  rw [State.write, if_pos h]; rfl

/-- Settles O19: a refused write, and one that is not. -/
theorem protectedWrite : Obligations.ProtectedWrite := by
  intro s a v quiet
  rw [s.store_quiet a v quiet]
  refine ⟨fun hlimit hgap mpoOff => ?_, fun free => ?_⟩
  · have refused : s.refusesWrite a = true := (s.refusesWrite_iff a).2 ⟨⟨hlimit, hgap⟩, mpoOff⟩
    refine ⟨fun b => ?_, fun n => ?_, ?_, ?_, fun j _ hj => ?_⟩
    · simp [State.peek_write, refused]
    · rw [s.mem_write_of_refused a v refused]
    · simp [refused]
    · simp [refused]
    · simp [hj]
  · have allowed : s.refusesWrite a = false := by
      rw [Bool.eq_false_iff, Ne, State.refusesWrite_iff]
      rintro ⟨⟨hlimit, hgap⟩, mpoOff⟩
      rcases free with mpoOn | above | gap
      · rw [mpoOn] at mpoOff
        cases mpoOff
      · omega
      · exact hgap gap
    have poked : s.write a v = s.poke a v := by rw [State.write, if_neg (by simp [allowed])]
    rw [poked]
    refine ⟨fun hr => ?_, fun b hb => ?_, s.poke_st a v, s.poke_pendInternal a v⟩
    · simp [State.peek_poke, hr]
    · simp [State.peek_poke, hb]

end Sys2Proof.Machine

namespace Sys2Proof.Machine

/-! ## The DMAC's writes and its status storage -/

/-- Reading any address after a write of the DMAC that is not refused. -/
theorem State.peek_dmacPut (s : State) (a v b : Word)
    (h : s.config.dmacObeysProtect = false ∨ s.refusesWrite a = false) :
    (s.dmacPut a v).peek b = if b = a ∧ s.readable a = true then v else s.peek b := by
  rcases s.dmacPut_cases a v with ⟨refused, -⟩ | ⟨-, e⟩
  · rw [Bool.and_eq_true] at refused
    simp [refused] at h
  · rw [e, State.peek_poke]

/-- The CPU's turn at memory, when the DMAC writes one word before it. -/
theorem State.grant_of_dmac_write (s : State) {b x : Word} {rest : List MemoryCycle}
    (h : s.during = { dmac := [(b, x)], error := none } :: rest) :
    s.grant = { s.dmacPut b x with during := rest } := by
  simp [State.grant, State.cycle, h, State.dmacPuts]

/-- What the DMAC writes just before a read or a store, that access meets. -/
theorem access_after_dmac (s : State) (a : Word) {b x : Word} {rest : List MemoryCycle} (k : Word → State → Result)
    (h : s.during = { dmac := [(b, x)], error := none } :: rest) :
    let u : State := { s.dmacPut b x with during := rest }
    (s.readable a = true → withRead s a k = k (u.peek a) (u.noteRead a)) ∧ ∀ v, s.store a v = u.write a v := by
  have noError : s.cycleError a = none := by simp [State.cycleError, State.cycle, h]
  refine ⟨fun hr => ?_, fun v => ?_⟩
  · rw [withRead_of_readable s a k hr, State.readWord, State.afterRead, noError, s.grant_of_dmac_write h]
    rfl
  · rw [State.store, s.grant_of_dmac_write h]

theorem State.readable_of_lt (s : State) {a : Word} (h : a.toNat < s.config.memWords) : s.readable a = true := by
  rw [State.readable, Bool.or_eq_true]
  exact .inr (decide_eq_true h)

/-- The two words of a controller that stores, and where: from 0x98 on, two for each controller (60_exceptions R349). -/
theorem State.peek_storeControllers_stored (l : List (Option (Word × Word))) (k j : Nat) (s : State)
    (hm : 0xA8 ≤ s.config.memWords) (hk : k + l.length ≤ 8) {w0 w1 : Word} (hj : l[j]? = some (some (w0, w1))) :
    (s.storeControllers k l).peek (BitVec.ofNat 16 (0x98 + 2 * (k + j))) = w0
    ∧ (s.storeControllers k l).peek (BitVec.ofNat 16 (0x99 + 2 * (k + j))) = w1 := by
  induction l generalizing k j s with
  | nil => simp at hj
  | cons c rest ih =>
    simp only [List.length_cons] at hk
    cases j with
    | zero =>
      obtain rfl : c = some (w0, w1) := by simpa using hj
      have readable (a : Nat) (ha : a < 0xA8) : ∀ t : State, t.config = s.config →
          t.readable (BitVec.ofNat 16 a) = true := by
        intro t ht
        refine t.readable_of_lt ?_
        rw [ht, BitVec.toNat_ofNat]
        omega
      have ne : BitVec.ofNat 16 (0x98 + 2 * k) ≠ BitVec.ofNat 16 (0x99 + 2 * k) := by
        intro e
        have := congrArg BitVec.toNat e
        simp only [BitVec.toNat_ofNat] at this
        omega
      simp only [State.storeControllers, Nat.add_zero]
      constructor
      · rw [State.peek_storeControllers _ _ _ _ (by rw [BitVec.toNat_ofNat]; omega) (by omega), State.peek_poke,
          State.peek_poke, if_neg (by simp [ne]), if_pos ⟨rfl, readable _ (by omega) s rfl⟩]
      · rw [State.peek_storeControllers _ _ _ _ (by rw [BitVec.toNat_ofNat]; omega) (by omega), State.peek_poke,
          if_pos ⟨rfl, readable _ (by omega) _ (State.poke_config _ _ _)⟩]
    | succ j =>
      have hj' : rest[j]? = some (some (w0, w1)) := by simpa using hj
      have step := fun t ht => ih (k + 1) j t ht (by omega) hj'
      rw [show k + 1 + j = k + (j + 1) by omega] at step
      cases c with
      | none => exact step s hm
      | some p => exact step _ (by simpa using hm)

/-- Every other address reads as before. -/
theorem State.peek_storeControllers_of_ne (l : List (Option (Word × Word))) (k : Nat) (s : State) (a : Word)
    (hk : k + l.length ≤ 8)
    (ha : ∀ j p, l[j]? = some (some p) → a.toNat ≠ 0x98 + 2 * (k + j) ∧ a.toNat ≠ 0x99 + 2 * (k + j)) :
    (s.storeControllers k l).peek a = s.peek a := by
  induction l generalizing k s with
  | nil => rfl
  | cons c rest ih =>
    simp only [List.length_cons] at hk
    have later := fun t => ih (k + 1) t (by omega) fun j p hj => by
      have := ha (j + 1) p (by simpa using hj)
      omega
    cases c with
    | none => exact later s
    | some p =>
      obtain ⟨h0, h1⟩ := ha 0 p (by simp)
      have ne (n : Nat) (hn : n < 65536) (h : a.toNat ≠ n) : a ≠ BitVec.ofNat 16 n := by
        rintro rfl
        rw [BitVec.toNat_ofNat] at h
        omega
      refine (later _).trans ?_
      rw [State.peek_poke, State.peek_poke, if_neg fun e => ne _ (by omega) h1 e.1,
        if_neg fun e => ne _ (by omega) h0 e.1]

/-- The DMAC's status storage is no register. -/
theorem State.dmacRecognized_regs (s : State) : s.dmacRecognized.regs = s.regs := by
  refine State.dmacRecognized_of_poke (P := fun t => t.regs = s.regs) (fun t a v lo hi h => ?_) (fun _ h => h) rfl
  have notRegister : isRegister a = false := by
    simp only [isRegister, decide_eq_false_iff_not]
    omega
  unfold State.poke
  rw [if_neg (by simp [notRegister])]
  split <;> exact h

/-- Reading any address after the status storage is reading it after the words of the controllers are stored. -/
theorem State.peek_dmacRecognized_eq (s : State) (a : Word) :
    s.dmacRecognized.peek a =
      ((s.poke 0x96 (Config.dmacStatusWord (s.dmac.toList.map Option.isSome))).storeControllers 0
        s.dmac.toList).peek a :=
  rfl

/-- Settles O57. -/
theorem dmacWritesAndRecognized : Obligations.DmacWritesAndRecognized := by
  intro s hm
  have hlen : 0 + s.dmac.toList.length ≤ 8 := by simp
  have entry (j : Nat) (hj : j < 8) : s.dmac.toList[j]? = some s.dmac[j] := by simp [hj]
  refine ⟨fun a v => ⟨fun obeys refused => ?_, fun h => ⟨fun b => s.peek_dmacPut a v b h, ?_, ?_⟩⟩,
    fun a b x rest k h => access_after_dmac s a k h, fun k => ?_, ?_, fun k w0 w1 hk => ?_, fun a ha96 ha => ?_,
    s.dmacRecognized_st, s.dmacRecognized_regs⟩
  · simp [State.dmacPut, obeys, refused]
  · exact s.dmacPut_st a v
  · exact s.dmacPut_pendInternal a v
  · simp [State.dmacRecognized]
  · rw [State.peek_dmacRecognized_eq, State.peek_storeControllers _ _ _ _ (by decide) hlen, State.peek_poke, if_pos]
    have below : (0x96#16).toNat < s.config.memWords := by simp only [BitVec.toNat_ofNat]; omega
    exact ⟨rfl, s.readable_of_lt below⟩
  · have stored := State.peek_storeControllers_stored s.dmac.toList 0 k.val
      (s.poke 0x96 (Config.dmacStatusWord (s.dmac.toList.map Option.isSome))) (by simpa using hm) hlen
      ((entry k.val k.isLt).trans (congrArg some hk))
    simp only [Nat.zero_add] at stored
    exact stored
  · rw [State.peek_dmacRecognized_eq, State.peek_storeControllers_of_ne _ _ _ _ hlen, State.peek_poke, if_neg]
    · exact fun e => ha96 e.1
    · intro j p hj
      have hj8 : j < 8 := by
        have := (List.getElem?_eq_some_iff.1 hj).1
        simpa using this
      rw [entry j hj8, Option.some_inj] at hj
      rw [Nat.zero_add]
      exact ha ⟨j, hj8⟩ (by simp [hj])

/-! ## Power -/

/-- Putting words into memory changes the register file, memory and its checks, nothing else. -/
theorem State.pokeAll_rest (s : State) (l : List (Word × Word)) :
    s.pokeAll l =
      { s with regs := (s.pokeAll l).regs, mem := (s.pokeAll l).mem, badWords := (s.pokeAll l).badWords } := by
  induction l generalizing s with
  | nil => rfl
  | cons p rest ih =>
    have first : s.pokeAll (p :: rest) = (s.poke p.1 p.2).pokeAll rest := rfl
    rw [first]
    conv_lhs => rw [ih]
    simp

/-- Reading an address after words are put into memory one after another: the last word put there. -/
theorem State.peek_pokeAll (s : State) (l : List (Word × Word)) (a : Word) (h : s.readable a = true) :
    (s.pokeAll l).peek a = (l.reverse.lookup a).getD (s.peek a) := by
  induction l using List.reverseRecOn with
  | nil => rfl
  | append_singleton l p ih =>
    have last : s.pokeAll (l ++ [p]) = (s.pokeAll l).poke p.1 p.2 := by simp [State.pokeAll]
    have readable : (s.pokeAll l).readable a = true := by rw [State.pokeAll_rest]; exact h
    rw [last, State.peek_poke, List.reverse_append, List.reverse_singleton, List.singleton_append, List.lookup_cons]
    by_cases e : a = p.1
    · subst e; simp [readable]
    · rw [if_neg fun h => e h.1, ih, beq_false_of_ne e]

/-- A check that begins to fail changes nothing else. -/
theorem State.spoil_rest (s : State) (a v : Word) : ∃ b, s.spoil a v = { s with badWords := b } := by
  unfold State.spoil
  split
  · exact ⟨_, rfl⟩
  · exact ⟨s.badWords, rfl⟩

theorem State.spoilAll_rest (s : State) (l : List (Word × Word)) :
    ∃ b, l.foldl (fun t p => t.spoil p.1 p.2) s = { s with badWords := b } := by
  induction l generalizing s with
  | nil => exact ⟨s.badWords, rfl⟩
  | cons p rest ih =>
    obtain ⟨b, first⟩ := s.spoil_rest p.1 p.2
    rw [List.foldl_cons, first]
    exact ih _

/-- The state with power applied, its memory aside (70_reset R381). -/
def State.repowered (s : State) (u : PowerUp) : State :=
  { s with
    regs := u.regs, pc := u.pc, ec := u.ec, st := 0x00C0, ia := u.ia, ib := u.ib, ma := u.ma, display := u.display
    pendInternal := true, cruLine := u.cruLine, dmac := u.dmac, errorLatch := u.errorLatch
    cruIn := LineSet.ofList u.cruIn, cruOut := LineSet.ofList u.cruOut
    power := .on, running := s.config.powerRestoreAutorun }

/-- With the battery on, memory is as before. -/
theorem State.restorePower_of_battery (s : State) (u : PowerUp) (h : (s.config.hasBattery && u.batteryOn) = true) :
    s.restorePower u = s.repowered u := by
  unfold State.restorePower
  rw [h]
  rfl

/-- The memory that comes up without it: the words of the event over zeros. -/
def State.refilled (s : State) (u : PowerUp) : State :=
  State.pokeAll { s.repowered u with regs := s.regs, mem := [], badWords := [], powerLossLight := true } u.mem

theorem State.restorePower_of_no_battery (s : State) (u : PowerUp)
    (h : (s.config.hasBattery && u.batteryOn) = false) :
    s.restorePower u = { u.badWords.foldl (fun t p => t.spoil p.1 p.2) (s.refilled u) with regs := u.regs } := by
  unfold State.restorePower
  rw [h]
  rfl

/-- Else memory and its checks are new, and the light is on. -/
theorem State.restorePower_rest (s : State) (u : PowerUp) (h : (s.config.hasBattery && u.batteryOn) = false) :
    ∃ m b, s.restorePower u = { s.repowered u with mem := m, badWords := b, powerLossLight := true } := by
  obtain ⟨b, spoiled⟩ := (s.refilled u).spoilAll_rest u.badWords
  rw [s.restorePower_of_no_battery u h, spoiled, State.refilled, State.pokeAll_rest]
  exact ⟨_, _, rfl⟩

/-- What an address that is no register reads as is a matter of memory and its checks. -/
theorem State.peek_eq_of_mem {s t : State} {a : Word} (hr : isRegister a = false) (hm : t.mem = s.mem)
    (hb : t.badWords = s.badWords) : t.peek a = s.peek a := by
  simp [State.peek, hr, hm, hb]

/-- Then memory reads as the last word the event puts there, or zero. -/
theorem State.peek_restorePower (s : State) (u : PowerUp) (a : Word)
    (h : (s.config.hasBattery && u.batteryOn) = false) (hb : u.badWords = []) (hr : isRegister a = false)
    (hi : s.installed a = true) : (s.restorePower u).peek a = (u.mem.reverse.lookup a).getD 0 := by
  have refilled : (s.restorePower u).peek a = (s.refilled u).peek a := by
    rw [s.restorePower_of_no_battery u h, hb]
    exact State.peek_eq_of_mem hr rfl rfl
  have zeros (t : State) (hm : t.mem = []) (hb : t.badWords = []) : t.peek a = 0 := by
    simp [State.peek, hr, hm, hb, BadWords.find, Memory.word, Memory.byte_nil]
  rw [refilled, State.refilled, State.peek_pokeAll, zeros _ rfl rfl]
  exact State.readable_of_lt _ (of_decide_eq_true hi)

/-- With ST = 0x00C0 an internal request is not masked. -/
theorem State.interrupt_of_restored (s : State) (hst : s.st = 0x00C0) (hp : s.pendInternal = true) :
    s.interrupt = some .internal := by
  have unmasked : s.stBit 7 = false := by rw [State.stBit, hst]; decide
  simp [State.interrupt, hp, unmasked]

/-- Power loss is sensed: PF is raised and the machine goes on (60_exceptions R337). -/
theorem handle_powerLoss (s : State) (on : s.power = .on) :
    handle .powerLoss s = .next { s.raise .pf with power := .failing } := by
  rw [handle, if_pos on]

theorem handle_powerRestore (s : State) (u : PowerUp) (off : s.power ≠ .on) :
    handle (.powerRestore u) s = .next (s.restorePower u) := by
  rw [handle, if_neg off]

/-- Settles O59: restoration with the battery on, and without it. -/
theorem powerEvents : Obligations.PowerEvents := by
  intro s
  refine ⟨fun on => ⟨_, handle_powerLoss s on, ?_, rfl, rfl, ?_, fun j _ hj => ?_⟩, rfl, fun off d => ?_,
    fun u off => ⟨_, handle_powerRestore s u off, ?_⟩⟩
  · exact s.stBit_raise .pf 3
  · simp [State.active, State.clockRuns, on]
  · exact (s.stBit_raise .pf j).trans (if_neg hj)
  · simp [handle, cpuTurn, State.active, off]
  · cases hk : s.config.hasBattery && u.batteryOn with
    | true =>
      rw [s.restorePower_of_battery u hk]
      simp only [Bool.and_eq_true] at hk
      obtain ⟨installed, charged⟩ := hk
      refine ⟨rfl, rfl, State.interrupt_of_restored _ rfl rfl, rfl, rfl, rfl, rfl, fun _ _ => ⟨rfl, rfl, rfl⟩,
        ?_⟩
      simp [installed, charged]
    | false =>
      have words := s.peek_restorePower u (h := hk)
      obtain ⟨m, b, e⟩ := s.restorePower_rest u hk
      rw [e] at words ⊢
      refine ⟨rfl, rfl, State.interrupt_of_restored _ rfl rfl, rfl, rfl, rfl, rfl, fun installed charged => ?_,
        fun _ => ⟨rfl, fun hb a hr hi => words a hb hr hi⟩⟩
      simp [installed, charged] at hk

/-! ## The effective address -/

/-- Indexing comes first unless ST<6> is 1, and always for *B, *BC and *BL (30_encoding R111). -/
theorem State.postIndexed_eq_false (s : State) {p : Bool} (h : s.stBit 6 = false ∨ p = true) :
    s.postIndexed p = false := by
  rcases h with h | h <;> simp [State.postIndexed, h]

theorem State.postIndexed_eq_true (s : State) {p : Bool} (h6 : s.stBit 6 = true) (hp : p = false) :
    s.postIndexed p = true := by
  simp [State.postIndexed, h6, hp]

/-- An indirect address has a meaning when its pointer's word does. -/
theorem State.eaOk_indirect (s : State) (r : Option RegNum) (n : Word) (p : Bool) :
    s.eaOk ⟨true, r, n⟩ p = s.readable (s.pointer ⟨true, r, n⟩ p) := rfl

/-- Settles O20. -/
theorem effectiveAddress : Obligations.EffectiveAddress := by
  intro s n r p quiet
  have ea (o : Address) := s.ea_quiet o p quiet
  refine ⟨?_, ?_, ?_, fun pre => ?_, fun h6 hp => ?_, ⟨rfl, rfl⟩, ?_, fun pre => ?_, fun h6 hp => ?_,
    fun o k h => ?_, fun a k h => withRead_of_not_readable s a k h, fun calm h => ?_⟩
  · simp [ea, State.indexValue]
  · simp [ea, State.indexValue]
  · simp [ea, State.indexValue]
  · simp [ea, State.indexValue, s.postIndexed_eq_false pre]
  · simp [ea, State.indexValue, s.postIndexed_eq_true h6 hp]
  · simp [State.eaOk_indirect, State.pointer, State.indexValue]
  · simp [State.eaOk_indirect, State.pointer, State.indexValue, s.postIndexed_eq_false pre]
  · simp [State.eaOk_indirect, State.pointer, s.postIndexed_eq_true h6 hp]
  · simp [withEA, h]
  · rw [cpuStep, calm]
    exact withRead_of_not_readable s s.ctr _ h

end Sys2Proof.Machine

/-! Decoding and encoding (30_encoding): the fields of an encoded word read back, what the decoder does at each op, and
the codes that are no instruction. -/

namespace Sys2Proof

/-! ## Fields of a word -/

theorem field_lt (w : Word) (i j : Nat) : field w i j < 2 ^ (j + 1 - i) := Nat.mod_lt _ (Nat.two_pow_pos _)

/-- A field is bits 15 - j and up, in the numbering from the least significant bit. -/
theorem field_eq_extractLsb' (w : Word) (i j : Nat) : field w i j = (w.extractLsb' (15 - j) (j + 1 - i)).toNat := by
  simp [field, Nat.shiftRight_eq_div_pow]

/-- A mask that is 1 at every bit of a field leaves the field. -/
theorem field_and (w m : Word) (i j : Nat)
    (h : m.extractLsb' (15 - j) (j + 1 - i) = BitVec.allOnes (j + 1 - i)) : field (w &&& m) i j = field w i j := by
  rw [field_eq_extractLsb', BitVec.extractLsb'_and, h, BitVec.and_allOnes, ← field_eq_extractLsb']

theorem flag_and (w m : Word) (i : Nat) (h : m.extractLsb' (15 - i) (i + 1 - i) = BitVec.allOnes (i + 1 - i)) :
    flag (w &&& m) i = flag w i := by
  rw [flag, field_and w m i i h, flag]

theorem field_ofNat {n : Nat} (h : n < 65536) (i j : Nat) :
    field (BitVec.ofNat 16 n) i j = n / 2 ^ (15 - j) % 2 ^ (j + 1 - i) := by
  rw [field, BitVec.toNat_ofNat, Nat.mod_eq_of_lt h]

theorem flag_ofNat {n : Nat} (h : n < 65536) (i : Nat) (b : Bool) (hb : n / 2 ^ (15 - i) % 2 = b.toNat) :
    flag (BitVec.ofNat 16 n) i = b := by
  rw [flag, field_ofNat h, Nat.add_sub_cancel_left, pow_one, hb]
  cases b <;> rfl

/-- The count field expresses 1 to 16 (41_format_IB R202; 45_format_III R272). -/
theorem countOf_mod {c : Nat} (h : countOk c = true) : countOf (c % 16) = c := by
  simp only [countOk, decide_eq_true_eq] at h
  unfold countOf
  split <;> omega

/-! ## Format group I, encoded -/

section
variable {op low : Nat} {k : Bool} {o : Address}

/-- The number of the first word: op, x, `*`, k, xr and the low bits (30_encoding R103). -/
theorem encodeI_lt (hop : op < 64) (hl : low < 16) :
    op * 1024 + o.index.isSome.toNat * 512 + o.ind.toNat * 256 + k.toNat * 128 + (o.index.getD 0).toNat * 16 + low
      < 65536 := by
  have hx := Bool.toNat_lt o.index.isSome
  have hi := Bool.toNat_lt o.ind
  have hk := Bool.toNat_lt k
  have hr := (o.index.getD 0).isLt
  omega

theorem flag_subcode_encodeI (hop : op < 64) (hl : low < 16) : flag (encodeI op k o low).1 8 = k := by
  have hk := Bool.toNat_lt k
  have hr := (o.index.getD 0).isLt
  exact flag_ofNat (encodeI_lt hop hl) 8 k (by omega)

theorem field_low_encodeI (hop : op < 64) (hl : low < 16) : field (encodeI op k o low).1 12 15 = low := by
  rw [encodeI, field_ofNat (encodeI_lt hop hl)]
  omega

/-- Bits 13 to 15 are the extension of format I-C (30_encoding R106). -/
theorem field_ext_encodeI (hop : op < 64) (rq : Bool) {ext : Nat} (he : ext < 8) :
    field (encodeI op k o (rq.toNat * 8 + ext)).1 13 15 = ext := by
  rw [encodeI, field_ofNat (encodeI_lt hop (rq_low rq ext he))]
  omega

/-- and bit 12 is rq. -/
theorem flag_rq_encodeI (hop : op < 64) (rq : Bool) {ext : Nat} (he : ext < 8) :
    flag (encodeI op k o (rq.toNat * 8 + ext)).1 12 = rq := by
  have hrq := Bool.toNat_lt rq
  exact flag_ofNat (encodeI_lt hop (rq_low rq ext he)) 12 rq (by omega)

/-- The address operand is read back: without x the register field is ignored, and encoded as 0. -/
theorem addressOf_encodeI (hop : op < 64) (hl : low < 16) :
    addressOf (encodeI op k o low).1 (encodeI op k o low).2 = o := by
  have hx := Bool.toNat_lt o.index.isSome
  have hi := Bool.toNat_lt o.ind
  have hk := Bool.toNat_lt k
  have hr := (o.index.getD 0).isLt
  have ind : flag (encodeI op k o low).1 7 = o.ind := flag_ofNat (encodeI_lt hop hl) 7 _ (by omega)
  have indexed : flag (encodeI op k o low).1 6 = o.index.isSome := flag_ofNat (encodeI_lt hop hl) 6 _ (by omega)
  have reg : field (encodeI op k o low).1 9 11 = (o.index.getD 0).toNat := by
    rw [encodeI, field_ofNat (encodeI_lt hop hl)]
    omega
  obtain ⟨_, index, _⟩ := o
  rw [addressOf, ind, indexed, reg]
  cases index <;> simp [encodeI]

/-- The register operand of format I-A is read back: `#` is bit 12, r bits 13 to 15 (30_encoding R104). -/
theorem regRefOf_encodeIA (hop : op < 64) (g : RegRef) : regRefOf (encodeIA op k g o).1 = g := by
  have alt : flag (encodeIA op k g o).1 12 = g.alt := flag_rq_encodeI hop g.alt g.num.isLt
  have num : field (encodeIA op k g o).1 13 15 = g.num.toNat := field_ext_encodeI hop g.alt g.num.isLt
  rw [regRefOf, alt, num]
  simp

end

/-! ## Groups II and III, encoded -/

theorem dispM_firstII {op : Nat} (hop : op < 64) (m : BitVec 10) : dispM (firstII op m) = m := by
  have hm := m.isLt
  have number : op * 1024 + m.toNat < 65536 := by omega
  have hf : field (firstII op m) 6 15 = m.toNat := by
    rw [firstII, field_ofNat number]
    omega
  rw [dispM, hf]
  simp

theorem operandN_secondII (mb : RegNum) (q : BaseDisp) : operandN (secondII mb q) = q := by
  have hmb := mb.isLt
  have hb := q.base.isLt
  have hd := q.disp.isLt
  have number : mb.toNat * 8192 + q.base.toNat * 1024 + q.disp.toNat < 65536 := by omega
  have base : field (secondII mb q) 3 5 = q.base.toNat := by
    rw [secondII, field_ofNat number]
    omega
  have disp : field (secondII mb q) 6 15 = q.disp.toNat := by
    rw [secondII, field_ofNat number]
    omega
  rw [operandN, dispN, base, disp]
  simp

/-- The base register of operand 1, or BRRL's r. -/
theorem field_base_secondII (mb : RegNum) (q : BaseDisp) : field (secondII mb q) 0 2 = mb.toNat := by
  have hmb := mb.isLt
  have hb := q.base.isLt
  have hd := q.disp.isLt
  rw [secondII, field_ofNat (by omega)]
  omega

/-- Operand 1 with any second word that carries its base register. -/
theorem operandM_firstII {op : Nat} (hop : op < 64) (q : BaseDisp) {w1 : Word} (h : field w1 0 2 = q.base.toNat) :
    operandM (firstII op q.disp) w1 = q := by
  rw [operandM, dispM_firstII hop, h]
  simp

/-- The second word of AMI and CMI: the base register and a 13-bit immediate (30_encoding R124). -/
theorem fields_immediate {b : RegNum} {imm : BitVec 13} {w : Word}
    (hw : w = BitVec.ofNat 16 (b.toNat * 8192 + imm.toNat)) :
    field w 0 2 = b.toNat ∧ BitVec.ofNat 13 (field w 3 15) = imm := by
  have hb := b.isLt
  have hi := imm.isLt
  have number : b.toNat * 8192 + imm.toNat < 65536 := by omega
  have base : field w 0 2 = b.toNat := by
    rw [hw, field_ofNat number]
    omega
  have value : field w 3 15 = imm.toNat := by
    rw [hw, field_ofNat number]
    omega
  rw [value]
  simp [base]

/-- ARB's first word (30_encoding R107). -/
theorem fields_arb {addend : BitVec 4} {xr : RegNum} {rq : Bool} {w : Word}
    (hw : w = BitVec.ofNat 16 (0x03 * 1024 + rq.toNat * 128 + xr.toNat * 16 + addend.toNat)) :
    flag w 8 = rq ∧ BitVec.ofNat 3 (field w 9 11) = xr ∧ BitVec.ofNat 4 (field w 12 15) = addend := by
  have ha := addend.isLt
  have hx := xr.isLt
  have hq := Bool.toNat_lt rq
  have number : 0x03 * 1024 + rq.toNat * 128 + xr.toNat * 16 + addend.toNat < 65536 := by omega
  have reg : field w 9 11 = xr.toNat := by
    rw [hw, field_ofNat number]
    omega
  have value : field w 12 15 = addend.toNat := by
    rw [hw, field_ofNat number]
    omega
  rw [reg, value, hw, flag_ofNat number 8 rq (by omega)]
  simp

/-- The second word of group III carries b, v1, am and n (30_encoding R125). -/
theorem secondIII_lt {b : Nat} (hb : b < 16) (v am : Bool) (n : BitVec 10) :
    b * 4096 + v.toNat * 2048 + am.toNat * 1024 + n.toNat < 65536 := by
  have hv := Bool.toNat_lt v
  have ha := Bool.toNat_lt am
  have hn := n.isLt
  omega

theorem fields_secondIII {b : Nat} (hb : b < 16) (v am : Bool) (n : BitVec 10) :
    field (secondIII b v am n) 0 3 = b ∧ flag (secondIII b v am n) 4 = v ∧ flag (secondIII b v am n) 5 = am
      ∧ dispN (secondIII b v am n) = n := by
  have number := secondIII_lt hb v am n
  have hv := Bool.toNat_lt v
  have ha := Bool.toNat_lt am
  have hn := n.isLt
  have bits : field (secondIII b v am n) 0 3 = b := by
    rw [secondIII, field_ofNat number]
    omega
  have disp : field (secondIII b v am n) 6 15 = n.toNat := by
    rw [secondIII, field_ofNat number]
    omega
  refine ⟨bits, flag_ofNat number 4 v (by omega), flag_ofNat number 5 am (by omega), ?_⟩
  rw [dispN, disp]
  simp

theorem bitB_secondIII (bit : BitVec 4) (v am : Bool) (n : BitVec 10) : bitB (secondIII bit.toNat v am n) = bit := by
  rw [bitB, (fields_secondIII bit.isLt v am n).1]
  simp

/-- TSBX's output bit, at each of its four places (30_encoding R127). -/
theorem outputBit_lt (ob : Bool) (pos : Fin 4) : ob.toNat * 2 ^ (3 - pos.val) < 16 := by
  revert ob pos
  decide

theorem flag_outputBit_secondIII (ob : Bool) (pos : Fin 4) (v am : Bool) (n : BitVec 10) :
    flag (secondIII (ob.toNat * 2 ^ (3 - pos.val)) v am n) pos.val = ob := by
  have hv := Bool.toNat_lt v
  have ha := Bool.toNat_lt am
  have hn := n.isLt
  refine flag_ofNat (secondIII_lt (outputBit_lt ob pos) v am n) pos.val ob ?_
  have ho := Bool.toNat_lt ob
  fin_cases pos <;> simp <;> omega

/-! ## The decoder, op by op -/

section
variable (p : Layout) {w0 w1 : Word}

theorem decodeWith_ldcr (h : field w0 0 5 = 0x02) :
    decodeWith p w0 w1 = .instr (.ldcr (flag w1 5) (dispM w0) (countOf (field w1 0 3)) (dispN w1)) := by
  rw [decodeWith, h]; rfl

theorem decodeWith_arb (h : field w0 0 5 = 0x03) :
    decodeWith p w0 w1
      = .instr (.arb (BitVec.ofNat 4 (field w0 12 15)) w1 (BitVec.ofNat 3 (field w0 9 11)) (flag w0 8)) := by
  rw [decodeWith, h]; rfl

theorem decodeWith_cm (h : field w0 0 5 = 0x04) :
    decodeWith p w0 w1 = .instr (.cm (operandM w0 w1) (operandN w1)) := by
  rw [decodeWith, h]; rfl

theorem decodeWith_mov (h : field w0 0 5 = 0x05) :
    decodeWith p w0 w1 = .instr (.mov (operandM w0 w1) (operandN w1)) := by
  rw [decodeWith, h]; rfl

theorem decodeWith_cml (h : field w0 0 5 = 0x06) :
    decodeWith p w0 w1 = .instr (.cml (operandM w0 w1) (operandN w1)) := by
  rw [decodeWith, h]; rfl

theorem decodeWith_cmi (h : field w0 0 5 = 0x07) :
    decodeWith p w0 w1 = .instr (.cmi (operandM w0 w1) (BitVec.ofNat 13 (field w1 3 15))) := by
  rw [decodeWith, h]; rfl

theorem decodeWith_ami (h : field w0 0 5 = 0x08) :
    decodeWith p w0 w1 = .instr (.ami (operandM w0 w1) (BitVec.ofNat 13 (field w1 3 15))) := by
  rw [decodeWith, h]; rfl

theorem decodeWith_adac (h : field w0 0 5 = 0x09) : decodeWith p w0 w1 = .instr (.adac (dispM w0) w1) := by
  rw [decodeWith, h]; rfl

theorem decodeWith_brrl (h : field w0 0 5 = 0x0A) :
    decodeWith p w0 w1 = .instr (.brrl (brrlReg p w0 w1) (operandN w1)) := by
  rw [decodeWith, h]; rfl

theorem decodeWith_stcr (h : field w0 0 5 = 0x0B) :
    decodeWith p w0 w1 = .instr (.stcr (flag w1 5) (dispM w0) (countOf (field w1 0 3)) (dispN w1)) := by
  rw [decodeWith, h]; rfl

theorem decodeWith_bbne (h : field w0 0 5 = 0x0C) :
    decodeWith p w0 w1 = .instr (.bbne (flag w1 5) (dispM w0) (flag w1 4) (dispN w1)) := by
  rw [decodeWith, h]; rfl

theorem decodeWith_setb (h : field w0 0 5 = 0x0D) :
    decodeWith p w0 w1 = .instr (.setb (flag w1 5) (dispM w0) (flag w1 4)) := by
  rw [decodeWith, h]; rfl

theorem decodeWith_xbne (h : field w0 0 5 = 0x0E) :
    decodeWith p w0 w1 = .instr (.xbne (flag w1 5) (dispM w0) (flag w1 4)) := by
  rw [decodeWith, h]; rfl

theorem decodeWith_tsbx (h : field w0 0 5 = 0x0F) :
    decodeWith p w0 w1
      = .instr (.tsbx (flag w1 5) (dispM w0) (flag w1 4) (dispN w1) (flag w1 p.tsbxOb.val)) := by
  rw [decodeWith, h]; rfl

theorem decodeWith_xfne (h : field w0 0 5 = 0x20) :
    decodeWith p w0 w1 = .instr (.xfne (flag w1 5) (dispM w0) (bitB w1) (flag w1 4)) := by
  rw [decodeWith, h]; rfl

theorem decodeWith_bfne (h : field w0 0 5 = 0x21) :
    decodeWith p w0 w1 = .instr (.bfne (flag w1 5) (dispM w0) (bitB w1) (flag w1 4) (dispN w1)) := by
  rw [decodeWith, h]; rfl

theorem decodeWith_setf (h : field w0 0 5 = 0x22) :
    decodeWith p w0 w1 = .instr (.setf (flag w1 5) (dispM w0) (bitB w1) (flag w1 4)) := by
  rw [decodeWith, h]; rfl

/-- The three ops of format I-C (30_encoding R106). -/
theorem decodeWith_formatIC {op : Nat} (hop : op = 0x1C ∨ op = 0x1E ∨ op = 0x1F) (h : field w0 0 5 = op) :
    decodeWith p w0 w1 = decodeIC op (flag w0 8) (field w0 13 15) w0 w1 := by
  rcases hop with rfl | rfl | rfl <;> rw [decodeWith, h] <;> rfl

theorem decodeWith_stps (h : field w0 0 5 = 0x39) :
    decodeWith p w0 w1 = if flag w0 8 then .instr (.stps (addressOf w0 w1)) else .unlisted := by
  rw [decodeWith, h]
  cases flag w0 8 <;> rfl

end

/-! ## Round trips, format by format -/

section
variable {p : Layout} {op : Nat} {k : Bool}

/-- Format I-A: what the decoder does at an op and a sub-code gives back the register and the address. -/
theorem decodeWith_encodeIA {mk : RegRef → Address → Instr} (g : RegRef) (o : Address) (hop : op < 64)
    (arm : ∀ w0 w1, field w0 0 5 = op → flag w0 8 = k →
      decodeWith p w0 w1 = .instr (mk (regRefOf w0) (addressOf w0 w1))) :
    decodeWith p (encodeIA op k g o).1 (encodeIA op k g o).2 = .instr (mk g o) := by
  have low : g.alt.toNat * 8 + g.num.toNat < 16 := rq_low _ _ g.num.isLt
  rw [arm _ _ (field_op_encodeIA op k g o hop) (flag_subcode_encodeI hop low), regRefOf_encodeIA hop]
  exact congrArg (fun a => Decoded.instr (mk g a)) (addressOf_encodeI hop low)

/-- Format I-B: the low four bits are a status bit number or a shift count (30_encoding R105). -/
theorem decodeWith_encodeI {mk : Nat → Address → Instr} (low : Nat) (o : Address) (hop : op < 64) (hl : low < 16)
    (arm : ∀ w0 w1, field w0 0 5 = op → flag w0 8 = k →
      decodeWith p w0 w1 = .instr (mk (field w0 12 15) (addressOf w0 w1))) :
    decodeWith p (encodeI op k o low).1 (encodeI op k o low).2 = .instr (mk low o) := by
  rw [arm _ _ (field_op_encodeI op k o low hop hl) (flag_subcode_encodeI hop hl), field_low_encodeI hop hl,
    addressOf_encodeI hop hl]

theorem decodeWith_encodeI_bit {mk : BitVec 4 → Address → Instr} (bit : BitVec 4) (o : Address) (hop : op < 64)
    (arm : ∀ w0 w1, field w0 0 5 = op → flag w0 8 = k →
      decodeWith p w0 w1 = .instr (mk (BitVec.ofNat 4 (field w0 12 15)) (addressOf w0 w1))) :
    decodeWith p (encodeI op k o bit.toNat).1 (encodeI op k o bit.toNat).2 = .instr (mk bit o) := by
  rw [decodeWith_encodeI (mk := fun f a => mk (BitVec.ofNat 4 f) a) bit.toNat o hop bit.isLt arm]
  simp

/-- The shifts with the count in the instruction. -/
theorem decodeWith_encodeI_count {mk : Nat → Address → Instr} {c : Nat} (o : Address) (hc : countOk c = true)
    (hop : op < 64) (arm : ∀ w0 w1, field w0 0 5 = op → flag w0 8 = k →
      decodeWith p w0 w1 = .instr (mk (countOf (field w0 12 15)) (addressOf w0 w1))) :
    decodeWith p (encodeI op k o (c % 16)).1 (encodeI op k o (c % 16)).2 = .instr (mk c o) := by
  rw [decodeWith_encodeI (mk := fun f a => mk (countOf f) a) (c % 16) o hop (Nat.mod_lt _ (by decide)) arm,
    countOf_mod hc]

/-- Format I-C: bit 8 and bits 13 to 15 select the instruction, bit 12 is rq (30_encoding R106). -/
theorem decodeWith_encodeIC {mk : Address → Bool → Instr} {ext : Nat} (o : Address) (rq : Bool)
    (hop : op = 0x1C ∨ op = 0x1E ∨ op = 0x1F) (he : ext < 8)
    (arm : ∀ w0 w1, decodeIC op k ext w0 w1 = .instr (mk (addressOf w0 w1) (flag w0 12))) :
    decodeWith p (encodeI op k o (rq.toNat * 8 + ext)).1 (encodeI op k o (rq.toNat * 8 + ext)).2
      = .instr (mk o rq) := by
  have bound : op < 64 := by omega
  have low := rq_low rq ext he
  rw [decodeWith_formatIC p hop (field_op_encodeI op k o _ bound low), flag_subcode_encodeI bound low,
    field_ext_encodeI bound rq he, arm, addressOf_encodeI bound low, flag_rq_encodeI bound rq he]

end

/-- BRRL, with its r field at either place (30_encoding R123). -/
theorem decodeWith_encodeBrrl (p : Layout) (r : RegNum) (q : BaseDisp) :
    decodeWith p (encodeWith p (.brrl r q)).1 (encodeWith p (.brrl r q)).2 = .instr (.brrl r q) := by
  have hr := r.isLt
  rw [decodeWith_brrl p (Laws.OpField.brrl r q p)]
  obtain ⟨pos, ob⟩ := p
  cases pos with
  | bits13to15 =>
    have hf : field (BitVec.ofNat 16 (0x0A * 1024 + r.toNat)) 13 15 = r.toNat := by
      rw [field_ofNat (by omega)]
      omega
    simp only [encodeWith, encodeBrrl, brrlReg, operandN_secondII, hf, BitVec.ofNat_toNat, BitVec.setWidth_eq]
  | bits16to18 =>
    simp only [encodeWith, encodeBrrl, brrlReg, operandN_secondII, field_base_secondII, BitVec.ofNat_toNat,
      BitVec.setWidth_eq]

/-- Settles O1, constructor by constructor: each arm of the decoder reads the fields that the encoder wrote. -/
theorem decodeOfEncode : Obligations.DecodeOfEncode := by
  intro p i wf
  cases i with
  | a g o | aa g o | bl g o | blInd g o | cr g o | cra g o | crl g o | crla g o | d g o | da g o | dad g o
  | dlax g o | drax g o | drlx g o | drrx g o | ds g o | l g o | la g o | lot g o | lota g o | m g o | ma g o
  | mlax g o | mrax g o | mrrx g o | n g o | na g o | or g o | ora g o | s g o | sa g o | sat g o | st g o
  | xor g o | xora g o =>
    exact decodeWith_encodeIA g o (by decide) fun w0 w1 h hk => by rw [decodeWith, h, hk]; rfl
  | dla c o | dra c o | drl c o | drr c o | mla c o | mra c o | mrr c o =>
    exact decodeWith_encodeI_count o wf (by decide) fun w0 w1 h hk => by rw [decodeWith, h, hk]; rfl
  | bc bit o | bcInd bit o =>
    exact decodeWith_encodeI_bit bit o (by decide) fun w0 w1 h hk => by rw [decodeWith, h, hk]; rfl
  | stps o =>
    exact decodeWith_encodeI (mk := fun _ => .stps) 0 o (by decide) (by decide) fun w0 w1 h hk => by
      rw [decodeWith_stps p h, hk]; rfl
  | b o rq | bInd o rq | xsb o rq | xsbInd o rq | xwb o rq | xwbInd o rq =>
    exact decodeWith_encodeIC o rq (.inl rfl) (by decide) fun _ _ => rfl
  | ss o rq | ssb o rq | sxbs o rq | sxbw o rq | sxs o rq | sxw o rq =>
    exact decodeWith_encodeIC o rq (.inr (.inl rfl)) (by decide) fun _ _ => rfl
  | lds o rq => exact decodeWith_encodeIC o rq (.inr (.inr rfl)) (by decide) fun _ _ => rfl
  | nop | xs | xw =>
    rw [decodeWith_formatIC p (.inl rfl) (field_op _ (by decide)), encodeWith]
    decide
  | arb addend n xr rq =>
    obtain ⟨hq, hx, ha⟩ := fields_arb (addend := addend) (xr := xr) (rq := rq) rfl
    rw [decodeWith_arb p (Laws.OpField.arb addend n xr rq p), encodeWith, hq, hx, ha]
  | brrl r q => exact decodeWith_encodeBrrl p r q
  | adac aq n =>
    refine (decodeWith_adac p (Laws.OpField.adac aq n p)).trans ?_
    exact congrArg (fun m => Decoded.instr (.adac m n)) (dispM_firstII (op := 0x09) (by decide) aq)
  | cm q q' =>
    rw [decodeWith_cm p (Laws.OpField.cm q q' p)]
    simp [encodeWith, operandM_firstII, field_base_secondII, operandN_secondII]
  | cml q q' =>
    rw [decodeWith_cml p (Laws.OpField.cml q q' p)]
    simp [encodeWith, operandM_firstII, field_base_secondII, operandN_secondII]
  | mov q q' =>
    rw [decodeWith_mov p (Laws.OpField.mov q q' p)]
    simp [encodeWith, operandM_firstII, field_base_secondII, operandN_secondII]
  | ami q imm =>
    obtain ⟨base, value⟩ := fields_immediate (b := q.base) (imm := imm) rfl
    rw [decodeWith_ami p (Laws.OpField.ami q imm p), encodeWith, operandM_firstII (by decide) q base, value]
  | cmi q imm =>
    obtain ⟨base, value⟩ := fields_immediate (b := q.base) (imm := imm) rfl
    rw [decodeWith_cmi p (Laws.OpField.cmi q imm p), encodeWith, operandM_firstII (by decide) q base, value]
  | setf alt m bit v =>
    rw [decodeWith_setf p (Laws.OpField.setf alt m bit v p)]
    simp [encodeWith, dispM_firstII, bitB_secondIII, fields_secondIII bit.isLt]
  | xfne alt m bit v =>
    rw [decodeWith_xfne p (Laws.OpField.xfne alt m bit v p)]
    simp [encodeWith, dispM_firstII, bitB_secondIII, fields_secondIII bit.isLt]
  | bfne alt m bit v n =>
    rw [decodeWith_bfne p (Laws.OpField.bfne alt m bit v n p)]
    simp [encodeWith, dispM_firstII, bitB_secondIII, fields_secondIII bit.isLt]
  | setb alt m v =>
    rw [decodeWith_setb p (Laws.OpField.setb alt m v p)]
    simp [encodeWith, dispM_firstII, fields_secondIII]
  | xbne alt m v =>
    rw [decodeWith_xbne p (Laws.OpField.xbne alt m v p)]
    simp [encodeWith, dispM_firstII, fields_secondIII]
  | bbne alt m v n =>
    rw [decodeWith_bbne p (Laws.OpField.bbne alt m v n p)]
    simp [encodeWith, dispM_firstII, fields_secondIII]
  | tsbx alt m v n ob =>
    rw [decodeWith_tsbx p (Laws.OpField.tsbx alt m v n ob p)]
    simp [encodeWith, dispM_firstII, fields_secondIII (outputBit_lt ob p.tsbxOb), flag_outputBit_secondIII]
  | ldcr alt m width n =>
    rw [decodeWith_ldcr p (Laws.OpField.ldcr alt m width n p)]
    simp [encodeWith, dispM_firstII, fields_secondIII (Nat.mod_lt width (by decide : 0 < 16)), countOf_mod wf]
  | stcr alt m width n =>
    rw [decodeWith_stcr p (Laws.OpField.stcr alt m width n p)]
    simp [encodeWith, dispM_firstII, fields_secondIII (Nat.mod_lt width (by decide : 0 < 16)), countOf_mod wf]

/-! ## Undefined and unlisted codes -/

theorem decodeIC_ne_undefinedOp (op : Nat) (k : Bool) (ext : Nat) (w0 w1 : Word) :
    decodeIC op k ext w0 w1 ≠ .undefinedOp := by
  unfold decodeIC
  split <;> simp

/-- The sub-codes of format I-C without a row (30_encoding R131). -/
theorem decodeIC_eq_unlisted_iff {op ext : Nat} (k : Bool) (w0 w1 : Word) (hop : op = 0x1C ∨ op = 0x1E ∨ op = 0x1F)
    (he : ext < 8) :
    decodeIC op k ext w0 w1 = .unlisted ↔
      (op = 0x1F ∧ (k = true ∨ ext ≠ 0) ∨ op = 0x1E ∧ (k = false ∨ ext = 3 ∨ ext = 7)
        ∨ op = 0x1C ∧ k = true ∧ ext ∈ [3, 4, 5, 6, 7] ∨ op = 0x1C ∧ k = false ∧ ext ∈ [3, 6]) := by
  rcases hop with rfl | rfl | rfl <;> cases k <;> interval_cases ext <;> simp [decodeIC]

/-- The op values without a row in the map (30_encoding R130). -/
theorem decodeWith_eq_undefinedOp (p : Layout) {w0 : Word} (w1 : Word)
    (h : field w0 0 5 ≤ 0x01 ∨ 0x23 ≤ field w0 0 5 ∧ field w0 0 5 ≤ 0x2F ∨ 0x3C ≤ field w0 0 5) :
    decodeWith p w0 w1 = .undefinedOp := by
  have hop := field_lt w0 0 5
  unfold decodeWith
  generalize field w0 0 5 = op at *
  rcases h with h | ⟨lo, hi⟩ | h <;> interval_cases op <;> rfl

/-- Settles O2: among the decoder's branches only the last answers an undefined code, and it is left with the op values
that no other branch names. -/
theorem undefinedOpCodes : Obligations.UndefinedOpCodes := by
  intro p w0 w1
  refine ⟨fun hd => ?_, decodeWith_eq_undefinedOp p w1⟩
  have hop := field_lt w0 0 5
  unfold decodeWith at hd
  split at hd
  -- branches 39, 42 and 43 are format I-C, branch 71 is the last
  case h_39 | h_42 | h_43 => exact (decodeIC_ne_undefinedOp _ _ _ _ _ hd).elim
  case h_71 => cases hk : flag w0 8 <;> simp [hk] at * <;> omega
  all_goals cases hd

/-- Outside format I-C five branches of the decoder answer an unlisted code. -/
theorem decodeWith_eq_unlisted_iff (p : Layout) (w0 w1 : Word) : decodeWith p w0 w1 = .unlisted ↔
    (field w0 0 5 = 0x12 ∧ flag w0 8 = false ∨ field w0 0 5 = 0x1B ∧ flag w0 8 = true
      ∨ field w0 0 5 = 0x39 ∧ flag w0 8 = false ∨ (field w0 0 5 = 0x3A ∨ field w0 0 5 = 0x3B) ∧ flag w0 8 = true
      ∨ field w0 0 5 = 0x1F ∧ (flag w0 8 = true ∨ field w0 13 15 ≠ 0)
      ∨ field w0 0 5 = 0x1E ∧ (flag w0 8 = false ∨ field w0 13 15 = 3 ∨ field w0 13 15 = 7)
      ∨ field w0 0 5 = 0x1C ∧ flag w0 8 = true ∧ field w0 13 15 ∈ [3, 4, 5, 6, 7]
      ∨ field w0 0 5 = 0x1C ∧ flag w0 8 = false ∧ field w0 13 15 ∈ [3, 6]) := by
  by_cases ic : field w0 0 5 = 0x1C ∨ field w0 0 5 = 0x1E ∨ field w0 0 5 = 0x1F
  · rw [decodeWith_formatIC p ic rfl, decodeIC_eq_unlisted_iff _ _ _ ic (field_lt w0 13 15)]
    rcases ic with h | h | h <;> simp [h]
  · constructor
    · intro hd
      unfold decodeWith at hd
      split at hd
      case h_19 op k | h_38 op k | h_65 op k | h_68 op k | h_70 op k => simp [op, k]
      case h_39 op | h_42 op | h_43 op => simp [op] at ic
      all_goals cases hd
    · rintro (⟨h, k⟩ | ⟨h, k⟩ | ⟨h, k⟩ | ⟨h | h, k⟩ | ⟨h, k⟩ | ⟨h, k⟩ | ⟨h, k⟩ | ⟨h, k⟩)
      · rw [decodeWith, h, k]; rfl
      · rw [decodeWith, h, k]; rfl
      · rw [decodeWith, h, k]; rfl
      · rw [decodeWith, h, k]; rfl
      · rw [decodeWith, h, k]; rfl
      all_goals simp [h] at ic

/-- Settles O5: each word is decoded. -/
theorem sampleWordsDecode : Obligations.SampleWordsDecode := by
  refine ⟨?_, ?_, ?_, ?_, ?_, ?_, ?_, ?_⟩ <;> decide

/-- Settles O4: the masks leave every field the decoder reads at the op. -/
theorem unusedBitsIgnored : Obligations.UnusedBitsIgnored := by
  intro w0 w1
  have op (m : Word) (v : Nat) (hm : m.extractLsb' 10 6 = BitVec.allOnes 6) (h : field w0 0 5 = v) :
      field (w0 &&& m) 0 5 = v := (field_and w0 m 0 5 hm).trans h
  unfold decode
  refine ⟨fun h => ?_, fun h => ?_, fun h => ?_, fun h => ?_, fun h => ?_, fun h => ?_, fun h => ?_, fun h => ?_,
    fun h => ?_, fun h hk he => ?_, fun h => ?_, fun h => ?_⟩
  · rw [decodeWith_arb _ h, decodeWith_arb _ (op 0xFCFF _ (by decide) h)]
    simp (disch := decide) only [flag_and, field_and]
  · rw [decodeWith_stps _ h, decodeWith_stps _ (op 0xFFF0 _ (by decide) h)]
    simp (disch := decide) only [addressOf, flag_and, field_and]
  · rw [decodeWith_setb _ h, decodeWith_setb _ h]
    simp (disch := decide) only [flag_and]
  · rw [decodeWith_xbne _ h, decodeWith_xbne _ h]
    simp (disch := decide) only [flag_and]
  · rw [decodeWith_bbne _ h, decodeWith_bbne _ h]
    simp (disch := decide) only [dispN, flag_and, field_and]
  · rw [decodeWith_xfne _ h, decodeWith_xfne _ h]
    simp (disch := decide) only [bitB, flag_and, field_and]
  · rw [decodeWith_setf _ h, decodeWith_setf _ h]
    simp (disch := decide) only [bitB, flag_and, field_and]
  · rw [decodeWith_ldcr _ h, decodeWith_ldcr _ h]
    simp (disch := decide) only [dispN, flag_and, field_and]
  · rw [decodeWith_stcr _ h, decodeWith_stcr _ h]
    simp (disch := decide) only [dispN, flag_and, field_and]
  · have hk' : flag (w0 &&& 0xFC87) 8 = false := by simpa (disch := decide) only [flag_and] using hk
    have he' : field (w0 &&& 0xFC87) 13 15 = field w0 13 15 := field_and _ _ _ _ (by decide)
    rw [decodeWith_formatIC _ (.inl rfl) h, decodeWith_formatIC _ (.inl rfl) (op 0xFC87 _ (by decide) h), hk, hk', he']
    simp only [List.mem_cons, List.not_mem_nil, or_false] at he
    rcases he with e | e | e <;> rw [e] <;> rfl
  · rw [decodeWith_brrl _ h, decodeWith_brrl _ (op 0xFC07 _ (by decide) h)]
    simp (disch := decide) only [brrlReg, operandN, dispN, field_and]
  · rw [decodeWith_tsbx _ h, decodeWith_tsbx _ h]
    simp (disch := decide) only [dispN, flag_and, field_and]

end Sys2Proof

namespace Sys2Proof.Machine

/-- The op values of the option with an unlisted sub-code are those of DAD and DS. -/
theorem isOptionCode_of_unlisted {p : Layout} {w0 w1 : Word} (h : decodeWith p w0 w1 = .unlisted) :
    isOptionCode w0 = true ↔ field w0 0 5 ∈ [0x3A, 0x3B] := by
  rw [decodeWith_eq_unlisted_iff] at h
  simp only [isOptionCode, List.contains_iff_mem, List.mem_cons, List.not_mem_nil, or_false]
  omega

/-- A word with an unlisted sub-code is a missing code of the option in two cases, E880 and EC80 (log 31). -/
theorem State.missingCode_iff {s : State} {a w1 : Word} {p : Layout} (quiet : s.during = [])
    (hd : decodeWith p (s.peek a) w1 = .unlisted) :
    s.missingCode a = true ↔ s.config.hasArithOption = false ∧ field (s.peek a) 0 5 ∈ [0x3A, 0x3B] := by
  rw [State.missingCode, s.readWord_quiet a quiet, Bool.and_eq_true, isOptionCode_of_unlisted hd, Bool.not_eq_true',
    and_comm]

/-- Settles O3: the decoder's words, and the step that fetches one. -/
theorem unlistedCodesRefused : Obligations.UnlistedCodesRefused := by
  refine ⟨decodeWith_eq_unlisted_iff, fun s quiet hr calm known hd => ?_⟩
  have present : s.missingCode s.ctr = false := by
    rw [← Bool.not_eq_true, State.missingCode_iff quiet hd]
    rintro ⟨absent, code⟩
    rcases known with installed | listed
    · simp [absent] at installed
    · exact listed code
  have fetch := executeAt_of_readable s exec s.ctr hr
  rw [s.readWord_quiet _ quiet, s.secondWord_quiet _ quiet, hd, present] at fetch
  rw [cpuStep, calm]
  exact fetch

/-! ## Undefined codes -/

/-- The state with the internal request posted. -/
def State.requested (s : State) : State := { s with pendInternal := true }

/-- The state with two fetched words in IA and IB. -/
def State.withWords (s : State) (w0 w1 : Word) : State := { s with ia := w0, ib := w1 }

theorem State.undefinedCode_requested (s : State) : s.requested.undefinedCode = s.undefinedCode := rfl

theorem State.noteRead_requested (s : State) (a : Word) : s.requested.noteRead a = (s.noteRead a).requested := by
  have hb : s.requested.badRead a = s.badRead a := rfl
  unfold State.noteRead
  rw [hb]
  cases s.badRead a <;> rfl

theorem State.noteRead_withWords (s : State) (w0 w1 a : Word) :
    (s.withWords w0 w1).noteRead a = (s.noteRead a).withWords w0 w1 := by
  have hb : (s.withWords w0 w1).badRead a = s.badRead a := rfl
  unfold State.noteRead
  rw [hb]
  cases s.badRead a <;> rfl

/-- Raising UC where a request already stands. -/
theorem Effects.undefinedCode {u t : State} {r : List Word} {st : List (Word × Word)} {w : List Nat}
    (h : Effects u t r st w) (requested : u.pendInternal = true) : Effects u t.undefinedCode r st ([4] ++ w) := by
  have stands : t.pendInternal = true := by rw [h.request, requested]; rfl
  have e : t.raise .uc = t.setStBit 4 true := by
    rw [State.raise, ← stands]
    rfl
  rw [State.undefinedCode, e]
  exact (h.setStBit 4 true (by decide) (by decide) (by decide)).advance

/-- An undefined code completes: UC, and the counter advances (60_exceptions R338). -/
theorem completes_undefinedCode {s u t : State} {r : List Word} (h : Effects u t r [] []) (b : Base s u t)
    (requested : u.pendInternal = true) :
    Completes u (.next t.undefinedCode) r [] [4] s.next fun t' => t'.stBit 4 = true := by
  refine ⟨_, rfl, h.undefinedCode requested, b.goesTo_advance (by simp) (fun _ => ?_) rfl, ?_⟩
  · rfl
  · simp [State.undefinedCode, causeBit]

/-- An optional instruction is an undefined code without the option (30_encoding R133). -/
theorem exec_optional_off (s : State) {i : Instr} (absent : s.config.hasArithOption = false)
    (optional : i.optional = true) : exec i s = .next s.undefinedCode := by
  unfold exec
  cases i with
  | d g o | da g o | m g o | ma g o | dad g o | ds g o | dla c o | dlax g o | dra c o | drax g o | drl c o
  | drlx g o | drr c o | drrx g o => exact withArithOption_off s _ absent
  | _ => cases optional

/-- Settles O33. -/
theorem optionAbsent : Obligations.OptionAbsent := by
  intro s i absent optional
  rw [exec_optional_off s absent optional, ← s.undefinedCode_requested]
  exact completes_undefinedCode (s := s.requested) (.refl _) (.refl _) rfl

/-- With no event and no request waiting, a step of an active machine executes at the counter. -/
theorem step_eq_executeAt {s : State} (idle : s.inbox = []) (active : s.active = true) (calm : s.interrupt = none) :
    step s = executeAt exec (s.withDuring []) s.ctr := by
  have calm' : (s.withDuring []).interrupt = none := calm
  rw [step, idle]
  refine (if_pos active).trans ?_
  rw [cpuStep, calm']
  rfl

/-- What a step does that fetches an undefined code, or a missing code of the option (60_exceptions R338). -/
theorem step_undefinedCode {s : State} (idle : s.inbox = []) (active : s.active = true) (calm : s.interrupt = none)
    (hr : s.readable2 s.ctr = true)
    (hd : decodeWith s.config.layout (s.peek s.ctr) (s.peek (s.ctr + 1#16)) = .undefinedOp
      ∨ decodeWith s.config.layout (s.peek s.ctr) (s.peek (s.ctr + 1#16)) = .unlisted
        ∧ s.config.hasArithOption = false ∧ field (s.peek s.ctr) 0 5 ∈ [0x3A, 0x3B]) :
    step s = .next ((s.withDuring []).fetched s.ctr).undefinedCode := by
  have quiet : (s.withDuring []).during = [] := rfl
  rw [step_eq_executeAt idle active calm, executeAt_of_readable (s.withDuring []) exec s.ctr hr,
    State.readWord_quiet _ _ quiet, State.secondWord_quiet _ _ quiet, State.peek_withDuring,
    State.peek_withDuring, State.withDuring_config]
  rcases hd with hd | ⟨hd, absent, code⟩
  · rw [hd]
  · have missing : (s.withDuring []).missingCode s.ctr = true := (State.missingCode_iff quiet hd).2 ⟨absent, code⟩
    rw [hd, missing]
    rfl

/-- Settles O53: from the state with the words in IA and IB, the two fetches, then the undefined code. -/
theorem undefinedCode : Obligations.UndefinedCode := by
  intro s idle active calm between hr hd
  let u := ((s.withDuring []).withWords (s.peek s.ctr) (s.peek (s.ctr + 1#16))).requested
  have fetched : ((s.withDuring []).fetched s.ctr).requested = (u.noteRead s.ctr).noteRead (s.ctr + 1#16) := by
    rw [State.fetched_quiet _ _ rfl]
    simp only [u, State.noteRead_requested, State.noteRead_withWords]
    rfl
  have next : u.next = s.ctr + 2#16 := if_neg (by rw [show u.inLocation = false from between]; decide)
  rw [step_undefinedCode idle active calm hr hd, ← State.undefinedCode_requested, fetched, ← next]
  exact completes_undefinedCode (((Effects.refl u).read _ (by simp)).read _ (by simp))
    (((Base.refl u).noteRead _).noteRead _) rfl

/-! ## Mode transfers -/

/-- The counter of the mode left is updated, then MI names the mode entered (42_format_IC R232). -/
theorem State.counter_transfer (s : State) (target b : Bool) :
    (s.transfer target).counter b = if b = s.worker then s.next else s.counter b := by
  simp [State.transfer]

theorem Effects.transfer {u t : State} {r : List Word} {st : List (Word × Word)} {w : List Nat}
    (h : Effects u t r st w) (target : Bool) : Effects u (t.transfer target) r st ([0] ++ w) :=
  h.advance.setWorker target

/-- A transfer with a branch, once the address is at hand. -/
theorem transfer_branch {s u t : State} {r : List Word} (h : Effects u t r [] []) (b : Base s u t)
    (target rq : Bool) (v : Word) :
    let t' := (t.transfer target).setCounter target (v + t.bias target rq)
    Effects u t' r [] [0] ∧ t'.counter target = v + (if rq then s.modeReg target 5 else 0)
      ∧ t'.counter (!target) = (if target = s.worker then s.counter (!target) else s.next) ∧ t'.stBit 0 = target := by
  refine ⟨(h.transfer target).setCounter _ _, ?_, ?_, ?_⟩
  · simp [State.bias, b.modeReg]
  · have other : (!target) = s.worker ↔ ¬target = s.worker := by cases target <;> cases s.worker <;> simp
    rw [State.counter_setCounter, if_neg (by simp), State.counter_transfer, b.worker, b.next, b.counter]
    simp only [other, ite_not]
  · simp [State.transfer]

/-- XS and XW. -/
theorem completes_transfer (s : State) (target : Bool) :
    Completes s (.next (s.transfer target)) [] [] [0] s.next fun t => t.stBit 0 = target := by
  refine ⟨_, rfl, (Effects.refl s).transfer target, ⟨?_, ?_⟩, by simp [State.transfer]⟩
  · simp [State.counter_transfer]
  · simp [State.counter_transfer]

/-- Settles O40: to Supervisor Mode and to Worker Mode. -/
theorem transfer : Obligations.Transfer := by
  intro s o rq quiet p hp
  have toEA target := transfer_branch (.afterEA s o false quiet) (.afterEA s o false quiet) target rq (s.ea o false)
  have toEO target := transfer_branch (.afterEO s o false quiet) (.afterEO s o false quiet) target rq (s.eo o false)
  simp only [List.mem_cons, List.not_mem_nil, or_false] at hp
  rcases hp with rfl | rfl
  · refine ⟨completes_transfer s false, fun ok => ?_, fun ok => ?_⟩ <;> dsimp only [exec]
    · exact ⟨_, withEA_of_ok s o false _ ok, toEA _⟩
    · exact ⟨_, withEO_of_ok s o false _ ok, toEO _⟩
  · refine ⟨completes_transfer s true, fun ok => ?_, fun ok => ?_⟩ <;> dsimp only [exec]
    · exact ⟨_, withEA_of_ok s o false _ ok, toEA _⟩
    · exact ⟨_, withEO_of_ok s o false _ ok, toEO _⟩

end Sys2Proof.Machine

namespace Sys2Proof.Machine

/-! ## The operands of format I-A, with no other agent at memory -/

section
variable (s : State) (g : RegRef) (o : Address)

/-- A read, with no other agent at memory. -/
theorem withRead_quiet (a : Word) (k : Word → State → Result) (quiet : s.during = []) (h : s.readable a = true) :
    withRead s a k = k (s.peek a) (s.noteRead a) := by
  rw [withRead_of_readable s a k h, s.readWord_quiet a quiet, s.afterRead_quiet a quiet]

/-- Computing EA changes no register, so R is the one the instruction started with. -/
theorem State.ref_afterEA_quiet (quiet : s.during = []) : (s.afterEA o false).ref g = s.ref g :=
  (Base.afterEA s o false quiet).ref g

theorem withOperands_quiet (k : Word → Word → State → Result) (quiet : s.during = []) (ok : s.eoOk o false = true) :
    withOperands s g o k = k (s.ref g) (s.eo o false) (s.afterEO o false) := by
  rw [withOperands_of_ok s g o k ok, s.ref_afterEA_quiet g o quiet]

/-- The instructions that use EA, or R as it is before the read, after EO is read. -/
theorem withEA_withRead_of_ok (k : Word → State → Word → State → Result) (ok : s.eoOk o false = true) :
    (withEA s o false fun a t => withRead t a (k a t))
      = k (s.ea o false) (s.afterEA o false) (s.eo o false) (s.afterEO o false) := by
  obtain ⟨okEA, readable⟩ : s.eaOk o false = true ∧ s.readable (s.ea o false) = true := by
    simpa [State.eoOk] using ok
  rw [withEA_of_ok s o false _ okEA, withRead_of_readable _ _ _ (by simpa using readable)]
  rfl

end

/-! ## Completion -/

/-- What else holds of the next state. -/
theorem Completes.and {u t : State} {r : List Word} {st : List (Word × Word)} {w : List Nat} {target : Word}
    {P Q : State → Prop} (h : Completes u (.next t) r st w target P) (hQ : Q t) :
    Completes u (.next t) r st w target fun t' => P t' ∧ Q t' := by
  obtain ⟨t', e, effects, goes, hP⟩ := h
  cases e
  exact ⟨t, rfl, effects, goes, hP, hQ⟩

/-- A state with the mode and the counters of the operand state branches. -/
theorem Base.goesTo_setCtr {s u t t' : State} (h : Base s u t) (hw : t'.worker = t.worker)
    (hc : ∀ b, t'.counter b = t.counter b) (a : Word) : GoesTo u (t'.setCtr a) a := by
  refine ⟨?_, ?_⟩
  · rw [State.counter_setCtr, h.baseWorker, hw, h.worker, if_pos rfl]
  · rw [State.counter_setCtr, h.baseWorker, hw, h.worker, if_neg (by simp), hc, h.counter, h.baseCounter]

/-- The end of the comparisons. -/
theorem completes_compare {s u t : State} {r : List Word} (x y : Int) (h : Effects u t r [] []) (b : Base s u t) :
    Completes u (.next (t.setComparison (compareInt x y)).advance) r [] [10, 11, 12] s.next
      fun t' => ComparesAs t' x y :=
  ⟨_, rfl, (h.setComparison _).advance, b.goesTo_advance (by simp) (by simp) (by simp),
    (comparesAs_setComparison t x y).of_bits fun _ _ => by rw [State.stBit_advance]⟩

/-- The end of BL and *BL. -/
theorem completes_link {s u t : State} {r : List Word} (g : RegRef) (a : Word) (h : Effects u t r [] [])
    (b : Base s u t) :
    Completes u (.next ((t.setRef g t.ctr).setCtr a)) r [(s.refAddress g, s.ctr)] [] a fun _ => True := by
  refine ⟨_, rfl, ?_, b.goesTo_setCtr (by simp) (by simp) a, trivial⟩
  rw [← b.refAddress, ← b.ctr]
  exact (h.setFile (t.refIndex g) t.ctr (by simp)).setCtr a

/-! ## Load and logic -/

/-- The tally of ones does not depend on the end it is counted from (40_format_IA R169). -/
theorem onesTally_eq (v : Word) :
    onesTally v = BitVec.ofNat 16 ((List.finRange 16).countP fun i => v.getLsbD i) := by
  have mirrored : (List.range 16).map (15 - ·) = (List.range 16).reverse := by decide
  have swap : (List.range 16).countP (fun i => v.getMsbD i) = (List.range 16).countP fun i => v.getLsbD (15 - i) :=
    List.countP_congr fun i hi => by simp [BitVec.getMsbD_eq_getLsbD, List.mem_range.1 hi]
  have count : (List.range 16).countP (fun i => v.getLsbD (15 - i)) = (List.range 16).countP fun i => v.getLsbD i := by
    rw [← List.countP_reverse (l := List.range 16), ← mirrored, List.countP_map]
    rfl
  rw [onesTally, swap, count, ← List.map_coe_finRange_eq_range, List.countP_map]
  rfl

/-- Settles O21: what each puts into the register, once EO is read. -/
theorem loadAndLogicOperand : Obligations.LoadAndLogicOperand := by
  intro s g o quiet ok b p hp
  have loads v := completes_loadRef g v (.afterEO s o false quiet) (.afterEO s o false quiet)
  simp only [List.mem_cons, List.not_mem_nil, or_false] at hp
  rcases hp with rfl | rfl | rfl | rfl | rfl <;> dsimp only [exec]
  · rw [execL, withEO_of_ok s o false _ ok]
    exact loads _
  · rw [execLot, withEO_of_ok s o false _ ok, onesTally_eq]
    exact loads _
  · rw [execN, withOperands_quiet s g o _ quiet ok]
    exact loads _
  · rw [execOr, withOperands_quiet s g o _ quiet ok]
    exact loads _
  · rw [execXor, withOperands_quiet s g o _ quiet ok]
    exact loads _

/-- Settles O22: the same from the state in which EA is computed. -/
theorem loadAndLogicAddress : Obligations.LoadAndLogicAddress := by
  intro s g o quiet ok b p hp
  have loads v := completes_loadRef g v (.afterEA s o false quiet) (.afterEA s o false quiet)
  have ref := s.ref_afterEA_quiet g o quiet
  simp only [List.mem_cons, List.not_mem_nil, or_false] at hp
  rcases hp with rfl | rfl | rfl | rfl | rfl <;> dsimp only [exec]
  · rw [execLa, withEA_of_ok s o false _ ok]
    exact loads _
  · rw [execLota, withEA_of_ok s o false _ ok, onesTally_eq]
    exact loads _
  · rw [execNa, withEA_of_ok s o false _ ok, ref]
    exact loads _
  · rw [execOra, withEA_of_ok s o false _ ok, ref]
    exact loads _
  · rw [execXora, withEA_of_ok s o false _ ok, ref]
    exact loads _

/-! ## Comparison, linkage and stores -/

/-- Settles O24: signed and unsigned, with EO and with EA. -/
theorem compare : Obligations.Compare := by
  intro s g o quiet
  have operand x y := completes_compare x y (.afterEO s o false quiet) (.afterEO s o false quiet)
  have address x y := completes_compare x y (.afterEA s o false quiet) (.afterEA s o false quiet)
  have ref := s.ref_afterEA_quiet g o quiet
  refine ⟨fun ok => ⟨?_, ?_⟩, fun ok => ⟨?_, ?_⟩⟩ <;> dsimp only [exec]
  · rw [execCr, withOperands_quiet s g o _ quiet ok]
    exact operand _ _
  · rw [execCrl, withOperands_quiet s g o _ quiet ok]
    exact operand _ _
  · rw [execCra, withEA_of_ok s o false _ ok, ref]
    exact address _ _
  · rw [execCrla, withEA_of_ok s o false _ ok, ref]
    exact address _ _

/-- Settles O34: the target is at hand before the register is written. -/
theorem branchAndLink : Obligations.BranchAndLink := by
  intro s g o quiet
  refine ⟨fun ok => ?_, fun ok => ?_⟩ <;> dsimp only [exec]
  · rw [execBl, withEA_of_ok s o false _ ok]
    exact completes_link g _ (.afterEA s o false quiet) (.afterEA s o false quiet)
  · rw [execBlInd, withEO_of_ok s o true _ ok]
    exact completes_link g _ (.afterEO s o true quiet) (.afterEO s o true quiet)

/-- Settles O25. -/
theorem storeRegisterAndSwitches : Obligations.StoreRegisterAndSwitches := by
  intro s g o quiet ok p hp
  have stores v := completes_storeWord (s.ea o false) v (.afterEA s o false quiet) (.afterEA s o false quiet) quiet
  simp only [List.mem_cons, List.not_mem_nil, or_false] at hp
  rcases hp with rfl | rfl <;> dsimp only [exec]
  · rw [execSt, withEA_of_ok s o false _ ok, s.ref_afterEA_quiet g o quiet]
    exact stores _
  · rw [execStps, withEA_of_ok s o false _ ok, State.afterEA_switches]
    exact stores _

end Sys2Proof.Machine

namespace Sys2Proof.Machine

/-! ## SAT -/

/-- The number of leading zeros is the place of the first one, or 16 where there is none. -/
theorem leadingZeros_eq {v : Word} {n : Nat} (hn : n ≤ 16) (zeros : ∀ i, i < n → v.getMsbD i = false)
    (stop : n = 16 ∨ v.getMsbD n = true) : leadingZeros v = n := by
  have before : ∀ i ∈ List.range n, (!v.getMsbD i) = true := fun i hi => by simp [zeros i (List.mem_range.1 hi)]
  have after : ((List.range (16 - n)).map (n + ·)).takeWhile (fun i => !v.getMsbD i) = [] := by
    cases k : 16 - n with
    | zero => rfl
    | succ m =>
      have one : v.getMsbD n = true := stop.resolve_left (by omega)
      simp [List.range_succ_eq_map, one]
  have split : List.range 16 = List.range n ++ (List.range (16 - n)).map (n + ·) := by
    rw [← List.range_add, Nat.add_sub_cancel' hn]
  rw [leadingZeros, split, List.takeWhile_append_of_pos before, after, List.append_nil, List.length_range]

/-- A left shift drops what no longer fits. -/
theorem shiftLeft_eq_ofNat {w : Nat} (v : BitVec w) (c : Nat) : v <<< c = BitVec.ofNat w (v.toNat * 2 ^ c) := by
  apply BitVec.eq_of_toNat_eq
  rw [BitVec.toNat_shiftLeft, BitVec.toNat_ofNat, Nat.shiftLeft_eq]

/-- Clearing bit 0 keeps the other fifteen. -/
theorem putBit_zero_false (v : Word) : putBit v 0 false = v &&& 0x7FFF := rfl

/-- A carry out of the addition of a number of places. -/
theorem carryOut_ofNat (v : Word) {n : Nat} (hn : n ≤ 16) :
    carryOut v (BitVec.ofNat 16 n) = decide (65536 ≤ v.toNat + n) := by
  rw [carryOut, BitVec.toNat_ofNat, Nat.mod_eq_of_lt (by omega)]

/-- A register is the word at its address. -/
theorem State.peek_refAddress (s : State) (g : RegRef) : s.peek (s.refAddress g) = s.ref g := by
  rw [State.peek, if_pos (s.isRegister_refAddress g), s.registerAt_refAddress, State.ref]

theorem State.refAddress_store (s : State) (g : RegRef) (a v : Word) :
    (s.store a v).refAddress g = s.refAddress g := by
  simp [State.refAddress, State.refIndex]

/-- The last write of a register counts. -/
theorem State.setRef_setRef (s : State) (g : RegRef) (v v' : Word) :
    (s.setRef g v).setRef g v' = s.setRef g v' := by
  have index : (s.setRef g v).refIndex g = s.refIndex g := by simp [State.refIndex]
  rw [State.setRef, index]
  simp [State.setRef, State.setFile, Vector.set_set]

/-- The end of SAT: n places are added to the register as it is now. -/
def State.addTally (s : State) (g : RegRef) (n : Nat) : State :=
  let sum := s.ref g + BitVec.ofNat 16 n
  (((s.setRef g sum).setCO (carryOut (s.ref g) (BitVec.ofNat 16 n))).setCB sum).advance

/-- SAT, once EO is read. -/
theorem execSat_of_ok (s : State) (g : RegRef) (o : Address) (ok : s.eoOk o false = true) {n : Nat}
    (zeros : leadingZeros (s.eo o false) = n) :
    execSat g o s = .next (((s.afterEO o false).store (s.ea o false)
      (BitVec.ofNat 16 ((s.eo o false).toNat * 2 ^ n) &&& 0x7FFF)).addTally g n) := by
  rw [execSat, withEA_withRead_of_ok s o _ ok, zeros, putBit_zero_false, shiftLeft_eq_ofNat]
  rfl

/-- The addition completes after a store, to the register or elsewhere. -/
theorem completes_addTally {s u t₀ t : State} {r : List Word} {st : List (Word × Word)} (g : RegRef) {n : Nat}
    (hn : n ≤ 16) (h : Effects u (t.setRef g (t.ref g + BitVec.ofNat 16 n)) r st []) (b : Base s u t₀)
    (hw : t.worker = t₀.worker) (hc : ∀ b, t.counter b = t₀.counter b) (hl : t.inLocation = t₀.inLocation) :
    Completes u (.next (t.addTally g n)) r st [10, 11, 12, 13] s.next fun t' =>
      t'.stBit 13 = decide (65536 ≤ (t.ref g).toNat + n)
        ∧ ComparesAs t' (t.ref g + BitVec.ofNat 16 n).toInt 0 := by
  rw [← carryOut_ofNat _ hn]
  refine ⟨_, rfl, ?_, b.goesTo_advance ?_ ?_ ?_, ?_, comparesAs_setCB_advance _ _⟩
  · exact ((h.setCO _).setComparison (compareSigned _ 0)).advance
  all_goals simp [State.addTally, hw, hc, hl]

/-- Settles O26: the register the tally is added to is another word than the one stored, or that word. -/
theorem shiftAndAddTally : Obligations.ShiftAndAddTally := by
  intro s g o n quiet ok hn zeros stop v done
  have h := Effects.afterEO s o false quiet
  have b := Base.afterEO s o false quiet
  have address := b.refAddress g
  let t := (s.afterEO o false).store (s.ea o false) v
  have tally {old : Word} {stores : List (Word × Word)} (hold : t.ref g = old)
      (effects : Effects (s.withIB (s.ea o false)) (t.setRef g (old + BitVec.ofNat 16 n)) (s.eoReads o false)
        stores []) : done stores old := by
    subst hold
    simp only [done, exec, execSat_of_ok s g o ok (leadingZeros_eq hn zeros stop)]
    exact completes_addTally g hn effects b (by simp) (by simp) (by simp)
  refine ⟨fun other => ?_, fun same => ?_⟩
  · have stored : Effects (s.withIB (s.ea o false)) t (s.eoReads o false) [(s.ea o false, v)] [] :=
      h.store quiet _ v (by simp)
    have address' : t.refAddress g = s.refAddress g := (State.refAddress_store _ g _ v).trans address
    have kept : t.ref g = s.ref g := by
      rw [← t.peek_refAddress, address', stored.kept _ (List.forall_mem_singleton.2 other.symm)]
      exact s.peek_refAddress g
    rw [← address'] at other ⊢
    exact tally kept (stored.setFile (t.refIndex g) _ (List.forall_mem_singleton.2 other.symm))
  · have stored : t = (s.afterEO o false).setRef g v := by
      rw [← State.write_refAddress, address, ← same]
      exact State.store_quiet _ _ _ (h.during_eq.trans quiet)
    refine tally ?_ ?_
    · rw [stored, ← State.peek_refAddress]
      simp [State.setRef, State.refAddress, State.refIndex]
    · rw [stored, State.setRef_setRef, ← address]
      exact h.setFile _ _ (by simp)

end Sys2Proof.Machine

namespace Sys2Proof.Machine

/-! ## The shift functions (40_format_IA R186) -/

section
variable {w : Nat} (v : BitVec w) (c : Nat)

/-- An arithmetic right shift rounds the quotient down. -/
theorem sshiftRight_eq_ofInt : v.sshiftRight c = BitVec.ofInt w (v.toInt / 2 ^ c) := by
  rw [← BitVec.ofInt_toInt (x := v.sshiftRight c), BitVec.toInt_sshiftRight, Int.shiftRight_eq_div_pow]
  norm_cast

theorem ushiftRight_eq_ofNat : v >>> c = BitVec.ofNat w (v.toNat / 2 ^ c) := by
  apply BitVec.eq_of_toNat_eq
  rw [BitVec.toNat_ushiftRight, Nat.shiftRight_eq_div_pow, BitVec.toNat_ofNat,
    Nat.mod_eq_of_lt ((Nat.div_le_self _ _).trans_lt v.isLt)]

/-- A rotation brings the c lowest bits to the top; a whole turn changes nothing. -/
theorem rotateRight_eq_ofNat (h : c ≤ w) :
    v.rotateRight c = BitVec.ofNat w (v.toNat / 2 ^ c + v.toNat % 2 ^ c * 2 ^ (w - c)) := by
  apply BitVec.eq_of_toNat_eq
  rcases h.eq_or_lt with rfl | h
  · simp [BitVec.toNat_rotateRight, Nat.shiftLeft_eq, Nat.div_eq_of_lt v.isLt, Nat.mod_eq_of_lt v.isLt]
  · have power : 2 ^ w = 2 ^ c * 2 ^ (w - c) := by rw [← pow_add, Nat.add_sub_cancel' h.le]
    have high : v.toNat / 2 ^ c < 2 ^ (w - c) := by
      rw [Nat.div_lt_iff_lt_mul (by positivity), mul_comm, ← power]
      exact v.isLt
    have low : v.toNat % 2 ^ c < 2 ^ c := Nat.mod_lt _ (by positivity)
    have rotated : v.toNat / 2 ^ c + v.toNat % 2 ^ c * 2 ^ (w - c) < 2 ^ w := by
      calc v.toNat / 2 ^ c + v.toNat % 2 ^ c * 2 ^ (w - c)
        _ < 2 ^ (w - c) + v.toNat % 2 ^ c * 2 ^ (w - c) := Nat.add_lt_add_right high _
        _ = (v.toNat % 2 ^ c + 1) * 2 ^ (w - c) := by ring
        _ ≤ 2 ^ c * 2 ^ (w - c) := Nat.mul_le_mul_right _ low
        _ = 2 ^ w := power.symm
    rw [BitVec.toNat_rotateRight, BitVec.toNat_ofNat, Nat.mod_eq_of_lt h, Nat.mod_eq_of_lt rotated,
      Nat.shiftRight_eq_div_pow, Nat.shiftLeft_eq, power, Nat.mul_mod_mul_right, ← Nat.shiftLeft_eq, Nat.or_comm,
      ← Nat.shiftLeft_add_eq_or_of_lt high, Nat.shiftLeft_eq, Nat.add_comm]

/-- A left shift overflows when one of the bits that come to the top differs from the sign. -/
theorem shiftOverflow_iff : shiftOverflow v c = true ↔ ∃ i, i ≤ c ∧ v.getMsbD i ≠ v.getMsbD 0 := by
  simp [shiftOverflow]

end

theorem shiftCount16_le (r : Word) : shiftCount16 r ≤ 16 := by
  unfold shiftCount16
  split <;> omega

theorem shiftCount32_le (r : Word) : shiftCount32 r ≤ 32 := by
  unfold shiftCount32
  split <;> omega

/-! ## Single-word memory shifts -/

theorem Base.setOI {s u t : State} (h : Base s u t) (v : Bool) : Base s u (t.setOI v) :=
  ⟨by simp [h.worker], by simp [h.counter], by simp [h.regs], by simp [h.inLocation], h.baseWorker, h.baseCounter⟩

/-- The left shift of the word at EA (40_format_IA R173, 41_format_IB R206). -/
theorem completes_shiftLeft {s u t : State} {r : List Word} (a v : Word) (c : Nat) (h : Effects u t r [] [])
    (b : Base s u t) (quiet : u.during = []) :
    Completes u (.next (t.shiftLeft a v c)) r [(a, BitVec.ofNat 16 (v.toNat * 2 ^ c))] [1, 10, 11, 12] s.next
      fun t' => ComparesAs t' (BitVec.ofNat 16 (v.toNat * 2 ^ c)).toInt 0
        ∧ (t'.stBit 1 = true ↔ ∃ i, i ≤ c ∧ v.getMsbD i ≠ v.getMsbD 0) := by
  rw [← shiftLeft_eq_ofNat, ← shiftOverflow_iff]
  exact (completes_storeWord a (v <<< c) (h.setOI (shiftOverflow v c)) (b.setOI _) quiet).and
    (by simp [State.storeWord])

/-- Settles O27: the count of the instruction, and the count in R, which is read before the operand (log 33). -/
theorem shiftWord : Obligations.ShiftWord := by
  intro s o quiet ok w done shifts
  have h := Effects.afterEO s o false quiet
  have b := Base.afterEO s o false quiet
  have complete {c : Nat} {left right rotate : Instr} (hc : c ≤ 16)
      (hleft : exec left s = .next ((s.afterEO o false).shiftLeft (s.ea o false) w c))
      (hright : exec right s = .next ((s.afterEO o false).storeWord (s.ea o false) (w.sshiftRight c)))
      (hrotate : exec rotate s = .next ((s.afterEO o false).storeWord (s.ea o false) (w.rotateRight c))) :
      shifts c left right rotate := by
    simp only [shifts, done, hleft, hright, hrotate]
    refine ⟨completes_shiftLeft _ w c h b quiet, ?_, ?_⟩
    · rw [← sshiftRight_eq_ofInt]
      exact (completes_storeWord _ _ h b quiet).and trivial
    · rw [← rotateRight_eq_ofNat w c hc]
      exact (completes_storeWord _ _ h b quiet).and trivial
  refine ⟨fun c _ hc => complete hc ?_ ?_ ?_,
    fun g => complete (c := shiftCount16 (s.ref g)) (shiftCount16_le _) ?_ ?_ ?_⟩ <;> dsimp only [exec]
  · exact withEA_withRead_of_ok s o _ ok
  · exact withEA_withRead_of_ok s o _ ok
  · exact withEA_withRead_of_ok s o _ ok
  · rw [execMlax, withEA_withRead_of_ok s o _ ok, s.ref_afterEA_quiet g o quiet]
  · rw [execMrax, withEA_withRead_of_ok s o _ ok, s.ref_afterEA_quiet g o quiet]
  · rw [execMrrx, withEA_withRead_of_ok s o _ ok, s.ref_afterEA_quiet g o quiet]

end Sys2Proof.Machine

namespace Sys2Proof.Machine

/-! ## Double words -/

theorem State.peek2_afterEA_quiet (s : State) (o : Address) (p : Bool) (a : Word) (quiet : s.during = []) :
    (s.afterEA o p).peek2 a = s.peek2 a := by
  simp [State.peek2, s.peek_afterEA_quiet o p _ quiet]

/-- The two halves stored at an address are those of the double word. -/
theorem doubleStores_append (a hi lo : Word) : doubleStores a (hi ++ lo) = [(a, hi), (a + 1#16, lo)] := by
  rw [doubleStores, BitVec.extractLsb'_append_eq_left, BitVec.extractLsb'_append_eq_right]

/-- A read of a double word not yet stored to. -/
theorem Effects.read2 {u t : State} {r : List Word} {w : List Nat} (h : Effects u t r [] w) (a : Word) :
    Effects u (t.noteRead2 a) (r ++ [a, a + 1#16]) [] w :=
  ((h.read a (by simp)).read (a + 1#16) (by simp)).congr (by simp) rfl fun _ hi => hi

theorem Base.noteRead2 {s u t : State} (h : Base s u t) (a : Word) : Base s u (t.noteRead2 a) :=
  (h.noteRead a).noteRead (a + 1#16)

/-- A store of a double word, with no other agent at memory. -/
theorem Effects.store2 {u t : State} {r : List Word} {w : List Nat} (h : Effects u t r [] w) (quiet : u.during = [])
    (a : Word) (v : DWord) : Effects u (t.store2 a v) r (doubleStores a v) w :=
  (h.store quiet a (v.extractLsb' 16 16) (by simp)).store quiet (a + 1#16) (v.extractLsb' 0 16) (by simp)

/-- The end of the instructions that store a double word. -/
theorem completes_storeDouble {s u t : State} {r : List Word} {w : List Nat} (a : Word) (v : DWord)
    (h : Effects u t r [] w) (b : Base s u t) (quiet : u.during = []) :
    Completes u (.next (t.storeDouble a v)) r (doubleStores a v) (w ++ [10, 11, 12]) s.next
      fun t' => ComparesAs t' (v.extractLsb' 16 16).toInt 0 := by
  refine ⟨_, rfl, ?_, b.goesTo_advance ?_ ?_ ?_, comparesAs_setCB_advance _ _⟩
  · exact ((h.store2 quiet a v).setComparison (compareSigned _ 0)).advance.congr (by simp) rfl
      fun i hi => by simpa [or_comm, or_assoc, or_left_comm] using hi
  all_goals simp

/-- The instructions that use EA, or R as it is before the read, after the double word at EA is read. -/
theorem withEA_withRead2_of_ok (s : State) (o : Address) (k : Word → State → DWord → State → Result)
    (quiet : s.during = []) (ok : s.eo2Ok o = true) :
    (withEA s o false fun a t => withRead2 t a (k a t))
      = k (s.ea o false) (s.afterEA o false) (s.peek2 (s.ea o false)) ((s.afterEA o false).noteRead2 (s.ea o false)) := by
  obtain ⟨okEA, readable⟩ : s.eaOk o false = true ∧ s.readable2 (s.ea o false) = true := by
    simpa [State.eo2Ok] using ok
  rw [withEA_of_ok s o false _ okEA, withRead2_of_readable _ _ _ (s.during_afterEA_quiet o false quiet)
    (by simpa [State.readable2] using readable), s.peek2_afterEA_quiet o false _ quiet]

/-! ## Double-word memory shifts -/

/-- The left shift of the double word at EA (40_format_IA R162, 41_format_IB R202). -/
theorem completes_shiftLeft2 {s u t : State} {r : List Word} (a : Word) (v : DWord) (c : Nat)
    (h : Effects u t r [] []) (b : Base s u t) (quiet : u.during = []) :
    Completes u (.next (t.shiftLeft2 a v c)) r (doubleStores a (BitVec.ofNat 32 (v.toNat * 2 ^ c))) [1, 10, 11, 12]
      s.next fun t' => ComparesAs t' ((BitVec.ofNat 32 (v.toNat * 2 ^ c)).extractLsb' 16 16).toInt 0
        ∧ (t'.stBit 1 = true ↔ ∃ i, i ≤ c ∧ v.getMsbD i ≠ v.getMsbD 0) := by
  rw [← shiftLeft_eq_ofNat, ← shiftOverflow_iff]
  exact (completes_storeDouble a (v <<< c) (h.setOI (shiftOverflow v c)) (b.setOI _) quiet).and
    (by simp [State.storeDouble, State.store2])

/-- Settles O28: the count of the instruction, and the count in R, which is read before the operand (log 33). -/
theorem shiftDouble : Obligations.ShiftDouble := by
  intro s o quiet on ok w done shifts
  let t := (s.afterEA o false).noteRead2 (s.ea o false)
  have h : Effects (s.withIB (s.ea o false)) t (s.eo2Reads o) [] [] := (Effects.afterEA s o false quiet).read2 _
  have b : Base s (s.withIB (s.ea o false)) t := (Base.afterEA s o false quiet).noteRead2 _
  have complete {c : Nat} {left right logical rotate : Instr} (hc : c ≤ 32)
      (hleft : exec left s = .next (t.shiftLeft2 (s.ea o false) w c))
      (hright : exec right s = .next (t.storeDouble (s.ea o false) (w.sshiftRight c)))
      (hlogical : exec logical s = .next (t.storeDouble (s.ea o false) (w >>> c)))
      (hrotate : exec rotate s = .next (t.storeDouble (s.ea o false) (w.rotateRight c))) :
      shifts c left right logical rotate := by
    simp only [shifts, done, hleft, hright, hlogical, hrotate]
    refine ⟨completes_shiftLeft2 _ w c h b quiet, ?_, ?_, ?_⟩
    · rw [← sshiftRight_eq_ofInt]
      exact (completes_storeDouble _ _ h b quiet).and trivial
    · rw [← ushiftRight_eq_ofNat]
      exact (completes_storeDouble _ _ h b quiet).and trivial
    · rw [← rotateRight_eq_ofNat w c hc]
      exact (completes_storeDouble _ _ h b quiet).and trivial
  have run k := withEA_withRead2_of_ok s o k quiet ok
  have ref g := s.ref_afterEA_quiet g o quiet
  refine ⟨fun c _ hc => complete (by omega) ?_ ?_ ?_ ?_,
    fun g => complete (c := shiftCount32 (s.ref g)) (shiftCount32_le _) ?_ ?_ ?_ ?_⟩ <;> dsimp only [exec]
  · rw [execDla, withArithOption_on s _ on, run]
  · rw [execDra, withArithOption_on s _ on, run]
  · rw [execDrl, withArithOption_on s _ on, run]
  · rw [execDrr, withArithOption_on s _ on, run]
  · rw [execDlax, withArithOption_on s _ on, run, ref]
  · rw [execDrax, withArithOption_on s _ on, run, ref]
  · rw [execDrlx, withArithOption_on s _ on, run, ref]
  · rw [execDrrx, withArithOption_on s _ on, run, ref]

end Sys2Proof.Machine

namespace Sys2Proof.Machine

/-! ## The register pair as operand and as result (40_format_IA R150) -/

section
variable (s : State) (g : RegRef) (o : Address)

/-- EA is computed and the register pair read. -/
def State.afterPair : State := (s.afterEA o false).noteRead2 (s.refAddress g)

theorem Effects.afterPair (quiet : s.during = []) :
    Effects (s.withIB (s.ea o false)) (s.afterPair g o)
      (s.eaReads o false ++ [s.refAddress g, s.refAddress g + 1#16]) [] [] :=
  (Effects.afterEA s o false quiet).read2 _

theorem Base.afterPair (quiet : s.during = []) : Base s (s.withIB (s.ea o false)) (s.afterPair g o) :=
  (Base.afterEA s o false quiet).noteRead2 _

/-- The instructions that read the pair after EA is computed. -/
theorem withEA_withPair_of_ok (k : Word → DWord → State → Result) (quiet : s.during = [])
    (pair : s.readable2 (s.refAddress g) = true) (ok : s.eaOk o false = true) :
    (withEA s o false fun a t => withRead2 t (t.refAddress g) (k a))
      = k (s.ea o false) (s.peek2 (s.refAddress g)) (s.afterPair g o) := by
  rw [withEA_of_ok s o false _ ok, (Base.afterEA s o false quiet).refAddress,
    withRead2_of_readable _ _ _ (s.during_afterEA_quiet o false quiet) (by simpa [State.readable2] using pair),
    s.peek2_afterEA_quiet o false _ quiet]
  rfl

theorem State.peek_afterPair (quiet : s.during = []) (a : Word) : (s.afterPair g o).peek a = s.peek a := by
  simp [State.afterPair, State.noteRead2, s.peek_afterEA_quiet o false a quiet]

theorem State.readable_afterPair (a : Word) : (s.afterPair g o).readable a = s.readable a := by
  simp [State.afterPair, State.noteRead2]

theorem State.during_afterPair (quiet : s.during = []) : (s.afterPair g o).during = [] :=
  (Effects.afterPair s g o quiet).during_eq.trans quiet

end

/-- The pair, OI and CB written: the end of the divisions and of DAD and DS. -/
theorem Effects.pairResult {u t : State} {r : List Word} (h : Effects u t r [] []) (quiet : u.during = []) (g : RegRef)
    (v : DWord) (oi : Bool) (c : Comparison) :
    Effects u (((t.setPair g v).setOI oi).setComparison c) r (doubleStores (t.refAddress g) v) [1, 10, 11, 12] :=
  (((h.store2 quiet (t.refAddress g) v).setOI oi).setComparison c).congr (by simp) rfl (by simp)

/-- The same with CB from the comparison of a word with zero, and the counter advanced. -/
theorem completes_pairResult {s u t : State} {r : List Word} (g : RegRef) (v : DWord) (oi : Bool) (x : Word)
    (h : Effects u t r [] []) (b : Base s u t) (quiet : u.during = []) :
    Completes u (.next (((t.setPair g v).setOI oi).setCB x).advance) r (doubleStores (s.refAddress g) v)
      [1, 10, 11, 12] s.next fun t' => t'.stBit 1 = oi ∧ ComparesAs t' x.toInt 0 := by
  refine ⟨_, rfl, ?_, b.goesTo_advance ?_ ?_ ?_, ?_, comparesAs_setCB_advance _ _⟩
  · rw [← b.refAddress]
    exact (h.pairResult quiet g v oi _).advance
  all_goals simp [State.setPair]

/-! ## Multiplication -/

/-- Settles O29: the product is stored as a double word at the address of R. -/
theorem multiply : Obligations.Multiply := by
  intro s g o quiet on done
  have complete {i : Instr} {reads : List Word} {t : State} {b : Word}
      (h : Effects (s.withIB (s.ea o false)) t reads [] []) (base : Base s (s.withIB (s.ea o false)) t)
      (run : exec i s = .next (t.multiply g (s.ref g) b)) : done i reads b := by
    simp only [done, run, ← base.refAddress g]
    exact completes_storeDouble (t.refAddress g) (product (s.ref g) b) h base quiet
  refine ⟨fun ok => complete (.afterEO s o false quiet) (.afterEO s o false quiet) ?_,
    fun ok => complete (.afterEA s o false quiet) (.afterEA s o false quiet) ?_⟩ <;> dsimp only [exec]
  · rw [execM, withArithOption_on s _ on, withOperands_quiet s g o _ quiet ok]
  · rw [execMa, withArithOption_on s _ on, withEA_of_ok s o false _ ok, s.ref_afterEA_quiet g o quiet]

/-! ## Double-length addition and subtraction -/

/-- DAD and DS, once the pair and the double word at EA are read. -/
theorem completes_doubleResult {s : State} (g : RegRef) (o : Address) (v : DWord) (value : Int)
    (quiet : s.during = []) :
    Completes (s.withIB (s.ea o false)) (.next (((s.afterPair g o).noteRead2 (s.ea o false)).doubleResult g v value))
      (s.eo2Reads o ++ [s.refAddress g, s.refAddress g + 1#16]) (doubleStores (s.refAddress g) v) [1, 10, 11, 12] s.next
      fun t => t.stBit 1 = decide (value < -2147483648 ∨ 2147483647 < value)
        ∧ ComparesAs t (v.extractLsb' 16 16).toInt 0 :=
  completes_pairResult g v _ _
    (((Effects.afterPair s g o quiet).read2 _).congr (by simp [State.eo2Reads]; tauto) rfl (by simp))
    ((Base.afterPair s g o quiet).noteRead2 _) quiet

/-- The pair is read, then the double word at EA. -/
theorem withEA_withPair_withRead2_of_ok (s : State) (g : RegRef) (o : Address) (k : DWord → DWord → State → Result)
    (quiet : s.during = []) (pair : s.readable2 (s.refAddress g) = true) (ok : s.eo2Ok o = true) :
    (withEA s o false fun ea t => withRead2 t (t.refAddress g) fun a t' => withRead2 t' ea (k a))
      = k (s.peek2 (s.refAddress g)) (s.peek2 (s.ea o false)) ((s.afterPair g o).noteRead2 (s.ea o false)) := by
  obtain ⟨okEA, readable⟩ : s.eaOk o false = true ∧ s.readable2 (s.ea o false) = true := by
    simpa [State.eo2Ok] using ok
  rw [withEA_withPair_of_ok s g o (fun ea a t => withRead2 t ea (k a)) quiet pair okEA,
    withRead2_of_readable _ _ _ (s.during_afterPair g o quiet)
      (by simpa [State.readable2, State.readable_afterPair] using readable)]
  simp only [State.peek2, s.peek_afterPair g o quiet]

/-- Settles O32. -/
theorem doubleAddAndSubtract : Obligations.DoubleAddAndSubtract := by
  intro s g o quiet on pair ok a b p hp
  simp only [List.mem_cons, List.not_mem_nil, or_false] at hp
  rcases hp with rfl | rfl <;> dsimp only [exec]
  · rw [execDad, withArithOption_on s _ on, withEA_withPair_withRead2_of_ok s g o _ quiet pair ok]
    exact completes_doubleResult g o _ _ quiet
  · rw [execDs, withArithOption_on s _ on, withEA_withPair_withRead2_of_ok s g o _ quiet pair ok]
    exact completes_doubleResult g o _ _ quiet

/-! ## Division (92_eei_decisions D16) -/

/-- The quotient and remainder of D16 are the only ones: a division with a remainder of the dividend's sign truncates. -/
theorem tdiv_eq_of_remainder {a q b r : Int} (ha : a = q * b + r) (hr : |r| < |b|) (pos : 0 < a → 0 ≤ r)
    (neg : a < 0 → r ≤ 0) : a.tdiv b = q := by
  have nonneg {a q r : Int} (ha : a = q * b + r) (hr : |r| < |b|) (h0 : 0 ≤ a) (pos : 0 < a → 0 ≤ r) :
      a.tdiv b = q := by
    have hb : b ≠ 0 := by rintro rfl; simp [(abs_nonneg r).not_gt] at hr
    have h : 0 ≤ r := by
      rcases h0.eq_or_lt with rfl | h0
      · have divides : |b| ∣ r := (abs_dvd b r).2 ⟨-q, by linarith⟩
        exact (Int.eq_zero_of_abs_lt_dvd divides hr).ge
      · exact pos h0
    rw [Int.tdiv_eq_ediv_of_nonneg h0, ha, add_comm, Int.add_mul_ediv_right _ _ hb,
      Int.ediv_eq_zero_of_lt_abs h (by rwa [abs_of_nonneg h] at hr), zero_add]
  rcases le_total 0 a with h0 | h0
  · exact nonneg ha hr h0 pos
  · have opposite := nonneg (a := -a) (q := -q) (r := -r) (by rw [ha]; ring) (by rwa [abs_neg]) (by omega)
      fun h => by linarith [neg (by omega)]
    rwa [Int.neg_tdiv, neg_inj] at opposite

/-- A remainder is smaller than its divisor, so it fits a word. -/
theorem toInt_ofInt_of_abs_lt {b : Word} {r : Int} (hr : |r| < |b.toInt|) : (BitVec.ofInt 16 r).toInt = r := by
  have lower := b.le_toInt
  have upper := b.toInt_lt
  rw [abs_lt] at hr
  have : |b.toInt| ≤ 32768 := abs_le.2 ⟨by simpa using lower, by norm_num at upper; omega⟩
  exact BitVec.toInt_ofInt_eq_self (by decide) (by norm_num; omega) (by norm_num; omega)

/-- The end of a division with a result. -/
theorem completes_divide {s u t : State} {reads : List Word} (g : RegRef) {a : DWord} {b : Word} {q r : Int}
    (h : Effects u t reads [] []) (base : Base s u t) (quiet : u.during = []) (ha : a.toInt = q * b.toInt + r)
    (hr : |r| < |b.toInt|) (pos : 0 < a.toInt → 0 ≤ r) (neg : a.toInt < 0 → r ≤ 0) (low : -32768 ≤ q)
    (high : q ≤ 32767) :
    Completes u (.next (t.divide g a b)) reads
      [(s.refAddress g, BitVec.ofInt 16 r), (s.refAddress g + 1#16, BitVec.ofInt 16 q)] [1, 10, 11, 12] s.next
      fun t' => t'.stBit 1 = false ∧ ComparesAs t' r 0 := by
  have hq : quotient a b = q := tdiv_eq_of_remainder ha hr pos neg
  have hrem : remainder a b = BitVec.ofInt 16 r := by
    have whole := Int.mul_tdiv_add_tmod a.toInt b.toInt
    rw [show a.toInt.tdiv b.toInt = q from hq] at whole
    rw [remainder, show a.toInt.tmod b.toInt = r by linarith]
  have nonzero : b ≠ 0 := by rintro rfl; simp [(abs_nonneg r).not_gt] at hr
  have fits : divideFails a b = false := by
    simp only [divideFails, overflows16, hq, nonzero, decide_false, Bool.false_or, decide_eq_false_iff_not]
    omega
  have complete := completes_pairResult g (BitVec.ofInt 16 r ++ BitVec.ofInt 16 q) false (BitVec.ofInt 16 r) h base quiet
  rw [doubleStores_append, toInt_ofInt_of_abs_lt hr] at complete
  rw [State.divide, fits, hq, hrem]
  exact complete

/-- The state with another free value to come (log 9). -/
def State.withFree (s : State) (n : Nat) : State := { s with freeNext := n }

@[simp] theorem State.stBit_withFree (s : State) (n j : Nat) : (s.withFree n).stBit j = s.stBit j := rfl

@[simp] theorem State.worker_withFree (s : State) (n : Nat) : (s.withFree n).worker = s.worker := rfl

@[simp] theorem State.counter_withFree (s : State) (n : Nat) (b : Bool) : (s.withFree n).counter b = s.counter b := rfl

@[simp] theorem State.withFree_inLocation (s : State) (n : Nat) : (s.withFree n).inLocation = s.inLocation := rfl

/-- Which free values are taken is no effect of its own. -/
theorem Effects.withFree {u t : State} {r : List Word} {st : List (Word × Word)} {w : List Nat}
    (h : Effects u t r st w) (n : Nat) : Effects (u.withFree n) (t.withFree n) r st w :=
  { h with rest := by rw [State.withFree, h.rest]; rfl }

theorem Base.withFree {s u t : State} (h : Base s u t) (n : Nat) : Base s (u.withFree n) t := { h with }

/-- What the failing division leaves in the pair. -/
def State.freePair (s : State) : DWord := Config.freeWord s.freeNext ++ Config.freeWord (s.freeNext + 1)

theorem State.divide_of_fails (s : State) (g : RegRef) {a : DWord} {b : Word} (fails : divideFails a b = true) :
    s.divide g a b = ((((s.setPair g s.freePair).setOI true).setComparison
      (Config.freeComparison s.freeNext)).withFree (s.freeNext + 2)).advance := by
  simp [State.divide, fails, State.divideOverflow, State.freePair, State.setPair, State.withFree]

/-- The end of a division without a result: OI, and free values in the pair and in CB (log 9). -/
theorem completes_divide_of_fails {s u t : State} {reads : List Word} (g : RegRef) {a : DWord} {b : Word}
    (h : Effects u t reads [] []) (base : Base s u t) (quiet : u.during = []) (fails : divideFails a b = true) :
    ∃ v0 v1 : Word, Completes (u.withFree (u.freeNext + 2)) (.next (t.divide g a b)) reads
      [(s.refAddress g, v0), (s.refAddress g + 1#16, v1)] [1, 10, 11, 12] s.next
      fun t' => t'.stBit 1 = true ∧ OneComparison t' := by
  have one := oneComparison_divide t g a b
  have free : t.freeNext = u.freeNext := by rw [h.rest]
  have effects := ((h.pairResult quiet g t.freePair true (Config.freeComparison u.freeNext)).withFree
    (u.freeNext + 2)).advance
  rw [State.freePair, doubleStores_append, base.refAddress] at effects
  rw [t.divide_of_fails g fails, free] at one ⊢
  refine ⟨_, _, _, rfl, effects, (base.withFree _).goesTo_advance ?_ ?_ ?_, ?_, one⟩
  all_goals simp [State.setPair]

/-- D, once the dividend and EO are read. -/
theorem execD_of_ok (s : State) (g : RegRef) (o : Address) (quiet : s.during = [])
    (on : s.config.hasArithOption = true) (pair : s.readable2 (s.refAddress g) = true) (ok : s.eoOk o false = true) :
    exec (.d g o) s = .next
      (((s.afterPair g o).noteRead (s.ea o false)).divide g (s.peek2 (s.refAddress g)) (s.eo o false)) := by
  obtain ⟨okEA, readable⟩ : s.eaOk o false = true ∧ s.readable (s.ea o false) = true := by
    simpa [State.eoOk] using ok
  dsimp only [exec]
  rw [execD, withArithOption_on s _ on,
    withEA_withPair_of_ok s g o (fun ea a t => withRead t ea fun b t' => .next (t'.divide g a b)) quiet pair okEA,
    withRead_quiet _ _ _ (s.during_afterPair g o quiet) (by rwa [State.readable_afterPair]),
    s.peek_afterPair g o quiet, s.eo_quiet o false quiet]

/-- DA, once the dividend is read. -/
theorem execDa_of_ok (s : State) (g : RegRef) (o : Address) (quiet : s.during = [])
    (on : s.config.hasArithOption = true) (pair : s.readable2 (s.refAddress g) = true) (ok : s.eaOk o false = true) :
    exec (.da g o) s = .next ((s.afterPair g o).divide g (s.peek2 (s.refAddress g)) (s.ea o false)) := by
  dsimp only [exec]
  rw [execDa, withArithOption_on s _ on,
    withEA_withPair_of_ok s g o (fun b a t => .next (t.divide g a b)) quiet pair ok]

/-- The reads of D: the pair before EO. -/
theorem Effects.afterPair_eo (s : State) (g : RegRef) (o : Address) (quiet : s.during = []) :
    Effects (s.withIB (s.ea o false)) ((s.afterPair g o).noteRead (s.ea o false))
      (s.eoReads o false ++ [s.refAddress g, s.refAddress g + 1#16]) [] [] :=
  ((Effects.afterPair s g o quiet).read _ (by simp)).congr (by simp [State.eoReads]; tauto) rfl (by simp)

/-- Settles O30. -/
theorem divideFits : Obligations.DivideFits := by
  intro s g o q r quiet on pair a done
  have base := Base.afterPair s g o quiet
  refine ⟨fun ok ha hr pos neg low high => ?_, fun ok ha hr pos neg low high => ?_⟩
  · rw [execD_of_ok s g o quiet on pair ok]
    exact completes_divide g (.afterPair_eo s g o quiet) (base.noteRead _) quiet ha hr pos neg low high
  · rw [execDa_of_ok s g o quiet on pair ok]
    exact completes_divide g (.afterPair s g o quiet) base quiet ha hr pos neg low high

/-- A zero divisor, or a quotient that does not fit (40_format_IA R159). -/
theorem divideFails_of_overflow {a : DWord} {b : Word}
    (h : b.toInt = 0 ∨ a.toInt.tdiv b.toInt < -32768 ∨ 32767 < a.toInt.tdiv b.toInt) : divideFails a b = true := by
  rcases h with h | h
  · have zero : b = 0 := BitVec.eq_of_toInt_eq (by simpa using h)
    simp [divideFails, zero]
  · simp [divideFails, overflows16, quotient, h]

/-- Settles O31. -/
theorem divideOverflows : Obligations.DivideOverflows := by
  intro s g o quiet on pair a done
  have base := Base.afterPair s g o quiet
  refine ⟨fun ok h => ?_, fun ok h => ?_⟩
  · rw [execD_of_ok s g o quiet on pair ok]
    exact completes_divide_of_fails g (.afterPair_eo s g o quiet) (base.noteRead _) quiet (divideFails_of_overflow h)
  · rw [execDa_of_ok s g o quiet on pair ok]
    exact completes_divide_of_fails g (.afterPair s g o quiet) base quiet (divideFails_of_overflow h)

end Sys2Proof.Machine

namespace Sys2Proof.Machine

/-! ## Branches -/

/-- A branch, once its target is at hand. -/
theorem completes_setCtr {s u t : State} {r : List Word} (a : Word) (h : Effects u t r [] []) (b : Base s u t) :
    Completes u (.next (t.setCtr a)) r [] [] a fun _ => True :=
  ⟨_, rfl, h.setCtr a, b.goesTo_setCtr rfl (fun _ => rfl) a, trivial⟩

/-- An instruction that only goes on, once its reads are done. -/
theorem completes_advance {s u t : State} {r : List Word} (h : Effects u t r [] []) (b : Base s u t) :
    Completes u (.next t.advance) r [] [] s.next fun _ => True :=
  ⟨_, rfl, h.advance, b.goesTo_advance rfl (fun _ => rfl) rfl, trivial⟩

/-- *BC with its bit set branches to EO (41_format_IB R201). -/
theorem execBcInd_taken {s : State} {bit : BitVec 4} {o : Address} (ok : s.eoOk o true = true)
    (set : (s.afterEA o true).stBit bit.toNat = true) :
    execBcInd bit o s = .next ((s.afterEO o true).setCtr (s.eo o true)) := by
  obtain ⟨okEA, readable⟩ : s.eaOk o true = true ∧ s.readable (s.ea o true) = true := by
    simpa [State.eoOk] using ok
  rw [execBcInd, withEA_of_ok s o true _ okEA, if_pos set, withRead_of_readable _ _ _ (by simpa using readable)]
  rfl

/-- *BC with its bit clear goes on from the state in which EA is computed: EO is not read (log 19). -/
theorem execBcInd_notTaken {s : State} {bit : BitVec 4} {o : Address} (ok : s.eaOk o true = true)
    (clear : (s.afterEA o true).stBit bit.toNat = false) :
    execBcInd bit o s = .next (s.afterEA o true).advance := by
  rw [execBcInd, withEA_of_ok s o true _ ok, if_neg (by simp [clear])]

/-- Settles O35: BC by the bit tested, then *BC taken and not taken. -/
theorem branchOnCondition : Obligations.BranchOnCondition := by
  intro s bit o quiet
  refine ⟨fun ok => ?_, fun ok set => ?_, fun ok clear => ?_⟩ <;> dsimp only [exec]
  · rw [execBc, withEA_of_ok s o false _ ok]
    have effects := Effects.afterEA s o false quiet
    have base := Base.afterEA s o false quiet
    split
    · exact completes_setCtr _ effects base
    · exact completes_advance effects base
  · rw [execBcInd_taken ok set]
    exact completes_setCtr _ (.afterEO s o true quiet) (.afterEO s o true quiet)
  · rw [execBcInd_notTaken ok clear]
    exact completes_advance (.afterEA s o true quiet) (.afterEA s o true quiet)

end Sys2Proof.Machine

namespace Sys2Proof.Machine

/-! ## Branches and NOP (42_format_IC) -/

/-- With rq, what is added is register 5 of the state the instruction started in. -/
theorem Base.bias {s u t : State} (h : Base s u t) (b rq : Bool) :
    t.bias b rq = if rq then s.modeReg b 5 else 0 := by
  rw [State.bias, h.modeReg]

/-- The same for the executing mode. -/
theorem Base.bias_worker {s u t : State} (h : Base s u t) (rq : Bool) :
    t.bias t.worker rq = if rq then s.x 5 else 0 := by
  rw [h.bias, h.worker, State.x]

/-- Settles O36: the target is at hand before register 5 is added. -/
theorem branchAndNop : Obligations.BranchAndNop := by
  intro s o rq quiet
  refine ⟨fun ok => ?_, fun ok => ?_, completes_advance (.refl s) (.refl s)⟩ <;> dsimp only [exec]
  · rw [execB, withEA_of_ok s o false _ ok, (Base.afterEA s o false quiet).bias_worker]
    exact completes_setCtr _ (.afterEA s o false quiet) (.afterEA s o false quiet)
  · rw [execBInd, withEO_of_ok s o true _ ok, (Base.afterEO s o true quiet).bias_worker]
    exact completes_setCtr _ (.afterEO s o true quiet) (.afterEO s o true quiet)

/-! ## Loading a status block -/

/-- Computing EA reads memory and writes none. -/
theorem State.storage_afterEA_quiet (s : State) (o : Address) (p : Bool) (quiet : s.during = []) :
    (s.afterEA o p).storage = s.storage := by
  rw [s.afterEA_quiet o p quiet]
  cases o.ind
  · rfl
  · exact s.storage_noteRead (s.pointer o p)

/-- Where registers and the sparse stores are as before, what else may differ. -/
theorem Effects.rest_of_storage {u t : State} {r : List Word} {st : List (Word × Word)} {w : List Nat}
    (h : Effects u t r st w) (regs : t.regs = u.regs) (storage : t.storage = u.storage) :
    t = { u with
      pc := t.pc, ec := t.ec, st := t.st, pendInternal := t.pendInternal, errorLatch := t.errorLatch } := by
  have mem : t.mem = u.mem := show t.storage.mem = u.storage.mem by rw [storage]
  have badWords : t.badWords = u.badWords := show t.storage.badWords = u.storage.badWords by rw [storage]
  have e := h.rest
  rwa [regs, mem, badWords] at e

/-- LDS, once the block is read. -/
theorem execLds_of_ok (s : State) (o : Address) (rq : Bool) (quiet : s.during = []) (ok : s.eo2Ok o = true) :
    execLds o rq s = .next { ((s.afterEA o false).noteRead2 (s.ea o false)).setCtr
        (s.eo o false + if rq then s.x 5 else 0) with st := s.peek (s.ea o false + 1#16) } := by
  obtain ⟨okEA, readable⟩ : s.eaOk o false = true ∧ s.readable2 (s.ea o false) = true := by
    simpa [State.eo2Ok] using ok
  have quietEO : (s.afterEO o false).during = [] := (Effects.afterEO s o false quiet).during_eq.trans quiet
  have second : (s.afterEO o false).readWord (s.ea o false + 1#16) = s.peek (s.ea o false + 1#16) := by
    rw [State.readWord_quiet _ _ quietEO, s.afterEO_quiet o false quiet, State.peek_noteRead,
      s.peek_afterEA_quiet o false _ quiet]
  have reads : (s.afterEO o false).afterRead (s.ea o false + 1#16)
      = (s.afterEA o false).noteRead2 (s.ea o false) := by
    rw [State.afterRead_quiet _ _ quietEO, s.afterEO_quiet o false quiet, State.noteRead2]
  rw [execLds, withEA_of_ok s o false _ okEA,
    loadStatusBlock_of_readable _ _ _ (by simpa [State.readable2] using readable), ← second, ← reads,
    ← (Base.afterEO s o false quiet).bias_worker rq]
  rfl

/-- Settles O37: from the state in which the block is read, the counter and ST. -/
theorem loadStatus : Obligations.LoadStatus := by
  intro s o rq quiet ok
  let v := s.eo o false + if rq then s.x 5 else 0
  let t := (s.afterEA o false).noteRead2 (s.ea o false)
  have effects : Effects (s.withIB (s.ea o false)) t (s.eo2Reads o) [] [] := (Effects.afterEA s o false quiet).read2 _
  have base : Base s (s.withIB (s.ea o false)) t := (Base.afterEA s o false quiet).noteRead2 _
  have storage : (t.setCtr v).storage = s.storage := by
    simp only [t, State.noteRead2, State.storage_setCtr, State.storage_noteRead,
      s.storage_afterEA_quiet o false quiet]
  have rest := (effects.setCtr v).rest_of_storage ((State.setCtr_regs t v).trans base.regs) storage
  refine ⟨_, execLds_of_ok s o rq quiet ok, base.goesTo_setCtr rfl (fun _ => rfl) v, rfl, fun a => ?_, fun n => ?_, ?_,
    congrArg (fun u : State => { u with st := s.peek (s.ea o false + 1#16) }) rest⟩
  · exact (effects.setCtr v).kept a (by simp)
  · exact (effects.setCtr v).bytes n (by simp)
  · exact (effects.setCtr v).request.trans (Bool.or_false _)

/-! ## Storing a status block -/

/-- ST after a store, with no other agent at memory: a refused one sets MV (20_memory R71). -/
theorem State.st_store_quiet (s : State) (a v : Word) (quiet : s.during = []) :
    (s.store a v).st = if s.refusesWrite a then putBit s.st 5 true else s.st := by
  rw [s.store_quiet a v quiet]
  rcases s.write_cases a v with ⟨refused, e⟩ | ⟨allowed, e⟩
  · rw [e, refused]
    rfl
  · rw [e, allowed]
    exact s.poke_st a v

@[simp] theorem State.worker_storeStatusBlock (s : State) (a link : Word) :
    (s.storeStatusBlock a link).worker = s.worker := by
  simp [State.storeStatusBlock]

@[simp] theorem State.counter_storeStatusBlock (s : State) (a link : Word) (b : Bool) :
    (s.storeStatusBlock a link).counter b = s.counter b := by
  simp [State.storeStatusBlock]

@[simp] theorem State.inLocation_storeStatusBlock (s : State) (a link : Word) :
    (s.storeStatusBlock a link).inLocation = s.inLocation := by
  simp [State.storeStatusBlock]

/-- The state with EA computed and the status block stored there. -/
def State.afterBlock (s : State) (o : Address) (link : Word) : State :=
  (s.afterEA o false).storeStatusBlock (s.ea o false) link

/-- Its two stores (42_format_IC R234). -/
theorem Effects.afterBlock (s : State) (o : Address) (link : Word) (quiet : s.during = []) :
    Effects (s.withIB (s.ea o false)) (s.afterBlock o link) (s.eaReads o false) (s.blockStores o link) [] := by
  have h := Effects.afterEA s o false quiet
  have first := h.store quiet (s.ea o false) link (by simp)
  have status := State.st_store_quiet _ (s.ea o false) link (h.during_eq.trans quiet)
  have second := first.store quiet (s.ea o false + 1#16) ((s.afterEA o false).store (s.ea o false) link).st (by simp)
  rw [status, h.refusesWrite_eq] at second
  rw [State.afterBlock, State.storeStatusBlock, status, h.refusesWrite_eq]
  exact second

/-- The third word of a block is not one of the two. -/
theorem State.third_not_mem_blockStores (s : State) (o : Address) (link : Word) :
    ∀ p ∈ s.blockStores o link, s.ea o false + 2#16 ≠ p.1 := by
  simp [State.blockStores]

/-- A read of a word not yet stored to delivers it as it was. -/
theorem Effects.withRead {u t : State} {r : List Word} {st : List (Word × Word)} {w : List Nat}
    (h : Effects u t r st w) (quiet : u.during = []) {a : Word} (ha : ∀ p ∈ st, a ≠ p.1)
    (readable : u.readable a = true) (k : Word → State → Result) : withRead t a k = k (u.peek a) (t.noteRead a) := by
  rw [withRead_quiet t a k (h.during_eq.trans quiet) (by rwa [h.readable_eq]), h.kept a ha]

/-- Settles O38: SS goes on from the state with the block stored, SSB once EA + 2 is read. -/
theorem storeStatus : Obligations.StoreStatus := by
  intro s o rq quiet ok b
  have base := Base.afterEA s o false quiet
  have effects := Effects.afterBlock s o (s.next - b) quiet
  have third := s.third_not_mem_blockStores o (s.next - b)
  refine ⟨?_, fun readable => ?_⟩ <;> dsimp only [exec]
  · rw [execSs, withEA_of_ok s o false _ ok, base.next, base.bias_worker]
    exact ⟨_, rfl, effects.advance, base.goesTo_advance (by simp) (by simp) (by simp), trivial⟩
  · rw [execSsb, withEA_of_ok s o false _ ok]
    simp only [base.next, base.bias_worker]
    refine ⟨_, effects.withRead quiet third readable _, (effects.read _ third).setCtr _, ?_, trivial⟩
    exact base.goesTo_setCtr (by simp [State.afterBlock]) (by simp [State.afterBlock]) _

/-! ## Storing a status block and changing the mode -/

/-- The counter that SXBS, SXBW, SXS and SXW store (42_format_IC R235). -/
theorem State.sxLink_afterEA_quiet (s : State) (o : Address) (target : Bool) (quiet : s.during = []) :
    (s.afterEA o false).sxLink target
      = if s.config.sxStoresTargetCounter = true ∧ target ≠ s.worker then s.counter target else s.next := by
  have base := Base.afterEA s o false quiet
  simp [State.sxLink, base.worker, base.counter, base.next]

/-- SXS and SXW, from the state with the block stored. -/
theorem blockTransfer (s : State) (o : Address) (link : Word) (target : Bool) (quiet : s.during = []) :
    let t := (s.afterBlock o link).transfer target
    Effects (s.withIB (s.ea o false)) t (s.eaReads o false) (s.blockStores o link) [0]
      ∧ GoesTo s t s.next ∧ t.stBit 0 = target := by
  have advanced : GoesTo s (s.afterBlock o link).advance s.next :=
    (Base.afterEA s o false quiet).goesTo_advance (by simp [State.afterBlock]) (by simp [State.afterBlock])
      (by simp [State.afterBlock])
  exact ⟨(Effects.afterBlock s o link quiet).transfer target, advanced, by simp [State.transfer]⟩

/-- SXBS and SXBW, from the state with the block stored: EA + 2 is read in the mode entered. -/
theorem blockTransfer_branch (s : State) (o : Address) (link b : Word) (target : Bool) (quiet : s.during = [])
    (readable : s.readable (s.ea o false + 2#16) = true) :
    ∃ t, (withRead ((s.afterBlock o link).transfer target) (s.ea o false + 2#16) fun a u =>
        .next (u.setCounter target (a + b))) = .next t
      ∧ Effects (s.withIB (s.ea o false)) t (s.eaReads o false ++ [s.ea o false + 2#16]) (s.blockStores o link) [0]
      ∧ t.counter target = s.peek (s.ea o false + 2#16) + b
      ∧ t.counter (!target) = (if target = s.worker then s.counter (!target) else s.next) ∧ t.stBit 0 = target := by
  obtain ⟨effects, ⟨left, kept⟩, mode⟩ := blockTransfer s o link target quiet
  have third := s.third_not_mem_blockStores o link
  refine ⟨_, effects.withRead quiet third readable _, (effects.read _ third).setCounter _ _, ?_, ?_, ?_⟩
  · rw [State.counter_setCounter, if_pos rfl]
    rfl
  · rw [State.counter_setCounter, if_neg (by simp), State.counter_noteRead]
    split
    · next same => subst same; exact kept
    · next other => rwa [Bool.not_eq.2 other]
  · simpa using mode

/-- Settles O39: to Supervisor Mode and to Worker Mode. -/
theorem storeStatusAndTransfer : Obligations.StoreStatusAndTransfer := by
  intro s o rq quiet ok p hp
  have base := Base.afterEA s o false quiet
  simp only [List.mem_cons, List.not_mem_nil, or_false] at hp
  rcases hp with rfl | rfl
  · refine ⟨⟨_, ?_, blockTransfer s o _ false quiet⟩, fun readable => ?_⟩ <;> dsimp only [exec]
    · rw [execSxs, withEA_of_ok s o false _ ok, s.sxLink_afterEA_quiet o false quiet, base.bias]
      rfl
    · rw [execSxbs, withEA_of_ok s o false _ ok, s.sxLink_afterEA_quiet o false quiet, base.bias]
      exact blockTransfer_branch s o _ _ false quiet readable
  · refine ⟨⟨_, ?_, blockTransfer s o _ true quiet⟩, fun readable => ?_⟩ <;> dsimp only [exec]
    · rw [execSxw, withEA_of_ok s o false _ ok, s.sxLink_afterEA_quiet o true quiet, base.bias]
      rfl
    · rw [execSxbw, withEA_of_ok s o false _ ok, s.sxLink_afterEA_quiet o true quiet, base.bias]
      exact blockTransfer_branch s o _ _ true quiet readable

end Sys2Proof.Machine

namespace Sys2Proof.Machine

/-! ## Machines in which no check fails -/

section
variable {s : State} {a : Word}

theorem State.peek_of_clean (clean : s.badWords = []) (memory : isRegister a = false) : s.peek a = s.mem.word a := by
  simp [State.peek, memory, clean, BadWords.find]

theorem State.badRead_of_clean (clean : s.badWords = []) : s.badRead a = false := by
  simp [State.badRead, clean, BadWords.find]

theorem State.noteRead_of_clean (clean : s.badWords = []) : s.noteRead a = s := by
  rw [State.noteRead, State.badRead_of_clean clean]
  rfl

theorem State.badWords_poke_of_clean (clean : s.badWords = []) (v : Word) : (s.poke a v).badWords = [] := by
  unfold State.poke
  split
  · exact clean
  · split
    · rw [clean]
      rfl
    · exact clean

theorem State.badWords_dmacPuts_of_clean (clean : s.badWords = []) (l : List (Word × Word)) :
    (s.dmacPuts l).badWords = [] := by
  induction l generalizing s with
  | nil => exact clean
  | cons p rest ih =>
    refine ih ?_
    rcases s.dmacPut_cases p.1 p.2 with ⟨-, e⟩ | ⟨-, e⟩
    · rw [e, clean]
    · rw [e, State.badWords_poke_of_clean clean]

end

/-- What an instruction does with memory makes no check fail. -/
theorem Accesses.clean {stores : Bool} {s t : State} (h : Accesses stores s t) (clean : s.badWords = []) :
    t.badWords = [] := by
  induction h with
  | refl => exact clean
  | @elsewhere t u _ e ih => exact (show u.storage.badWords = t.storage.badWords by rw [e]).trans ih
  | @grant t _ ih => exact State.badWords_dmacPuts_of_clean ih t.cycle.dmac
  | @write t _ a v _ ih =>
    rcases t.write_cases a v with ⟨-, e⟩ | ⟨-, e⟩
    · rw [e]
      exact ih
    · rw [e, State.badWords_poke_of_clean ih]
  | outputLine _ _ _ ih => exact ih

/-! ## What effects leave of registers and status -/

section
variable {u t : State} {r : List Word} {st : List (Word × Word)} {w : List Nat}

/-- Without a store at a register's address the registers stay. -/
theorem Effects.regs_eq (h : Effects u t r st w) (memory : ∀ p ∈ st, isRegister p.1 = false) : t.regs = u.regs := by
  have file (i : BitVec 4) : t.file i = u.file i := by
    obtain ⟨overlay, number⟩ := registerAt_add i
    have kept := h.kept (0x80#16 + i.setWidth 16) fun p hp e => by
      rw [e, memory p hp] at overlay
      cases overlay
    simpa only [State.peek, overlay, number, if_true] using kept
  exact Vector.ext fun k hk => file ⟨k, hk⟩

/-- Without a failing check and a refused store, a transfer to Supervisor Mode changes bit 0 of ST alone. -/
theorem Effects.st_supervisor (h : Effects u t r st [0]) (checked : r.any u.badRead = false)
    (allowed : (st.any fun p => u.refusesWrite p.1) = false) (mode : t.stBit 0 = false) :
    t.st = u.st &&& 0x7FFF := by
  rw [← putBit_zero_false]
  refine BitVec.eq_of_getMsbD_eq fun i hi => ?_
  rw [getMsbD_putBit _ _ _ _ (by decide)]
  split
  · next zero => rw [zero]; exact mode
  · next other =>
    by_cases h2 : i = 2
    · rw [h2]; exact h.parity.trans (by simp [checked, State.stBit])
    · by_cases h5 : i = 5
      · rw [h5]; exact h.violation.trans (by simp [allowed, State.stBit])
      · exact h.status i hi h2 h5 (by simpa using other)

end

/-! ## Linkage of an interrupt (60_exceptions R340 to R350) -/

/-- A status block at blk can be stored, and read back with its third word: installed memory above the registers and the
DMAC's status area, not protected; no check fails and no other agent is at memory. -/
structure Storable (s : State) (blk : Word) : Prop where
  quiet : s.during = []
  clean : s.badWords = []
  above : 0xA8 ≤ blk.toNat
  installed : blk.toNat + 2 < s.config.memWords
  addressable : s.config.memWords ≤ 65536
  unprotected : s.config.protectLimit < blk.toNat

section
variable {s : State} {blk a : Word}

/-- Nothing but the parameters, the checks and the other agents matters. -/
theorem Storable.of_eq (h : Storable s blk) {t : State} (config : t.config = s.config) (during : t.during = s.during)
    (clean : t.badWords = []) : Storable t blk := by
  obtain ⟨quiet, -, above, installed, addressable, unprotected⟩ := h
  rw [← config] at installed addressable unprotected
  exact ⟨during.trans quiet, clean, above, installed, addressable, unprotected⟩

theorem Storable.toNat_add (h : Storable s blk) {k : Nat} (hk : k ≤ 2) :
    (blk + BitVec.ofNat 16 k).toNat = blk.toNat + k := by
  have installed := h.installed
  have addressable := h.addressable
  rw [BitVec.toNat_add, BitVec.toNat_ofNat]
  omega

theorem Storable.memory (h : Storable s blk) (from_blk : blk.toNat ≤ a.toNat) : isRegister a = false := by
  have above := h.above
  simp only [isRegister, decide_eq_false_iff_not]
  omega

theorem Storable.readable (h : Storable s blk) (to_third : a.toNat ≤ blk.toNat + 2) : s.readable a = true :=
  s.readable_of_lt (to_third.trans_lt h.installed)

theorem Storable.allowed (h : Storable s blk) (from_blk : blk.toNat ≤ a.toNat) : s.refusesWrite a = false := by
  rw [Bool.eq_false_iff, Ne, State.refusesWrite_iff]
  rintro ⟨⟨limit, -⟩, -⟩
  exact absurd (limit.trans_lt h.unprotected) from_blk.not_gt

/-- Its words read as they stand in memory. -/
theorem Storable.peek (h : Storable s blk) (from_blk : blk.toNat ≤ a.toNat) : s.peek a = s.mem.word a :=
  State.peek_of_clean h.clean (h.memory from_blk)

end

/-- SXBS in an interrupt location has linked the state u to the handler: t, before the masks are set. -/
structure Linked (u : State) (blk : Word) (t : State) : Prop where
  storable : Storable t blk
  counter : t.mem.word blk = u.ctr
  status : t.mem.word (blk + 1#16) = u.st
  pc : t.pc = u.mem.word (blk + 2#16)
  ec : t.ec = u.ec
  st : t.st = u.st &&& 0x7FFF
  regs : t.regs = u.regs

/-- A direct address is the effective address. -/
theorem State.ea_direct (s : State) (n : Word) (p : Bool) : s.ea ⟨false, none, n⟩ p = n := by
  simp [State.ea, State.indexValue]

/-- In a location the counter is not incremented (60_exceptions R343). -/
theorem State.next_of_inLocation {s : State} (location : s.inLocation = true) : s.next = s.ctr := by
  rw [State.next, if_pos location]

/-- The block that SXBS stores in an interrupt location: the counter as it is, and ST (60_exceptions R343). -/
theorem Storable.blockStores {u : State} {blk : Word} (h : Storable u blk) :
    u.blockStores ⟨false, none, blk⟩ u.ctr = [(blk, u.ctr), (blk + 1#16, u.st)] := by
  rw [State.blockStores, State.ea_direct, h.allowed le_rfl]
  rfl

/-- What SXBS does in an interrupt location. -/
theorem exec_sxbs_linked {u : State} {blk : Word} (h : Storable u blk) (location : u.inLocation = true)
    (plain : u.config.sxStoresTargetCounter = false) :
    ∃ t, exec (.sxbs ⟨false, none, blk⟩ false) u = .next t ∧ Linked u blk t := by
  have one := h.toNat_add (k := 1) (by decide)
  have two := h.toNat_add (k := 2) (by decide)
  obtain ⟨-, sxbs⟩ := storeStatusAndTransfer u ⟨false, none, blk⟩ false h.quiet rfl _ (List.mem_cons_self ..)
  simp only [State.ea_direct, plain, Bool.false_eq_true, false_and, if_false, sub_zero, add_zero,
    State.next_of_inLocation location, h.blockStores] at sxbs
  obtain ⟨t, run, effects, pc, ec, mode⟩ := sxbs (h.readable two.le)
  have place : ∀ p ∈ [(blk, u.ctr), (blk + 1#16, u.st)], blk.toNat ≤ p.1.toNat ∧ p.1.toNat ≤ blk.toNat + 2 := by
    simp [one]
  have memory p hp := h.memory (place p hp).1
  have allowed p hp := h.allowed (place p hp).1
  have clean : t.badWords = [] := (exec_accesses _ u t run).clean h.clean
  have stored : ∀ p ∈ [(blk, u.ctr), (blk + 1#16, u.st)], t.mem.word p.1 = p.2 := fun p hp => by
    rw [← State.peek_of_clean clean (memory p hp), effects.stored p hp]
    exact if_pos ⟨h.readable (place p hp).2, allowed p hp⟩
  refine ⟨t, run, ?_, stored (blk, u.ctr) (by simp), stored (blk + 1#16, u.st) (by simp), ?_, ?_,
    effects.st_supervisor ?_ ?_ mode, effects.regs_eq memory⟩
  · exact h.of_eq effects.config_eq effects.during_eq clean
  · rw [← h.peek (by omega)]
    exact pc
  · refine ec.trans ?_
    cases worker : u.worker
    · rfl
    · change u.ctr = u.ec
      rw [State.ctr, worker]
      rfl
  · exact List.any_eq_false.2 fun _ _ => Bool.eq_false_iff.1 (State.badRead_of_clean h.clean)
  · exact List.any_eq_false.2 fun p hp => Bool.eq_false_iff.1 (allowed p hp)

/-- LDS on the block brings back the status and the counter of the mode interrupted (60_exceptions R350). -/
theorem Linked.returns {u t : State} {blk : Word} (h : Linked u blk t) (c : InterruptClass) :
    ∃ r, exec (.lds ⟨false, none, blk⟩ false) (t.enterHandler c) = .next r ∧ r.st = u.st ∧ r.ctr = u.ctr := by
  have storable : Storable (t.enterHandler c) blk := { h.storable with }
  have one := storable.toNat_add (k := 1) (by decide)
  have supervisor : (t.enterHandler c).worker = false := by
    have unmasked : ((u.st &&& 0x7FFF) ||| interruptMasks c).getMsbD 0 = false := by
      rw [BitVec.getMsbD_or, BitVec.getMsbD_and]
      cases c <;> simp [interruptMasks]
    rw [← h.st] at unmasked
    exact unmasked
  have readable : (t.enterHandler c).eo2Ok ⟨false, none, blk⟩ = true := by
    simp only [State.eo2Ok, State.readable2, State.ea_direct, storable.readable (a := blk) (by omega),
      storable.readable (a := blk + 1#16) (by omega)]
    rfl
  obtain ⟨r, run, ⟨pc, ec⟩, loaded, -⟩ := loadStatus (t.enterHandler c) ⟨false, none, blk⟩ false storable.quiet readable
  rw [State.eo_quiet _ _ _ storable.quiet, State.ea_direct, storable.peek le_rfl, supervisor] at pc
  rw [supervisor] at ec
  rw [State.ea_direct, storable.peek (by omega)] at loaded
  have status : r.st = u.st := loaded.trans h.status
  refine ⟨r, run, status, ?_⟩
  have mode : r.worker = u.worker := congrArg (BitVec.getMsbD · 0) status
  rw [State.ctr, mode]
  cases worker : u.worker
  · exact pc.trans ((add_zero _).trans h.counter)
  · refine ec.trans ?_
    rw [State.ctr, worker]
    exact h.ec

/-! ### From the location to the handler -/

/-- Executing SXBS with a direct address. -/
theorem executeAt_sxbs {s : State} {l blk : Word} (quiet : s.during = []) (clean : s.badWords = [])
    (readable : s.readable2 l = true) (first : s.peek l = 0x7880) (second : s.peek (l + 1#16) = blk) :
    executeAt exec s l = exec (.sxbs ⟨false, none, blk⟩ false) (s.withWords 0x7880 blk) := by
  have decoded : decodeWith s.config.layout 0x7880 blk = .instr (.sxbs ⟨false, none, blk⟩ false) := rfl
  rw [executeAt_of_readable s exec l readable, s.readWord_quiet l quiet, s.secondWord_quiet l quiet, first, second,
    decoded, s.fetched_quiet l quiet, State.noteRead2, State.noteRead_of_clean clean, State.noteRead_of_clean clean,
    first, second]
  rfl

/-- The words of the interrupt locations are memory words below the block. -/
theorem Storable.location {s : State} {blk w : Word} (h : Storable s blk) (lower : 0x90 ≤ w.toNat)
    (upper : w.toNat ≤ 0x95) : s.readable w = true ∧ s.peek w = s.mem.word w := by
  have memory : isRegister w = false := by
    simp only [isRegister, decide_eq_false_iff_not]
    omega
  have above := h.above
  have installed := h.installed
  exact ⟨s.readable_of_lt (by omega), State.peek_of_clean h.clean memory⟩

theorem interruptLocation_bounds (c : InterruptClass) :
    0x90 ≤ (interruptLocation c).toNat ∧ (interruptLocation c).toNat ≤ 0x94 := by
  cases c <;> decide

/-- Executing the location of a class in which SXBS stands. -/
theorem executeAt_location_linked {u : State} {blk : Word} (c : InterruptClass) (h : Storable u blk)
    (location : u.inLocation = true) (plain : u.config.sxStoresTargetCounter = false)
    (first : u.mem.word (interruptLocation c) = 0x7880) (second : u.mem.word (interruptLocation c + 1#16) = blk) :
    ∃ t, executeAt exec u (interruptLocation c) = .next t ∧ Linked u blk t := by
  obtain ⟨lower, upper⟩ := interruptLocation_bounds c
  have next : (interruptLocation c + 1#16).toNat = (interruptLocation c).toNat + 1 := by
    rw [BitVec.toNat_add, BitVec.toNat_ofNat]
    omega
  obtain ⟨readable0, word0⟩ := h.location lower (by omega)
  obtain ⟨readable1, word1⟩ := h.location (w := interruptLocation c + 1#16) (by omega) (by omega)
  have readable : u.readable2 (interruptLocation c) = true := by rw [State.readable2, readable0, readable1]; rfl
  have fetched : Storable (u.withWords 0x7880 blk) blk := { h with }
  obtain ⟨t, run, linked⟩ := exec_sxbs_linked fetched location plain
  refine ⟨t, ?_, { linked with }⟩
  rw [executeAt_sxbs h.quiet h.clean readable (word0.trans first) (word1.trans second), run]

/-- The state an internal or CRU interrupt is entered in: no word is stored. -/
theorem State.acknowledge_of_ne_dmac (s : State) {c : InterruptClass} (h : c ≠ .dmac) :
    ∃ request, s.acknowledge c = { s with pendInternal := request, inLocation := true } := by
  cases c with
  | internal => exact ⟨_, rfl⟩
  | cru => exact ⟨_, rfl⟩
  | dmac => exact absurd rfl h

/-- Settles O56: SXBS links the interrupted state to the handler, the masks are set, and LDS returns. -/
theorem interruptLinkage : Obligations.InterruptLinkage := by
  intro s c blk quiet l masks taken notDmac _ clean above installed unprotected addressable plain first second
  have atLocation : l = interruptLocation c := by cases c <;> rfl
  have setMasks : masks = interruptMasks c := by cases c <;> rfl
  rw [atLocation] at first second
  obtain ⟨request, acknowledged⟩ := s.acknowledge_of_ne_dmac notDmac
  obtain ⟨t, run, linked⟩ := executeAt_location_linked (u := { s with pendInternal := request, inLocation := true }) c
    ⟨quiet, clean, above, installed, addressable, unprotected⟩ rfl plain first second
  refine ⟨t.enterHandler c, ?_, linked.counter, linked.status, linked.pc, linked.ec, ?_, linked.regs,
    linked.returns c⟩
  · rw [cpuStep, taken]
    simp only [takeInterrupt, acknowledged, run]
  · rw [setMasks]
    exact congrArg (· ||| interruptMasks c) linked.st

end Sys2Proof.Machine

namespace Sys2Proof.Machine

/-! ## Formats I-D and I-E (43_format_ID_IE_IF) -/

/-- Two registers of one mode are the same entry of the file only when they have the same number. -/
theorem fileIndex_inj (b : Bool) (q r : RegNum) : fileIndex b q = fileIndex b r ↔ q = r := by
  revert b q r; decide

/-- A register of the active mode after another one, or itself, is written. -/
theorem State.x_setX (s : State) (r q : RegNum) (v : Word) : (s.setX r v).x q = if q = r then v else s.x q := by
  rw [State.x, State.worker_setX, State.modeReg, State.setX, State.file_setFile]
  simp only [fileIndex_inj]
  rfl

/-- A write of a register of the active mode is a write of the r operand without `#` (30_encoding R114). -/
theorem State.setX_eq_setRef (s : State) (r : RegNum) (v : Word) : s.setX r v = s.setRef ⟨false, r⟩ v := by
  rw [State.setX, State.setRef, State.refIndex, Bool.false_bne]

/-- An instruction that loads a register, sets CB from it and branches. -/
theorem completes_setRef_setCtr {s u t : State} {r : List Word} (g : RegRef) (v a : Word) (h : Effects u t r [] [])
    (b : Base s u t) :
    Completes u (.next (((t.setRef g v).setCB v).setCtr a)) r [(s.refAddress g, v)] [10, 11, 12] a
      fun t' => ComparesAs t' v.toInt 0 := by
  refine ⟨_, rfl, ?_, b.goesTo_setCtr (by simp) (by simp) a,
    (comparesAs_setComparison _ v.toInt 0).of_bits fun _ _ => State.stBit_setCtr ..⟩
  rw [← b.refAddress]
  exact ((h.setFile (t.refIndex g) v (by simp)).setComparison (compareSigned v 0)).setCtr a

/-- The addend of ARB is a signed number (43_format R240). -/
theorem add_signExtend_eq_ofInt (x : Word) (d : BitVec 4) :
    x + d.signExtend 16 = BitVec.ofInt 16 (x.toInt + d.toInt) := by
  rw [BitVec.ofInt_add, BitVec.ofInt_toInt, BitVec.signExtend]

/-- Settles O41: by the sign of the sum. The sum is in the register before register 5 is read (92_eei_decisions D28). -/
theorem addAndBranch : Obligations.AddAndBranch := by
  intro s d n xr rq new base
  have sum : s.x xr + d.signExtend 16 = new := add_signExtend_eq_ofInt ..
  have bias : ((s.setX xr new).setCB new).bias ((s.setX xr new).setCB new).worker rq = if rq then base else 0 := by
    have register : (s.setX xr new).x 5 = base := by
      rw [State.x_setX]
      exact if_congr eq_comm rfl rfl
    rw [State.bias, State.worker_setCB, State.modeReg_setCB, ← State.x, register]
  dsimp only [exec]
  simp only [execArb, sum, bias]
  rw [State.setX_eq_setRef]
  split
  · exact completes_setRef_setCtr _ _ _ (.refl s) (.refl s)
  · exact completes_loadRef _ _ (.refl s) (.refl s)

/-- Settles O42: once the command is sent, ADAC only goes on. -/
theorem activateChannel : Obligations.ActivateChannel := by
  intro s aq n parts
  exact completes_advance (.refl _) { Base.refl s with }

end Sys2Proof.Machine

namespace Sys2Proof.Machine

/-! ## Group II (44_format_II) -/

/-- A comparison with one word is a comparison with two equal limits (44_format_II R250). -/
theorem compareSigned_eq_compareLimits (a b : Word) : compareSigned a b = compareLimits a b b := by
  unfold compareSigned compareInt compareLimits
  rcases lt_trichotomy a.toInt b.toInt with less | equal | greater
  · rw [if_neg less.asymm, if_neg less.ne, if_pos less]
  · simp [equal]
  · rw [if_pos greater, if_neg greater.asymm, if_pos greater]

/-- The end of CM, CML and CMI: no, one or two instructions are skipped, the lower limit tested first (44_format_II
R252; 92_eei_decisions D29). -/
theorem completes_skipOn {s u t : State} {r : List Word} (a lo hi : Word) (h : Effects u t r [] [])
    (b : Base s u t) :
    Completes u (.next (t.skipOn (compareLimits a lo hi))) r [] []
      (if a.toInt < lo.toInt then s.next else if hi.toInt < a.toInt then s.next + 2#16 else s.next + 4#16)
      fun _ => True := by
  rw [← b.next, compareLimits]
  split
  · exact completes_setCtr t.next h b
  · split
    · exact completes_setCtr (t.next + 2#16) h b
    · exact completes_setCtr (t.next + 4#16) h b

/-- Settles O43: the words are read one after another, then compared. -/
theorem compareAndSkip : Obligations.CompareAndSkip := by
  intro s p q imm quiet readable a done
  have first : Effects s (s.noteRead (s.baseAddress p)) [s.baseAddress p] [] [] := (Effects.refl s).read _ (by simp)
  have base := (Base.refl s).noteRead (s.baseAddress p)
  have readFirst k := withRead_quiet s (s.baseAddress p) k quiet readable
  refine ⟨?_, fun other => ?_, fun limits => ?_⟩ <;> dsimp only [done, exec]
  · have immediate : (imm.signExtend 16).toInt = imm.toInt := BitVec.toInt_signExtend_of_le (by decide)
    rw [execCmi, readFirst, compareSigned_eq_compareLimits, ← immediate]
    exact completes_skipOn _ _ _ first base
  · rw [execCm, readFirst, first.withRead quiet (by simp) other, compareSigned_eq_compareLimits]
    exact completes_skipOn _ _ _ (first.read _ (by simp)) (base.noteRead _)
  · obtain ⟨lower, upper⟩ := Bool.and_eq_true_iff.1 limits
    have second := first.read (s.baseAddress q) (by simp)
    rw [execCml, readFirst, first.withRead quiet (by simp) lower, second.withRead quiet (by simp) upper]
    exact completes_skipOn _ _ _ (second.read _ (by simp)) ((base.noteRead _).noteRead _)

/-- Settles O44: both addresses are those of the state before the read. -/
theorem moveWord : Obligations.MoveWord := by
  intro s p q quiet readable
  dsimp only [exec]
  rw [execMov, withRead_quiet s _ _ quiet readable]
  exact completes_storeWord _ _ ((Effects.refl s).read _ (by simp)) ((Base.refl s).noteRead _) quiet

/-- The end of AMI: the sum is stored, and OI, CO and CB describe it (44_format_II R255). -/
theorem completes_store_setAddFlags {s u t : State} {r : List Word} (a x y : Word) (h : Effects u t r [] [])
    (b : Base s u t) (quiet : u.during = []) :
    Completes u (.next ((t.store a (x + y)).setAddFlags x y).advance) r [(a, x + y)] [1, 10, 11, 12, 13] s.next
      fun t' => t'.stBit 1 = decide (x.toInt + y.toInt < -32768 ∨ 32767 < x.toInt + y.toInt)
        ∧ t'.stBit 13 = decide (65536 ≤ x.toNat + y.toNat) ∧ ComparesAs t' (x + y).toInt 0 := by
  refine ⟨_, rfl, ?_, b.goesTo_advance (by simp) (by simp) (by simp), ?_, ?_, comparesAs_setCB_advance _ _⟩
  · have stored := h.store quiet a (x + y) (by simp)
    exact (((stored.setOI _).setCO _).setComparison (compareSigned (x + y) 0)).advance.congr (by simp) rfl (by simp)
  · simp [State.setAddFlags, overflows16]
  · simp [State.setAddFlags, carryOut]

/-- Settles O45: the immediate, extended to a word, keeps its value. -/
theorem addImmediateToMemory : Obligations.AddImmediateToMemory := by
  intro s p imm quiet readable a b
  have immediate : b.toInt = imm.toInt := BitVec.toInt_signExtend_of_le (by decide)
  dsimp only [exec]
  rw [execAmi, withRead_quiet s _ _ quiet readable, ← immediate]
  exact completes_store_setAddFlags _ a b ((Effects.refl s).read _ (by simp)) ((Base.refl s).noteRead _) quiet

/-- Settles O46: link and target are both at hand before the register is written. -/
theorem branchRelativeAndLink : Obligations.BranchRelativeAndLink := by
  intro s r q link
  dsimp only [exec]
  rw [execBrrl, BitVec.ofNat_toNat, State.setX_eq_setRef]
  exact ⟨_, rfl, ((Effects.refl s).setFile _ _ (by simp)).setCtr _, (Base.refl s).goesTo_setCtr (by simp) (by simp) _,
    trivial⟩

end Sys2Proof.Machine

namespace Sys2Proof.Machine

/-! ## Format III (45_format_III) -/

/-! ### The ends of the tests -/

/-- A test that goes on or forces a mode change, which leaves both counters (45_format_III R260). -/
theorem completes_advance_or_toggleMode {s u t : State} {r : List Word} (c : Prop) [Decidable c]
    (h : Effects u t r [] []) (b : Base s u t) :
    Completes u (.next (if c then t.advance else t.toggleMode)) r [] [0] (if c then s.next else s.ctr)
      fun t' => t'.stBit 0 = if c then s.stBit 0 else !s.stBit 0 := by
  have mode : t.stBit 0 = s.stBit 0 := b.worker
  split
  · exact ⟨_, rfl, h.advance.congr (by simp) rfl (by simp), b.goesTo_advance rfl (fun _ => rfl) rfl,
      (State.stBit_advance ..).trans mode⟩
  · refine ⟨_, rfl, h.setWorker _, ⟨?_, ?_⟩, ?_⟩
    · rw [State.counter_toggleMode, b.baseWorker, b.counter, State.ctr]
    · rw [State.counter_toggleMode, b.counter, b.baseCounter]
    · simp [State.toggleMode, State.worker, mode]

/-- A test that goes on or branches to n plus register 5 of the executing mode (30_encoding R126). -/
theorem completes_advance_or_branchBase5 {s u t : State} {r : List Word} (c : Prop) [Decidable c] (n : BitVec 10)
    (h : Effects u t r [] []) (b : Base s u t) :
    Completes u (.next (if c then t.advance else t.branchBase5 n)) r [] []
      (if c then s.next else BitVec.ofNat 16 n.toNat + s.x 5) fun _ => True := by
  split
  · exact completes_advance h b
  · have register : t.x 5 = s.x 5 := by rw [State.x, b.worker, b.modeReg, State.x]
    rw [State.branchBase5, register, BitVec.ofNat_toNat]
    exact completes_setCtr _ h b

/-! ### Output lines -/

/-- The state with other output latches and output events. -/
def State.withOutput (s : State) (lines : LineSet) (events : List Output) : State :=
  { s with cruOut := lines, outbox := events }

theorem State.noteRead_withOutput (s : State) (lines : LineSet) (events : List Output) (a : Word) :
    (s.withOutput lines events).noteRead a = (s.noteRead a).withOutput lines events := by
  have sameCheck : (s.withOutput lines events).badRead a = s.badRead a := rfl
  unfold State.noteRead
  rw [sameCheck]
  cases s.badRead a <;> rfl

theorem Base.withOutput (s : State) (lines : LineSet) (events : List Output) :
    Base s (s.withOutput lines events) (s.withOutput lines events) := { Base.refl s with }

/-- The end of the instructions that output lines. -/
theorem goesOn_withOutput {s t : State} {lines : LineSet} {events : List Output} {r : List Word}
    (h : Effects (s.withOutput lines events) t r [] []) (b : Base s (s.withOutput lines events) t) :
    GoesTo s t.advance s.next
      ∧ Effects { s with cruOut := t.advance.cruOut, outbox := events } t.advance r [] [] := by
  have latches : t.advance.cruOut = lines := by rw [h.advance.rest]; rfl
  rw [latches]
  exact ⟨b.goesTo_advance rfl (fun _ => rfl) rfl, h.advance⟩

/-- One line is output and the next instruction follows (45_format_III R268, R271). -/
theorem outputLine_goesOn (s : State) (a : Line) (v : Bool) :
    ∃ t, (.next (s.outputLine a v).advance : Result) = .next t ∧ GoesTo s t s.next
      ∧ Effects { s with cruOut := t.cruOut, outbox := s.outbox ++ [Output.cru a v] } t [] [] []
      ∧ ∀ l, t.cruOut.level l = if l = a then v else s.cruOut.level l := by
  obtain ⟨goes, effects⟩ := goesOn_withOutput (.refl _) (.withOutput s (s.cruOut.set a v) (s.outbox ++ [.cru a v]))
  refine ⟨_, rfl, goes, effects, fun l => ?_⟩
  rw [State.advance_cruOut]
  exact s.cruOut_outputLine a l v

/-- The output events of a field (45_format_III R272). -/
def fieldEvents (a : Line) (width : Nat) (d : Word) : List Output :=
  (List.range width).map fun i => .cru (fieldLine a i) (d.getMsbD (15 - i))

/-- The output of a field changes latches and events only, so it may be put before the read. -/
theorem State.outputField_noteRead (s : State) (da : Word) (a : Line) (width : Nat) (d : Word) :
    (s.noteRead da).outputField a width d =
      (s.withOutput ((s.noteRead da).outputField a width d).cruOut
        (s.outbox ++ fieldEvents a width d)).noteRead da := by
  rw [State.noteRead_withOutput]
  refine (State.outputField_eq ..).trans ?_
  rw [State.noteRead_outbox]
  rfl

/-- A word is read, a field of lines output, and the next instruction follows (45_format_III R272). -/
theorem outputField_goesOn (s : State) (da : Word) (a : Line) (d : Word) {width : Nat} (most : width ≤ 16) :
    ∃ t, (.next ((s.noteRead da).outputField a width d).advance : Result) = .next t ∧ GoesTo s t s.next
      ∧ Effects { s with cruOut := t.cruOut, outbox := s.outbox ++ fieldEvents a width d } t [da] [] []
      ∧ (∀ i, i < width → t.cruOut.level (fieldLine a i) = d.getMsbD (15 - i))
      ∧ ∀ l, (∀ i, i < width → l ≠ fieldLine a i) → t.cruOut.level l = s.cruOut.level l := by
  obtain ⟨goes, effects⟩ := goesOn_withOutput ((Effects.refl _).read da (by simp))
    ((Base.withOutput s ((s.noteRead da).outputField a width d).cruOut (s.outbox ++ fieldEvents a width d)).noteRead da)
  rw [← State.outputField_noteRead] at goes effects
  obtain ⟨set, kept⟩ := (s.noteRead da).level_outputField a width d most
  rw [State.noteRead_cruOut] at kept
  refine ⟨_, rfl, goes, effects, ?_⟩
  rw [State.advance_cruOut]
  exact ⟨set, kept⟩

/-- The addresses of group III are found from the registers and the mode (45_format_III R260). -/
theorem Base.lineAddress {s u t : State} (h : Base s u t) (alt : Bool) (d : BitVec 10) :
    t.lineAddress alt d = s.lineAddress alt d := by
  simp [State.lineAddress, State.groupBase, h.worker, h.modeReg]

/-! ### The obligations -/

/-- Settles O47: by the parameter `SETF_WRITES_CB`; with it SETF ends like a storing instruction. -/
theorem setFlag : Obligations.SetFlag := by
  intro s alt m bit v quiet readable
  let fa := s.flagAddress alt m
  let w := putBit (s.peek fa) bit.toNat v
  have effects : Effects s (s.noteRead fa) [fa] [] [] := (Effects.refl s).read fa (by simp)
  have base := (Base.refl s).noteRead fa
  refine ⟨w, fun j _ => getMsbD_putBit _ _ _ _ bit.isLt, ?_⟩
  have run : exec (.setf alt m bit v) s = .next
      (if s.config.setfWritesCB then ((s.noteRead fa).store fa w).setCB w else (s.noteRead fa).store fa w).advance := by
    dsimp only [exec]
    rw [execSetf, withRead_quiet s fa _ quiet readable]
    dsimp only
    rw [State.store_config, State.noteRead_config]
  rw [run]
  cases s.config.setfWritesCB
  · exact ⟨_, rfl, (effects.store quiet fa w (by simp)).advance, base.goesTo_advance (by simp) (by simp) (by simp),
      nofun⟩
  · obtain ⟨t, e, stored, goes, compares⟩ := completes_storeWord fa w effects base quiet
    exact ⟨t, e, stored, goes, fun _ => compares⟩

/-- Settles O48: the flag word is read, then its bit tested. -/
theorem testFlag : Obligations.TestFlag := by
  intro s alt m bit v n quiet readable equal
  let fa := s.flagAddress alt m
  have effects : Effects s (s.noteRead fa) [fa] [] [] := (Effects.refl s).read fa (by simp)
  have base := (Base.refl s).noteRead fa
  refine ⟨?_, ?_⟩ <;> dsimp only [exec]
  · rw [execXfne, withRead_quiet s _ _ quiet readable]
    exact completes_advance_or_toggleMode equal effects base
  · rw [execBfne, withRead_quiet s _ _ quiet readable]
    exact completes_advance_or_branchBase5 equal n effects base

/-- Settles O49: TSBX outputs its line like SETB when the input is as tested, and else is a test of am
(92_eei_decisions D18). -/
theorem testInputLine : Obligations.TestInputLine := by
  intro s alt m v n ob equal out
  refine ⟨?_, ?_, fun same => ?_, fun different => ?_⟩ <;> dsimp only [exec]
  · exact completes_advance_or_toggleMode equal (.refl s) (.refl s)
  · exact completes_advance_or_branchBase5 equal n (.refl s) (.refl s)
  · rw [execTsbx, if_pos same]
    exact outputLine_goesOn s out ob
  · rw [execTsbx, if_neg different]
    exact completes_advance_or_toggleMode (alt = true) (.refl s) (.refl s)

/-- Settles O50: SETB is one line of output, LDCR a read and a field. -/
theorem setOutputLines : Obligations.SetOutputLines := by
  intro s alt m v n width
  refine ⟨outputLine_goesOn s _ v, ?_⟩
  intro quiet _ most readable line bit
  have run : exec (.ldcr alt m width n) s = .next ((s.noteRead (s.dataAddress alt n)).outputField
      (s.lineAddress alt m) width (s.peek (s.dataAddress alt n))).advance := by
    dsimp only [exec]
    rw [execLdcr, withRead_quiet s _ _ quiet readable, ((Base.refl s).noteRead _).lineAddress]
  rw [run]
  exact outputField_goesOn s (s.dataAddress alt n) (s.lineAddress alt m) (s.peek (s.dataAddress alt n)) most

/-- Settles O51: bit 15 - i of an input field is line i, or the highest line of the field. -/
theorem storeInputLines : Obligations.StoreInputLines := by
  intro s alt m width n quiet least most
  let a := s.lineAddress alt m
  have line i (hi : i < 16) : (s.inputField a width).getMsbD (15 - i) = s.inputLine (fieldLine a (min i (width - 1))) :=
    s.getMsbD_inputField a width i hi
  refine ⟨s.inputField a width, fun i hi => ?_, fun j hj => ?_, ?_⟩
  · rw [line i (by omega), Nat.min_eq_left (by omega)]
    rfl
  · have left := line (15 - j) (by omega)
    have highest := line (width - 1) (by omega)
    rw [Nat.min_eq_right (by omega), show 15 - (15 - j) = j by omega] at left
    rw [Nat.min_self, show 15 - (width - 1) = 16 - width by omega] at highest
    exact left.trans highest.symm
  · exact completes_storeWord _ _ (.refl s) (.refl s) quiet

end Sys2Proof.Machine

namespace Sys2Proof.Machine

/-! ## Exceptions (60_exceptions) -/

/-! ### A cause, and a read that meets a memory error -/

/-- The CPU's turn at memory, when the DMAC writes nothing before it. -/
theorem State.grant_of_silent (s : State) (silent : s.cycle.dmac = []) :
    s.grant = { s with during := s.during.tail } := by
  rw [State.grant, silent, State.dmacPuts]

/-- A read that meets a memory error delivers the memory agent's word and goes on (60_exceptions R336). -/
theorem withRead_of_cycleError (s : State) {a v : Word} (k : Word → State → Result) (readable : s.readable a = true)
    (error : s.cycleError a = some v) : withRead s a k = k v s.grant.memoryError := by
  rw [withRead_of_readable s a k readable, State.readWord, State.afterRead, error]
  rfl

/-- Settles O52: `raise` is one bit and the latch; a failing read, its error noted, hands the word on. -/
theorem raiseCause : Obligations.RaiseCause := by
  constructor
  · intro s c
    refine ⟨s.pendInternal_raise c, fun j _ => ?_, rfl⟩
    rw [State.stBit_raise, Bool.if_true_left]
    cases c <;> rfl
  · intro s a v rest k memory readable during
    have cycle : s.cycle = { dmac := [], error := some v } := by rw [State.cycle, during]; rfl
    have error : s.cycleError a = some v := by rw [State.cycleError, memory, cycle]; rfl
    rw [withRead_of_cycleError s k readable error, s.grant_of_silent (by rw [cycle]), during]
    rfl

/-! ### Instructions that do not store (R339) -/

/-- Memory is m, and the DMAC writes nothing at the accesses to come. -/
structure HoldsMemory (m : Memory) (s : State) : Prop where
  mem : s.mem = m
  silent : ∀ c ∈ s.during, c.dmac = []

namespace HoldsMemory
variable {m : Memory} {s t : State}

theorem of_storage (h : HoldsMemory m s) (e : t.storage = s.storage) : HoldsMemory m t := by
  have hs : HoldsMemory m s.storage := { h with }
  rw [← e] at hs
  exact { hs with }

theorem grant (h : HoldsMemory m s) : HoldsMemory m s.grant := by
  have silent : s.cycle.dmac = [] := by
    unfold State.cycle
    cases during : s.during with
    | nil => rfl
    | cons c rest => exact h.silent c (by simp [during])
  rw [s.grant_of_silent silent]
  exact ⟨h.mem, fun c hc => h.silent c (List.mem_of_mem_tail hc)⟩

/-- Turns at memory and output lines, without a store, keep it. -/
theorem accesses (h : HoldsMemory m s) (ht : Accesses false s t) : HoldsMemory m t := by
  induction ht with
  | refl => exact h
  | elsewhere _ e ih => exact ih.of_storage e
  | grant _ ih => exact ih.grant
  | write _ _ _ stores => cases stores
  | outputLine _ _ _ ih => exact { ih with }

end HoldsMemory

/-- Settles O16: an instruction that is not of the storing ones makes no store, and then memory is what it was. -/
theorem othersKeepMemory : Obligations.OthersKeepMemory := by
  intro i s t run storesNot silent n
  have accesses : Accesses false s t := storesNot ▸ exec_accesses i s t run
  have start : HoldsMemory s.mem s := ⟨rfl, silent⟩
  rw [(start.accesses accesses).mem]

/-! ### Taking an interrupt (R340 to R348) -/

/-- The bits of ST a class sets on entry: II, DI and CI; DI and CI; DI (R345 to R347). -/
def maskBits (c : InterruptClass) : List Nat :=
  match c with
  | .internal => [7, 8, 9]
  | .cru => [8, 9]
  | .dmac => [8]

theorem getMsbD_interruptMasks (c : InterruptClass) {j : Nat} (hj : j < 16) :
    (interruptMasks c).getMsbD j = decide (j ∈ maskBits c) := by
  cases c <;> (revert j; decide)

/-- Entering the handler sets the class's masks and no other bit. -/
theorem State.stBit_enterHandler (s : State) (c : InterruptClass) {j : Nat} (hj : j < 16) :
    (s.enterHandler c).stBit j = (decide (j ∈ maskBits c) || s.stBit j) := by
  rw [State.stBit, State.enterHandler, BitVec.getMsbD_or, getMsbD_interruptMasks c hj, Bool.or_comm]
  rfl

/-- Settles O55: the CPU's step is the acknowledgement, the location's instruction and the handler's entry. -/
theorem interruptEntry : Obligations.InterruptEntry := by
  intro s t c taken run l masks s1
  rw [cpuStep, taken] at run
  obtain ⟨u, executed, rfl⟩ := takeInterrupt_next s run
  have atLocation : l = interruptLocation c := by cases c <;> rfl
  have setMasks : masks = maskBits c := by cases c <;> rfl
  have acknowledged : { s1 with inLocation := true } = s.acknowledge c := by cases c <;> rfl
  refine ⟨u, ?_, fun j hj => ?_, rfl⟩
  · rw [acknowledged, atLocation]
    exact executed
  · rw [setMasks]
    exact u.stBit_enterHandler c hj

end Sys2Proof.Machine

namespace Sys2Proof.Machine

/-! ## The invariant at reset (R381) -/

/-- The default parameters are a 960B with 65,536 words, eight times 8192, and no split of the ADAC bits (R7). -/
theorem Config.default_wellFormed : ({} : Config).WellFormed := by decide

/-- Settles O7: nothing is stored and no line is at 1, so the parameters are all that is
left to check; and the machine is halted. -/
theorem resetInv : Obligations.ResetInv :=
  (inv_iff State.reset).2
    { memory := .empty
      linesIn := rfl
      linesOut := rfl
      configOk := Config.default_wellFormed
      poweredRun := fun _ => rfl
      inLocation := rfl }

end Sys2Proof.Machine
